-- ==== Sys2Proof/Word.lean ====
section
/-! DEFINITION. The two word types of the codec core: the byte the streams move (20_memory.md R48) and the
32-bit register of the dimensions and positions (10_state.md R11, R14). Everything else is a mathematical
integer, as 92_eei_decisions.md D14 says. -/

namespace Sys2Proof

/-- `u8` (00_scope.md R6): one byte of OUT or IN; bit 7 is its high-order bit. -/
abbrev Byte := BitVec 8

/-- `u32` (00_scope.md R6): WIDTH, HEIGHT, ROW, COL. -/
abbrev Word32 := BitVec 32

end Sys2Proof
end

