-- ==== Sys2Proof/Config.lean ====
section
/-! DEFINITION. The parameters the wire format fixes (00_scope.md R4). The K-sets, QMAX and the derived widths
are computed in Decode.lean and Machine/Operands.lean. MAX_SAMPLES, which the spec leaves OPEN, is a field of
State (log entry 12). -/

namespace Sys2Proof.Config

/-- `MAGIC`, the file signature "FLCS" (R4, R60). -/
def magic : List Byte := [0x46#8, 0x4C#8, 0x43#8, 0x53#8]

/-- The signature read as one 32-bit number, as PARSE_HEADER tests it (45_container.md R183). -/
def magicWord : Nat := 0x464C4353

/-- `PUSH_MAX`: the largest n of PUSH_BITS and PULL_BITS (R4). -/
def pushMax : Nat := 64

/-- `HALVE_AT`: a context row is halved when its minimum after an update reaches it (R4, 90_conflicts.md C1). -/
def halveAt : Nat := 1024

/-- The free values, for a result that the spec does not state (DESIGN CHOICE, log entries 9, 35): component `i` of the
draw numbered `draw`. Nothing constrains it; `State.drawn` counts the draws. -/
opaque freeValue (draw i : Nat) : Nat

end Sys2Proof.Config
end

