-- ==== Sys2Proof/Syntax.lean ====
section
/-! DEFINITION. The instructions: one constructor for each of the 30 rows of spec/opcode_table.json, and the
host's command word with its operand registers. -/

namespace Sys2Proof

/-- One constructor per row of the operation and wire-format table (30_encoding.md R73, R60 to R66). -/
inductive Instr where
  /-- COMPRESS, code 0x01 (45_container.md R184). -/
  | compress
  /-- DECOMPRESS, code 0x02 (R188). -/
  | decompress
  /-- READ_HEADER, code 0x03 (R191). -/
  | readHeader
  /-- PUSH_BIT b, code 0x10 (40_bitio.md R90). -/
  | pushBit (b : BitVec 1)
  /-- PUSH_BITS value, n, code 0x11 (R91). -/
  | pushBits (value : BitVec 64) (n : Nat)
  /-- FLUSH, code 0x12 (R92). -/
  | flush
  /-- PULL_BIT, code 0x18 (R93). -/
  | pullBit
  /-- PULL_BITS n, code 0x19 (R94). -/
  | pullBits (n : Nat)
  /-- RICE_ENC v, K, code 0x20 (41_codes.md R111). -/
  | riceEnc (v k : Nat)
  /-- RICE_DEC K, w, code 0x21 (R112). -/
  | riceDec (k w : Nat)
  /-- PHASED_ENC v, n, code 0x22 (R120). -/
  | phasedEnc (v n : Nat)
  /-- PHASED_DEC n, code 0x23 (R121). -/
  | phasedDec (n : Nat)
  /-- PREDICT, code 0x30 (42_predictor_selector.md R130). -/
  | predict
  /-- GET_K DELTA, code 0x31 (R138). -/
  | getK (delta : Nat)
  /-- UPDATE DELTA, v, code 0x32 (R139). -/
  | update (delta v : Nat)
  /-- YCOCG_FWD R, G, B, code 0x40 (43_color_transform.md R151). -/
  | ycocgFwd (r g b : Int)
  /-- YCOCG_INV Y, Co, Cg, code 0x41 (R152). -/
  | ycocgInv (y co cg : Int)
  /-- ENC_SAMPLE, code 0x50 (44_channel_coder.md R165). -/
  | encSample
  /-- DEC_SAMPLE, code 0x51 (R168). -/
  | decSample
  /-- WRITE_HEADER, code 0x60 (45_container.md R181). -/
  | writeHeader
  /-- PARSE_HEADER, code 0x61 (R183). -/
  | parseHeader
  /-- HEADER on the wire (30_encoding.md R60): its four fields. -/
  | header (color depth : BitVec 1) (width height : Word32)
  /-- RAW_SAMPLE on the wire (R63): the sample's value. -/
  | rawSample (v : Nat)
  /-- SYM_IN on the wire (R64): carries `v = P - L`. -/
  | symIn (v : Nat)
  /-- SYM_BELOW on the wire (R64): carries `v = L - P - 1`. -/
  | symBelow (v : Nat)
  /-- SYM_ABOVE on the wire (R64): carries `v = P - H - 1`. -/
  | symAbove (v : Nat)
  /-- RICE_CODEWORD on the wire (41_codes.md R110): quotient and remainder. -/
  | riceCodeword (q r : Nat)
  /-- PHASED_SHORT on the wire (R118): the m-bit value. -/
  | phasedShort (x : Nat)
  /-- PHASED_LONG on the wire (R118): the (m+1)-bit value. -/
  | phasedLong (y : Nat)
  /-- PADDING on the wire (40_bitio.md R92, 30_encoding.md R71). -/
  | padding
deriving DecidableEq, Repr

/-- The operand registers that travel with a command word, each under the name its operation's rule gives the
operand (R73: "operands travel in the registers and streams named in each operation's rule"; log entry 2). -/
structure OpRegs where
  b : BitVec 1 := 0
  value : BitVec 64 := 0
  n : Nat := 0
  v : Nat := 0
  k : Nat := 0
  w : Nat := 0
  delta : Nat := 0
  r : Int := 0
  g : Int := 0
  bl : Int := 0
  y : Int := 0
  co : Int := 0
  cg : Int := 0
deriving DecidableEq, Repr

/-- A command word as the host issues it: the 8-bit code (R73), the operand registers, and whether the host issues a
host command at once, dropping the command in progress (60_exceptions.md R216), or waits until STATUS is not BUSY
(70_reset_and_hazards.md R234; log entry 3). -/
structure Issue where
  code : BitVec 8
  regs : OpRegs := {}
  preempt : Bool := false
deriving DecidableEq, Repr

/-- What the host does to the engine (60_exceptions.md R216: it "may reset the block or issue a new command at any time"):
a reset (70_reset_and_hazards.md R230, R233; log entry 34), or a command word. -/
inductive HostEvent where
  | reset
  | word (c : Issue)
deriving DecidableEq, Repr

end Sys2Proof
end

