-- ==== Sys2Proof/WellFormed.lean ====
section
/-! DEFINITION. Well-formed instructions: the operand ranges that the rules of spec/ give, as far as they do not
depend on the machine's state. An ill-formed operand is not an encoding error: what the machine does with it
is its meaning's to say. -/

namespace Sys2Proof

/-- The widths a channel can have: `w(c)` is d or d + 1 with d = 8 or 16 (00_scope.md R4). -/
def isChannelWidth (w : Nat) : Bool := w == 8 || w == 9 || w == 16 || w == 17

/-- The largest sample width, of the chroma channels of a 16-bit image (R4). -/
def maxWidth : Nat := 17

/-- The largest member of a K-set (R4). -/
def maxK : Nat := 11

/-- The operand ranges of each operation and field. -/
def Instr.wf : Instr → Bool
  | .compress => true
  | .decompress => true
  | .readHeader => true
  | .pushBit _ => true
  | .pushBits _ n => decide (n ≤ Config.pushMax)
  | .flush => true
  | .pullBit => true
  | .pullBits n => decide (n ≤ Config.pushMax)
  | .riceEnc _ k => decide (k ≤ Config.pushMax)
  | .riceDec k w => decide (k ≤ Config.pushMax) && isChannelWidth w
  | .phasedEnc v n => decide (v < n)
  | .phasedDec n => decide (1 ≤ n)
  | .predict => true
  | .getK delta => decide (delta < 2 ^ maxWidth)
  | .update delta _ => decide (delta < 2 ^ maxWidth)
  | .ycocgFwd r g b => decide (0 ≤ r ∧ r < 2 ^ 16 ∧ 0 ≤ g ∧ g < 2 ^ 16 ∧ 0 ≤ b ∧ b < 2 ^ 16)
  | .ycocgInv _ _ _ => true
  | .encSample => true
  | .decSample => true
  | .writeHeader => true
  | .parseHeader => true
  | .header _ _ width height => decide (width ≠ 0 ∧ height ≠ 0)
  | .rawSample v => decide (v < 2 ^ maxWidth)
  | .symIn v => decide (v < 2 ^ maxWidth)
  | .symBelow v => decide (v + 1 < 2 ^ maxWidth)
  | .symAbove v => decide (v + 1 < 2 ^ maxWidth)
  | .riceCodeword q r => decide (q < 2 ^ maxWidth) && decide (r < 2 ^ maxK)
  | .phasedShort x => decide (x < 2 ^ maxWidth)
  | .phasedLong y => decide (y < 2 ^ maxWidth)
  | .padding => true

end Sys2Proof
end

