-- ==== Sys2Proof/Decode.lean ====
section
/-! DEFINITION. Bit order, the errors a reading can meet, the reading of every field of the compressed stream,
the decoding of command words, and the encoders of both. The readers are written once over any supply of bits
(`pull`): the machine reads from its bit source (Machine/Ops.lean), `decodeField` from a list of bits. -/

namespace Sys2Proof

/-! ## Bits and numbers (00_scope.md R6, 20_memory.md R41) -/

/-- The n low bits of a number, most significant first: `bits(x, n)` of R62. -/
def bitsMsb (value : Nat) : Nat → List Bool
  | 0 => []
  | n + 1 => value.testBit n :: bitsMsb value n

/-- The number whose bits, most significant first, are given. -/
def ofBits (bits : List Bool) : Nat := bits.foldl (fun v b => 2 * v + b.toNat) 0

/-- `low(v, n) = v mod 2^n` (R6). -/
def low (v n : Nat) : Nat := v % 2 ^ n

/-- The eight bits of a byte in stream order: bit 7 first (R41). -/
def byteBits (b : Byte) : List Bool := bitsMsb b.toNat 8

/-- The bits of a byte sequence in stream order (R41). -/
def streamBits (bytes : List Byte) : List Bool := bytes.flatMap byteBits

/-! ## The nine errors (60_exceptions.md R201) -/

/-- The errors that end an operation or a command, with the byte that two of them report. -/
inductive Err where
  | badSignature
  | unsupportedColorType (byte : Byte)
  | unsupportedDepth (byte : Byte)
  | zeroDimension
  | truncated
  | malformedCodeword
  | ioError
  | invalidInput
  | useAfterFlush
deriving DecidableEq, Repr

/-- `ERR_CODE` of an error (R201). -/
def Err.code : Err → BitVec 4
  | .badSignature => 1
  | .unsupportedColorType _ => 2
  | .unsupportedDepth _ => 3
  | .zeroDimension => 4
  | .truncated => 5
  | .malformedCodeword => 6
  | .ioError => 7
  | .invalidInput => 8
  | .useAfterFlush => 9

/-- `ERR_INFO` of an error: the offending byte of the two that have one, 0 otherwise (R201). -/
def Err.info : Err → BitVec 8
  | .unsupportedColorType byte => byte
  | .unsupportedDepth byte => byte
  | .badSignature => 0
  | .zeroDimension => 0
  | .truncated => 0
  | .malformedCodeword => 0
  | .ioError => 0
  | .invalidInput => 0
  | .useAfterFlush => 0

/-! ## Reading from a supply of bits -/

/-- What a reading gives: a value or an error, and in both cases the supply as the reading left it (R48: the bits
already moved stay moved). -/
inductive Read (σ α : Type) where
  | ok (a : α) (s : σ)
  | err (e : Err) (s : σ)
deriving Repr

/-- One reading after another; the first error met is the one reported (R213). -/
def Read.bind {σ α β : Type} (r : Read σ α) (f : α → σ → Read σ β) : Read σ β :=
  match r with
  | .ok a s => f a s
  | .err e s => .err e s

/-- n bits into an accumulator, `v <- (v << 1) | b` (40_bitio.md R94). -/
def readBits {σ : Type} (pull : σ → Read σ Bool) : Nat → Nat → σ → Read σ Nat
  | 0, acc, s => .ok acc s
  | n + 1, acc, s => (pull s).bind fun b s => readBits pull n (2 * acc + b.toNat) s

/-- `PULL_BITS n` over a supply of bits (R94): n > 64 is InvalidInput with nothing read (D18). -/
def readField {σ : Type} (pull : σ → Read σ Bool) (n : Nat) (s : σ) : Read σ Nat :=
  if Config.pushMax < n then .err .invalidInput s else readBits pull n 0 s

/-- `QMAX(w, K) = (2^w - 1) >> K` (41_codes.md R113). -/
def qmax (w k : Nat) : Nat := (2 ^ w - 1) / 2 ^ k

/-- Counts zeros up to a `1`; `left` more zeros are allowed before the count exceeds QMAX (R112, R113). -/
def countZeros {σ : Type} (pull : σ → Read σ Bool) : Nat → Nat → σ → Read σ Nat
  | 0, q, s => (pull s).bind fun b s => if b then .ok q s else .err .malformedCodeword s
  | left + 1, q, s => (pull s).bind fun b s => if b then .ok q s else countZeros pull left (q + 1) s

/-- A Rice codeword as quotient and remainder (R112, 30_encoding.md R65). -/
def readRicePair {σ : Type} (pull : σ → Read σ Bool) (k w : Nat) (s : σ) : Read σ (Nat × Nat) :=
  (countZeros pull (qmax w k) 0 s).bind fun q s =>
    if k = 0 then .ok (q, 0) s else (readField pull k s).bind fun r s => .ok (q, r) s

/-- The value of a Rice codeword: `(q << K) | r`, which is `q * 2^K + r` since `r < 2^K` (R112). -/
def riceValue (k q r : Nat) : Nat := q * 2 ^ k + r

/-- `RICE_DEC K, w` over a supply of bits (R112). -/
def readRice {σ : Type} (pull : σ → Read σ Bool) (k w : Nat) (s : σ) : Read σ Nat :=
  (readRicePair pull k w s).bind fun qr s => .ok (riceValue k qr.1 qr.2) s

/-! ## The phased-in code (41_codes.md R115 to R121) -/

/-- `m = ilog2(n)` (R116). -/
def phasedM (n : Nat) : Nat := Nat.log2 n

/-- `|B| = 2^(m+1) - n`, the number of short codewords (R116). -/
def shortCount (n : Nat) : Nat := 2 ^ (phasedM n + 1) - n

/-- `|A| = n - |B|`, the number of long codewords (R116). -/
def longCount (n : Nat) : Nat := n - shortCount n

/-- A phased-in codeword: m bits or m + 1 bits (R118). -/
inductive Codeword where
  | short (x : Nat)
  | long (y : Nat)
deriving DecidableEq, Repr

/-- The codeword of `v` over alphabet size n (R117, R118). -/
def phasedCodeword (n v : Nat) : Codeword :=
  let v' := (v + longCount n / 2) % n
  if v' < longCount n then .long (v' + 2 * shortCount n) else .short (v' - longCount n)

/-- The bits of a codeword (R118); none for n = 1, where m = 0 (R66). -/
def codewordBits (n : Nat) : Codeword → List Bool
  | .short x => bitsMsb x (phasedM n)
  | .long y => bitsMsb y (phasedM n + 1)

/-- The inverse rotation `v = (v' + n - |A|/2) mod n` (R117). -/
def unrotate (n v' : Nat) : Nat := (v' + n - longCount n / 2) % n

/-- The index a codeword stands for (R119), none for a word that no index of `[0, n - 1]` has: a short word at
`|B|` or above gives `v' >= n`, a long word below `2|B|` gives `v' < 0` (R121). -/
def codewordIndex (n : Nat) : Codeword → Option Nat
  | .short x => if x < shortCount n then some (unrotate n (x + longCount n)) else none
  | .long y =>
    if 2 * shortCount n ≤ y ∧ y < 2 ^ (phasedM n + 1) then some (unrotate n (y - 2 * shortCount n)) else none

/-- A codeword over alphabet size n: m bits, and one more exactly when their value is `>= |B|` (R119, R68). -/
def readCodeword {σ : Type} (pull : σ → Read σ Bool) (n : Nat) (s : σ) : Read σ Codeword :=
  (readField pull (phasedM n) s).bind fun x s =>
    if x < shortCount n then .ok (.short x) s
    else (pull s).bind fun b s => .ok (.long (2 * x + b.toNat)) s

/-- `PHASED_DEC n` over a supply of bits (R121). -/
def readPhased {σ : Type} (pull : σ → Read σ Bool) (n : Nat) (s : σ) : Read σ Nat :=
  (readCodeword pull n s).bind fun cw s =>
    match codewordIndex n cw with
    | some v => .ok v s
    | none => .err .malformedCodeword s

/-! ## The header (30_encoding.md R60, 45_container.md R183) -/

/-- The four fields of a header. -/
structure HeaderFields where
  color : BitVec 1
  depth : BitVec 1
  width : Word32
  height : Word32
deriving DecidableEq, Repr

/-- `PARSE_HEADER` over a supply of bits: each field is tested as soon as it has been read whole, the two
dimensions together after both (R183, D10). -/
def readHeader {σ : Type} (pull : σ → Read σ Bool) (s : σ) : Read σ HeaderFields :=
  (readField pull 32 s).bind fun sig s =>
  if sig ≠ Config.magicWord then .err .badSignature s else
  (readField pull 8 s).bind fun ct s =>
  if 1 < ct then .err (.unsupportedColorType (BitVec.ofNat 8 ct)) s else
  (readField pull 8 s).bind fun dc s =>
  if 1 < dc then .err (.unsupportedDepth (BitVec.ofNat 8 dc)) s else
  (readField pull 32 s).bind fun wd s =>
  (readField pull 32 s).bind fun ht s =>
  if wd = 0 ∨ ht = 0 then .err .zeroDimension s else
  .ok ⟨BitVec.ofNat 1 ct, BitVec.ofNat 1 dc, BitVec.ofNat 32 wd, BitVec.ofNat 32 ht⟩ s

/-- The 112 bits of a header (R60, R181). -/
def headerBits (h : HeaderFields) : List Bool :=
  streamBits Config.magic ++ bitsMsb h.color.toNat 8 ++ bitsMsb h.depth.toNat 8 ++
    bitsMsb h.width.toNat 32 ++ bitsMsb h.height.toNat 32

/-! ## Command words (30_encoding.md R73, R76) -/

/-- The operation of a command word, with its operands from the registers that travel with it; a code outside the
table of R73 is InvalidInput (R76). -/
def decodeCommand (c : Issue) : Except Err Instr :=
  match c.code.toNat with
  | 0x01 => .ok .compress
  | 0x02 => .ok .decompress
  | 0x03 => .ok .readHeader
  | 0x10 => .ok (.pushBit c.regs.b)
  | 0x11 => .ok (.pushBits c.regs.value c.regs.n)
  | 0x12 => .ok .flush
  | 0x18 => .ok .pullBit
  | 0x19 => .ok (.pullBits c.regs.n)
  | 0x20 => .ok (.riceEnc c.regs.v c.regs.k)
  | 0x21 => .ok (.riceDec c.regs.k c.regs.w)
  | 0x22 => .ok (.phasedEnc c.regs.v c.regs.n)
  | 0x23 => .ok (.phasedDec c.regs.n)
  | 0x30 => .ok .predict
  | 0x31 => .ok (.getK c.regs.delta)
  | 0x32 => .ok (.update c.regs.delta c.regs.v)
  | 0x40 => .ok (.ycocgFwd c.regs.r c.regs.g c.regs.bl)
  | 0x41 => .ok (.ycocgInv c.regs.y c.regs.co c.regs.cg)
  | 0x50 => .ok .encSample
  | 0x51 => .ok .decSample
  | 0x60 => .ok .writeHeader
  | 0x61 => .ok .parseHeader
  | _ => .error .invalidInput

/-- The command word of an operation (R73); none for a wire field, which is no operation code's. -/
def encodeCommand : Instr → Option Issue
  | .compress => some { code := 0x01 }
  | .decompress => some { code := 0x02 }
  | .readHeader => some { code := 0x03 }
  | .pushBit b => some { code := 0x10, regs := { b := b } }
  | .pushBits value n => some { code := 0x11, regs := { value := value, n := n } }
  | .flush => some { code := 0x12 }
  | .pullBit => some { code := 0x18 }
  | .pullBits n => some { code := 0x19, regs := { n := n } }
  | .riceEnc v k => some { code := 0x20, regs := { v := v, k := k } }
  | .riceDec k w => some { code := 0x21, regs := { k := k, w := w } }
  | .phasedEnc v n => some { code := 0x22, regs := { v := v, n := n } }
  | .phasedDec n => some { code := 0x23, regs := { n := n } }
  | .predict => some { code := 0x30 }
  | .getK delta => some { code := 0x31, regs := { delta := delta } }
  | .update delta v => some { code := 0x32, regs := { delta := delta, v := v } }
  | .ycocgFwd r g b => some { code := 0x40, regs := { r := r, g := g, bl := b } }
  | .ycocgInv y co cg => some { code := 0x41, regs := { y := y, co := co, cg := cg } }
  | .encSample => some { code := 0x50 }
  | .decSample => some { code := 0x51 }
  | .writeHeader => some { code := 0x60 }
  | .parseHeader => some { code := 0x61 }
  | .header _ _ _ _ => none
  | .rawSample _ => none
  | .symIn _ => none
  | .symBelow _ => none
  | .symAbove _ => none
  | .riceCodeword _ _ => none
  | .phasedShort _ => none
  | .phasedLong _ => none
  | .padding => none

/-! ## Fields of the stream (30_encoding.md R60 to R68) -/

/-- Which field of the grammar of R62 stands next in the stream, with what encoder and decoder both know about its
length (R68): the channel width w, the alphabet size n, the Rice parameter k, or how many bits of the stream came
before the padding. -/
inductive FieldKind where
  | header
  | raw (w : Nat)
  | symbol (n k w : Nat)
  | rice (k w : Nat)
  | phased (n : Nat)
  | padding (used : Nat)
deriving DecidableEq, Repr

/-- The length of the padding after `used` bits: `(8 - used mod 8) mod 8` (R62). -/
def paddingLength (used : Nat) : Nat := (8 - used % 8) % 8

/-- A list of bits as a supply: its end is Truncated (20_memory.md R44). -/
def pullList : List Bool → Read (List Bool) Bool
  | [] => .err .truncated []
  | b :: rest => .ok b rest

/-- Reads one field of the given kind from a supply of bits (R62, R67); total on any bits, rejecting by the names
of R69 and R70. The padding's bits are not looked at (R71). -/
def readInstr {σ : Type} (pull : σ → Read σ Bool) (kind : FieldKind) (s : σ) : Read σ Instr :=
  match kind with
  | .header => (readHeader pull s).bind fun h s => .ok (.header h.color h.depth h.width h.height) s
  | .raw w => (readField pull w s).bind fun v s => .ok (.rawSample v) s
  | .symbol n k w =>
    (pull s).bind fun inRange s =>
    if inRange then (readPhased pull n s).bind fun v s => .ok (.symIn v) s
    else (pull s).bind fun above s =>
      (readRice pull k w s).bind fun v s => .ok (if above then .symAbove v else .symBelow v) s
  | .rice k w => (readRicePair pull k w s).bind fun qr s => .ok (.riceCodeword qr.1 qr.2) s
  | .phased n =>
    (readCodeword pull n s).bind fun cw s =>
    match cw with
    | .short x => .ok (.phasedShort x) s
    | .long y => .ok (.phasedLong y) s
  | .padding used => (readBits pull (paddingLength used) 0 s).bind fun _ s => .ok .padding s

/-- The field of the given kind at the head of a list of bits, and the bits after it. -/
def decodeField (kind : FieldKind) (bits : List Bool) : Read (List Bool) Instr := readInstr pullList kind bits

/-- `rice(v, K)` of R62: q zeros, a one, the remainder's K bits. -/
def riceBits (k q r : Nat) : List Bool := List.replicate q false ++ true :: bitsMsb r k

/-- The bits of a wire field where the grammar expects the given kind (R62); none where the instruction is not a
field of that kind. -/
def encodeField (kind : FieldKind) (i : Instr) : Option (List Bool) :=
  match kind, i with
  | .header, .header c d w h => some (headerBits ⟨c, d, w, h⟩)
  | .raw w, .rawSample v => some (bitsMsb v w)
  | .symbol n _ _, .symIn v => some (true :: codewordBits n (phasedCodeword n v))
  | .symbol _ k _, .symBelow v => some (false :: false :: riceBits k (v / 2 ^ k) (low v k))
  | .symbol _ k _, .symAbove v => some (false :: true :: riceBits k (v / 2 ^ k) (low v k))
  | .rice k _, .riceCodeword q r => some (riceBits k q r)
  | .phased n, .phasedShort x => some (codewordBits n (.short x))
  | .phased n, .phasedLong y => some (codewordBits n (.long y))
  | .padding used, .padding => some (List.replicate (paddingLength used) false)
  | _, _ => none

/-- The operands a field of the given kind admits (R60, R63 to R66, R70): what the encoder of the codec can
write there. -/
def fieldFits (kind : FieldKind) (i : Instr) : Bool :=
  match kind, i with
  | .header, .header _ _ w h => decide (w ≠ 0 ∧ h ≠ 0)
  | .raw w, .rawSample v => decide (w ≤ Config.pushMax ∧ v < 2 ^ w)
  | .symbol n _ _, .symIn v => decide (v < n ∧ phasedM n ≤ Config.pushMax)
  | .symbol _ k w, .symBelow v => decide (k ≤ Config.pushMax ∧ v / 2 ^ k ≤ qmax w k)
  | .symbol _ k w, .symAbove v => decide (k ≤ Config.pushMax ∧ v / 2 ^ k ≤ qmax w k)
  | .rice k w, .riceCodeword q r => decide (k ≤ Config.pushMax ∧ q ≤ qmax w k ∧ r < 2 ^ k)
  | .phased n, .phasedShort x => decide (1 ≤ n ∧ phasedM n ≤ Config.pushMax ∧ x < shortCount n)
  | .phased n, .phasedLong y =>
    decide (1 ≤ n ∧ phasedM n ≤ Config.pushMax ∧ 2 * shortCount n ≤ y ∧ y < 2 ^ (phasedM n + 1))
  | .padding _, .padding => true
  | _, _ => false

/-! ## The host's question about one table row -/

/-- The command word that a table word of one byte stands for: the code, with operand registers of zero. -/
def tableIssue (w : Nat) : Issue := { code := BitVec.ofNat 8 w, preempt := true }

/-- The 14 stream bytes of a 112-bit table word, "first stream byte most significant" (the HEADER row's note). -/
def tableHeaderBytes (w : Nat) : List Byte :=
  (List.range 14).map fun i => BitVec.ofNat 8 (w / 2 ^ (8 * (13 - i)))

/-- The instruction the decoders read from a table word: one byte is an operation code (R73), fourteen bytes are a
stream header (R60). The other wire rows are not whole bytes and mean nothing outside a stream (log entry 6). -/
def decodeTableWord (nbits w : Nat) : Option Instr :=
  if nbits = 8 then
    match decodeCommand (tableIssue w) with
    | .ok i => some i
    | .error _ => none
  else if nbits = 112 then
    match decodeField .header (streamBits (tableHeaderBytes w)) with
    | .ok i _ => some i
    | .err _ _ => none
  else none

end Sys2Proof
end

