-- ==== Sys2Proof/Machine/State.lean ====
section
/-! DEFINITION. The machine's state as plain data (10_state.md), the reasons a step can stop, and the state right
after reset (R25). Every field is listed with its rule in INVENTORY.md. -/

namespace Sys2Proof.Machine

/-- `STATUS` (10_state.md R13). -/
inductive Status where
  | idle
  | busy
  | done
  | error
deriving DecidableEq, Repr

/-- The number of a STATUS value (R13). -/
def Status.code : Status → BitVec 2
  | .idle => 0
  | .busy => 1
  | .done => 2
  | .error => 3

/-- `MODE`: which command is running (R13). -/
inductive Mode where
  | none
  | enc
  | dec
  | hdr
deriving DecidableEq, Repr

/-- The number of a MODE value (R13). -/
def Mode.code : Mode → BitVec 2
  | .none => 0
  | .enc => 1
  | .dec => 2
  | .hdr => 3

/-- `PHASE` of the sequencer (R14). -/
inductive Phase where
  | idle
  | header
  | samples
  | flush
  | finish
  | done
  | error
deriving DecidableEq, Repr

/-- The metadata registers COLOR, DEPTH, WIDTH, HEIGHT (R11): the fields of a header (30_encoding.md R60). -/
abbrev Meta := HeaderFields

/-- The status registers STATUS, ERR_CODE, ERR_INFO, MODE (R13). -/
structure StatusRegs where
  status : Status
  errCode : BitVec 4
  errInfo : BitVec 8
  mode : Mode
deriving DecidableEq, Repr

/-- The sequencer PHASE, CH, ROW, COL (R14): what the engine does next. -/
structure Sequencer where
  phase : Phase
  ch : BitVec 2
  row : Word32
  col : Word32
deriving DecidableEq, Repr

/-- The datapath registers A, B, L, H, DELTA, P, K, V (R17), unbounded as D14 allows. -/
structure Datapath where
  a : Int
  b : Int
  l : Int
  h : Int
  delta : Nat
  p : Int
  k : Nat
  v : Nat
deriving DecidableEq, Repr

/-- The bit sink S_ACC, S_CNT and the flag S_FLUSHED (R18). -/
structure BitSink where
  acc : Byte
  cnt : BitVec 3
  flushed : Bool
deriving DecidableEq, Repr

/-- The bit source R_ACC, R_CNT (R19); R_CNT is 8 only inside PULL_BIT. -/
structure BitSource where
  acc : Byte
  cnt : BitVec 3
deriving DecidableEq, Repr

/-- Where the results go that an operation delivers under a name and R17 gives no register (log entry 17): b of
PULL_BIT, v of PULL_BITS and PHASED_DEC, Y, Co, Cg of YCOCG_FWD, R, G, B of YCOCG_INV. -/
structure Results where
  bit : BitVec 1
  val : Nat
  y : Int
  co : Int
  cg : Int
  r : Int
  g : Int
  b : Int
deriving DecidableEq, Repr

/-- The whole state. T and CHAN are sparse lists of (key, value) in the canonical form of Machine/Memory.lean; IN,
OUT and PIX are sequences indexed from 0. -/
structure State where
  /-- COLOR, DEPTH, WIDTH, HEIGHT. -/
  hdr : Meta
  /-- STATUS, ERR_CODE, ERR_INFO, MODE. -/
  stat : StatusRegs
  /-- PHASE, CH, ROW, COL. -/
  seq : Sequencer
  /-- A, B, L, H, DELTA, P, K, V. -/
  dp : Datapath
  /-- S_ACC, S_CNT, S_FLUSHED. -/
  sink : BitSink
  /-- R_ACC, R_CNT. -/
  src : BitSource
  /-- The context table T (R21): an unlisted entry is 0. -/
  table : List (Nat × Nat)
  /-- The channel buffers CHAN (R23): an unlisted cell is unwritten and holds no value. -/
  chan : List (Nat × Int)
  /-- OUT: the bytes emitted so far (R24). -/
  out : List Byte
  /-- IN: the bytes the reader will deliver (R24). -/
  inp : List Byte
  /-- IN_POS: the bytes consumed (R24). -/
  inPos : Nat
  /-- PIX: the pixel memory, sample by sample (20_memory.md R45). -/
  pix : List Nat
  /-- The named results of micro-operations. -/
  res : Results
  /-- The host's resets and issued command words, oldest first (log entries 2, 34). -/
  cmdq : List HostEvent
  /-- The writer's answers to the coming calls of ByteOut, `true` a failure (R42, log entry 7). -/
  outFail : List Bool
  /-- The reader's answers to the coming calls of ByteIn, `true` a failure (R43, log entry 7). -/
  inFail : List Bool
  /-- The build's MAX_SAMPLES, `none` for no bound (00_scope.md R5, log entry 12). -/
  maxSamples : Option Nat
  /-- How many free values have been drawn (Config.freeValue; the model's own field, log entry 9). -/
  drawn : Nat
deriving DecidableEq, Repr

/-- Why the machine stops where the spec gives it no behaviour. -/
inductive Fault where
  /-- Raised by a read of a CHAN cell that has not been written: it "holds no value" and "no rule reads one" (R23).
  Safe: the model goes no further. Log entry 8. -/
  | unwrittenCell
  /-- Raised by a step of a BUSY engine whose PHASE and MODE are no pair that R184, R188 or R191 walks through. Safe:
  no run from reset reaches one. Log entry 14. -/
  | noSequencerStep
deriving DecidableEq, Repr

/-- Why the model refuses an instruction. -/
inductive Refusal where
  /-- Raised by `exec` for an instruction that has no meaning yet. Safe. -/
  | notModelled (mnemonic : String)
  /-- Raised by PHASED_ENC for `v >= n`, so for n = 0 too, also where SYM_IN calls it: outside the operation's contract,
  "a model should refuse such a call" (41_codes.md R120). Safe. Log entry 11. -/
  | outsideContract
  /-- Raised by COMPRESS and by the end of DECOMPRESS's HEADER phase for an image larger than MAX_SAMPLES, which a build
  "must refuse" (45_container.md R195). Safe. Log entry 12. -/
  | imageTooLarge
deriving DecidableEq, Repr

/-- Right after reset (R25, R230). The values R25 calls unspecified (metadata, R_ACC, datapath, PIX) are 0 or empty:
DESIGN CHOICE, log entry 1. Nothing is issued, IN is empty, no port failure is pending and no free value is drawn (log
entries 2, 7, 9). A reset of a running machine is `resetEngine` (Machine/Ops.lean). -/
def State.reset : State where
  hdr := ⟨0, 0, 0, 0⟩
  stat := ⟨.idle, 0, 0, .none⟩
  seq := ⟨.idle, 0, 0, 0⟩
  dp := ⟨0, 0, 0, 0, 0, 0, 0, 0⟩
  sink := ⟨0, 0, false⟩
  src := ⟨0, 0⟩
  table := []
  chan := []
  out := []
  inp := []
  inPos := 0
  pix := []
  res := ⟨0, 0, 0, 0, 0, 0, 0, 0⟩
  cmdq := []
  outFail := []
  inFail := []
  maxSamples := none
  drawn := 0

end Sys2Proof.Machine
end

