-- ==== Sys2Proof/Machine/Memory.lean ====
section
/-! DEFINITION. The sparse memories behind CHAN and T: lists of (key, value) with strictly rising keys, and the one
canonical form that makes equal memories equal lists. -/

namespace Sys2Proof.Machine

/-- The value stored under a key, if one is. -/
def cellsRead {α : Type} : List (Nat × α) → Nat → Option α
  | [], _ => none
  | (k, v) :: rest, key => if k = key then some v else if key < k then none else cellsRead rest key

/-- Stores a value under a key, keeping the keys rising. -/
def cellsWrite {α : Type} : List (Nat × α) → Nat → α → List (Nat × α)
  | [], key, x => [(key, x)]
  | (k, v) :: rest, key, x =>
    if key < k then (key, x) :: (k, v) :: rest
    else if k = key then (key, x) :: rest
    else (k, v) :: cellsWrite rest key x

/-- Removes a key's entry. -/
def cellsErase {α : Type} : List (Nat × α) → Nat → List (Nat × α)
  | [], _ => []
  | (k, v) :: rest, key =>
    if key < k then (k, v) :: rest
    else if k = key then rest
    else (k, v) :: cellsErase rest key

/-- Every key of the list is above the bound and the keys rise strictly. -/
def cellsAbove {α : Type} : Nat → List (Nat × α) → Bool
  | _, [] => true
  | bound, (k, _) :: rest => decide (bound < k) && cellsAbove k rest

/-- The keys rise strictly. -/
def cellsWf {α : Type} : List (Nat × α) → Bool
  | [] => true
  | (k, _) :: rest => cellsAbove k rest

/-- The canonical form of T: rising keys and no zero entry, since an unlisted entry reads 0 (10_state.md R22). -/
def tableWf (t : List (Nat × Nat)) : Bool := cellsWf t && t.all fun e => decide (e.2 ≠ 0)

/-- The canonical form of both sparse memories of a state. -/
def Memory.wf (s : State) : Bool := cellsWf s.chan && tableWf s.table

/-- The key of T[delta][k]: 32 places for a row, indexed by the candidate value itself (R21, log entry 20). -/
def tableKey (delta k : Nat) : Nat := delta * 32 + k

/-- `T[delta][k]` (00_scope.md R8); an unlisted entry is 0 (R22). -/
def tableRead (t : List (Nat × Nat)) (delta k : Nat) : Nat := (cellsRead t (tableKey delta k)).getD 0

/-- `T[delta][k] <- v`; a zero is not listed. -/
def tableWrite (t : List (Nat × Nat)) (delta k v : Nat) : List (Nat × Nat) :=
  if v = 0 then cellsErase t (tableKey delta k) else cellsWrite t (tableKey delta k) v

/-- The key of `CHAN[c][row][col]`, rising in channel, row, column (R23, log entry 20). -/
def cellKey (c row col : Nat) : Nat := c * 2 ^ 64 + row * 2 ^ 32 + col

/-- `MemRead(CHAN, c, row, col)` (R8): none for a cell that has not been written. -/
def chanRead (m : List (Nat × Int)) (c row col : Nat) : Option Int := cellsRead m (cellKey c row col)

/-- `MemWrite(CHAN, c, row, col, v)` (R8). -/
def chanWrite (m : List (Nat × Int)) (c row col : Nat) (v : Int) : List (Nat × Int) :=
  cellsWrite m (cellKey c row col) v

end Sys2Proof.Machine
end

