-- ==== Sys2Proof/Machine/Operands.lean ====
section
/-! DEFINITION. The quantities a rule computes from the registers before it acts: the derived quantities of
10_state.md R12 and R16, the K-sets, the predictor's neighbour positions and the tests on a command's inputs. -/

namespace Sys2Proof.Machine

/-- `d`: 8 for Depth8, 16 for Depth16 (R12). -/
def depthBits (m : Meta) : Nat := if m.depth = 0 then 8 else 16

/-- `NCH`: 1 for Gray, 3 for Rgb (R12). -/
def nch (m : Meta) : Nat := if m.color = 0 then 1 else 3

/-- `w(c)`: d for channel 0, d + 1 for channels 1 and 2 (R12). -/
def widthOf (m : Meta) (c : Nat) : Nat := if c = 0 then depthBits m else depthBits m + 1

/-- `w(CH)`, the width of the channel in progress. -/
def chanWidth (s : State) : Nat := widthOf s.hdr s.seq.ch.toNat

/-- `max_sample(CH) = 2^w(CH) - 1` (R12). -/
def maxSample (s : State) : Nat := 2 ^ chanWidth s - 1

/-- `NSAMP = WIDTH * HEIGHT` (R12). -/
def nsamp (m : Meta) : Nat := m.width.toNat * m.height.toNat

/-- `IDX = ROW * WIDTH + COL` (R16). -/
def idx (s : State) : Nat := s.seq.row.toNat * s.hdr.width.toNat + s.seq.col.toNat

/-- `KSET(8)` (00_scope.md R4). -/
def kset8 : List Nat := [0, 1, 2, 3, 4, 5]

/-- `KSET(16)` (R4). -/
def kset16 : List Nat := [5, 6, 7, 8, 9, 10, 11]

/-- `KSET(9)`: the same as KSET(8) (R5, D6). -/
def kset9 : List Nat := kset8

/-- `KSET(17)`: the same as KSET(16) (R5, D6). -/
def kset17 : List Nat := kset16

/-- The K-set of a channel of width w (42_predictor_selector.md R142). -/
def ksetOf (w : Nat) : List Nat :=
  if w ≤ 8 then kset8 else if w ≤ 9 then kset9 else if w ≤ 16 then kset16 else kset17

/-- The K-set of the channel in progress. -/
def kset (s : State) : List Nat := ksetOf (chanWidth s)

/-- The positions of the two neighbours A and B of the sample at `(row, col)` (R131 to R133, R135). For a position outside
the image, of which no rule speaks, a column of 1 or more of an image one sample wide has the pair (row - 1, 0), (row - 2, 0),
both (0, 0) in row 1, for which R135 gives none (DESIGN CHOICE, log entry 30). -/
def neighbours (width row col : Nat) : (Nat × Nat) × (Nat × Nat) :=
  if row = 0 then ((0, col - 1), (0, col - 2))
  else if width = 1 then ((row - 1, 0), (row - 2, 0))
  else if col = 0 then ((row - 1, 0), (row - 1, 1))
  else ((row - 1, col), (row, col - 1))

/-- `rice_length(v, k) = (v >> k) + 1 + k` (R137). -/
def riceLength (v k : Nat) : Nat := v / 2 ^ k + 1 + k

/-- GET_K on one row: the candidate of least entry, the largest such (R138). -/
def selectK (entry : Nat → Nat) : List Nat → Nat
  | [] => 0
  | first :: rest => rest.foldl (fun best k => if entry k ≤ entry best then k else best) first

/-- The entries of a row after UPDATE's additions (R139). -/
def grownRow (ks : List Nat) (entry : Nat → Nat) (v : Nat) : List (Nat × Nat) :=
  ks.map fun k => (k, entry k + riceLength v k)

/-- The row after UPDATE: every entry halved when the least is 1024 or more (R139, 90_conflicts.md C1). -/
def updatedRow (ks : List Nat) (entry : Nat → Nat) (v : Nat) : List (Nat × Nat) :=
  let row := grownRow ks entry v
  if row.all (fun e => decide (Config.halveAt ≤ e.2)) then row.map (fun e => (e.1, e.2 / 2)) else row

/-- `YCOCG_FWD` (43_color_transform.md R151): `>> 1` is floor division by 2, which `/ 2` on Int is. -/
def ycocgForward (r g b : Int) : Int × Int × Int :=
  let co := r - b
  let t := b + co / 2
  let cg := g - t
  (t + cg / 2, co, cg)

/-- `YCOCG_INV` (R152). -/
def ycocgInverse (y co cg : Int) : Int × Int × Int :=
  let t := y - cg / 2
  let g := cg + t
  let b := t - co / 2
  (b + co, g, b)

/-- `OFFSET = 2^d`, added to Co and Cg before coding (00_scope.md R4, R154). -/
def chromaOffset (m : Meta) : Int := 2 ^ depthBits m

/-- A component that a d-bit pixel can hold: in `[0, 2^d - 1]` (R156). -/
def componentFits (m : Meta) (x : Int) : Bool := decide (0 ≤ x ∧ x < 2 ^ depthBits m)

/-- The inputs of COMPRESS keep its contract (45_container.md R185): no zero dimension, and a PIX of exactly
`NSAMP * NCH` samples of d bits. -/
def inputsValid (s : State) : Bool :=
  decide (s.hdr.width ≠ 0 ∧ s.hdr.height ≠ 0 ∧ s.pix.length = nsamp s.hdr * nch s.hdr) &&
    s.pix.all fun x => decide (x < 2 ^ depthBits s.hdr)

/-- The image is larger than the build accepts: `NSAMP * NCH > MAX_SAMPLES` (R195, D26). -/
def imageTooLarge (s : State) : Bool :=
  match s.maxSamples with
  | none => false
  | some m => decide (m < nsamp s.hdr * nch s.hdr)

end Sys2Proof.Machine
end

