-- ==== Sys2Proof/Machine/Flags.lean ====
section
/-! DEFINITION. The one flag S_FLUSHED and the conditions that are consumed inside the step that computes them
(10_state.md R20): the range test of a sample and the range check of a decoded one. -/

namespace Sys2Proof.Machine

/-- The three-way outcome of the range test (R20, 44_channel_coder.md R162 to R164). -/
inductive RangeCase where
  | inRange
  | below
  | above
deriving DecidableEq, Repr

/-- In range `L <= P <= H`, below `P < L`, above `P > H` (R162 to R164). -/
def rangeTest (l h p : Int) : RangeCase :=
  if l ≤ p ∧ p ≤ h then .inRange else if p < l then .below else .above

/-- The range check on a decoded out-of-range sample: `0 <= P <= max_sample` (R169). -/
def sampleFits (maxs : Nat) (p : Int) : Bool := decide (0 ≤ p ∧ p ≤ maxs)

/-- FLUSH sets S_FLUSHED (40_bitio.md R92). -/
def setFlushed (s : State) : State := { s with sink := { s.sink with flushed := true } }

end Sys2Proof.Machine
end

