-- ==== Sys2Proof/Machine/Ops.lean ====
section
/-! DEFINITION. The named operations every meaning is built from: raising an error and starting a command, the byte
ports, the bit layer, the codes, the predictor and selector, the sequencer. -/

namespace Sys2Proof.Machine

/-- What an operation gives: a value and the state after it, an error raised with the state the operation had reached
(60_exceptions.md R206: "exactly the state changes its pseudocode makes before its raise"), or a stop. -/
inductive Res (α : Type) where
  | ok (a : α) (s : State)
  | raise (e : Err) (s : State)
  | fault (f : Fault)
  | refuse (r : Refusal)
deriving Repr

/-- One operation after another: an error or a stop ends the sequence (R206, R213). -/
def Res.bind {α β : Type} (r : Res α) (f : α → State → Res β) : Res β :=
  match r with
  | .ok a s => f a s
  | .raise e s => .raise e s
  | .fault x => .fault x
  | .refuse x => .refuse x

/-- A reading from the bit source as an operation. -/
def ofRead {α : Type} : Read State α → Res α
  | .ok a s => .ok a s
  | .err e s => .raise e s

/-! ## Errors and commands -/

/-- What `raise E(info)` does, the analogue of trap entry (60_exceptions.md R206): ERR_CODE, ERR_INFO, STATUS and
PHASE are set, and everything else keeps the value it had. -/
def raiseError (e : Err) (s : State) : State :=
  { s with
    stat := { s.stat with status := .error, errCode := e.code, errInfo := e.info }
    seq := { s.seq with phase := .error } }

/-- The end of an operation: an error raised is taken (R206), a stop is the machine's stop. -/
def Res.finish : Res Unit → Host.Outcome State Fault Refusal
  | .ok _ s => .next s
  | .raise e s => .next (raiseError e s)
  | .fault f => .fault f
  | .refuse r => .refused r

/-- The start of a command (10_state.md R26). There is no return from an error (R214): this, or reset, is the only way
on after one. Metadata, PIX, IN and R_ACC are kept. -/
def startCommand (mode : Mode) (s : State) : State :=
  { s with
    stat := ⟨.busy, 0, 0, mode⟩
    seq := ⟨.header, 0, 0, 0⟩
    sink := ⟨0, 0, false⟩
    src := { s.src with cnt := 0 }
    table := []
    chan := []
    out := []
    inPos := 0 }

/-- The end of a successful command (45_container.md R184, R188, R191): PHASE and STATUS are DONE. -/
def finishCommand (s : State) : State :=
  { s with stat := { s.stat with status := .done }, seq := { s.seq with phase := .done } }

/-- From HEADER to SAMPLES at the first sample (R184, R188). -/
def enterSamples (s : State) : State := { s with seq := ⟨.samples, 0, 0, 0⟩ }

/-- A code that is no operation raises InvalidInput (60_exceptions.md R201, 92_eei_decisions.md D3; 30_encoding.md R76,
log entry 25). -/
def rejectCode (s : State) : State := raiseError .invalidInput s

/-- A reset by the host while the machine runs (70_reset_and_hazards.md R230, R233): every register takes its value after
reset, a command in progress is abandoned. What the host and the environment own is kept: PIX, IN, the ports' answers, the
rest of the queue, the build's bound (log entry 34). -/
def resetEngine (s : State) : State :=
  { State.reset with
    inp := s.inp
    pix := s.pix
    cmdq := s.cmdq
    outFail := s.outFail
    inFail := s.inFail
    maxSamples := s.maxSamples
    drawn := s.drawn }

/-- The codes of the three host commands, `0x01` to `0x03` (R76). -/
def isHostCommand (c : Issue) : Bool := decide (c.code = 0x01 ∨ c.code = 0x02 ∨ c.code = 0x03)

/-- The code is no operation (R76). -/
def isUnknownCode (c : Issue) : Bool :=
  match decodeCommand c with
  | .ok _ => false
  | .error _ => true

/-- What takes effect while STATUS is BUSY, dropping the command in progress (60_exceptions.md R216): a reset; a host
command, or a code that is no operation, that the host issues at once. A micro-operation waits: the metadata stay as
they are while a command runs (10_state.md R11, log entry 3). -/
def takesOver : HostEvent → Bool
  | .reset => true
  | .word c => c.preempt && (isHostCommand c || isUnknownCode c)

/-- The host's event that the engine takes now, and the state without it: the oldest one, if the engine is not BUSY or the
event takes over. -/
def nextEvent (s : State) : Option (HostEvent × State) :=
  match s.cmdq with
  | [] => none
  | e :: rest => if s.stat.status ≠ .busy ∨ takesOver e = true then some (e, { s with cmdq := rest }) else none

/-- A word taken is performed. After DONE and after ERROR everything stays "until the next command or reset" and "the engine
takes no step" (92_eei_decisions.md D17, R206, R214): there a micro-operation's word is taken and not performed. -/
def performs (c : Issue) (s : State) : Bool := decide (s.stat.status = .idle) || isHostCommand c

/-! ## The byte ports (20_memory.md R42, R43) -/

/-- `ByteOut(b)`: appends to OUT, or fails and counts nothing as written (R42). -/
def byteOut (b : Byte) (s : State) : Res Unit :=
  match s.outFail with
  | true :: rest => .raise .ioError { s with outFail := rest }
  | false :: rest => .ok () { s with out := s.out ++ [b], outFail := rest }
  | [] => .ok () { s with out := s.out ++ [b] }

/-- The next byte of IN or EOF, with no failure of the reader (R43). -/
def nextByte (s : State) : Option Byte × State :=
  match s.inp[s.inPos]? with
  | some b => (some b, { s with inPos := s.inPos + 1 })
  | none => (none, s)

/-- `ByteIn()`: the next byte, EOF, or the reader's failure (R43). -/
def byteIn (s : State) : Read State (Option Byte) :=
  match s.inFail with
  | true :: rest => .err .ioError { s with inFail := rest }
  | false :: rest => let (x, t) := nextByte { s with inFail := rest }; .ok x t
  | [] => let (x, t) := nextByte s; .ok x t

/-! ## The bit layer (40_bitio.md) -/

/-- `acc[i] <- b`. -/
def assignBit (acc : Byte) (i : Nat) (b : Bool) : Byte :=
  if b then acc ||| BitVec.ofNat 8 (2 ^ i) else acc &&& ~~~(BitVec.ofNat 8 (2 ^ i))

/-- `PUSH_BIT b` (R90). On a sink that an IoError has left, of which the spec gives no use, the bit takes its place in S_ACC
and the byte is offered to ByteOut again (DESIGN CHOICE, log entry 31). -/
def pushBit (b : Bool) (s : State) : Res Unit :=
  if s.sink.flushed then .raise .useAfterFlush s
  else
    let acc := assignBit s.sink.acc (7 - s.sink.cnt.toNat) b
    let s := { s with sink := { s.sink with acc := acc } }
    if s.sink.cnt = 7 then
      (byteOut acc s).bind fun _ s => .ok () { s with sink := { s.sink with acc := 0, cnt := 0 } }
    else .ok () { s with sink := { s.sink with cnt := s.sink.cnt + 1 } }

/-- Pushes of single bits in order (20_memory.md R48). -/
def pushList : List Bool → State → Res Unit
  | [], s => .ok () s
  | b :: rest, s => (pushBit b s).bind fun _ s => pushList rest s

/-- `PUSH_BITS value, n` (R91). -/
def pushBits (value n : Nat) (s : State) : Res Unit :=
  if Config.pushMax < n then .raise .invalidInput s else pushList (bitsMsb value n) s

/-- The part of FLUSH that is on the wire, PADDING: the partial byte is emitted with its low bits zero (R92). By itself, as
the PADDING row, it leaves S_FLUSHED 0, and raises UseAfterFlush on a flushed sink (DESIGN CHOICE, log entry 32). -/
def emitPadding (s : State) : Res Unit :=
  if s.sink.flushed then .raise .useAfterFlush s
  else if s.sink.cnt = 0 then .ok () s
  else (byteOut s.sink.acc s).bind fun _ s => .ok () { s with sink := { s.sink with acc := 0, cnt := 0 } }

/-- `FLUSH` (R92). -/
def flushSink (s : State) : Res Unit := (emitPadding s).bind fun _ s => .ok () (setFlushed s)

/-- `PULL_BIT` (R93). No word pulls after READ_HEADER is DONE (70_reset_and_hazards.md R247; `performs`, log entry 33). -/
def pullBit (s : State) : Read State Bool :=
  if s.src.cnt = 0 then
    (byteIn s).bind fun x s =>
      match x with
      | none => .err .truncated s
      | some x => .ok (x.getLsbD 7) { s with src := ⟨x, 7⟩ }
  else .ok (s.src.acc.getLsbD (s.src.cnt.toNat - 1)) { s with src := { s.src with cnt := s.src.cnt - 1 } }

/-- `PULL_BITS n` (R94). -/
def pullBits (n : Nat) (s : State) : Res Nat := ofRead (readField pullBit n s)

/-! ## The codes (41_codes.md) -/

/-- The q zeros and the one of a Rice codeword, then its remainder in K bits (R111). -/
def pushRice (q r k : Nat) (s : State) : Res Unit :=
  (pushList (List.replicate q false ++ [true]) s).bind fun _ s => if k = 0 then .ok () s else pushBits r k s

/-- `RICE_ENC v, K` (R111). -/
def riceEnc (v k : Nat) (s : State) : Res Unit := pushRice (v / 2 ^ k) (low v k) k s

/-- `RICE_DEC K, w` (R112); the result is in V (10_state.md R17). -/
def riceDec (k w : Nat) (s : State) : Res Nat :=
  (ofRead (readRice pullBit k w s)).bind fun v s => .ok v { s with dp := { s.dp with v := v } }

/-- The bits of a codeword through PUSH_BITS (R120). -/
def pushCodeword (n : Nat) (cw : Codeword) (s : State) : Res Unit :=
  match cw with
  | .short x => pushBits x (phasedM n) s
  | .long y => pushBits y (phasedM n + 1) s

/-- `PHASED_ENC v, n` (R120): a call with `v >= n`, so every call with n = 0, is outside the contract. -/
def phasedEnc (v n : Nat) (s : State) : Res Unit :=
  if v < n then pushCodeword n (phasedCodeword n v) s else .refuse .outsideContract

/-- `PHASED_DEC n` (R121). For n = 0 the spec states no `ilog2(n)`: it is a free value m, and after PULL_BITS m every index
lies outside `[0, n - 1]`, which R121 raises as MalformedCodeword (DESIGN CHOICE, log entry 35). -/
def phasedDec (n : Nat) (s : State) : Res Nat :=
  if n = 0 then
    (pullBits (Config.freeValue s.drawn 0) { s with drawn := s.drawn + 1 }).bind fun _ s => .raise .malformedCodeword s
  else ofRead (readPhased pullBit n s)

/-! ## The predictor and the selector (42_predictor_selector.md) -/

/-- `PREDICT` (R130, R136); not performed for a verbatim sample (log entry 10). At a position outside the image it goes by
the registers as they stand (log entry 30). -/
def predict (s : State) : Res Unit :=
  if idx s < 2 then .ok () s
  else
    let pos := neighbours s.hdr.width.toNat s.seq.row.toNat s.seq.col.toNat
    match chanRead s.chan s.seq.ch.toNat pos.1.1 pos.1.2, chanRead s.chan s.seq.ch.toNat pos.2.1 pos.2.2 with
    | some a, some b =>
      .ok () { s with
        dp := { s.dp with a := a, b := b, l := min a b, h := max a b, delta := (max a b - min a b).toNat } }
    | _, _ => .fault .unwrittenCell

/-- The row of T that GET_K and UPDATE read. T has the rows `[0, max_sample]` (10_state.md R21): the entries of another
row are free values (DESIGN CHOICE, log entry 9). -/
def rowEntry (delta : Nat) (s : State) (k : Nat) : Nat :=
  if delta ≤ maxSample s then tableRead s.table delta k else Config.freeValue s.drawn k

/-- The free values drawn by reading a row: one draw for a row outside T. -/
def drawRow (delta : Nat) (s : State) : State :=
  { s with drawn := if delta ≤ maxSample s then s.drawn else s.drawn + 1 }

/-- `GET_K DELTA` (R138); the result is in K (10_state.md R17). -/
def getK (delta : Nat) (s : State) : Res Nat :=
  let k := selectK (rowEntry delta s) (kset s)
  .ok k (drawRow delta { s with dp := { s.dp with k := k } })

/-- A row written entry by entry. -/
def writeRow (delta : Nat) (t : List (Nat × Nat)) (row : List (Nat × Nat)) : List (Nat × Nat) :=
  row.foldl (fun t e => tableWrite t delta e.1 e.2) t

/-- `UPDATE DELTA, v` (R139). A row written outside T stays in `State.table` and is T's own once a change of DEPTH or CH
makes it one of T's rows (DESIGN CHOICE, log entry 9). -/
def updateTable (delta v : Nat) (s : State) : Res Unit :=
  .ok () (drawRow delta { s with table := writeRow delta s.table (updatedRow (kset s) (rowEntry delta s) v) })

/-! ## The sequencer (10_state.md R15) -/

/-- The sequencer's advance after a sample (R15); at a channel change the table is cleared (R22). MODE values for
which R15 names no next PHASE leave it (log entry 13). -/
def advance (s : State) : State :=
  if s.seq.col.toNat + 1 < s.hdr.width.toNat then
    { s with seq := { s.seq with col := s.seq.col + 1 } }
  else if s.seq.row.toNat + 1 < s.hdr.height.toNat then
    { s with seq := { s.seq with row := s.seq.row + 1, col := 0 } }
  else if s.seq.ch.toNat + 1 < nch s.hdr then
    { s with seq := { s.seq with ch := s.seq.ch + 1, row := 0, col := 0 }, table := [] }
  else
    { s with
      seq := { s.seq with
        row := 0, col := 0
        phase := match s.stat.mode with
          | .enc => .flush
          | .dec => .finish
          | .none => s.seq.phase
          | .hdr => s.seq.phase } }

/-! ## The two sides of a sample (44_channel_coder.md) -/

/-- A decoded sample is complete: P, its cell, and the sequencer's advance (R168, R170). At a position outside the image
the cell of that number is written and the sequencer advances all the same (DESIGN CHOICE, log entry 29). -/
def storeSample (p : Int) (s : State) : State :=
  advance { s with
    dp := { s.dp with p := p }
    chan := chanWrite s.chan s.seq.ch.toNat s.seq.row.toNat s.seq.col.toNat p }

/-- The end of an out-of-range symbol's decoding: P from L or H, the range check, UPDATE, the cell (R168, R169). -/
def takeOutOfRange (above : Bool) (v : Nat) (s : State) : Res Unit :=
  let p : Int := if above then s.dp.h + v + 1 else s.dp.l - v - 1
  let s := { s with dp := { s.dp with p := p } }
  if sampleFits (maxSample s) p then
    (updateTable s.dp.delta v s).bind fun _ s => .ok () (storeSample p s)
  else .raise .malformedCodeword s

/-- A verbatim sample through PUSH_BITS (R161): its w low bits. -/
def emitRaw (p : Int) (s : State) : Res Unit := pushBits (p % 2 ^ chanWidth s).toNat (chanWidth s) s

/-- `SYM_IN` through the sink (R162). -/
def emitIn (v : Nat) (s : State) : Res Unit :=
  (pushBit true s).bind fun _ s => phasedEnc v (s.dp.delta + 1) s

/-- `SYM_BELOW` or `SYM_ABOVE` through the sink, GET_K before and UPDATE after the codeword (R163, R164). -/
def emitOutOfRange (above : Bool) (v : Nat) (s : State) : Res Unit :=
  (pushBit false s).bind fun _ s =>
  (pushBit above s).bind fun _ s =>
  (getK s.dp.delta s).bind fun k s =>
  (riceEnc v k { s with dp := { s.dp with v := v } }).bind fun _ s =>
  updateTable s.dp.delta v s

end Sys2Proof.Machine
end

