-- ==== Sys2Proof/Machine/BitLayer.lean ====
section
/-! DEFINITION. The bit-layer operations (40_bitio.md): PUSH_BIT, PUSH_BITS, FLUSH, PULL_BIT, PULL_BITS. -/

namespace Sys2Proof.Machine

/-- PUSH_BIT b (R90). -/
def execPushBit (b : BitVec 1) (s : State) : Host.Outcome State Fault Refusal := (pushBit (b.getLsbD 0) s).finish

/-- PUSH_BITS value, n (R91). -/
def execPushBits (value : BitVec 64) (n : Nat) (s : State) : Host.Outcome State Fault Refusal :=
  (pushBits value.toNat n s).finish

/-- FLUSH (R92). -/
def execFlush (s : State) : Host.Outcome State Fault Refusal := (flushSink s).finish

/-- PULL_BIT -> b (R93). -/
def execPullBit (s : State) : Host.Outcome State Fault Refusal :=
  ((ofRead (pullBit s)).bind fun b s => .ok () { s with res := { s.res with bit := BitVec.ofBool b } }).finish

/-- PULL_BITS n -> v (R94). -/
def execPullBits (n : Nat) (s : State) : Host.Outcome State Fault Refusal :=
  ((pullBits n s).bind fun v s => .ok () { s with res := { s.res with val := v } }).finish

end Sys2Proof.Machine
end

