-- ==== Sys2Proof/Machine/Codes.lean ====
section
/-! DEFINITION. The code operations (41_codes.md): RICE_ENC, RICE_DEC, PHASED_ENC, PHASED_DEC. -/

namespace Sys2Proof.Machine

/-- RICE_ENC v, K (R111). -/
def execRiceEnc (v k : Nat) (s : State) : Host.Outcome State Fault Refusal := (riceEnc v k s).finish

/-- RICE_DEC K, w -> v (R112): the result is in V (10_state.md R17). -/
def execRiceDec (k w : Nat) (s : State) : Host.Outcome State Fault Refusal :=
  ((riceDec k w s).bind fun _ s => .ok () s).finish

/-- PHASED_ENC v, n (R120). -/
def execPhasedEnc (v n : Nat) (s : State) : Host.Outcome State Fault Refusal := (phasedEnc v n s).finish

/-- PHASED_DEC n -> v (R121). -/
def execPhasedDec (n : Nat) (s : State) : Host.Outcome State Fault Refusal :=
  ((phasedDec n s).bind fun v s => .ok () { s with res := { s.res with val := v } }).finish

end Sys2Proof.Machine
end

