-- ==== Sys2Proof/Machine/Colour.lean ====
section
/-! DEFINITION. The colour operations (43_color_transform.md): YCOCG_FWD, YCOCG_INV. -/

namespace Sys2Proof.Machine

/-- YCOCG_FWD R, G, B -> Y, Co, Cg (R151). -/
def execYcocgFwd (r g b : Int) (s : State) : Host.Outcome State Fault Refusal :=
  let f := ycocgForward r g b
  .next { s with res := { s.res with y := f.1, co := f.2.1, cg := f.2.2 } }

/-- YCOCG_INV Y, Co, Cg -> R, G, B (R152). -/
def execYcocgInv (y co cg : Int) (s : State) : Host.Outcome State Fault Refusal :=
  let f := ycocgInverse y co cg
  .next { s with res := { s.res with r := f.1, g := f.2.1, b := f.2.2 } }

end Sys2Proof.Machine
end

