-- ==== Sys2Proof/Machine/Channel.lean ====
section
/-! DEFINITION. The channel coder (44_channel_coder.md): ENC_SAMPLE, DEC_SAMPLE. -/

namespace Sys2Proof.Machine

/-- The symbol of a predicted sample P: the three cases of R162 to R164. -/
def emitSymbol (p : Int) (s : State) : Res Unit :=
  match rangeTest s.dp.l s.dp.h p with
  | .inRange => emitIn (p - s.dp.l).toNat s
  | .below => emitOutOfRange false (s.dp.l - p - 1).toNat s
  | .above => emitOutOfRange true (p - s.dp.h - 1).toNat s

/-- The body of ENC_SAMPLE (R165). At a position outside the image, of which no rule speaks (R9), a written cell of that
number is encoded and the sequencer advances all the same (DESIGN CHOICE, log entry 29). -/
def encodeSample (s : State) : Res Unit :=
  match chanRead s.chan s.seq.ch.toNat s.seq.row.toNat s.seq.col.toNat with
  | none => .fault .unwrittenCell
  | some p =>
    let s := { s with dp := { s.dp with p := p } }
    (if idx s < 2 then emitRaw p s else (predict s).bind fun _ s => emitSymbol p s).bind fun _ s =>
      .ok () (advance s)

/-- The decoding of a symbol after PREDICT (R167, R168). -/
def takeSymbol (s : State) : Res Unit :=
  (ofRead (pullBit s)).bind fun inRange s =>
  if inRange then
    (phasedDec (s.dp.delta + 1) s).bind fun v s => .ok () (storeSample (s.dp.l + v) s)
  else
    (ofRead (pullBit s)).bind fun above s =>
    (getK s.dp.delta s).bind fun k s =>
    (riceDec k (chanWidth s) s).bind fun v s =>
    takeOutOfRange above v s

/-- The body of DEC_SAMPLE (R168). -/
def decodeSample (s : State) : Res Unit :=
  if idx s < 2 then (pullBits (chanWidth s) s).bind fun p s => .ok () (storeSample p s)
  else (predict s).bind fun _ s => takeSymbol s

/-- The field of the stream that DEC_SAMPLE reads next, with all that fixes its length (30_encoding.md R62, R68): a
verbatim sample, or a symbol over the alphabet and with the Rice parameter that PREDICT and GET_K give. -/
def nextField (s : State) : FieldKind :=
  if idx s < 2 then .raw (chanWidth s)
  else
    match predict s with
    | .ok _ t => .symbol (t.dp.delta + 1) (selectK (rowEntry t.dp.delta t) (kset t)) (chanWidth s)
    | .raise _ _ => .raw (chanWidth s)
    | .fault _ => .raw (chanWidth s)
    | .refuse _ => .raw (chanWidth s)

/-- ENC_SAMPLE (R165). -/
def execEncSample (s : State) : Host.Outcome State Fault Refusal := (encodeSample s).finish

/-- DEC_SAMPLE (R168). -/
def execDecSample (s : State) : Host.Outcome State Fault Refusal := (decodeSample s).finish

end Sys2Proof.Machine
end

