-- ==== Sys2Proof/Machine/Container.lean ====
section
/-! DEFINITION. The container (45_container.md): WRITE_HEADER, PARSE_HEADER, the channel load and the
reconstruction of the pixels. -/

namespace Sys2Proof.Machine

/-- The body of WRITE_HEADER: 112 bits, which are the PUSH_BITS calls of R181 in order. -/
def writeHeader (s : State) : Res Unit := pushList (headerBits s.hdr) s

/-- The body of PARSE_HEADER: the metadata registers are written only when every test has passed (R183). -/
def parseHeader (s : State) : Res Unit :=
  (ofRead (readHeader pullBit s)).bind fun h s => .ok () { s with hdr := h }

/-- WRITE_HEADER (R181). -/
def execWriteHeader (s : State) : Host.Outcome State Fault Refusal := (writeHeader s).finish

/-- PARSE_HEADER -> COLOR, DEPTH, WIDTH, HEIGHT (R183). -/
def execParseHeader (s : State) : Host.Outcome State Fault Refusal := (parseHeader s).finish

/-- Sample i of PIX. -/
def pixAt (s : State) (i : Nat) : Int := (s.pix.getD i 0 : Nat)

/-- The channel cells of the pixel of raster index i (R186): the sample itself for Gray, the offset transform of the
three samples for Rgb. -/
def loadPixel (s : State) (i : Nat) : State :=
  let row := i / s.hdr.width.toNat
  let col := i % s.hdr.width.toNat
  if s.hdr.color = 0 then { s with chan := chanWrite s.chan 0 row col (pixAt s i) }
  else
    let f := ycocgForward (pixAt s (i * 3)) (pixAt s (i * 3 + 1)) (pixAt s (i * 3 + 2))
    { s with
      chan := chanWrite
        (chanWrite (chanWrite s.chan 0 row col f.1) 1 row col (f.2.1 + chromaOffset s.hdr))
        2 row col (f.2.2 + chromaOffset s.hdr) }

/-- The channel load, pixel by pixel (R186). -/
def loadChannels (s : State) : State := (List.range (nsamp s.hdr)).foldl loadPixel s

/-- The samples of the pixel of raster index i from the channel buffers (R190), none where a cell is unwritten. -/
def pixelSamples (s : State) (i : Nat) : Option (List Int) :=
  let row := i / s.hdr.width.toNat
  let col := i % s.hdr.width.toNat
  if s.hdr.color = 0 then (chanRead s.chan 0 row col).map fun x => [x]
  else
    match chanRead s.chan 0 row col, chanRead s.chan 1 row col, chanRead s.chan 2 row col with
    | some y, some co, some cg =>
      let f := ycocgInverse y (co - chromaOffset s.hdr) (cg - chromaOffset s.hdr)
      some [f.1, f.2.1, f.2.2]
    | _, _, _ => none

/-- The samples of `count` pixels from index `i` on, in PIX order (20_memory.md R45). -/
def gather (pixel : Nat → Option (List Int)) : Nat → Nat → Option (List Int)
  | _, 0 => some []
  | i, count + 1 =>
    match pixel i, gather pixel (i + 1) count with
    | some xs, some ys => some (xs ++ ys)
    | _, _ => none

/-- The FINISH phase (R190): every pixel of an Rgb image is checked before any is written; then PIX holds the image. -/
def reconstruct (s : State) : Res Unit :=
  match gather (pixelSamples s) 0 (nsamp s.hdr) with
  | none => .fault .unwrittenCell
  | some xs =>
    if s.hdr.color ≠ 0 ∧ xs.all (componentFits s.hdr) = false then .raise .malformedCodeword s
    else .ok () { s with pix := xs.map Int.toNat }

end Sys2Proof.Machine
end

