-- ==== Sys2Proof/Machine/Commands.lean ====
section
/-! DEFINITION. The three host commands (45_container.md R184, R188, R191): their start, which is what the command word
does, and the steps the engine then makes, PHASE by PHASE, until DONE or ERROR. -/

namespace Sys2Proof.Machine

/-- COMPRESS (R184): the start of the command (10_state.md R26), MODE <- ENC. An image above MAX_SAMPLES is not started
(R195, D26). -/
def execCompress (s : State) : Host.Outcome State Fault Refusal :=
  if imageTooLarge s then .refused .imageTooLarge else .next (startCommand .enc s)

/-- DECOMPRESS (R188): the start of the command, MODE <- DEC. -/
def execDecompress (s : State) : Host.Outcome State Fault Refusal := .next (startCommand .dec s)

/-- READ_HEADER (R191): the start of the command, MODE <- HDR. -/
def execReadHeader (s : State) : Host.Outcome State Fault Refusal := .next (startCommand .hdr s)

/-- COMPRESS in PHASE HEADER (R184): validation (R185), WRITE_HEADER, channel load (R186). -/
def compressHeader (s : State) : Res Unit :=
  if inputsValid s then (writeHeader s).bind fun _ s => .ok () (enterSamples (loadChannels s))
  else .raise .invalidInput s

/-- DECOMPRESS in PHASE HEADER (R188); an image above MAX_SAMPLES is refused (R195). -/
def decompressHeader (s : State) : Res Unit :=
  (parseHeader s).bind fun _ s => if imageTooLarge s then .refuse .imageTooLarge else .ok () (enterSamples s)

/-- READ_HEADER in PHASE HEADER (R191). -/
def readHeaderOnly (s : State) : Res Unit := (parseHeader s).bind fun _ s => .ok () (finishCommand s)

/-- COMPRESS in PHASE FLUSH (R184). -/
def compressFlush (s : State) : Res Unit := (flushSink s).bind fun _ s => .ok () (finishCommand s)

/-- DECOMPRESS in PHASE FINISH (R188, R190). -/
def decompressFinish (s : State) : Res Unit := (reconstruct s).bind fun _ s => .ok () (finishCommand s)

/-- What a BUSY engine does next, by MODE and PHASE (R14, R184, R188, R191). -/
def engineRes (s : State) : Res Unit :=
  match s.stat.mode, s.seq.phase with
  | .enc, .header => compressHeader s
  | .enc, .samples => encodeSample s
  | .enc, .flush => compressFlush s
  | .dec, .header => decompressHeader s
  | .dec, .samples => decodeSample s
  | .dec, .finish => decompressFinish s
  | .hdr, .header => readHeaderOnly s
  | _, _ => .fault .noSequencerStep

/-- One step of a BUSY engine. -/
def engineStep (s : State) : Host.Outcome State Fault Refusal := (engineRes s).finish

end Sys2Proof.Machine
end

