-- ==== Sys2Proof/Machine/Selector.lean ====
section
/-! DEFINITION. The predictor and selector operations (42_predictor_selector.md): PREDICT, GET_K, UPDATE. -/

namespace Sys2Proof.Machine

/-- PREDICT -> A, B, L, H, DELTA (R130). -/
def execPredict (s : State) : Host.Outcome State Fault Refusal := (predict s).finish

/-- GET_K DELTA -> K (R138). -/
def execGetK (delta : Nat) (s : State) : Host.Outcome State Fault Refusal :=
  ((getK delta s).bind fun _ s => .ok () s).finish

/-- UPDATE DELTA, v (R139). -/
def execUpdate (delta v : Nat) (s : State) : Host.Outcome State Fault Refusal := (updateTable delta v s).finish

end Sys2Proof.Machine
end

