-- ==== Sys2Proof/Machine/Wire.lean ====
section
/-! DEFINITION. The fields of the stream as instructions (30_encoding.md R60 to R72). A field has two sides: the encoder
(MODE = ENC) puts it into the bit sink, the decoder builds from it what R67 says. `exec` of a field is its encoder's side
while MODE is ENC and its decoder's side otherwise (log entry 5). On the decoder's side the field's bits have been
read already: DEC_SAMPLE and PARSE_HEADER are the reading of a field and then this. -/

namespace Sys2Proof.Machine

/-- The side of a field that MODE selects. -/
def onWire (emit take : State → Res Unit) (s : State) : Host.Outcome State Fault Refusal :=
  (match s.stat.mode with
    | .enc => emit s
    | .none => take s
    | .dec => take s
    | .hdr => take s).finish

/-- HEADER (R60): 112 bits out; or the metadata registers, ZeroDimension for a zero width or height (R69). -/
def execHeader (color depth : BitVec 1) (width height : Word32) (s : State) : Host.Outcome State Fault Refusal :=
  onWire (pushList (headerBits ⟨color, depth, width, height⟩))
    (fun s =>
      if width = 0 ∨ height = 0 then .raise .zeroDimension s
      else .ok () { s with hdr := ⟨color, depth, width, height⟩ }) s

/-- RAW_SAMPLE (R63, R161, R166): w(CH) bits out; or the cell and the sequencer. -/
def execRawSample (v : Nat) (s : State) : Host.Outcome State Fault Refusal :=
  onWire (fun s => (pushBits v (chanWidth s) s).bind fun _ s => .ok () (advance s))
    (fun s => .ok () (storeSample (low v (chanWidth s) : Nat) s)) s

/-- SYM_IN (R162, R167). An index outside the alphabet is MalformedCodeword (R70). -/
def execSymIn (v : Nat) (s : State) : Host.Outcome State Fault Refusal :=
  onWire (fun s => (predict s).bind fun _ s => (emitIn v s).bind fun _ s => .ok () (advance s))
    (fun s => (predict s).bind fun _ s =>
      if v ≤ s.dp.delta then .ok () (storeSample (s.dp.l + v) s) else .raise .malformedCodeword s) s

/-- The decoder's side of an out-of-range symbol that carries v: GET_K, the quotient bound of R113, V, then R168. -/
def takeRiceSymbol (above : Bool) (v : Nat) (s : State) : Res Unit :=
  (predict s).bind fun _ s =>
  (getK s.dp.delta s).bind fun k s =>
  if qmax (chanWidth s) k < v / 2 ^ k then .raise .malformedCodeword s
  else takeOutOfRange above v { s with dp := { s.dp with v := v } }

/-- The encoder's side of an out-of-range symbol that carries v (R163, R164). -/
def emitRiceSymbol (above : Bool) (v : Nat) (s : State) : Res Unit :=
  (predict s).bind fun _ s => (emitOutOfRange above v s).bind fun _ s => .ok () (advance s)

/-- SYM_BELOW (R163, R168, R169). -/
def execSymBelow (v : Nat) (s : State) : Host.Outcome State Fault Refusal :=
  onWire (emitRiceSymbol false v) (takeRiceSymbol false v) s

/-- SYM_ABOVE (R164, R168, R169). -/
def execSymAbove (v : Nat) (s : State) : Host.Outcome State Fault Refusal :=
  onWire (emitRiceSymbol true v) (takeRiceSymbol true v) s

/-- RICE_CODEWORD with the parameter in K (R110): q zeros, a one and K bits out; or V, with the bound of R113. -/
def execRiceCodeword (q r : Nat) (s : State) : Host.Outcome State Fault Refusal :=
  onWire (fun s => pushRice q (low r s.dp.k) s.dp.k s)
    (fun s =>
      if qmax (chanWidth s) s.dp.k < q then .raise .malformedCodeword s
      else .ok () { s with dp := { s.dp with v := riceValue s.dp.k q (low r s.dp.k) } }) s

/-- A phased-in codeword over the alphabet of DELTA + 1 values (R118, R119): the m or m + 1 low bits of the word out, a
codeword or not (log entry 22); or the index it stands for, MalformedCodeword for a word of no index (R70, R121). -/
def phasedWord (cw : Codeword) (s : State) : Host.Outcome State Fault Refusal :=
  let n := s.dp.delta + 1
  onWire (pushCodeword n cw)
    (fun s =>
      match codewordIndex n cw with
      | some v => .ok () { s with res := { s.res with val := v } }
      | none => .raise .malformedCodeword s) s

/-- PHASED_SHORT (R118, R119). -/
def execPhasedShort (x : Nat) (s : State) : Host.Outcome State Fault Refusal := phasedWord (.short x) s

/-- PHASED_LONG (R118, R119). -/
def execPhasedLong (y : Nat) (s : State) : Host.Outcome State Fault Refusal := phasedWord (.long y) s

/-- PADDING (R92, R71): the partial byte goes out with its low bits zero, S_FLUSHED as it was (log entry 32); the decoder
does not read padding, and nothing changes. -/
def execPadding (s : State) : Host.Outcome State Fault Refusal := onWire emitPadding (fun s => .ok () s) s

end Sys2Proof.Machine
end

