-- ==== Sys2Proof/Machine/Dispatch.lean ====
section
/-! DEFINITION. One arm per instruction. -/

namespace Sys2Proof.Machine

def exec (i : Instr) (s : State) : Host.Outcome State Fault Refusal :=
  match i with
  | .compress => Sys2Proof.Machine.execCompress s
  | .decompress => Sys2Proof.Machine.execDecompress s
  | .readHeader => Sys2Proof.Machine.execReadHeader s
  | .pushBit b => Sys2Proof.Machine.execPushBit b s
  | .pushBits value n => Sys2Proof.Machine.execPushBits value n s
  | .flush => Sys2Proof.Machine.execFlush s
  | .pullBit => Sys2Proof.Machine.execPullBit s
  | .pullBits n => Sys2Proof.Machine.execPullBits n s
  | .riceEnc v k => Sys2Proof.Machine.execRiceEnc v k s
  | .riceDec k w => Sys2Proof.Machine.execRiceDec k w s
  | .phasedEnc v n => Sys2Proof.Machine.execPhasedEnc v n s
  | .phasedDec n => Sys2Proof.Machine.execPhasedDec n s
  | .predict => Sys2Proof.Machine.execPredict s
  | .getK delta => Sys2Proof.Machine.execGetK delta s
  | .update delta v => Sys2Proof.Machine.execUpdate delta v s
  | .ycocgFwd r g b => Sys2Proof.Machine.execYcocgFwd r g b s
  | .ycocgInv y co cg => Sys2Proof.Machine.execYcocgInv y co cg s
  | .encSample => Sys2Proof.Machine.execEncSample s
  | .decSample => Sys2Proof.Machine.execDecSample s
  | .writeHeader => Sys2Proof.Machine.execWriteHeader s
  | .parseHeader => Sys2Proof.Machine.execParseHeader s
  | .header color depth width height => Sys2Proof.Machine.execHeader color depth width height s
  | .rawSample v => Sys2Proof.Machine.execRawSample v s
  | .symIn v => Sys2Proof.Machine.execSymIn v s
  | .symBelow v => Sys2Proof.Machine.execSymBelow v s
  | .symAbove v => Sys2Proof.Machine.execSymAbove v s
  | .riceCodeword q r => Sys2Proof.Machine.execRiceCodeword q r s
  | .phasedShort x => Sys2Proof.Machine.execPhasedShort x s
  | .phasedLong y => Sys2Proof.Machine.execPhasedLong y s
  | .padding => Sys2Proof.Machine.execPadding s

end Sys2Proof.Machine
end

