-- ==== Sys2Proof/Machine/Step.lean ====
section
/-! DEFINITION. One step of the machine, and where its next instruction is fetched. -/

namespace Sys2Proof.Machine

/-- One step: the host's reset or command word, if the engine takes it now (`nextEvent`); else the running command's next
step (10_state.md R14); else nothing: an idle engine "performs no step until the host issues a command"
(70_reset_and_hazards.md R230, log entry 18). -/
def step (s : State) : Host.Outcome State Fault Refusal :=
  match nextEvent s with
  | some (.reset, t) => .next (resetEngine t)
  | some (.word c, t) =>
    match decodeCommand c with
    | .ok i => if performs c t then exec i t else .next t
    | .error _ => .next (rejectCode t)
  | none =>
    match s.stat.status with
    | .busy => engineStep s
    | .idle => .next s
    | .done => .next s
    | .error => .next s

/-- The state in which the next step fetches the given table word. A word of fourteen bytes is a stream header: it
stands at the head of IN, DECOMPRESS is in its HEADER phase, nothing is issued and no read fails. Any other word is a
command word issued at once to an engine that is IDLE, where every operation is performed. -/
def State.withFetchWord (s : State) (nbits w : Nat) : State :=
  if nbits = 112 then
    { startCommand .dec s with inp := tableHeaderBytes w, cmdq := [], inFail := [] }
  else
    { s with
      cmdq := .word (tableIssue w) :: s.cmdq
      stat := { s.stat with status := .idle } }

end Sys2Proof.Machine
end

