-- ==== Sys2Proof/Safety.lean ====
section
/-! DEFINITION. The terms the statements use: the bit streams behind the sink and the source, programs of operations
(30_encoding.md R74), the invariants of a run, and when the image a command is given is well formed. -/

namespace Sys2Proof.Machine

/-! ## Streams -/

/-- No call of ByteOut fails (20_memory.md R42 with no IoError). -/
abbrev quietOut (s : State) : Prop := ∀ f ∈ s.outFail, f = false

/-- No call of ByteIn fails (R43 with no IoError). -/
abbrev quietIn (s : State) : Prop := ∀ f ∈ s.inFail, f = false

/-- Every bit pushed so far, in order: the bits of OUT and the S_CNT bits buffered in S_ACC (10_state.md R18). -/
def sinkBits (s : State) : List Bool := streamBits s.out ++ (byteBits s.sink.acc).take s.sink.cnt.toNat

/-- How many calls of a byte port succeed before the first that fails; none if no failure is pending. -/
def readsBeforeFailure : List Bool → Option Nat
  | [] => none
  | true :: _ => some 0
  | false :: rest => (readsBeforeFailure rest).map (· + 1)

/-- The bytes of IN that the reader still delivers, up to its first failure (R43). -/
def readableBytes (s : State) : List Byte :=
  match readsBeforeFailure s.inFail with
  | none => s.inp.drop s.inPos
  | some n => (s.inp.drop s.inPos).take n

/-- Every bit the source can still deliver, in order: the R_CNT unread bits of R_ACC (R19) and the bytes the reader
delivers. -/
def readableBits (s : State) : List Bool := bitsMsb s.src.acc.toNat s.src.cnt.toNat ++ streamBits (readableBytes s)

/-- What a pull past those bits raises: IoError where the reader's failure comes no later than the end of IN, Truncated
otherwise (20_memory.md R43, R44). -/
def readEnd (s : State) : Err :=
  match readsBeforeFailure s.inFail with
  | none => .truncated
  | some n => if n ≤ (s.inp.drop s.inPos).length then .ioError else .truncated

/-- "Bits 7 - S_CNT down to 0 are zero" (R18, 40_bitio.md R97). -/
abbrev sinkClean (s : State) : Prop := ∀ j < 8 - s.sink.cnt.toNat, s.sink.acc.getLsbD j = false

/-- The sink takes bits: not flushed, its unused bits zero, and no write fails. -/
abbrev sinkReady (s : State) : Prop := s.sink.flushed = false ∧ sinkClean s ∧ quietOut s

/-- The state with another bit sink, OUT and writer's answers: all that pushing changes. -/
def withSink (s : State) (sink : BitSink) (out : List Byte) (outFail : List Bool) : State :=
  { s with sink := sink, out := out, outFail := outFail }

/-- The state with another bit source, IN_POS and reader's answers: all that pulling changes. -/
def withSource (s : State) (src : BitSource) (inPos : Nat) (inFail : List Bool) : State :=
  { s with src := src, inPos := inPos, inFail := inFail }

/-- The two states differ at most in what pushing changes. -/
def sameButSink (s t : State) : Prop := t = withSink s t.sink t.out t.outFail

/-- The two states differ at most in what pulling changes. -/
def sameButSource (s t : State) : Prop := t = withSource s t.src t.inPos t.inFail

/-- The state after every readable bit is used and one more pull has failed: the buffer is empty, and the failing
call of ByteIn has moved nothing. -/
def exhausted (s t : State) : Prop :=
  sameButSource s t ∧ t.src.cnt = 0 ∧ t.inPos = s.inPos + (readableBytes s).length

/-- PUSH_BIT does not complete: the sink is flushed, or the byte it completes is not written (40_bitio.md R90). -/
abbrev pushFails (s : State) : Prop := s.sink.flushed = true ∨ (s.sink.cnt = 7 ∧ s.outFail.head? = some true)

/-- PUSH_BIT performed for each bit in order, up to the first that raises (20_memory.md R48). -/
def pushEach : List Bool → State → Host.Outcome State Fault Refusal
  | [], s => .next s
  | b :: rest, s =>
    match exec (.pushBit (BitVec.ofBool b)) s with
    | .next t => if pushFails s then .next t else pushEach rest t
    | .fault f => .fault f
    | .refused r => .refused r

/-- The outcome of an operation that appends exactly these bits and does nothing else. -/
def appends (bits : List Bool) (s : State) (o : Host.Outcome State Fault Refusal) : Prop :=
  ∃ t, o = .next t ∧ sinkReady t ∧ sinkBits t = sinkBits s ++ bits ∧ sameButSink s t

/-! ## Programs -/

/-- A program: operations applied one after another to one machine (R74). -/
def runProgram : List Instr → State → Host.Outcome State Fault Refusal
  | [], s => .next s
  | i :: rest, s =>
    match exec i s with
    | .next t => runProgram rest t
    | .fault f => .fault f
    | .refused r => .refused r

/-- The bits that a PUSH_BIT or PUSH_BITS appends (R90, R91); other operations append none here. -/
def pushedBits : Instr → List Bool
  | .pushBit b => [b.getLsbD 0]
  | .pushBits value n => bitsMsb value.toNat n
  | _ => []

/-- The operation is a PUSH_BIT, or a PUSH_BITS of at most 64 bits. -/
def isPush : Instr → Bool
  | .pushBit _ => true
  | .pushBits _ n => decide (n ≤ Config.pushMax)
  | _ => false

/-- The machine's next step is the running command's: STATUS is BUSY and nothing takes over. -/
abbrev engineTurn (s : State) : Prop := s.stat.status = .busy ∧ ∀ e rest, s.cmdq = e :: rest → takesOver e = false

/-- The bits that n PULL_BITs deliver, in order (R93). -/
def pulledBits : Nat → State → List Bool
  | 0, _ => []
  | n + 1, s =>
    match exec .pullBit s with
    | .next t => t.res.bit.getLsbD 0 :: pulledBits n t
    | .fault _ => []
    | .refused _ => []

/-- The 14 bytes of a header, "big-endian throughout" (30_encoding.md R60). -/
def headerBytes (h : HeaderFields) : List Byte :=
  [0x46, 0x4C, 0x43, 0x53, h.color.setWidth 8, h.depth.setWidth 8] ++
    [24, 16, 8, 0].map (fun i => (h.width >>> i).setWidth 8) ++
    [24, 16, 8, 0].map (fun i => (h.height >>> i).setWidth 8)

/-! ## Prediction -/

/-- The sample in progress is a predicted one and its two neighbours hold a and b (42_predictor_selector.md R130). -/
def neighboursHold (s : State) (a b : Int) : Prop :=
  2 ≤ idx s ∧
    chanRead s.chan s.seq.ch.toNat (neighbours s.hdr.width.toNat s.seq.row.toNat s.seq.col.toNat).1.1
      (neighbours s.hdr.width.toNat s.seq.row.toNat s.seq.col.toNat).1.2 = some a ∧
    chanRead s.chan s.seq.ch.toNat (neighbours s.hdr.width.toNat s.seq.row.toNat s.seq.col.toNat).2.1
      (neighbours s.hdr.width.toNat s.seq.row.toNat s.seq.col.toNat).2.2 = some b

/-- A value that the channel in progress can code (10_state.md R23). -/
abbrev codedValue (s : State) (x : Int) : Prop := 0 ≤ x ∧ x ≤ maxSample s

/-- The context of two neighbours, `DELTA = H - L` (R136). -/
def deltaOf (a b : Int) : Nat := (max a b - min a b).toNat

/-- The state with the results of PREDICT for the neighbours a and b (R136). -/
def afterPredict (s : State) (a b : Int) : State :=
  { s with dp := { s.dp with a := a, b := b, l := min a b, h := max a b, delta := deltaOf a b } }

/-- The parameter that GET_K gives for a context (R138). -/
def kFor (s : State) (delta : Nat) : Nat := selectK (tableRead s.table delta) (kset s)

/-- The value of the sample in progress in its channel buffer. -/
def currentCell (s : State) : Option Int := chanRead s.chan s.seq.ch.toNat s.seq.row.toNat s.seq.col.toNat

/-- The state with the value p in P and in the cell of the sample in progress (44_channel_coder.md R168). -/
def withSample (s : State) (p : Int) : State :=
  { s with
    dp := { s.dp with p := p }
    chan := chanWrite s.chan s.seq.ch.toNat s.seq.row.toNat s.seq.col.toNat p }

/-! ## The selector's rows -/

/-- The least entry of a row over a K-set. -/
def rowMin (entry : Nat → Nat) : List Nat → Nat
  | [] => 0
  | [k] => entry k
  | k :: rest => min (entry k) (rowMin entry rest)

/-- The growth bound of 42_predictor_selector.md R141: 1024 updates of at most 4101 each. -/
def growthBound : Nat := 1024 * 4101

/-- The invariant behind R141: an entry exceeds the bound by at most what the updates since the last halving added. -/
def rowBounded (s : State) (delta : Nat) : Prop :=
  ∀ k ∈ kset s, tableRead s.table delta k ≤ growthBound +
    4101 * (if rowMin (tableRead s.table delta) (kset s) < Config.halveAt
      then rowMin (tableRead s.table delta) (kset s) else 0)

/-! ## The engine's invariant -/

/-- The cell holds a value that its channel can code, `[0, 2^w(c) - 1]` (R23). -/
def cellCoded (s : State) (c row col : Nat) : Prop :=
  ∃ v : Nat, chanRead s.chan c row col = some (v : Int) ∧ v < 2 ^ widthOf s.hdr c

/-- Every cell of every channel of the image is coded. -/
def channelsFull (s : State) : Prop :=
  ∀ c row col, c < nch s.hdr → row < s.hdr.height.toNat → col < s.hdr.width.toNat → cellCoded s c row col

/-- Every cell before the sequencer's position, in channel and raster order (00_scope.md R9), is coded. -/
def cellsBefore (s : State) : Prop :=
  ∀ c row col, c < nch s.hdr → row < s.hdr.height.toNat → col < s.hdr.width.toNat →
    (c < s.seq.ch.toNat ∨ (c = s.seq.ch.toNat ∧ row * s.hdr.width.toNat + col < idx s)) → cellCoded s c row col

/-- The sequencer names a sample of the image (10_state.md R14). -/
def seqInRange (s : State) : Prop :=
  s.seq.ch.toNat < nch s.hdr ∧ s.seq.row.toNat < s.hdr.height.toNat ∧ s.seq.col.toNat < s.hdr.width.toNat

/-- What a BUSY engine keeps between steps, by MODE and PHASE (R184, R188, R191). -/
def engineReady (s : State) : Prop :=
  match s.stat.mode, s.seq.phase with
  | .enc, .header => s.sink.flushed = false
  | .enc, .samples => s.sink.flushed = false ∧ seqInRange s ∧ channelsFull s
  | .enc, .flush => s.sink.flushed = false
  | .dec, .header => True
  | .dec, .samples => seqInRange s ∧ cellsBefore s
  | .dec, .finish => channelsFull s
  | .hdr, .header => True
  | _, _ => False

/-- The machine's invariant: the memories in canonical form, the unused bits of S_ACC zero unless an error has stopped the
sink (R97), IN_POS within IN (R43), and a BUSY engine in a step of its command with no error recorded (R26). -/
def engineInv (s : State) : Prop :=
  Memory.wf s = true ∧ (s.stat.status = .error ∨ sinkClean s) ∧ s.inPos ≤ s.inp.length ∧
    (s.stat.status = .busy → s.stat.errCode = 0 ∧ engineReady s)

/-! ## Commands -/

/-- A command started by a word that the host issues: `exec` of the command, then steps of the machine. -/
def runCommand (i : Instr) (n : Nat) (s : State) : Host.Outcome State Fault Refusal :=
  match exec i s with
  | .next t => Host.Core.run Sys2Proof.core n t
  | .fault f => .fault f
  | .refused r => .refused r

end Sys2Proof.Machine
end

