-- ==== Sys2Proof/Certificates/Slice0/Obligations.lean ====
section
/-! DEFINITION. The statements for the provers. Each docstring names the rule of spec/ it formalises, or the log entry
(notes/assumptions/) of the model's choice it rests on. `sinkReady`, `readableBits` and the other terms are defined in
Sys2Proof/Safety.lean. -/

section

open Sys2Proof Sys2Proof.Machine

/-! ## Reset, the host's words, the start of a command, errors -/

/-- R25: the values that the table of R25 gives. The registers it calls unspecified are not mentioned. -/
def Obligations.ResetValues : Prop :=
  State.reset.stat = ⟨.idle, 0, 0, .none⟩ ∧ State.reset.seq = ⟨.idle, 0, 0, 0⟩ ∧
    (∀ delta k, tableRead State.reset.table delta k = 0) ∧ State.reset.sink = ⟨0, 0, false⟩ ∧
    State.reset.src.cnt = 0 ∧ (∀ c row col, chanRead State.reset.chan c row col = none) ∧
    State.reset.out = [] ∧ State.reset.inPos = 0

/-- A step runs the decoded instruction: the host's oldest word leaves the queue and its instruction is executed, where STATUS
is IDLE, or the word is a host command and STATUS is not BUSY or it is issued at once (log entries 2, 3). After DONE and
ERROR a micro-operation's word is taken and nothing else changes (92_eei_decisions.md D17, log entry 3). -/
def Obligations.StepRunsIssuedInstruction : Prop :=
  ∀ (s : State) (c : Issue) (rest : List HostEvent) (i : Instr), s.cmdq = .word c :: rest → decodeCommand c = .ok i →
    (s.stat.status = .idle ∨ (isHostCommand c = true ∧ (s.stat.status ≠ .busy ∨ c.preempt = true)) →
      step s = exec i { s with cmdq := rest }) ∧
    (s.stat.status = .done ∨ s.stat.status = .error → isHostCommand c = false →
      step s = .next { s with cmdq := rest })

/-- Where no word is taken, a step is the running command's: in PHASE SAMPLES one ENC_SAMPLE or one DEC_SAMPLE (R184, R188;
log entries 3, 15), and nothing in an engine that is not BUSY (R230, D17; log entry 18). -/
def Obligations.StepWithoutWord : Prop :=
  (∀ s : State, s.cmdq = [] → s.stat.status ≠ .busy → step s = .next s) ∧
  (∀ s : State, engineTurn s → s.seq.phase = .samples →
      (s.stat.mode = .enc → step s = exec .encSample s) ∧ (s.stat.mode = .dec → step s = exec .decSample s))

/-- A code outside the table of R73 raises InvalidInput whatever STATUS is, but waits, while STATUS is BUSY, unless it is issued
at once (R201, R206 and R76 read together: log entry 25; log entry 3). -/
def Obligations.UnknownCodeRejected : Prop :=
  ∀ (s : State) (c : Issue) (rest : List HostEvent), s.cmdq = .word c :: rest →
    (s.stat.status ≠ .busy ∨ c.preempt = true) →
    c.code ∉ ([0x01, 0x02, 0x03, 0x10, 0x11, 0x12, 0x18, 0x19, 0x20, 0x21, 0x22, 0x23, 0x30, 0x31, 0x32, 0x40, 0x41,
      0x50, 0x51, 0x60, 0x61] : List (BitVec 8)) →
    step s = .next { s with
      cmdq := rest, stat := ⟨.error, 8, 0, s.stat.mode⟩, seq := ⟨.error, s.seq.ch, s.seq.row, s.seq.col⟩ }

/-- R216: a host command issued at once starts whatever STATUS is, and the command in progress has no result (log
entry 3). -/
def Obligations.HostCommandTakesOver : Prop :=
  ∀ (s : State) (c : Issue) (rest : List HostEvent), s.cmdq = .word c :: rest → c.preempt = true →
    (c.code = 0x01 → imageTooLarge s = false → step s = .next (startCommand .enc { s with cmdq := rest })) ∧
    (c.code = 0x02 → step s = .next (startCommand .dec { s with cmdq := rest })) ∧
    (c.code = 0x03 → step s = .next (startCommand .hdr { s with cmdq := rest }))

/-- R26: the values at the start of every command; everything else, the metadata registers and PIX among it, is kept. -/
def Obligations.CommandStart : Prop :=
  ∀ s : State,
    ((∀ m, s.maxSamples = some m → nsamp s.hdr * nch s.hdr ≤ m) →
      exec .compress s = .next { s with
        stat := ⟨.busy, 0, 0, .enc⟩, seq := ⟨.header, 0, 0, 0⟩, sink := ⟨0, 0, false⟩, src := ⟨s.src.acc, 0⟩,
        table := [], chan := [], out := [], inPos := 0 }) ∧
    exec .decompress s = .next { s with
      stat := ⟨.busy, 0, 0, .dec⟩, seq := ⟨.header, 0, 0, 0⟩, sink := ⟨0, 0, false⟩, src := ⟨s.src.acc, 0⟩,
      table := [], chan := [], out := [], inPos := 0 } ∧
    exec .readHeader s = .next { s with
      stat := ⟨.busy, 0, 0, .hdr⟩, seq := ⟨.header, 0, 0, 0⟩, sink := ⟨0, 0, false⟩, src := ⟨s.src.acc, 0⟩,
      table := [], chan := [], out := [], inPos := 0 }

/-- R201, R206: what raising an error writes, with the numbers of the nine errors; everything else is kept. -/
def Obligations.ErrorEntry : Prop :=
  (∀ (e : Err) (s : State), raiseError e s = { s with
    stat := ⟨.error, e.code, e.info, s.stat.mode⟩, seq := ⟨.error, s.seq.ch, s.seq.row, s.seq.col⟩ }) ∧
  (∀ byte, Err.badSignature.code = 1 ∧ (Err.unsupportedColorType byte).code = 2 ∧ (Err.unsupportedDepth byte).code = 3 ∧
    Err.zeroDimension.code = 4 ∧ Err.truncated.code = 5 ∧ Err.malformedCodeword.code = 6 ∧ Err.ioError.code = 7 ∧
    Err.invalidInput.code = 8 ∧ Err.useAfterFlush.code = 9 ∧
    (Err.unsupportedColorType byte).info = byte ∧ (Err.unsupportedDepth byte).info = byte) ∧
  (∀ e : Err, e.code ≠ 2 → e.code ≠ 3 → e.info = 0)

/-! ## The bit layer -/

/-- R90: PUSH_BIT, every path of its pseudocode. -/
def Obligations.PushBit : Prop :=
  ∀ (s : State) (b : BitVec 1),
    (s.sink.flushed = true → exec (.pushBit b) s = .next (raiseError .useAfterFlush s)) ∧
    (s.sink.flushed = false → ∃ acc : Byte,
      (∀ j < 8, acc.getLsbD j = if j = 7 - s.sink.cnt.toNat then b.getLsbD 0 else s.sink.acc.getLsbD j) ∧
      (s.sink.cnt ≠ 7 → exec (.pushBit b) s = .next { s with sink := ⟨acc, s.sink.cnt + 1, false⟩ }) ∧
      (s.sink.cnt = 7 → s.outFail.head? = some true →
        exec (.pushBit b) s =
          .next (raiseError .ioError { s with sink := ⟨acc, 7, false⟩, outFail := s.outFail.tail })) ∧
      (s.sink.cnt = 7 → s.outFail.head? ≠ some true →
        exec (.pushBit b) s =
          .next { s with sink := ⟨0, 0, false⟩, out := s.out ++ [acc], outFail := s.outFail.tail }))

/-- R91: PUSH_BITS is n single pushes, bit n - 1 first; more than 64 bits is InvalidInput with no other change. On a sink
that takes bits it completes. -/
def Obligations.PushBits : Prop :=
  ∀ (s : State) (value : BitVec 64) (n : Nat),
    (64 < n → exec (.pushBits value n) s = .next (raiseError .invalidInput s)) ∧
    (n ≤ 64 → exec (.pushBits value n) s = pushEach (bitsMsb value.toNat n) s ∧
      (sinkReady s → appends (bitsMsb value.toNat n) s (exec (.pushBits value n) s)))

/-- R92: FLUSH, every path of its pseudocode. -/
def Obligations.Flush : Prop :=
  ∀ s : State,
    (s.sink.flushed = true → exec .flush s = .next (raiseError .useAfterFlush s)) ∧
    (s.sink.flushed = false → s.sink.cnt = 0 →
      exec .flush s = .next { s with sink := ⟨s.sink.acc, 0, true⟩ }) ∧
    (s.sink.flushed = false → s.sink.cnt ≠ 0 → s.outFail.head? = some true →
      exec .flush s = .next (raiseError .ioError { s with outFail := s.outFail.tail })) ∧
    (s.sink.flushed = false → s.sink.cnt ≠ 0 → s.outFail.head? ≠ some true →
      exec .flush s =
        .next { s with sink := ⟨0, 0, true⟩, out := s.out ++ [s.sink.acc], outFail := s.outFail.tail })

/-- R93: PULL_BIT, every path of its pseudocode; an error leaves R_CNT and IN_POS as they were. -/
def Obligations.PullBit : Prop :=
  ∀ s : State,
    (s.src.cnt ≠ 0 → exec .pullBit s = .next { s with
      src := ⟨s.src.acc, s.src.cnt - 1⟩
      res := { s.res with bit := BitVec.ofBool (s.src.acc.getLsbD (s.src.cnt.toNat - 1)) } }) ∧
    (s.src.cnt = 0 → s.inFail.head? = some true →
      exec .pullBit s = .next (raiseError .ioError { s with inFail := s.inFail.tail })) ∧
    (s.src.cnt = 0 → s.inFail.head? ≠ some true → s.inp[s.inPos]? = none →
      exec .pullBit s = .next (raiseError .truncated { s with inFail := s.inFail.tail })) ∧
    (∀ x : Byte, s.src.cnt = 0 → s.inFail.head? ≠ some true → s.inp[s.inPos]? = some x →
      exec .pullBit s = .next { s with
        src := ⟨x, 7⟩, inPos := s.inPos + 1, inFail := s.inFail.tail
        res := { s.res with bit := BitVec.ofBool (x.getLsbD 7) } })

/-- R94: PULL_BITS delivers the next n bits, the first the most significant; where fewer can be delivered it consumes
them and raises what the reading ends in; more than 64 is InvalidInput with nothing pulled. -/
def Obligations.PullBits : Prop :=
  ∀ (s : State) (n : Nat),
    (64 < n → exec (.pullBits n) s = .next (raiseError .invalidInput s)) ∧
    (n ≤ 64 → n ≤ (readableBits s).length → ∃ t, sameButSource s t ∧ readableBits t = (readableBits s).drop n ∧
      exec (.pullBits n) s = .next { t with res := { s.res with val := ofBits ((readableBits s).take n) } }) ∧
    (n ≤ 64 → (readableBits s).length < n → ∃ t, exhausted s t ∧
      exec (.pullBits n) s = .next (raiseError (readEnd s) t))

/-- R95, the bit-sink law: any pushes into a fresh sink and then FLUSH leave ceil(N/8) bytes whose bits are the pushed ones
and zeros, and N PULL_BITs from a fresh source over those bytes return the pushed bits with no error. -/
def Obligations.BitSinkLaw : Prop :=
  ∀ (s : State) (pushes : List Instr), (∀ i ∈ pushes, isPush i = true) → s.sink = ⟨0, 0, false⟩ → s.out = [] →
    quietOut s →
    ∃ t, runProgram (pushes ++ [.flush]) s = .next t ∧ t.stat = s.stat ∧
      t.out.length = ((pushes.flatMap pushedBits).length + 7) / 8 ∧
      streamBits t.out = pushes.flatMap pushedBits ++
        List.replicate (8 * t.out.length - (pushes.flatMap pushedBits).length) false ∧
      ∀ u : State, u.src.cnt = 0 → u.inPos = 0 → u.inp = t.out → quietIn u →
        pulledBits (pushes.flatMap pushedBits).length u = pushes.flatMap pushedBits ∧
        ∃ v, runProgram (List.replicate (pushes.flatMap pushedBits).length .pullBit) u = .next v ∧ v.stat = u.stat

/-! ## The codes -/

/-- R111: RICE_ENC pushes q = v >> K zeros, a one and the K low bits of v. With K above 64 its call of PUSH_BITS raises
InvalidInput (R91) after the unary part: log entry 21. -/
def Obligations.RiceEnc : Prop :=
  ∀ (s : State) (v k : Nat),
    (k ≤ 64 →
      exec (.riceEnc v k) s = pushEach (List.replicate (v / 2 ^ k) false ++ true :: bitsMsb (v % 2 ^ k) k) s ∧
      (sinkReady s → appends (List.replicate (v / 2 ^ k) false ++ true :: bitsMsb (v % 2 ^ k) k) s
        (exec (.riceEnc v k) s))) ∧
    (64 < k → sinkReady s → ∃ t, sinkReady t ∧ sameButSink s t ∧
      sinkBits t = sinkBits s ++ (List.replicate (v / 2 ^ k) false ++ [true]) ∧
      exec (.riceEnc v k) s = .next (raiseError .invalidInput t))

/-- R112: RICE_DEC on every form its bits can take: a codeword within QMAX, an over-long run of zeros, a stream that ends
inside the codeword, and K above 64, whose call of PULL_BITS raises InvalidInput (R94): log entry 21. -/
def Obligations.RiceDec : Prop :=
  ∀ (s : State) (k w q : Nat) (rem rest : List Bool),
    (k ≤ 64 → q ≤ (2 ^ w - 1) / 2 ^ k → rem.length = k →
      readableBits s = List.replicate q false ++ true :: (rem ++ rest) →
      ∃ t, sameButSource s t ∧ readableBits t = rest ∧
        exec (.riceDec k w) s = .next { t with dp := { s.dp with v := q * 2 ^ k + ofBits rem } }) ∧
    (readableBits s = List.replicate ((2 ^ w - 1) / 2 ^ k + 1) false ++ rest →
      ∃ t, sameButSource s t ∧ readableBits t = rest ∧
        exec (.riceDec k w) s = .next (raiseError .malformedCodeword t)) ∧
    (q ≤ (2 ^ w - 1) / 2 ^ k → readableBits s = List.replicate q false →
      ∃ t, exhausted s t ∧ exec (.riceDec k w) s = .next (raiseError (readEnd s) t)) ∧
    (k ≤ 64 → q ≤ (2 ^ w - 1) / 2 ^ k → rem.length < k → readableBits s = List.replicate q false ++ true :: rem →
      ∃ t, exhausted s t ∧ exec (.riceDec k w) s = .next (raiseError (readEnd s) t)) ∧
    (64 < k → q ≤ (2 ^ w - 1) / 2 ^ k → readableBits s = List.replicate q false ++ true :: rest →
      ∃ t, sameButSource s t ∧ readableBits t = rest ∧
        exec (.riceDec k w) s = .next (raiseError .invalidInput t))

/-- R114: RICE_ENC pushes exactly (v >> K) + 1 + K bits, and RICE_DEC on them pulls exactly those and returns v, provided
v >> K is at most QMAX. For K up to 64, the largest that PUSH_BITS and PULL_BITS can move. -/
def Obligations.RiceRoundTrip : Prop :=
  ∀ (s u : State) (v k w : Nat) (rest : List Bool), k ≤ 64 → sinkReady s →
    ∃ (t : State) (bits : List Bool), exec (.riceEnc v k) s = .next t ∧ sinkBits t = sinkBits s ++ bits ∧
      bits.length = v / 2 ^ k + 1 + k ∧
      (v / 2 ^ k ≤ (2 ^ w - 1) / 2 ^ k → readableBits u = bits ++ rest →
        ∃ r, sameButSource u r ∧ readableBits r = rest ∧
          exec (.riceDec k w) u = .next { r with dp := { u.dp with v := v } })

/-- R120: PHASED_ENC pushes the word that the rule computes; a value outside the alphabet is refused, as the rule asks. A
word longer than 64 bits is InvalidInput (R91): log entry 21. -/
def Obligations.PhasedEnc : Prop :=
  ∀ (s : State) (v n : Nat),
    (n ≤ v → exec (.phasedEnc v n) s = .refused .outsideContract) ∧
    (v < n →
      let m := Nat.log2 n
      let bn := 2 ^ (m + 1) - n
      let an := n - bn
      let v' := (v + an / 2) % n
      let word := if n = 1 then [] else if v' < an then bitsMsb (v' + 2 * bn) (m + 1) else bitsMsb (v' - an) m
      (word.length ≤ 64 → exec (.phasedEnc v n) s = pushEach word s ∧
        (sinkReady s → appends word s (exec (.phasedEnc v n) s))) ∧
      (64 < word.length → exec (.phasedEnc v n) s = .next (raiseError .invalidInput s)))

/-- R121: PHASED_DEC on every form its bits can take; none of them is MalformedCodeword (R122). The first field has
m = ilog2(n) bits, of which more than 64 are InvalidInput (R94): log entry 21. For n = 0 see ModelStops. -/
def Obligations.PhasedDec : Prop :=
  ∀ (s : State) (n : Nat) (xs rest : List Bool) (b : Bool), 1 ≤ n →
    let m := Nat.log2 n
    let bn := 2 ^ (m + 1) - n
    let an := n - bn
    (m ≤ 64 → xs.length = m → ofBits xs < bn → readableBits s = xs ++ rest →
      ∃ t, sameButSource s t ∧ readableBits t = rest ∧
        exec (.phasedDec n) s =
          .next { t with res := { s.res with val := (ofBits xs + an + n - an / 2) % n } }) ∧
    (m ≤ 64 → xs.length = m → bn ≤ ofBits xs → readableBits s = xs ++ b :: rest →
      ∃ t, sameButSource s t ∧ readableBits t = rest ∧
        exec (.phasedDec n) s =
          .next { t with res := { s.res with val := (2 * ofBits xs + b.toNat - 2 * bn + n - an / 2) % n } }) ∧
    (m ≤ 64 → (readableBits s).length < m →
      ∃ t, exhausted s t ∧ exec (.phasedDec n) s = .next (raiseError (readEnd s) t)) ∧
    (m ≤ 64 → xs.length = m → bn ≤ ofBits xs → readableBits s = xs →
      ∃ t, exhausted s t ∧ exec (.phasedDec n) s = .next (raiseError (readEnd s) t)) ∧
    (64 < m → exec (.phasedDec n) s = .next (raiseError .invalidInput s))

/-- R122: the code over an alphabet of n values is injective, prefix-free and complete, every bit string of m + 1 bits begins
with the codeword of an index below n, and the average length lies in [m, m + 1]. PHASED_DEC's reading gives that index
where m is at most 64, the most bits that PULL_BITS moves (log entry 21). -/
def Obligations.PhasedCodeProperties : Prop :=
  ∀ n : Nat, 1 ≤ n →
    (∀ v v', v < n → v' < n → phasedCodeword n v = phasedCodeword n v' → v = v') ∧
    (∀ v v', v < n → v' < n →
      codewordBits n (phasedCodeword n v) <+: codewordBits n (phasedCodeword n v') → v = v') ∧
    (∀ bits : List Bool, bits.length = Nat.log2 n + 1 →
      ∃ v, v < n ∧ codewordBits n (phasedCodeword n v) <+: bits ∧
        (Nat.log2 n ≤ 64 → ∃ rest, readPhased pullList n bits = .ok v rest)) ∧
    2 * shortCount n + longCount n = 2 ^ (Nat.log2 n + 1) ∧
    ((List.range n).map fun v => (codewordBits n (phasedCodeword n v)).length).sum =
      shortCount n * Nat.log2 n + longCount n * (Nat.log2 n + 1) ∧
    n * Nat.log2 n ≤ shortCount n * Nat.log2 n + longCount n * (Nat.log2 n + 1) ∧
    shortCount n * Nat.log2 n + longCount n * (Nat.log2 n + 1) ≤ n * (Nat.log2 n + 1)

/-! ## The predictor and the selector -/

/-- R131, R132, R133, R136, and R135 for images one sample wide: the neighbours of each position and what PREDICT
derives from them; nothing else changes. -/
def Obligations.Predict : Prop :=
  ∀ (s : State) (ra ca rb cb : Nat) (a b : Int), s.seq.col.toNat < s.hdr.width.toNat →
    ((s.seq.row.toNat = 0 ∧ 2 ≤ s.seq.col.toNat ∧ ra = 0 ∧ ca = s.seq.col.toNat - 1 ∧ rb = 0 ∧
        cb = s.seq.col.toNat - 2) ∨
      (1 ≤ s.seq.row.toNat ∧ s.seq.col.toNat = 0 ∧ 2 ≤ s.hdr.width.toNat ∧ ra = s.seq.row.toNat - 1 ∧ ca = 0 ∧
        rb = s.seq.row.toNat - 1 ∧ cb = 1) ∨
      (1 ≤ s.seq.row.toNat ∧ 1 ≤ s.seq.col.toNat ∧ ra = s.seq.row.toNat - 1 ∧ ca = s.seq.col.toNat ∧
        rb = s.seq.row.toNat ∧ cb = s.seq.col.toNat - 1) ∨
      (s.hdr.width.toNat = 1 ∧ 2 ≤ s.seq.row.toNat ∧ ra = s.seq.row.toNat - 1 ∧ ca = 0 ∧
        rb = s.seq.row.toNat - 2 ∧ cb = 0)) →
    chanRead s.chan s.seq.ch.toNat ra ca = some a → chanRead s.chan s.seq.ch.toNat rb cb = some b →
    exec .predict s = .next { s with
      dp := { s.dp with a := a, b := b, l := min a b, h := max a b, delta := (max a b - min a b).toNat } }

/-- R134: both neighbours precede the sample in raster order and lie inside the channel, so PREDICT completes wherever
every earlier cell of the channel is written. -/
def Obligations.PredictReadsWrittenCells : Prop :=
  ∀ s : State, seqInRange s → 2 ≤ idx s →
    (∀ row col, row < s.hdr.height.toNat → col < s.hdr.width.toNat → row * s.hdr.width.toNat + col < idx s →
      (chanRead s.chan s.seq.ch.toNat row col).isSome = true) →
    (∀ pos, pos = (neighbours s.hdr.width.toNat s.seq.row.toNat s.seq.col.toNat).1 ∨
        pos = (neighbours s.hdr.width.toNat s.seq.row.toNat s.seq.col.toNat).2 →
      pos.1 < s.hdr.height.toNat ∧ pos.2 < s.hdr.width.toNat ∧ pos.1 * s.hdr.width.toNat + pos.2 < idx s) ∧
    ∃ a b, exec .predict s = .next (afterPredict s a b)

/-- R142: the K-set of each channel follows the image's depth. -/
def Obligations.ChannelKSets : Prop :=
  ∀ (m : HeaderFields) (c : Nat),
    (m.depth = 0 → ksetOf (widthOf m c) = [0, 1, 2, 3, 4, 5]) ∧
    (m.depth = 1 → ksetOf (widthOf m c) = [5, 6, 7, 8, 9, 10, 11])

/-- R138: GET_K gives the candidate of least entry, the largest of those that tie; it changes K and nothing else. -/
def Obligations.GetK : Prop :=
  ∀ (s : State) (delta : Nat), delta ≤ maxSample s →
    ∃ k, k ∈ kset s ∧ (∀ j ∈ kset s, tableRead s.table delta k ≤ tableRead s.table delta j) ∧
      (∀ j ∈ kset s, tableRead s.table delta j = tableRead s.table delta k → j ≤ k) ∧
      exec (.getK delta) s = .next { s with dp := { s.dp with k := k } }

/-- R139: UPDATE adds (v >> k) + 1 + k to every candidate's entry of the row and halves the row when the least entry is
1024 or more; no other entry and no other state changes. -/
def Obligations.Update : Prop :=
  ∀ (s : State) (delta v : Nat), delta ≤ maxSample s → tableWf s.table = true →
    ∃ t, exec (.update delta v) s = .next { s with table := t } ∧ tableWf t = true ∧
      ((∃ k ∈ kset s, tableRead s.table delta k + (v / 2 ^ k + 1 + k) < 1024) →
        ∀ k ∈ kset s, tableRead t delta k = tableRead s.table delta k + (v / 2 ^ k + 1 + k)) ∧
      ((∀ k ∈ kset s, 1024 ≤ tableRead s.table delta k + (v / 2 ^ k + 1 + k)) →
        ∀ k ∈ kset s, tableRead t delta k = (tableRead s.table delta k + (v / 2 ^ k + 1 + k)) / 2) ∧
      (∀ d k, k < 32 → (d ≠ delta ∨ k ∉ kset s) → tableRead t d k = tableRead s.table d k)

/-- Where the model stops, does nothing, or draws a free value, by its own choice: PREDICT is not performed for a verbatim
sample (log entry 10); a read of an unwritten cell stops PREDICT, ENC_SAMPLE and FINISH (log entry 8); a context outside T
gives GET_K some candidate and UPDATE a row of no stated value (log entry 9); PHASED_DEC of an empty alphabet pulls a free
number of bits and raises MalformedCodeword (log entry 35); SYM_IN refuses to encode a value outside the alphabet (log
entry 11); an image above MAX_SAMPLES is refused by COMPRESS before it starts and by DECOMPRESS once its header is read
(R195, log entry 12). -/
def Obligations.ModelStops : Prop :=
  (∀ s : State, (idx s < 2 → exec .predict s = .next s) ∧
      (2 ≤ idx s → (∃ pos, (pos = (neighbours s.hdr.width.toNat s.seq.row.toNat s.seq.col.toNat).1 ∨
          pos = (neighbours s.hdr.width.toNat s.seq.row.toNat s.seq.col.toNat).2) ∧
          chanRead s.chan s.seq.ch.toNat pos.1 pos.2 = none) →
        exec .predict s = .fault .unwrittenCell) ∧
      (currentCell s = none → exec .encSample s = .fault .unwrittenCell)) ∧
  (∀ (s : State) (c row col : Nat), engineTurn s → s.stat.mode = .dec → s.seq.phase = .finish → c < nch s.hdr →
      row < s.hdr.height.toNat → col < s.hdr.width.toNat → chanRead s.chan c row col = none →
      step s = .fault .unwrittenCell) ∧
  (∀ (s : State) (delta v : Nat), maxSample s < delta →
      (∃ k ∈ kset s, exec (.getK delta) s = .next { s with dp := { s.dp with k := k }, drawn := s.drawn + 1 }) ∧
      ∃ t, exec (.update delta v) s = .next { s with table := t, drawn := s.drawn + 1 } ∧
        (tableWf s.table = true → tableWf t = true ∧
          ∀ d k, k < 32 → (d ≠ delta ∨ k ∉ kset s) → tableRead t d k = tableRead s.table d k)) ∧
  (∀ s : State, ∃ m : Nat, let u := { s with drawn := s.drawn + 1 }
      (64 < m ∧ exec (.phasedDec 0) s = .next (raiseError .invalidInput u)) ∨
      (m ≤ 64 ∧ m ≤ (readableBits s).length ∧ ∃ t, sameButSource u t ∧ readableBits t = (readableBits s).drop m ∧
        exec (.phasedDec 0) s = .next (raiseError .malformedCodeword t)) ∨
      (m ≤ 64 ∧ (readableBits s).length < m ∧ ∃ t, exhausted u t ∧
        exec (.phasedDec 0) s = .next (raiseError (readEnd s) t))) ∧
  (∀ (s : State) (a b : Int) (v : Nat), s.stat.mode = .enc → sinkReady s → neighboursHold s a b → codedValue s a →
      codedValue s b → deltaOf a b < v → exec (.symIn v) s = .refused .outsideContract) ∧
  (∀ (s : State) (m : Nat), s.maxSamples = some m →
      (m < nsamp s.hdr * nch s.hdr → exec .compress s = .refused .imageTooLarge) ∧
      (∀ (h : HeaderFields) (rest : List Bool), engineTurn s → s.stat.mode = .dec → s.seq.phase = .header →
        h.width ≠ 0 → h.height ≠ 0 → readableBits s = headerBits h ++ rest → m < nsamp h * nch h →
        step s = .refused .imageTooLarge))

/-- R141: the bound behind the width of the entries. A cleared row is bounded, UPDATE of a row of T by a magnitude that a
sample can have keeps the row bounded, and a bounded row's entries stay below 2^24. -/
def Obligations.RowStaysBounded : Prop :=
  (∀ (s : State) (delta : Nat), (∀ k ∈ kset s, tableRead s.table delta k = 0) → rowBounded s delta) ∧
  (∀ (s t : State) (delta v : Nat), tableWf s.table = true → delta ≤ maxSample s → v + 1 ≤ maxSample s →
    rowBounded s delta → exec (.update delta v) s = .next t → rowBounded t delta) ∧
  (∀ (s : State) (delta : Nat), rowBounded s delta → ∀ k ∈ kset s, tableRead s.table delta k < 2 ^ 24)

/-! ## The colour transform -/

/-- R151, R153: the four assignments of YCOCG_FWD (on Int, `/ 2` is the floor division the rule asks for), the ranges of
its results on d-bit components, and the extremes that are reached for d = 8. -/
def Obligations.YcocgForward : Prop :=
  (∀ (s : State) (r g b : Int),
    let co := r - b
    let t := b + co / 2
    let cg := g - t
    let y := t + cg / 2
    exec (.ycocgFwd r g b) s = .next { s with res := { s.res with y := y, co := co, cg := cg } } ∧
      t = (r + b) / 2 ∧ y = (g + t) / 2) ∧
  (∀ (d : Nat) (r g b : Int) (s t : State), 1 ≤ d → 0 ≤ r → r ≤ 2 ^ d - 1 → 0 ≤ g → g ≤ 2 ^ d - 1 → 0 ≤ b →
    b ≤ 2 ^ d - 1 → exec (.ycocgFwd r g b) s = .next t →
    0 ≤ t.res.y ∧ t.res.y ≤ 2 ^ d - 1 ∧ -2 ^ d + 1 ≤ t.res.co ∧ t.res.co ≤ 2 ^ d - 1 ∧ -2 ^ d + 1 ≤ t.res.cg ∧
      t.res.cg ≤ 2 ^ d - 1) ∧
  ycocgForward 255 0 0 = (63, 255, -127) ∧ ycocgForward 0 0 255 = (63, -255, -127) ∧
  ycocgForward 0 255 0 = (127, 0, 255) ∧ ycocgForward 255 0 255 = (127, 0, -255)

/-- R152, R155: the four assignments of YCOCG_INV, which is the inverse of the forward transform, and the forward transform
is not onto its box. -/
def Obligations.YcocgInverse : Prop :=
  (∀ (s : State) (y co cg : Int),
    let t := y - cg / 2
    let g := cg + t
    let b := t - co / 2
    exec (.ycocgInv y co cg) s = .next { s with res := { s.res with r := b + co, g := g, b := b } }) ∧
  (∀ (s t : State) (r g b : Int), exec (.ycocgFwd r g b) s = .next t →
    ∃ u, exec (.ycocgInv t.res.y t.res.co t.res.cg) t = .next u ∧ u.res.r = r ∧ u.res.g = g ∧ u.res.b = b) ∧
  (∀ d : Nat, 1 ≤ d → ∃ y co cg : Int, 0 ≤ y ∧ y ≤ 2 ^ d - 1 ∧ -2 ^ d + 1 ≤ co ∧ co ≤ 2 ^ d - 1 ∧ -2 ^ d + 1 ≤ cg ∧
    cg ≤ 2 ^ d - 1 ∧ ∀ r g b : Int, 0 ≤ r → r ≤ 2 ^ d - 1 → 0 ≤ g → g ≤ 2 ^ d - 1 → 0 ≤ b → b ≤ 2 ^ d - 1 →
      ycocgForward r g b ≠ (y, co, cg))

/-! ## The channel coder -/

/-- R15: the sequencer's advance. Everything but the sequencer is kept, and T too, unless the channel changes. -/
def Obligations.SequencerAdvance : Prop :=
  ∀ s : State, s.stat.mode = .enc ∨ s.stat.mode = .dec →
    (s.seq.col.toNat + 1 < s.hdr.width.toNat →
      advance s = { s with seq := ⟨s.seq.phase, s.seq.ch, s.seq.row, s.seq.col + 1⟩ }) ∧
    (s.hdr.width.toNat ≤ s.seq.col.toNat + 1 → s.seq.row.toNat + 1 < s.hdr.height.toNat →
      advance s = { s with seq := ⟨s.seq.phase, s.seq.ch, s.seq.row + 1, 0⟩ }) ∧
    (s.hdr.width.toNat ≤ s.seq.col.toNat + 1 → s.hdr.height.toNat ≤ s.seq.row.toNat + 1 →
      (s.seq.ch.toNat + 1 < nch s.hdr →
        advance s = { s with seq := ⟨s.seq.phase, s.seq.ch + 1, 0, 0⟩, table := [] }) ∧
      (nch s.hdr ≤ s.seq.ch.toNat + 1 →
        advance s = { s with seq := ⟨if s.stat.mode = .enc then .flush else .finish, s.seq.ch, 0, 0⟩ }))

/-- R161: ENC_SAMPLE of a verbatim sample pushes its w(CH) bits; T and the predictor's registers are not touched. -/
def Obligations.EncSampleVerbatim : Prop :=
  ∀ (s : State) (p : Nat), idx s < 2 → currentCell s = some (p : Int) → p < 2 ^ chanWidth s → sinkReady s →
    ∃ u, exec .encSample s = .next (advance u) ∧ sinkReady u ∧
      sinkBits u = sinkBits s ++ bitsMsb p (chanWidth s) ∧ sameButSink { s with dp := { s.dp with p := p } } u

/-- R162, R163, R164: ENC_SAMPLE of a predicted sample. In range it pushes `1` and the phased-in codeword of P - L, and T is
neither read nor written; out of range it pushes the two markers and the Rice codeword of the magnitude with the K that
GET_K gives before the UPDATE, and T becomes what UPDATE makes it. -/
def Obligations.EncSamplePredicted : Prop :=
  (∀ (s : State) (a b p : Int), neighboursHold s a b → codedValue s a → codedValue s b → currentCell s = some p →
      min a b ≤ p → p ≤ max a b → sinkReady s →
      ∃ u, exec .encSample s = .next (advance u) ∧ sinkReady u ∧
        sinkBits u = sinkBits s ++
          true :: codewordBits (deltaOf a b + 1) (phasedCodeword (deltaOf a b + 1) (p - min a b).toNat) ∧
        sameButSink (afterPredict { s with dp := { s.dp with p := p } } a b) u) ∧
  (∀ (s : State) (a b p : Int) (above : Bool) (v : Nat), neighboursHold s a b → codedValue s a → codedValue s b →
      currentCell s = some p → (above = false → p < min a b ∧ (v : Int) = min a b - p - 1) →
      (above = true → max a b < p ∧ (v : Int) = p - max a b - 1) → sinkReady s →
      ∃ r u, exec (.update (deltaOf a b) v) s = .next r ∧ exec .encSample s = .next (advance u) ∧ sinkReady u ∧
        sinkBits u = sinkBits s ++ ([false, above] ++
          riceBits (kFor s (deltaOf a b)) (v / 2 ^ kFor s (deltaOf a b)) (low v (kFor s (deltaOf a b)))) ∧
        sameButSink (afterPredict { s with
          dp := { s.dp with p := p, k := kFor s (deltaOf a b), v := v }, table := r.table } a b) u)

/-- R166, R167: DEC_SAMPLE of a verbatim sample takes any w(CH) bits as the value, and a stream that ends in them raises; of an
in-range symbol that carries v it gives P = L + v, T neither read nor written and no bit after the marker when DELTA = 0. -/
def Obligations.DecSampleVerbatimAndInRange : Prop :=
  (∀ s : State, idx s < 2 →
      (chanWidth s ≤ (readableBits s).length →
        ∃ u, sameButSource s u ∧ readableBits u = (readableBits s).drop (chanWidth s) ∧
          codedValue s (ofBits ((readableBits s).take (chanWidth s)) : Nat) ∧
          exec .decSample s = .next (advance (withSample u (ofBits ((readableBits s).take (chanWidth s)) : Nat)))) ∧
      ((readableBits s).length < chanWidth s →
        ∃ u, exhausted s u ∧ exec .decSample s = .next (raiseError (readEnd s) u))) ∧
  (∀ (s : State) (a b : Int) (v : Nat) (rest : List Bool), neighboursHold s a b → codedValue s a → codedValue s b →
      v ≤ deltaOf a b →
      readableBits s = true :: (codewordBits (deltaOf a b + 1) (phasedCodeword (deltaOf a b + 1) v) ++ rest) →
      ∃ u, sameButSource (afterPredict s a b) u ∧ readableBits u = rest ∧
        exec .decSample s = .next (advance (withSample u (min a b + v))) ∧ min a b + v ≤ max a b ∧
        (deltaOf a b = 0 → codewordBits (deltaOf a b + 1) (phasedCodeword (deltaOf a b + 1) v) = []))

/-- R168, R169: DEC_SAMPLE of an out-of-range symbol that carries v. P is L - v - 1 or H + v + 1; inside
[0, max_sample] UPDATE is performed and the sample stored, outside it MalformedCodeword is raised with neither. -/
def Obligations.DecSampleOutOfRange : Prop :=
  ∀ (s : State) (a b p : Int) (above : Bool) (q v : Nat) (rem rest : List Bool), neighboursHold s a b →
    codedValue s a → codedValue s b → q ≤ qmax (chanWidth s) (kFor s (deltaOf a b)) →
    rem.length = kFor s (deltaOf a b) → v = q * 2 ^ kFor s (deltaOf a b) + ofBits rem →
    p = (if above then max a b + v + 1 else min a b - v - 1) →
    readableBits s = false :: above :: (List.replicate q false ++ true :: (rem ++ rest)) →
    (codedValue s p → ∃ r u, exec (.update (deltaOf a b) v) s = .next r ∧
      sameButSource (afterPredict { s with
        dp := { s.dp with k := kFor s (deltaOf a b), v := v }, table := r.table } a b) u ∧
      readableBits u = rest ∧ exec .decSample s = .next (advance (withSample u p))) ∧
    (¬ codedValue s p → ∃ u,
      sameButSource (afterPredict { s with
        dp := { s.dp with p := p, k := kFor s (deltaOf a b), v := v } } a b) u ∧
      readableBits u = rest ∧ exec .decSample s = .next (raiseError .malformedCodeword u))

/-- DEC_SAMPLE is the reading of one field of the stream (R62) followed by that field's own meaning; where the reading
raises, DEC_SAMPLE raises the same error where the reading stopped (the decoder's side of the wire rows, log entry 5). -/
def Obligations.DecSampleRunsTheFieldRead : Prop :=
  ∀ (s : State) (i : Instr) (e : Err) (u : State), s.stat.mode ≠ .enc →
    (2 ≤ idx s → ∃ a b, neighboursHold s a b ∧ codedValue s a ∧ codedValue s b) →
    (readInstr pullBit (nextField s) s = .ok i u → exec .decSample s = exec i u) ∧
    (readInstr pullBit (nextField s) s = .err e u →
      ∃ dp, exec .decSample s = .next (raiseError e { u with dp := dp }))

/-- DEC_SAMPLE writes one channel cell and no other, and leaves the metadata, PIX, the sink, OUT, the writer's answers, IN, the
results, the host's queue, MAX_SAMPLES and MODE as they were; an error leaves every cell, T and the position (R168, R170).
Of what pulling and GET_K may use up, the reader's answers and the free values (log entries 7, 9), it says nothing. -/
def Obligations.DecSampleFrame : Prop :=
  ∀ s t : State, Memory.wf s = true → exec .decSample s = .next t →
    (∀ c row col, row < 2 ^ 32 → col < 2 ^ 32 →
      ¬ (c = s.seq.ch.toNat ∧ row = s.seq.row.toNat ∧ col = s.seq.col.toNat) →
      chanRead t.chan c row col = chanRead s.chan c row col) ∧
    (t.seq.phase = .error → s.seq.phase ≠ .error → t.chan = s.chan ∧ t.table = s.table ∧ t.seq.ch = s.seq.ch ∧
      t.seq.row = s.seq.row ∧ t.seq.col = s.seq.col) ∧
    t.hdr = s.hdr ∧ t.pix = s.pix ∧ t.sink = s.sink ∧ t.out = s.out ∧ t.outFail = s.outFail ∧ t.inp = s.inp ∧
    t.res = s.res ∧ t.cmdq = s.cmdq ∧ t.maxSamples = s.maxSamples ∧ t.stat.mode = s.stat.mode

/-! ## The wire rows (log entry 5: the side that MODE selects) -/

/-- HEADER (R60, R69): the encoder's side appends its 112 bits, the decoder's side sets the metadata registers or raises
ZeroDimension. -/
def Obligations.WireHeader : Prop :=
  ∀ (s : State) (h : HeaderFields),
    (s.stat.mode = .enc → sinkReady s →
      appends (streamBits (headerBytes h)) s (exec (.header h.color h.depth h.width h.height) s)) ∧
    (s.stat.mode ≠ .enc → h.width ≠ 0 → h.height ≠ 0 →
      exec (.header h.color h.depth h.width h.height) s = .next { s with hdr := h }) ∧
    (s.stat.mode ≠ .enc → h.width = 0 ∨ h.height = 0 →
      exec (.header h.color h.depth h.width h.height) s = .next (raiseError .zeroDimension s))

/-- RAW_SAMPLE and SYM_IN (R161, R162, R166, R167): what each side does with the value carried, and MalformedCodeword for an
index outside the alphabet (R70). Fields out of place and values of too many bits are log entry 22. -/
def Obligations.WireRawAndInRange : Prop :=
  ∀ (s : State) (a b : Int) (v : Nat),
    (s.stat.mode = .enc → sinkReady s → ∃ u, exec (.rawSample v) s = .next (advance u) ∧ sinkReady u ∧
      sinkBits u = sinkBits s ++ bitsMsb v (chanWidth s) ∧ sameButSink s u) ∧
    (s.stat.mode ≠ .enc →
      exec (.rawSample v) s = .next (advance (withSample s ((v % 2 ^ chanWidth s : Nat) : Int)))) ∧
    (neighboursHold s a b → codedValue s a → codedValue s b →
      (s.stat.mode = .enc → v ≤ deltaOf a b → sinkReady s → ∃ u, exec (.symIn v) s = .next (advance u) ∧
        sinkReady u ∧
        sinkBits u = sinkBits s ++ true :: codewordBits (deltaOf a b + 1) (phasedCodeword (deltaOf a b + 1) v) ∧
        sameButSink (afterPredict s a b) u) ∧
      (s.stat.mode ≠ .enc → v ≤ deltaOf a b →
        exec (.symIn v) s = .next (advance (withSample (afterPredict s a b) (min a b + v)))) ∧
      (s.stat.mode ≠ .enc → deltaOf a b < v →
        exec (.symIn v) s = .next (raiseError .malformedCodeword (afterPredict s a b))))

/-- SYM_BELOW and SYM_ABOVE (R163, R164, R168, R169): the encoder's side pushes markers and Rice codeword and updates T,
the decoder's side gives P and updates T, or raises MalformedCodeword for a P outside [0, max_sample]. -/
def Obligations.WireOutOfRange : Prop :=
  ∀ (s : State) (a b p : Int) (above : Bool) (v : Nat), neighboursHold s a b → codedValue s a → codedValue s b →
    p = (if above then max a b + v + 1 else min a b - v - 1) →
    (∃ r, exec (.update (deltaOf a b) v) s = .next r ∧
      (s.stat.mode = .enc → sinkReady s → ∃ u,
        exec (if above then .symAbove v else .symBelow v) s = .next (advance u) ∧ sinkReady u ∧
        sinkBits u = sinkBits s ++ ([false, above] ++
          riceBits (kFor s (deltaOf a b)) (v / 2 ^ kFor s (deltaOf a b)) (low v (kFor s (deltaOf a b)))) ∧
        sameButSink (afterPredict { s with
          dp := { s.dp with k := kFor s (deltaOf a b), v := v }, table := r.table } a b) u) ∧
      (s.stat.mode ≠ .enc → codedValue s p →
        exec (if above then .symAbove v else .symBelow v) s = .next (advance (withSample (afterPredict { s with
          dp := { s.dp with k := kFor s (deltaOf a b), v := v }, table := r.table } a b) p)))) ∧
    (s.stat.mode ≠ .enc → ¬ codedValue s p → ∃ dp,
      exec (if above then .symAbove v else .symBelow v) s = .next (raiseError .malformedCodeword { s with dp := dp }))

/-- RICE_CODEWORD (R110, R113) with the parameter in K, PHASED_SHORT and PHASED_LONG (R118, R119, R70) over the alphabet of
DELTA + 1 values, and PADDING (R92, R71), on the side that MODE selects. K and DELTA are what earlier steps left (log
entry 16); a remainder or a word of too many bits gives its low bits (log entry 22), and a word of more than 64 is
InvalidInput (log entry 21). -/
def Obligations.WireCodewords : Prop :=
  ∀ (s : State) (q r v : Nat),
    (s.dp.k ≤ 64 → s.stat.mode = .enc → sinkReady s →
      appends (List.replicate q false ++ true :: bitsMsb r s.dp.k) s (exec (.riceCodeword q r) s)) ∧
    (s.stat.mode ≠ .enc → q ≤ qmax (chanWidth s) s.dp.k →
      exec (.riceCodeword q r) s =
        .next { s with dp := { s.dp with v := q * 2 ^ s.dp.k + r % 2 ^ s.dp.k } }) ∧
    (s.stat.mode ≠ .enc → qmax (chanWidth s) s.dp.k < q →
      exec (.riceCodeword q r) s = .next (raiseError .malformedCodeword s)) ∧
    (∀ (cw : Codeword) (i : Instr),
      ((∃ x, cw = .short x ∧ i = .phasedShort x) ∨ (∃ y, cw = .long y ∧ i = .phasedLong y)) →
      (s.stat.mode = .enc → sinkReady s → (codewordBits (s.dp.delta + 1) cw).length ≤ 64 →
        appends (codewordBits (s.dp.delta + 1) cw) s (exec i s)) ∧
      (s.stat.mode = .enc → 64 < (codewordBits (s.dp.delta + 1) cw).length →
        exec i s = .next (raiseError .invalidInput s)) ∧
      (s.stat.mode ≠ .enc → v ≤ s.dp.delta → phasedCodeword (s.dp.delta + 1) v = cw →
        exec i s = .next { s with res := { s.res with val := v } }) ∧
      (s.stat.mode ≠ .enc → (∀ v' ≤ s.dp.delta, phasedCodeword (s.dp.delta + 1) v' ≠ cw) →
        exec i s = .next (raiseError .malformedCodeword s))) ∧
    (s.stat.mode = .enc → sinkReady s →
      appends (List.replicate ((8 - s.sink.cnt.toNat) % 8) false) s (exec .padding s)) ∧
    (s.stat.mode ≠ .enc → exec .padding s = .next s)

/-! ## The container -/

/-- R181: WRITE_HEADER is the pushes of the header's fields in order, whatever they raise; on a sink that takes bits it
appends the 14 bytes of R60, and whole bytes land in OUT when the buffer is empty. -/
def Obligations.WriteHeader : Prop :=
  ∀ s : State,
    exec .writeHeader s = pushEach (bitsMsb 0x46 8 ++ bitsMsb 0x4C 8 ++ bitsMsb 0x43 8 ++ bitsMsb 0x53 8 ++
      bitsMsb s.hdr.color.toNat 8 ++ bitsMsb s.hdr.depth.toNat 8 ++ bitsMsb s.hdr.width.toNat 32 ++
      bitsMsb s.hdr.height.toNat 32) s ∧
    (sinkReady s → appends (streamBits (headerBytes s.hdr)) s (exec .writeHeader s)) ∧
    (sinkReady s → s.sink.cnt = 0 →
      ∃ t, exec .writeHeader s = .next t ∧ t.out = s.out ++ headerBytes s.hdr ∧ t.sink.cnt = 0)

/-- R183: PARSE_HEADER. Each field is tested as soon as it has been read whole, in stream order, and the metadata registers
are written only when every test has passed. -/
def Obligations.ParseHeader : Prop :=
  ∀ (s : State) (bits : List Bool), readableBits s = bits →
    let field := fun from' n => ofBits ((bits.drop from').take n)
    let raises := fun (e : Err) (n : Nat) => ∃ t, sameButSource s t ∧ readableBits t = bits.drop n ∧
      exec .parseHeader s = .next (raiseError e t)
    let ends := ∃ t, exhausted s t ∧ exec .parseHeader s = .next (raiseError (readEnd s) t)
    if bits.length < 32 then ends
    else if field 0 32 ≠ 0x464C4353 then raises .badSignature 32
    else if bits.length < 40 then ends
    else if 1 < field 32 8 then raises (.unsupportedColorType (BitVec.ofNat 8 (field 32 8))) 40
    else if bits.length < 48 then ends
    else if 1 < field 40 8 then raises (.unsupportedDepth (BitVec.ofNat 8 (field 40 8))) 48
    else if bits.length < 112 then ends
    else if field 48 32 = 0 ∨ field 80 32 = 0 then raises .zeroDimension 112
    else ∃ t, sameButSource s t ∧ readableBits t = bits.drop 112 ∧
      exec .parseHeader s = .next { t with
        hdr := ⟨BitVec.ofNat 1 (field 32 8), BitVec.ofNat 1 (field 40 8), BitVec.ofNat 32 (field 48 32),
          BitVec.ofNat 32 (field 80 32)⟩ }

/-- R185, R186: the HEADER step of COMPRESS. A zero dimension, or a PIX that is not NSAMP * NCH samples of d bits, is
InvalidInput before anything is written; on valid inputs the header is written and every channel cell loaded (the sample
itself for Gray, the offset transform for Rgb), each in the range of its channel. -/
def Obligations.CompressHeaderStep : Prop :=
  (∀ s : State, engineTurn s → s.stat.mode = .enc → s.seq.phase = .header →
      (s.hdr.width = 0 ∨ s.hdr.height = 0 ∨ s.pix.length ≠ nsamp s.hdr * nch s.hdr ∨
        ∃ x ∈ s.pix, 2 ^ depthBits s.hdr ≤ x) →
      step s = .next (raiseError .invalidInput s)) ∧
  (∀ s : State, engineTurn s → s.stat.mode = .enc → s.seq.phase = .header → inputsValid s = true → sinkReady s →
      Memory.wf s = true →
      ∃ u, sameButSink s u ∧ sinkReady u ∧ sinkBits u = sinkBits s ++ streamBits (headerBytes s.hdr) ∧
        ∃ m, step s = .next { u with chan := m, seq := ⟨.samples, 0, 0, 0⟩ } ∧ cellsWf m = true ∧
          (∀ c row col, c < nch s.hdr → row < s.hdr.height.toNat → col < s.hdr.width.toNat →
            ∃ v : Nat, chanRead m c row col = some (v : Int) ∧ v < 2 ^ widthOf s.hdr c) ∧
          (∀ row col, row < s.hdr.height.toNat → col < s.hdr.width.toNat →
            let i := row * s.hdr.width.toNat + col
            (s.hdr.color = 0 → chanRead m 0 row col = some (pixAt s i)) ∧
            (s.hdr.color = 1 → ∀ y co cg,
              ycocgForward (pixAt s (i * 3)) (pixAt s (i * 3 + 1)) (pixAt s (i * 3 + 2)) = (y, co, cg) →
              chanRead m 0 row col = some y ∧ chanRead m 1 row col = some (co + 2 ^ depthBits s.hdr) ∧
                chanRead m 2 row col = some (cg + 2 ^ depthBits s.hdr))))

/-- R190: FINISH writes PIX from the channel cells, for Rgb through the inverse transform with the offset removed; a
component outside [0, 2^d - 1] is MalformedCodeword with PIX as it was. No step that raises writes PIX. -/
def Obligations.FinishWritesPix : Prop :=
  (∀ (s : State) (f : Nat → Nat → Nat → Nat), engineTurn s → s.stat.mode = .dec → s.seq.phase = .finish →
    (∀ c row col, c < nch s.hdr → row < s.hdr.height.toNat → col < s.hdr.width.toNat →
      chanRead s.chan c row col = some (f c row col : Int)) →
    let pixel := fun row col =>
      ycocgInverse (f 0 row col) (f 1 row col - 2 ^ depthBits s.hdr) (f 2 row col - 2 ^ depthBits s.hdr)
    let fits := fun x : Int => 0 ≤ x ∧ x ≤ 2 ^ depthBits s.hdr - 1
    let allFit := ∀ row col, row < s.hdr.height.toNat → col < s.hdr.width.toNat →
      fits (pixel row col).1 ∧ fits (pixel row col).2.1 ∧ fits (pixel row col).2.2
    (s.hdr.color = 0 ∨ allFit → ∃ xs, xs.length = nsamp s.hdr * nch s.hdr ∧
      step s = .next { s with
        pix := xs, stat := { s.stat with status := .done }, seq := { s.seq with phase := .done } } ∧
      ∀ row col, row < s.hdr.height.toNat → col < s.hdr.width.toNat →
        let i := row * s.hdr.width.toNat + col
        (s.hdr.color = 0 → xs[i]? = some (f 0 row col)) ∧
        (s.hdr.color = 1 → xs[i * 3]? = some (pixel row col).1.toNat ∧
          xs[i * 3 + 1]? = some (pixel row col).2.1.toNat ∧ xs[i * 3 + 2]? = some (pixel row col).2.2.toNat)) ∧
    (s.hdr.color = 1 → ¬ allFit → step s = .next (raiseError .malformedCodeword s))) ∧
  (∀ s t : State, step s = .next t → t.stat.status = .error → t.pix = s.pix)

/-- R191: READ_HEADER on a stream that begins with a header sets the metadata registers, consumes exactly 14 bytes and ends
DONE; an error found in the header leaves the number of bytes that the rule gives. -/
def Obligations.ReadHeaderRun : Prop :=
  ∀ s : State, s.cmdq = [] →
    (∀ (h : HeaderFields) (rest : List Byte), quietIn s → h.width ≠ 0 → h.height ≠ 0 → s.inp = headerBytes h ++ rest →
      ∃ t, runCommand .readHeader 1 s = .next t ∧ t.hdr = h ∧ t.inPos = 14 ∧ t.stat = ⟨.done, 0, 0, .hdr⟩ ∧
        t.seq = ⟨.done, 0, 0, 0⟩ ∧ t.pix = s.pix ∧ t.out = [] ∧ t.inp = s.inp) ∧
    (∀ t, runCommand .readHeader 1 s = .next t →
      (t.stat.status = .done → t.inPos = 14) ∧
      (t.stat.status = .error → t.hdr = s.hdr ∧ (t.stat.errCode = 1 → t.inPos = 4) ∧
        (t.stat.errCode = 2 → t.inPos = 5) ∧ (t.stat.errCode = 3 → t.inPos = 6) ∧
        (t.stat.errCode = 4 → t.inPos = 14)))

/-! ## Whole-machine rules -/

/-- No step writes IN (R24, R53) or MAX_SAMPLES, and OUT is append-only: a step keeps the bytes of OUT in place, or starts
a command with OUT empty (R24, R42), or is the host's reset (R230). -/
def Obligations.StreamsOnlyAdvance : Prop :=
  ∀ s t : State, step s = .next t → t.inp = s.inp ∧ t.maxSamples = s.maxSamples ∧
    ((∃ bytes, t.out = s.out ++ bytes) ∨ (t.out = [] ∧ t.stat.status = .busy ∧ t.seq.phase = .header) ∨
      (t.out = [] ∧ s.cmdq.head? = some .reset))

/-- PIX is written by the FINISH step of a DECOMPRESS that ends DONE, and by nothing else (R40, R54, R189, R190; that the host's
reset keeps it is the model's choice, log entry 34); the metadata registers are immutable once set: a step of a running
command after its HEADER phase keeps them (R11). -/
def Obligations.PixAndMetadataKept : Prop :=
  (∀ s t : State, step s = .next t → t.pix ≠ s.pix →
      s.stat.status = .busy ∧ s.stat.mode = .dec ∧ s.seq.phase = .finish ∧ t.stat.status = .done) ∧
  (∀ s t : State, engineTurn s → s.seq.phase ≠ .header → step s = .next t → t.hdr = s.hdr)

/-- The invariant of the machine holds right after reset (its terms that speak of registers without a reset value in the
spec do not depend on them). -/
def Obligations.EngineInvariantAtReset : Prop := engineInv State.reset

/-- Every step keeps the invariant of the machine: canonical memories, unused bits of S_ACC zero unless an error has
stopped the sink (R18, R97), IN_POS within IN (R43), and a BUSY engine in a step of its command with no error recorded and
with every cell it will read written and in its channel's range (R23, R26, R134). -/
def Obligations.EngineInvariantKept : Prop :=
  ∀ s t : State, engineInv s → step s = .next t → engineInv t

/-- What cannot fail (R212, R134, R140): from a state that meets the invariant, with no word issued, a step answers a next
state; the one stop is the refusal of an image above MAX_SAMPLES (log entry 12). -/
def Obligations.EngineNeverStops : Prop :=
  ∀ s : State, engineInv s → s.cmdq = [] →
    (∃ t, step s = .next t) ∨
      (step s = .refused .imageTooLarge ∧ s.stat.mode = .dec ∧ s.seq.phase = .header ∧ s.maxSamples ≠ none)

/-! ## Encoding -/

/-- A few words written out from the tables of R73 and R60 decode to the instructions they stand for; the command word
written for any operation decodes to it, and a field of the stream has no command word (R73). -/
def Obligations.CommandWords : Prop :=
  decodeCommand { code := 0x11, regs := { value := 0x42, n := 8 } } = .ok (.pushBits 0x42 8) ∧
  decodeCommand { code := 0x32, regs := { delta := 3, v := 127 } } = .ok (.update 3 127) ∧
  decodeCommand { code := 0x41, regs := { y := 78, co := 201, cg := -103 } } = .ok (.ycocgInv 78 201 (-103)) ∧
  decodeTableWord 8 0x61 = some .parseHeader ∧
  decodeTableWord 112 0x464C435301010000028000000001 = some (.header 1 1 640 1) ∧
  (∀ (i : Instr) (c : Issue), (encodeCommand i = some c → decodeCommand c = .ok i) ∧
      (encodeCommand i = none → decodeCommand c ≠ .ok i))

/-- R60 to R66: reading a field of the stream gives back the field that was written, with every operand at every value the
field admits, and leaves the bits after it. -/
def Obligations.FieldRoundTrip : Prop :=
  ∀ (kind : FieldKind) (i : Instr) (rest : List Bool), fieldFits kind i = true →
    ∃ bits, encodeField kind i = some bits ∧ decodeField kind (bits ++ rest) = .ok i rest

/-- The decoder of the stream and the machine's bit source read alike: from the bits the source can deliver, the same field
and the same bits left; the same error, or what the reading ends in where the bits run out (R93, R94). -/
def Obligations.SourceReadsAsDecoder : Prop :=
  ∀ (kind : FieldKind) (s : State),
    (∀ i rest, decodeField kind (readableBits s) = .ok i rest →
      ∃ t, readInstr pullBit kind s = .ok i t ∧ readableBits t = rest ∧ sameButSource s t) ∧
    (∀ rest, decodeField kind (readableBits s) = .err .truncated rest →
      ∃ t, readInstr pullBit kind s = .err (readEnd s) t ∧ exhausted s t) ∧
    (∀ e rest, e ≠ .truncated → decodeField kind (readableBits s) = .err e rest →
      ∃ t, readInstr pullBit kind s = .err e t ∧ readableBits t = rest ∧ sameButSource s t)

/-! ## The laws of the commands -/

/-- R171, the mirror property, sample by sample: where encoder and decoder hold the same metadata, position, T and earlier
cells, whatever their datapath registers hold, DEC_SAMPLE over the bits ENC_SAMPLE appended ends with the same P, the same
A, B, L, H, DELTA on a predicted sample and the same K, V on an out-of-range one, the same T and position, and the
encoder's sample in its cell. -/
def Obligations.Mirror : Prop :=
  ∀ (e d e' : State) (rest : List Bool), e.hdr = d.hdr → e.seq.ch = d.seq.ch → e.seq.row = d.seq.row →
    e.seq.col = d.seq.col → e.table = d.table → seqInRange e → Memory.wf e = true → Memory.wf d = true →
    channelsFull e → sinkReady e →
    (∀ row col, row < e.hdr.height.toNat → col < e.hdr.width.toNat → row * e.hdr.width.toNat + col < idx e →
      chanRead d.chan e.seq.ch.toNat row col = chanRead e.chan e.seq.ch.toNat row col) →
    exec .encSample e = .next e' →
    readableBits d = (sinkBits e').drop (sinkBits e).length ++ rest →
    ∃ d', exec .decSample d = .next d' ∧ d'.dp.p = e'.dp.p ∧
      (2 ≤ idx e → d'.dp.a = e'.dp.a ∧ d'.dp.b = e'.dp.b ∧ d'.dp.l = e'.dp.l ∧ d'.dp.h = e'.dp.h ∧
        d'.dp.delta = e'.dp.delta ∧
        (e'.dp.p < e'.dp.l ∨ e'.dp.h < e'.dp.p → d'.dp.k = e'.dp.k ∧ d'.dp.v = e'.dp.v)) ∧
      d'.table = e'.table ∧ d'.seq.ch = e'.seq.ch ∧ d'.seq.row = e'.seq.row ∧ d'.seq.col = e'.seq.col ∧
      d'.stat = d.stat ∧ readableBits d' = rest ∧
      chanRead d'.chan e.seq.ch.toNat e.seq.row.toNat e.seq.col.toNat = currentCell e

/-- R184, R248: from valid inputs and a writer that does not fail, COMPRESS is DONE after exactly NSAMP * NCH + 2 steps and
BUSY until then; the stream begins with the header, and PIX and the metadata are as they were. Beside that run, any other
writer (R42, R184, R209): where no call of ByteOut that the run makes fails, the same end; where the one after k bytes
fails, in whichever phase it is, IoError with those k bytes in OUT, and in HEADER with no cell loaded and the sequencer at
0, 0, 0 (R206). The step of PHASE FLUSH by itself is FLUSH, with its IoError, and then DONE (R184, R92). -/
def Obligations.CompressRun : Prop :=
  (∀ s : State, s.cmdq = [] → inputsValid s = true → imageTooLarge s = false → quietOut s →
    (∃ t, runCommand .compress (nsamp s.hdr * nch s.hdr + 2) s = .next t ∧ t.stat = ⟨.done, 0, 0, .enc⟩ ∧
      t.seq.phase = .done ∧ t.sink = ⟨0, 0, true⟩ ∧ t.hdr = s.hdr ∧ t.pix = s.pix ∧
      t.out.take 14 = headerBytes s.hdr) ∧
    ∀ m < nsamp s.hdr * nch s.hdr + 2, ∃ u, runCommand .compress m s = .next u ∧ u.stat.status = .busy) ∧
  (∀ s t : State, s.cmdq = [] → inputsValid s = true → imageTooLarge s = false →
    runCommand .compress (nsamp s.hdr * nch s.hdr + 2) { s with outFail := [] } = .next t →
    ((∀ k, readsBeforeFailure s.outFail = some k → t.out.length ≤ k) →
      runCommand .compress (nsamp s.hdr * nch s.hdr + 2) s =
        .next { t with outFail := s.outFail.drop t.out.length }) ∧
    (∀ k, readsBeforeFailure s.outFail = some k → k < t.out.length →
      ∃ u, runCommand .compress (nsamp s.hdr * nch s.hdr + 2) s = .next u ∧ u.stat = ⟨.error, 7, 0, .enc⟩ ∧
        u.seq.phase = .error ∧ u.out = t.out.take k ∧ u.hdr = s.hdr ∧ u.pix = s.pix ∧ u.sink.flushed = false ∧
        (k < 14 → u.seq = ⟨.error, 0, 0, 0⟩ ∧ u.chan = []))) ∧
  (∀ s : State, engineTurn s → s.stat.mode = .enc → s.seq.phase = .flush → s.sink.flushed = false →
    (s.sink.cnt = 0 ∨ s.outFail.head? ≠ some true →
      ∃ u, exec .flush s = .next u ∧ u.sink.flushed = true ∧ step s = .next (finishCommand u)) ∧
    (s.sink.cnt ≠ 0 → s.outFail.head? = some true →
      step s = .next (raiseError .ioError { s with outFail := s.outFail.tail })))

/-- R193: what COMPRESS wrote, DECOMPRESS restores bit-exactly, consuming all of IN and raising nothing, and READ_HEADER on
it recovers the metadata (R191). -/
def Obligations.RoundTrip : Prop :=
  ∀ (s t u : State) (n : Nat), s.cmdq = [] → runCommand .compress n s = .next t → t.stat.status = .done →
    u.cmdq = [] → u.inp = t.out → quietIn u → u.maxSamples = s.maxSamples →
    (∃ m v, runCommand .decompress m u = .next v ∧ v.stat = ⟨.done, 0, 0, .dec⟩ ∧ v.hdr = s.hdr ∧ v.pix = s.pix ∧
      v.inPos = v.inp.length) ∧
    (∃ v, runCommand .readHeader 1 u = .next v ∧ v.stat = ⟨.done, 0, 0, .hdr⟩ ∧ v.hdr = s.hdr)

/-- R194: OUT is a function of the metadata and PIX alone. -/
def Obligations.CompressIsDeterministic : Prop :=
  ∀ (s s' t t' : State) (n n' : Nat), s.cmdq = [] → s'.cmdq = [] → s.hdr = s'.hdr → s.pix = s'.pix →
    runCommand .compress n s = .next t → runCommand .compress n' s' = .next t' →
    t.stat.status = .done → t'.stat.status = .done → t.out = t'.out

/-- R192: a DECOMPRESS that ends DONE does not depend on the bits of IN after the last one it pulled: neither on the
padding left in R_ACC nor on the bytes after it. -/
def Obligations.TrailingDataIgnored : Prop :=
  ∀ (s t : State) (n : Nat) (other : List Byte), s.cmdq = [] → runCommand .decompress n s = .next t →
    t.stat.status = .done →
    8 * t.inPos - t.src.cnt.toNat ≤ 8 * other.length →
    (streamBits other).take (8 * t.inPos - t.src.cnt.toNat) =
      (streamBits s.inp).take (8 * t.inPos - t.src.cnt.toNat) →
    ∃ t', runCommand .decompress n { s with inp := other } = .next t' ∧ t'.stat = t.stat ∧ t'.hdr = t.hdr ∧
      t'.pix = t.pix ∧ t'.inPos = t.inPos ∧ t'.src.cnt = t.src.cnt

/-- R249: every command ends in DONE or ERROR after finitely many steps (with no bound on the image's size in the way,
log entry 12). -/
def Obligations.CommandsTerminate : Prop :=
  ∀ (s : State) (i : Instr), s.cmdq = [] → s.maxSamples = none → i = .compress ∨ i = .decompress ∨ i = .readHeader →
    ∃ n t, runCommand i n s = .next t ∧ (t.stat.status = .done ∨ t.stat.status = .error)

/-! ## A writer that fails, and the host's reset -/

/-- ENC_SAMPLE writes no channel cell, and leaves the metadata, PIX, IN and the source as they were; an error leaves T and
the sequencer at the failing sample (R170, R206). Beside the same machine with a writer that does not fail: where no call of
ByteOut that it makes fails, it ends in the same state; where one fails, it is IoError with the bytes written before that
call, whatever part of the symbol has been pushed (R48, R209). -/
def Obligations.EncSampleOnFailingWriter : Prop :=
  (∀ s t : State, exec .encSample s = .next t →
    t.chan = s.chan ∧ t.hdr = s.hdr ∧ t.pix = s.pix ∧ t.src = s.src ∧ t.inp = s.inp ∧ t.inPos = s.inPos ∧
      t.inFail = s.inFail ∧ t.res = s.res ∧ t.cmdq = s.cmdq ∧ t.maxSamples = s.maxSamples ∧
      t.stat.mode = s.stat.mode ∧
      (t.seq.phase = .error → s.seq.phase ≠ .error → t.table = s.table ∧ t.seq.ch = s.seq.ch ∧
        t.seq.row = s.seq.row ∧ t.seq.col = s.seq.col)) ∧
  (∀ s u : State, s.sink.flushed = false → exec .encSample { s with outFail := [] } = .next u →
    ((∀ k, readsBeforeFailure s.outFail = some k → u.out.length ≤ s.out.length + k) →
      exec .encSample s = .next { u with outFail := s.outFail.drop (u.out.length - s.out.length) }) ∧
    (∀ k, readsBeforeFailure s.outFail = some k → s.out.length + k < u.out.length →
      ∃ t, exec .encSample s = .next t ∧ t.out = u.out.take (s.out.length + k) ∧
        t.stat = ⟨.error, 7, 0, s.stat.mode⟩ ∧ t.seq = ⟨.error, s.seq.ch, s.seq.row, s.seq.col⟩ ∧
        t.chan = s.chan ∧ t.table = s.table))

/-- R230, R233: the host's reset, whatever STATUS is: every register takes the value of the table of R25 (those the table calls
unspecified are not mentioned), a running DECOMPRESS leaves PIX unwritten, and no step is performed until the host
issues something. -/
def Obligations.HostReset : Prop :=
  ∀ (s : State) (rest : List HostEvent), s.cmdq = .reset :: rest →
    ∃ t, step s = .next t ∧ t.stat = ⟨.idle, 0, 0, .none⟩ ∧ t.seq = ⟨.idle, 0, 0, 0⟩ ∧
      (∀ delta k, tableRead t.table delta k = 0) ∧ t.sink = ⟨0, 0, false⟩ ∧ t.src.cnt = 0 ∧
      (∀ c row col, chanRead t.chan c row col = none) ∧ t.out = [] ∧ t.inPos = 0 ∧ t.cmdq = rest ∧
      (s.stat.status = .busy → s.stat.mode = .dec → t.pix = s.pix) ∧ (rest = [] → step t = .next t)

end
end

