-- ==== Sys2Proof/Laws/State.lean ====
section
/-! SUPPORT. One lemma per field of State per named update, so that no proof unfolds a record update. -/

namespace Sys2Proof.Machine

@[simp] theorem raiseError_hdr (e : Err) (s : State) : (raiseError e s).hdr = s.hdr := rfl
@[simp] theorem raiseError_stat (e : Err) (s : State) : (raiseError e s).stat = { s.stat with status := .error, errCode := e.code, errInfo := e.info } := rfl
@[simp] theorem raiseError_seq (e : Err) (s : State) : (raiseError e s).seq = { s.seq with phase := .error } := rfl
@[simp] theorem raiseError_dp (e : Err) (s : State) : (raiseError e s).dp = s.dp := rfl
@[simp] theorem raiseError_sink (e : Err) (s : State) : (raiseError e s).sink = s.sink := rfl
@[simp] theorem raiseError_src (e : Err) (s : State) : (raiseError e s).src = s.src := rfl
@[simp] theorem raiseError_table (e : Err) (s : State) : (raiseError e s).table = s.table := rfl
@[simp] theorem raiseError_chan (e : Err) (s : State) : (raiseError e s).chan = s.chan := rfl
@[simp] theorem raiseError_out (e : Err) (s : State) : (raiseError e s).out = s.out := rfl
@[simp] theorem raiseError_inp (e : Err) (s : State) : (raiseError e s).inp = s.inp := rfl
@[simp] theorem raiseError_inPos (e : Err) (s : State) : (raiseError e s).inPos = s.inPos := rfl
@[simp] theorem raiseError_pix (e : Err) (s : State) : (raiseError e s).pix = s.pix := rfl
@[simp] theorem raiseError_res (e : Err) (s : State) : (raiseError e s).res = s.res := rfl
@[simp] theorem raiseError_cmdq (e : Err) (s : State) : (raiseError e s).cmdq = s.cmdq := rfl
@[simp] theorem raiseError_outFail (e : Err) (s : State) : (raiseError e s).outFail = s.outFail := rfl
@[simp] theorem raiseError_inFail (e : Err) (s : State) : (raiseError e s).inFail = s.inFail := rfl
@[simp] theorem raiseError_maxSamples (e : Err) (s : State) : (raiseError e s).maxSamples = s.maxSamples := rfl
@[simp] theorem raiseError_drawn (e : Err) (s : State) : (raiseError e s).drawn = s.drawn := rfl

@[simp] theorem startCommand_hdr (m : Mode) (s : State) : (startCommand m s).hdr = s.hdr := rfl
@[simp] theorem startCommand_stat (m : Mode) (s : State) : (startCommand m s).stat = ⟨.busy, 0, 0, m⟩ := rfl
@[simp] theorem startCommand_seq (m : Mode) (s : State) : (startCommand m s).seq = ⟨.header, 0, 0, 0⟩ := rfl
@[simp] theorem startCommand_dp (m : Mode) (s : State) : (startCommand m s).dp = s.dp := rfl
@[simp] theorem startCommand_sink (m : Mode) (s : State) : (startCommand m s).sink = ⟨0, 0, false⟩ := rfl
@[simp] theorem startCommand_src (m : Mode) (s : State) : (startCommand m s).src = { s.src with cnt := 0 } := rfl
@[simp] theorem startCommand_table (m : Mode) (s : State) : (startCommand m s).table = [] := rfl
@[simp] theorem startCommand_chan (m : Mode) (s : State) : (startCommand m s).chan = [] := rfl
@[simp] theorem startCommand_out (m : Mode) (s : State) : (startCommand m s).out = [] := rfl
@[simp] theorem startCommand_inp (m : Mode) (s : State) : (startCommand m s).inp = s.inp := rfl
@[simp] theorem startCommand_inPos (m : Mode) (s : State) : (startCommand m s).inPos = 0 := rfl
@[simp] theorem startCommand_pix (m : Mode) (s : State) : (startCommand m s).pix = s.pix := rfl
@[simp] theorem startCommand_res (m : Mode) (s : State) : (startCommand m s).res = s.res := rfl
@[simp] theorem startCommand_cmdq (m : Mode) (s : State) : (startCommand m s).cmdq = s.cmdq := rfl
@[simp] theorem startCommand_outFail (m : Mode) (s : State) : (startCommand m s).outFail = s.outFail := rfl
@[simp] theorem startCommand_inFail (m : Mode) (s : State) : (startCommand m s).inFail = s.inFail := rfl
@[simp] theorem startCommand_maxSamples (m : Mode) (s : State) : (startCommand m s).maxSamples = s.maxSamples := rfl
@[simp] theorem startCommand_drawn (m : Mode) (s : State) : (startCommand m s).drawn = s.drawn := rfl

@[simp] theorem finishCommand_hdr (s : State) : (finishCommand s).hdr = s.hdr := rfl
@[simp] theorem finishCommand_stat (s : State) : (finishCommand s).stat = { s.stat with status := .done } := rfl
@[simp] theorem finishCommand_seq (s : State) : (finishCommand s).seq = { s.seq with phase := .done } := rfl
@[simp] theorem finishCommand_dp (s : State) : (finishCommand s).dp = s.dp := rfl
@[simp] theorem finishCommand_sink (s : State) : (finishCommand s).sink = s.sink := rfl
@[simp] theorem finishCommand_src (s : State) : (finishCommand s).src = s.src := rfl
@[simp] theorem finishCommand_table (s : State) : (finishCommand s).table = s.table := rfl
@[simp] theorem finishCommand_chan (s : State) : (finishCommand s).chan = s.chan := rfl
@[simp] theorem finishCommand_out (s : State) : (finishCommand s).out = s.out := rfl
@[simp] theorem finishCommand_inp (s : State) : (finishCommand s).inp = s.inp := rfl
@[simp] theorem finishCommand_inPos (s : State) : (finishCommand s).inPos = s.inPos := rfl
@[simp] theorem finishCommand_pix (s : State) : (finishCommand s).pix = s.pix := rfl
@[simp] theorem finishCommand_res (s : State) : (finishCommand s).res = s.res := rfl
@[simp] theorem finishCommand_cmdq (s : State) : (finishCommand s).cmdq = s.cmdq := rfl
@[simp] theorem finishCommand_outFail (s : State) : (finishCommand s).outFail = s.outFail := rfl
@[simp] theorem finishCommand_inFail (s : State) : (finishCommand s).inFail = s.inFail := rfl
@[simp] theorem finishCommand_maxSamples (s : State) : (finishCommand s).maxSamples = s.maxSamples := rfl
@[simp] theorem finishCommand_drawn (s : State) : (finishCommand s).drawn = s.drawn := rfl

@[simp] theorem enterSamples_hdr (s : State) : (enterSamples s).hdr = s.hdr := rfl
@[simp] theorem enterSamples_stat (s : State) : (enterSamples s).stat = s.stat := rfl
@[simp] theorem enterSamples_seq (s : State) : (enterSamples s).seq = ⟨.samples, 0, 0, 0⟩ := rfl
@[simp] theorem enterSamples_dp (s : State) : (enterSamples s).dp = s.dp := rfl
@[simp] theorem enterSamples_sink (s : State) : (enterSamples s).sink = s.sink := rfl
@[simp] theorem enterSamples_src (s : State) : (enterSamples s).src = s.src := rfl
@[simp] theorem enterSamples_table (s : State) : (enterSamples s).table = s.table := rfl
@[simp] theorem enterSamples_chan (s : State) : (enterSamples s).chan = s.chan := rfl
@[simp] theorem enterSamples_out (s : State) : (enterSamples s).out = s.out := rfl
@[simp] theorem enterSamples_inp (s : State) : (enterSamples s).inp = s.inp := rfl
@[simp] theorem enterSamples_inPos (s : State) : (enterSamples s).inPos = s.inPos := rfl
@[simp] theorem enterSamples_pix (s : State) : (enterSamples s).pix = s.pix := rfl
@[simp] theorem enterSamples_res (s : State) : (enterSamples s).res = s.res := rfl
@[simp] theorem enterSamples_cmdq (s : State) : (enterSamples s).cmdq = s.cmdq := rfl
@[simp] theorem enterSamples_outFail (s : State) : (enterSamples s).outFail = s.outFail := rfl
@[simp] theorem enterSamples_inFail (s : State) : (enterSamples s).inFail = s.inFail := rfl
@[simp] theorem enterSamples_maxSamples (s : State) : (enterSamples s).maxSamples = s.maxSamples := rfl
@[simp] theorem enterSamples_drawn (s : State) : (enterSamples s).drawn = s.drawn := rfl

/-- A code that is no operation raises InvalidInput. -/
@[simp] theorem rejectCode_eq (s : State) : rejectCode s = raiseError .invalidInput s := rfl

@[simp] theorem resetEngine_hdr (s : State) : (resetEngine s).hdr = State.reset.hdr := rfl
@[simp] theorem resetEngine_stat (s : State) : (resetEngine s).stat = State.reset.stat := rfl
@[simp] theorem resetEngine_seq (s : State) : (resetEngine s).seq = State.reset.seq := rfl
@[simp] theorem resetEngine_dp (s : State) : (resetEngine s).dp = State.reset.dp := rfl
@[simp] theorem resetEngine_sink (s : State) : (resetEngine s).sink = State.reset.sink := rfl
@[simp] theorem resetEngine_src (s : State) : (resetEngine s).src = State.reset.src := rfl
@[simp] theorem resetEngine_table (s : State) : (resetEngine s).table = State.reset.table := rfl
@[simp] theorem resetEngine_chan (s : State) : (resetEngine s).chan = State.reset.chan := rfl
@[simp] theorem resetEngine_out (s : State) : (resetEngine s).out = State.reset.out := rfl
@[simp] theorem resetEngine_inPos (s : State) : (resetEngine s).inPos = State.reset.inPos := rfl
@[simp] theorem resetEngine_res (s : State) : (resetEngine s).res = State.reset.res := rfl
@[simp] theorem resetEngine_inp (s : State) : (resetEngine s).inp = s.inp := rfl
@[simp] theorem resetEngine_pix (s : State) : (resetEngine s).pix = s.pix := rfl
@[simp] theorem resetEngine_cmdq (s : State) : (resetEngine s).cmdq = s.cmdq := rfl
@[simp] theorem resetEngine_outFail (s : State) : (resetEngine s).outFail = s.outFail := rfl
@[simp] theorem resetEngine_inFail (s : State) : (resetEngine s).inFail = s.inFail := rfl
@[simp] theorem resetEngine_maxSamples (s : State) : (resetEngine s).maxSamples = s.maxSamples := rfl
@[simp] theorem resetEngine_drawn (s : State) : (resetEngine s).drawn = s.drawn := rfl

@[simp] theorem drawRow_hdr (delta : Nat) (s : State) : (drawRow delta s).hdr = s.hdr := rfl
@[simp] theorem drawRow_stat (delta : Nat) (s : State) : (drawRow delta s).stat = s.stat := rfl
@[simp] theorem drawRow_seq (delta : Nat) (s : State) : (drawRow delta s).seq = s.seq := rfl
@[simp] theorem drawRow_dp (delta : Nat) (s : State) : (drawRow delta s).dp = s.dp := rfl
@[simp] theorem drawRow_sink (delta : Nat) (s : State) : (drawRow delta s).sink = s.sink := rfl
@[simp] theorem drawRow_src (delta : Nat) (s : State) : (drawRow delta s).src = s.src := rfl
@[simp] theorem drawRow_table (delta : Nat) (s : State) : (drawRow delta s).table = s.table := rfl
@[simp] theorem drawRow_chan (delta : Nat) (s : State) : (drawRow delta s).chan = s.chan := rfl
@[simp] theorem drawRow_out (delta : Nat) (s : State) : (drawRow delta s).out = s.out := rfl
@[simp] theorem drawRow_inp (delta : Nat) (s : State) : (drawRow delta s).inp = s.inp := rfl
@[simp] theorem drawRow_inPos (delta : Nat) (s : State) : (drawRow delta s).inPos = s.inPos := rfl
@[simp] theorem drawRow_pix (delta : Nat) (s : State) : (drawRow delta s).pix = s.pix := rfl
@[simp] theorem drawRow_res (delta : Nat) (s : State) : (drawRow delta s).res = s.res := rfl
@[simp] theorem drawRow_cmdq (delta : Nat) (s : State) : (drawRow delta s).cmdq = s.cmdq := rfl
@[simp] theorem drawRow_outFail (delta : Nat) (s : State) : (drawRow delta s).outFail = s.outFail := rfl
@[simp] theorem drawRow_inFail (delta : Nat) (s : State) : (drawRow delta s).inFail = s.inFail := rfl
@[simp] theorem drawRow_maxSamples (delta : Nat) (s : State) : (drawRow delta s).maxSamples = s.maxSamples := rfl
@[simp] theorem drawRow_drawn (delta : Nat) (s : State) :
    (drawRow delta s).drawn = if delta ≤ maxSample s then s.drawn else s.drawn + 1 := rfl

@[simp] theorem setFlushed_hdr (s : State) : (setFlushed s).hdr = s.hdr := rfl
@[simp] theorem setFlushed_stat (s : State) : (setFlushed s).stat = s.stat := rfl
@[simp] theorem setFlushed_seq (s : State) : (setFlushed s).seq = s.seq := rfl
@[simp] theorem setFlushed_dp (s : State) : (setFlushed s).dp = s.dp := rfl
@[simp] theorem setFlushed_sink (s : State) : (setFlushed s).sink = { s.sink with flushed := true } := rfl
@[simp] theorem setFlushed_src (s : State) : (setFlushed s).src = s.src := rfl
@[simp] theorem setFlushed_table (s : State) : (setFlushed s).table = s.table := rfl
@[simp] theorem setFlushed_chan (s : State) : (setFlushed s).chan = s.chan := rfl
@[simp] theorem setFlushed_out (s : State) : (setFlushed s).out = s.out := rfl
@[simp] theorem setFlushed_inp (s : State) : (setFlushed s).inp = s.inp := rfl
@[simp] theorem setFlushed_inPos (s : State) : (setFlushed s).inPos = s.inPos := rfl
@[simp] theorem setFlushed_pix (s : State) : (setFlushed s).pix = s.pix := rfl
@[simp] theorem setFlushed_res (s : State) : (setFlushed s).res = s.res := rfl
@[simp] theorem setFlushed_cmdq (s : State) : (setFlushed s).cmdq = s.cmdq := rfl
@[simp] theorem setFlushed_outFail (s : State) : (setFlushed s).outFail = s.outFail := rfl
@[simp] theorem setFlushed_inFail (s : State) : (setFlushed s).inFail = s.inFail := rfl
@[simp] theorem setFlushed_maxSamples (s : State) : (setFlushed s).maxSamples = s.maxSamples := rfl
@[simp] theorem setFlushed_drawn (s : State) : (setFlushed s).drawn = s.drawn := rfl

@[simp] theorem withSink_hdr (s : State) (k : BitSink) (o : List Byte) (f : List Bool) : (withSink s k o f).hdr = s.hdr := rfl
@[simp] theorem withSink_stat (s : State) (k : BitSink) (o : List Byte) (f : List Bool) : (withSink s k o f).stat = s.stat := rfl
@[simp] theorem withSink_seq (s : State) (k : BitSink) (o : List Byte) (f : List Bool) : (withSink s k o f).seq = s.seq := rfl
@[simp] theorem withSink_dp (s : State) (k : BitSink) (o : List Byte) (f : List Bool) : (withSink s k o f).dp = s.dp := rfl
@[simp] theorem withSink_sink (s : State) (k : BitSink) (o : List Byte) (f : List Bool) : (withSink s k o f).sink = k := rfl
@[simp] theorem withSink_src (s : State) (k : BitSink) (o : List Byte) (f : List Bool) : (withSink s k o f).src = s.src := rfl
@[simp] theorem withSink_table (s : State) (k : BitSink) (o : List Byte) (f : List Bool) : (withSink s k o f).table = s.table := rfl
@[simp] theorem withSink_chan (s : State) (k : BitSink) (o : List Byte) (f : List Bool) : (withSink s k o f).chan = s.chan := rfl
@[simp] theorem withSink_out (s : State) (k : BitSink) (o : List Byte) (f : List Bool) : (withSink s k o f).out = o := rfl
@[simp] theorem withSink_inp (s : State) (k : BitSink) (o : List Byte) (f : List Bool) : (withSink s k o f).inp = s.inp := rfl
@[simp] theorem withSink_inPos (s : State) (k : BitSink) (o : List Byte) (f : List Bool) : (withSink s k o f).inPos = s.inPos := rfl
@[simp] theorem withSink_pix (s : State) (k : BitSink) (o : List Byte) (f : List Bool) : (withSink s k o f).pix = s.pix := rfl
@[simp] theorem withSink_res (s : State) (k : BitSink) (o : List Byte) (f : List Bool) : (withSink s k o f).res = s.res := rfl
@[simp] theorem withSink_cmdq (s : State) (k : BitSink) (o : List Byte) (f : List Bool) : (withSink s k o f).cmdq = s.cmdq := rfl
@[simp] theorem withSink_outFail (s : State) (k : BitSink) (o : List Byte) (f : List Bool) : (withSink s k o f).outFail = f := rfl
@[simp] theorem withSink_inFail (s : State) (k : BitSink) (o : List Byte) (f : List Bool) : (withSink s k o f).inFail = s.inFail := rfl
@[simp] theorem withSink_maxSamples (s : State) (k : BitSink) (o : List Byte) (f : List Bool) : (withSink s k o f).maxSamples = s.maxSamples := rfl
@[simp] theorem withSink_drawn (s : State) (k : BitSink) (o : List Byte) (f : List Bool) : (withSink s k o f).drawn = s.drawn := rfl

@[simp] theorem withSource_hdr (s : State) (k : BitSource) (p : Nat) (f : List Bool) : (withSource s k p f).hdr = s.hdr := rfl
@[simp] theorem withSource_stat (s : State) (k : BitSource) (p : Nat) (f : List Bool) : (withSource s k p f).stat = s.stat := rfl
@[simp] theorem withSource_seq (s : State) (k : BitSource) (p : Nat) (f : List Bool) : (withSource s k p f).seq = s.seq := rfl
@[simp] theorem withSource_dp (s : State) (k : BitSource) (p : Nat) (f : List Bool) : (withSource s k p f).dp = s.dp := rfl
@[simp] theorem withSource_sink (s : State) (k : BitSource) (p : Nat) (f : List Bool) : (withSource s k p f).sink = s.sink := rfl
@[simp] theorem withSource_src (s : State) (k : BitSource) (p : Nat) (f : List Bool) : (withSource s k p f).src = k := rfl
@[simp] theorem withSource_table (s : State) (k : BitSource) (p : Nat) (f : List Bool) : (withSource s k p f).table = s.table := rfl
@[simp] theorem withSource_chan (s : State) (k : BitSource) (p : Nat) (f : List Bool) : (withSource s k p f).chan = s.chan := rfl
@[simp] theorem withSource_out (s : State) (k : BitSource) (p : Nat) (f : List Bool) : (withSource s k p f).out = s.out := rfl
@[simp] theorem withSource_inp (s : State) (k : BitSource) (p : Nat) (f : List Bool) : (withSource s k p f).inp = s.inp := rfl
@[simp] theorem withSource_inPos (s : State) (k : BitSource) (p : Nat) (f : List Bool) : (withSource s k p f).inPos = p := rfl
@[simp] theorem withSource_pix (s : State) (k : BitSource) (p : Nat) (f : List Bool) : (withSource s k p f).pix = s.pix := rfl
@[simp] theorem withSource_res (s : State) (k : BitSource) (p : Nat) (f : List Bool) : (withSource s k p f).res = s.res := rfl
@[simp] theorem withSource_cmdq (s : State) (k : BitSource) (p : Nat) (f : List Bool) : (withSource s k p f).cmdq = s.cmdq := rfl
@[simp] theorem withSource_outFail (s : State) (k : BitSource) (p : Nat) (f : List Bool) : (withSource s k p f).outFail = s.outFail := rfl
@[simp] theorem withSource_inFail (s : State) (k : BitSource) (p : Nat) (f : List Bool) : (withSource s k p f).inFail = f := rfl
@[simp] theorem withSource_maxSamples (s : State) (k : BitSource) (p : Nat) (f : List Bool) : (withSource s k p f).maxSamples = s.maxSamples := rfl
@[simp] theorem withSource_drawn (s : State) (k : BitSource) (p : Nat) (f : List Bool) : (withSource s k p f).drawn = s.drawn := rfl

end Sys2Proof.Machine
end

