-- ==== Sys2Proof/Laws/Res.lean ====
section
/-! SUPPORT. How operations and readings compose: the small lemmas of `Read.bind`, `Res.bind`, `ofRead` and `Res.finish`,
and their inversions. -/

namespace Sys2Proof.Machine

@[simp] theorem Read.bind_ok {σ α β : Type} (a : α) (s : σ) (f : α → σ → Read σ β) :
    (Read.ok a s).bind f = f a s := rfl

@[simp] theorem Read.bind_err {σ α β : Type} (e : Err) (s : σ) (f : α → σ → Read σ β) :
    (Read.err e s).bind f = .err e s := rfl

@[simp] theorem Res.bind_ok {α β : Type} (a : α) (s : State) (f : α → State → Res β) :
    (Res.ok a s).bind f = f a s := rfl

@[simp] theorem Res.bind_raise {α β : Type} (e : Err) (s : State) (f : α → State → Res β) :
    (Res.raise e s).bind f = .raise e s := rfl

@[simp] theorem Res.bind_fault {α β : Type} (x : Fault) (f : α → State → Res β) :
    (Res.fault x).bind f = .fault x := rfl

@[simp] theorem Res.bind_refuse {α β : Type} (x : Refusal) (f : α → State → Res β) :
    (Res.refuse x).bind f = .refuse x := rfl

@[simp] theorem ofRead_ok {α : Type} (a : α) (s : State) : ofRead (Read.ok a s) = .ok a s := rfl

@[simp] theorem ofRead_err {α : Type} (e : Err) (s : State) : ofRead (Read.err e s : Read State α) = .raise e s := rfl

@[simp] theorem finish_ok (a : Unit) (s : State) : (Res.ok a s).finish = .next s := rfl

@[simp] theorem finish_raise (e : Err) (s : State) : (Res.raise e s).finish = .next (raiseError e s) := rfl

@[simp] theorem finish_fault (f : Fault) : (Res.fault f).finish = .fault f := rfl

@[simp] theorem finish_refuse (r : Refusal) : (Res.refuse r).finish = .refused r := rfl

theorem Read.bind_assoc {σ α β γ : Type} (r : Read σ α) (f : α → σ → Read σ β) (g : β → σ → Read σ γ) :
    (r.bind f).bind g = r.bind fun a s => (f a s).bind g := by cases r <;> rfl

theorem Res.bind_assoc {α β γ : Type} (r : Res α) (f : α → State → Res β) (g : β → State → Res γ) :
    (r.bind f).bind g = r.bind fun a s => (f a s).bind g := by cases r <;> rfl

theorem ofRead_bind {α β : Type} (r : Read State α) (f : α → State → Read State β) :
    ofRead (r.bind f) = (ofRead r).bind fun a s => ofRead (f a s) := by cases r <;> rfl

/-- A sequence answers a value only if both parts do. -/
theorem Res.bind_eq_ok {α β : Type} {r : Res α} {f : α → State → Res β} {b : β} {t : State}
    (h : r.bind f = .ok b t) : ∃ a s, r = .ok a s ∧ f a s = .ok b t := by
  cases r with
  | ok a s => exact ⟨a, s, rfl, h⟩
  | raise e s => cases h
  | fault x => cases h
  | refuse x => cases h

theorem Read.bind_eq_ok {σ α β : Type} {r : Read σ α} {f : α → σ → Read σ β} {b : β} {t : σ}
    (h : r.bind f = .ok b t) : ∃ a s, r = .ok a s ∧ f a s = .ok b t := by
  cases r with
  | ok a s => exact ⟨a, s, rfl, h⟩
  | err e s => cases h

/-- An operation ends in a next state in two ways: it completes, or an error it raises is taken. -/
theorem finish_eq_next {r : Res Unit} {t : State} (h : r.finish = .next t) :
    r = .ok () t ∨ ∃ e s, r = .raise e s ∧ t = raiseError e s := by
  cases r with
  | ok a s => cases h; exact .inl rfl
  | raise e s => cases h; exact .inr ⟨e, s, rfl, rfl⟩
  | fault x => cases h
  | refuse x => cases h

end Sys2Proof.Machine
end

