-- ==== Sys2Proof/Laws/Bits.lean ====
section
/-! SUPPORT. Bits and numbers: what `bitsMsb`, `ofBits`, `streamBits` and the phased-in parameters satisfy. -/

namespace Sys2Proof

@[simp] theorem bitsMsb_length (v n : Nat) : (bitsMsb v n).length = n := by
  induction n with
  | zero => rfl
  | succ n ih => simp [bitsMsb, ih]

@[simp] theorem byteBits_length (b : Byte) : (byteBits b).length = 8 := bitsMsb_length _ _

@[simp] theorem streamBits_nil : streamBits [] = [] := rfl

@[simp] theorem streamBits_cons (b : Byte) (l : List Byte) : streamBits (b :: l) = byteBits b ++ streamBits l := by
  simp [streamBits]

@[simp] theorem streamBits_append (a b : List Byte) : streamBits (a ++ b) = streamBits a ++ streamBits b := by
  simp [streamBits]

@[simp] theorem streamBits_length (l : List Byte) : (streamBits l).length = 8 * l.length := by
  induction l with
  | nil => rfl
  | cons b l ih => simp [ih]; omega

/-- The number of a bit list with one more bit in front. -/
theorem ofBits_foldl (bits : List Bool) (acc : Nat) :
    bits.foldl (fun v b => 2 * v + b.toNat) acc = acc * 2 ^ bits.length + ofBits bits := by
  unfold ofBits
  induction bits generalizing acc with
  | nil => simp
  | cons b bits ih =>
    simp only [List.foldl_cons, List.length_cons]
    rw [ih, ih (2 * 0 + b.toNat)]
    ring

theorem ofBits_cons (b : Bool) (bits : List Bool) :
    ofBits (b :: bits) = b.toNat * 2 ^ bits.length + ofBits bits := by
  have := ofBits_foldl bits (2 * 0 + b.toNat)
  simpa [ofBits] using this

theorem ofBits_lt (bits : List Bool) : ofBits bits < 2 ^ bits.length := by
  induction bits with
  | nil => simp [ofBits]
  | cons b bits ih =>
    rw [ofBits_cons, List.length_cons, pow_succ]
    cases b <;> simp <;> omega

/-- The bits of a number give its low part back. -/
theorem ofBits_bitsMsb (v n : Nat) : ofBits (bitsMsb v n) = v % 2 ^ n := by
  induction n with
  | zero => simp [bitsMsb, ofBits, Nat.mod_one]
  | succ n ih =>
    rw [bitsMsb, ofBits_cons, ih, bitsMsb_length, Nat.mod_pow_succ, Nat.toNat_testBit]
    ring

/-- Only the low n bits of a number are sent (40_bitio.md R91). -/
theorem bitsMsb_low (v n : Nat) : bitsMsb (v % 2 ^ n) n = bitsMsb v n := by
  have aux : ∀ m k, k ≤ m → bitsMsb (v % 2 ^ m) k = bitsMsb v k := by
    intro m k hk
    induction k with
    | zero => rfl
    | succ k ih =>
      rw [bitsMsb, bitsMsb, ih (by omega), Nat.testBit_mod_two_pow]
      simp [show k < m by omega]
  exact aux n n le_rfl

/-- The bits of a bit list's number are the list. -/
theorem bitsMsb_ofBits (bits : List Bool) : bitsMsb (ofBits bits) bits.length = bits := by
  induction bits with
  | nil => rfl
  | cons b bits ih =>
    have hlt := ofBits_lt bits
    rw [List.length_cons, bitsMsb, ofBits_cons]
    congr 1
    · cases b
      · simp [Nat.testBit_lt_two_pow hlt]
      · simp [Nat.testBit_two_pow_add_eq, Nat.testBit_lt_two_pow hlt]
    · rw [← bitsMsb_low, Nat.mul_comm, Nat.mul_add_mod, Nat.mod_eq_of_lt hlt, ih]

/-! ## The phased-in code's parameters (41_codes.md R116) -/

theorem phasedM_le (n : Nat) (h : 1 ≤ n) : 2 ^ phasedM n ≤ n := Nat.log2_self_le (by omega)

theorem phasedM_lt (n : Nat) : n < 2 ^ (phasedM n + 1) := by
  rcases Nat.eq_zero_or_pos n with h | h
  · subst h; simp
  · exact (Nat.log2_lt (by omega)).1 (Nat.lt_succ_self _)

/-- `1 <= |B| <= 2^m` and `|A| = 2 (n - 2^m)` (R116). -/
theorem shortCount_bounds (n : Nat) (h : 1 ≤ n) :
    1 ≤ shortCount n ∧ shortCount n ≤ 2 ^ phasedM n ∧ shortCount n + longCount n = n ∧
      longCount n = 2 * (n - 2 ^ phasedM n) ∧ 2 * shortCount n + longCount n = 2 ^ (phasedM n + 1) := by
  have h1 := phasedM_le n h
  have h2 := phasedM_lt n
  unfold longCount shortCount
  rw [pow_succ] at *
  omega

/-- The rotation is undone by its inverse (R117). -/
theorem unrotate_rotate (n v : Nat) (h : v < n) : unrotate n ((v + longCount n / 2) % n) = v := by
  have hb := shortCount_bounds n (by omega)
  unfold unrotate
  have hl : longCount n / 2 < n := by omega
  rcases Nat.lt_or_ge (v + longCount n / 2) n with hv | hv
  · rw [Nat.mod_eq_of_lt hv, show v + longCount n / 2 + n - longCount n / 2 = v + n by omega, Nat.add_mod_right,
      Nat.mod_eq_of_lt h]
  · have : (v + longCount n / 2) % n = v + longCount n / 2 - n := by
      rw [Nat.mod_eq_sub_mod hv, Nat.mod_eq_of_lt (by omega)]
    rw [this, show v + longCount n / 2 - n + n - longCount n / 2 = v by omega, Nat.mod_eq_of_lt h]

/-- An index that PHASED_DEC gives lies in `[0, n - 1]` (R121). -/
theorem unrotate_lt (n v : Nat) (h : 1 ≤ n) : unrotate n v < n := Nat.mod_lt _ h

/-- Decoding a value's codeword gives the value (R118, R119). -/
theorem codewordIndex_phasedCodeword (n v : Nat) (h : v < n) : codewordIndex n (phasedCodeword n v) = some v := by
  have hb := shortCount_bounds n (by omega)
  have hr := unrotate_rotate n v h
  have hlt : (v + longCount n / 2) % n < n := Nat.mod_lt _ (by omega)
  by_cases hv : (v + longCount n / 2) % n < longCount n
  · simp only [phasedCodeword, hv, if_true, codewordIndex]
    rw [if_pos (by constructor <;> omega), Nat.add_sub_cancel, hr]
  · simp only [phasedCodeword, hv, if_false, codewordIndex]
    rw [if_pos (by omega), Nat.sub_add_cancel (by omega), hr]

end Sys2Proof
end

