-- ==== Sys2Proof/Laws/Memory.lean ====
section
/-! SUPPORT. The sparse memories: read after write, and that every operation keeps the canonical form. -/

namespace Sys2Proof.Machine

variable {α : Type}

theorem cellsAbove_mono {b b' : Nat} (m : List (Nat × α)) (hb : b' ≤ b) (h : cellsAbove b m = true) :
    cellsAbove b' m = true := by
  cases m with
  | nil => rfl
  | cons e m => simp [cellsAbove] at h ⊢; exact ⟨by omega, h.2⟩

/-- Nothing is stored under a key below all the keys. -/
theorem cellsRead_of_above {b key : Nat} (m : List (Nat × α)) (h : cellsAbove b m = true) (hk : key ≤ b) :
    cellsRead m key = none := by
  cases m with
  | nil => rfl
  | cons e m =>
    simp [cellsAbove] at h
    simp [cellsRead, show e.1 ≠ key by omega, show key < e.1 by omega]

theorem cellsWf_of_above {b : Nat} {m : List (Nat × α)} (h : cellsAbove b m = true) : cellsWf m = true := by
  cases m with
  | nil => rfl
  | cons e m => simp [cellsAbove] at h; exact h.2

/-- A write is read back, and every other key reads as before. -/
theorem cellsRead_write (m : List (Nat × α)) (h : cellsWf m = true) (key key' : Nat) (x : α) :
    cellsRead (cellsWrite m key x) key' = if key' = key then some x else cellsRead m key' := by
  induction m with
  | nil =>
    by_cases hk : key' = key
    · simp [cellsWrite, cellsRead, hk]
    · simp [cellsWrite, cellsRead, hk, Ne.symm hk]
  | cons e m ih =>
    obtain ⟨k, v⟩ := e
    have ha : cellsAbove k m = true := h
    have ih := ih (cellsWf_of_above ha)
    simp only [cellsWrite]
    split
    · by_cases hk : key' = key
      · simp [cellsRead, hk]
      · by_cases hlt : key' < key
        · simp [cellsRead, hk, Ne.symm hk, hlt, show k ≠ key' by omega, show key' < k by omega]
        · simp [cellsRead, hk, Ne.symm hk, hlt]
    · split
      · rename_i h1 h2
        subst h2
        by_cases hk : key' = k
        · simp [cellsRead, hk]
        · simp [cellsRead, hk, Ne.symm hk]
      · rename_i h1 h2
        simp only [cellsRead, ih]
        by_cases hk : key' = key
        · subst hk; simp [h1, h2]
        · simp [hk]

/-- Bounds on the keys survive a write above them. -/
theorem cellsAbove_write {b key : Nat} (m : List (Nat × α)) (x : α) (h : cellsAbove b m = true) (hk : b < key) :
    cellsAbove b (cellsWrite m key x) = true := by
  induction m generalizing b with
  | nil => simp [cellsWrite, cellsAbove, hk]
  | cons e m ih =>
    obtain ⟨k, v⟩ := e
    simp only [cellsAbove, Bool.and_eq_true, decide_eq_true_eq] at h
    simp only [cellsWrite]
    split
    · rename_i h1; simp [cellsAbove, hk, h1, h.2]
    · split
      · rename_i h1 h2; subst h2; simp [cellsAbove, h.1, h.2]
      · rename_i h1 h2
        simp only [cellsAbove, Bool.and_eq_true, decide_eq_true_eq]
        exact ⟨h.1, ih h.2 (by omega)⟩

/-- A write keeps the keys rising. -/
theorem cellsWf_write (m : List (Nat × α)) (h : cellsWf m = true) (key : Nat) (x : α) :
    cellsWf (cellsWrite m key x) = true := by
  cases m with
  | nil => rfl
  | cons e m =>
    obtain ⟨k, v⟩ := e
    have ha : cellsAbove k m = true := h
    simp only [cellsWrite]
    split
    · rename_i h1; simp [cellsWf, cellsAbove, h1, ha]
    · split
      · rename_i h1 h2; subst h2; exact ha
      · rename_i h1 h2; exact cellsAbove_write m x ha (by omega)

/-- An erased key reads as unlisted, every other key as before. -/
theorem cellsRead_erase (m : List (Nat × α)) (h : cellsWf m = true) (key key' : Nat) :
    cellsRead (cellsErase m key) key' = if key' = key then none else cellsRead m key' := by
  induction m with
  | nil => simp [cellsErase, cellsRead]
  | cons e m ih =>
    obtain ⟨k, v⟩ := e
    have ha : cellsAbove k m = true := h
    have ih := ih (cellsWf_of_above ha)
    simp only [cellsErase]
    split
    · rename_i h1
      by_cases hk : key' = key
      · subst hk; simp [cellsRead, h1, show k ≠ key' by omega]
      · simp [hk]
    · split
      · rename_i h1 h2
        subst h2
        by_cases hk : key' = k
        · subst hk; simp [cellsRead_of_above m ha le_rfl]
        · simp only [cellsRead, hk, if_false, Ne.symm hk]
          split
          · exact cellsRead_of_above m ha (by omega)
          · rfl
      · rename_i h1 h2
        simp only [cellsRead, ih]
        by_cases hk : key' = key
        · subst hk; simp [h1, h2]
        · simp [hk]

theorem cellsAbove_erase {b : Nat} (m : List (Nat × α)) (key : Nat) (h : cellsAbove b m = true) :
    cellsAbove b (cellsErase m key) = true := by
  induction m generalizing b with
  | nil => rfl
  | cons e m ih =>
    obtain ⟨k, v⟩ := e
    simp only [cellsAbove, Bool.and_eq_true, decide_eq_true_eq] at h
    simp only [cellsErase]
    split
    · simp [cellsAbove, h.1, h.2]
    · split
      · exact cellsAbove_mono m (by omega) h.2
      · simp only [cellsAbove, Bool.and_eq_true, decide_eq_true_eq]; exact ⟨h.1, ih h.2⟩

theorem cellsWf_erase (m : List (Nat × α)) (h : cellsWf m = true) (key : Nat) :
    cellsWf (cellsErase m key) = true := by
  cases m with
  | nil => rfl
  | cons e m =>
    obtain ⟨k, v⟩ := e
    have ha : cellsAbove k m = true := h
    simp only [cellsErase]
    split
    · exact ha
    · split
      · exact cellsWf_of_above ha
      · exact cellsAbove_erase m key ha

/-- Membership after a write or an erasure. -/
theorem mem_cellsWrite {m : List (Nat × α)} {key : Nat} {x : α} {e : Nat × α} (h : e ∈ cellsWrite m key x) :
    e = (key, x) ∨ e ∈ m := by
  induction m with
  | nil => simpa [cellsWrite] using h
  | cons d m ih =>
    simp only [cellsWrite] at h
    split at h
    · simpa using h
    · split at h
      · rcases List.mem_cons.1 h with h | h
        · exact .inl h
        · exact .inr (List.mem_cons_of_mem _ h)
      · rcases List.mem_cons.1 h with h | h
        · exact .inr (h ▸ List.mem_cons_self)
        · exact (ih h).imp id (List.mem_cons_of_mem _)

theorem mem_cellsErase {m : List (Nat × α)} {key : Nat} {e : Nat × α} (h : e ∈ cellsErase m key) : e ∈ m := by
  induction m with
  | nil => simp [cellsErase] at h
  | cons d m ih =>
    simp only [cellsErase] at h
    split at h
    · exact h
    · split at h
      · exact List.mem_cons_of_mem _ h
      · rcases List.mem_cons.1 h with h | h
        · exact h ▸ List.mem_cons_self
        · exact List.mem_cons_of_mem _ (ih h)

/-! ## T -/

theorem tableWf_cells {t : List (Nat × Nat)} (h : tableWf t = true) : cellsWf t = true := by
  simp only [tableWf, Bool.and_eq_true] at h; exact h.1

/-- Writing an entry keeps the canonical form of T. -/
theorem tableWf_write (t : List (Nat × Nat)) (h : tableWf t = true) (delta k v : Nat) :
    tableWf (tableWrite t delta k v) = true := by
  simp only [tableWf, Bool.and_eq_true, List.all_eq_true, decide_eq_true_eq] at h ⊢
  unfold tableWrite
  split
  · exact ⟨cellsWf_erase t h.1 _, fun e he => h.2 e (mem_cellsErase he)⟩
  · refine ⟨cellsWf_write t h.1 _ _, fun e he => ?_⟩
    rcases mem_cellsWrite he with rfl | he
    · assumption
    · exact h.2 e he

/-- An entry written is read back, and every other key reads as before. -/
theorem tableRead_write (t : List (Nat × Nat)) (h : cellsWf t = true) (d k v d' k' : Nat) :
    tableRead (tableWrite t d k v) d' k' = if tableKey d' k' = tableKey d k then v else tableRead t d' k' := by
  unfold tableRead tableWrite
  by_cases hv : v = 0
  · rw [if_pos hv, cellsRead_erase t h]; split <;> simp [hv]
  · rw [if_neg hv, cellsRead_write t h]; split <;> simp

/-- Candidates below 32 have their own places. -/
theorem tableKey_inj {d k d' k' : Nat} (hk : k < 32) (hk' : k' < 32) :
    tableKey d k = tableKey d' k' ↔ d = d' ∧ k = k' := by unfold tableKey; omega

theorem cellsWf_tableWrite (t : List (Nat × Nat)) (h : cellsWf t = true) (d k v : Nat) :
    cellsWf (tableWrite t d k v) = true := by
  unfold tableWrite; split
  · exact cellsWf_erase t h _
  · exact cellsWf_write t h _ _

theorem tableWf_writeRow (t : List (Nat × Nat)) (h : tableWf t = true) (d : Nat) (row : List (Nat × Nat)) :
    tableWf (writeRow d t row) = true := by
  unfold writeRow
  induction row generalizing t with
  | nil => exact h
  | cons e row ih => exact ih _ (tableWf_write t h d e.1 e.2)

/-! ## CHAN -/

theorem cellKey_inj {c r x c' r' x' : Nat} (hr : r < 2 ^ 32) (hx : x < 2 ^ 32) (hr' : r' < 2 ^ 32) (hx' : x' < 2 ^ 32) :
    cellKey c r x = cellKey c' r' x' ↔ c = c' ∧ r = r' ∧ x = x' := by unfold cellKey; omega

/-- A cell written is read back, and every other cell of the address space reads as before. -/
theorem chanRead_write (m : List (Nat × Int)) (h : cellsWf m = true) (c r x c' r' x' : Nat) (v : Int)
    (hr : r < 2 ^ 32) (hx : x < 2 ^ 32) (hr' : r' < 2 ^ 32) (hx' : x' < 2 ^ 32) :
    chanRead (chanWrite m c r x v) c' r' x' = if c' = c ∧ r' = r ∧ x' = x then some v else chanRead m c' r' x' := by
  unfold chanRead chanWrite
  rw [cellsRead_write m h]
  simp only [cellKey_inj hr' hx' hr hx]

theorem cellsWf_chanWrite (m : List (Nat × Int)) (h : cellsWf m = true) (c r x : Nat) (v : Int) :
    cellsWf (chanWrite m c r x v) = true := cellsWf_write m h _ _

end Sys2Proof.Machine
end

