-- ==== Sys2Proof/Laws/Sink.lean ====
section
/-! SUPPORT. What the bit sink's operations do, once each: `byteOut`, `pushBit`, `pushList`, `pushBits`, the padding. -/

namespace Sys2Proof.Machine

theorem byteBits_eq (b : Byte) :
    byteBits b = [b.getLsbD 7, b.getLsbD 6, b.getLsbD 5, b.getLsbD 4, b.getLsbD 3, b.getLsbD 2, b.getLsbD 1,
      b.getLsbD 0] := rfl

/-- `acc[i] <- b` sets bit i and no other. -/
theorem getLsbD_assignBit (acc : Byte) (i j : Nat) (b : Bool) (hj : j < 8) :
    (assignBit acc i b).getLsbD j = if j = i then b else acc.getLsbD j := by
  have hp : (BitVec.ofNat 8 (2 ^ i)).getLsbD j = decide (i = j) := by
    rw [BitVec.getLsbD, BitVec.toNat_ofNat, Nat.testBit_mod_two_pow, Nat.testBit_two_pow]
    simp [hj]
  unfold assignBit
  cases b
  · rw [if_neg (by simp), BitVec.getLsbD_and, BitVec.getLsbD_not, hp]
    by_cases h : j = i
    · simp [h]
    · simp [h, Ne.symm h, hj]
  · rw [if_pos rfl, BitVec.getLsbD_or, hp]
    by_cases h : j = i
    · simp [h]
    · simp [h, Ne.symm h]

@[simp] theorem sameButSink_refl (s : State) : sameButSink s s := rfl

theorem sameButSink.trans {s t u : State} (h : sameButSink s t) (h' : sameButSink t u) : sameButSink s u := by
  unfold sameButSink at *
  rw [h', h]
  rfl

/-- ByteOut on a writer that does not fail appends the byte (20_memory.md R42). -/
theorem byteOut_quiet (b : Byte) (s : State) (h : quietOut s) :
    byteOut b s = .ok () (withSink s s.sink (s.out ++ [b]) s.outFail.tail) := by
  unfold byteOut
  split
  · rename_i rest hf; exact absurd (h true (by simp [hf])) (by simp)
  · rename_i rest hf; simp [withSink, hf]
  · rename_i hf; simp [withSink, hf]

theorem quietOut_tail {s : State} (h : quietOut s) (k : BitSink) (o : List Byte) :
    quietOut (withSink s k o s.outFail.tail) := fun f hf => h f (List.mem_of_mem_tail hf)

/-- The first bits of a byte in stream order, after one more is assigned at its place. -/
theorem take_assignBit (acc : Byte) (cnt : BitVec 3) (b : Bool) :
    (byteBits (assignBit acc (7 - cnt.toNat) b)).take (cnt.toNat + 1) = (byteBits acc).take cnt.toNat ++ [b] := by
  have hc : cnt.toNat < 8 := cnt.isLt
  rw [byteBits_eq, byteBits_eq]
  interval_cases h : cnt.toNat <;>
    simp only [List.take_succ_cons, List.take_zero, List.cons_append, List.nil_append] <;>
    (repeat rw [getLsbD_assignBit _ _ _ _ (by omega)]) <;> simp only [↓reduceIte, Nat.reduceSub, Nat.reduceEqDiff]

theorem clean_assignBit (acc : Byte) (n : Nat) (b : Bool) (hn : n < 7)
    (h : ∀ j < 8 - n, acc.getLsbD j = false) : ∀ j < 8 - (n + 1), (assignBit acc (7 - n) b).getLsbD j = false := by
  intro j hj
  rw [getLsbD_assignBit _ _ _ _ (by omega), if_neg (by omega)]
  exact h j (by omega)

/-- PUSH_BIT on a sink that takes bits appends one bit and keeps the sink taking bits (40_bitio.md R90, R97). -/
theorem pushBit_ready (b : Bool) (s : State) (h : sinkReady s) :
    ∃ t, pushBit b s = .ok () t ∧ sinkReady t ∧ sinkBits t = sinkBits s ++ [b] ∧ sameButSink s t := by
  obtain ⟨hf, hc, hq⟩ := h
  unfold pushBit
  simp only [hf, if_false, Bool.false_eq_true]
  by_cases h7 : s.sink.cnt = 7
  · rw [if_pos h7, byteOut_quiet _ _ (by exact hq)]
    refine ⟨_, rfl, ⟨rfl, ?_, ?_⟩, ?_, rfl⟩
    · intro j _; simp
    · exact fun f hf => hq f (List.mem_of_mem_tail hf)
    · have := take_assignBit s.sink.acc s.sink.cnt b
      rw [h7] at this
      simp [sinkBits, h7, withSink] at this ⊢
      rw [List.take_of_length_le (by simp)] at this
      exact this
  · have hlt : s.sink.cnt.toNat < 7 := by
      have := s.sink.cnt.isLt
      have : s.sink.cnt.toNat ≠ 7 := fun e => h7 (BitVec.eq_of_toNat_eq (by simpa using e))
      omega
    have hs : (s.sink.cnt + 1).toNat = s.sink.cnt.toNat + 1 := by
      rw [BitVec.toNat_add]; simp; omega
    rw [if_neg h7]
    refine ⟨_, rfl, ⟨by simp, ?_, hq⟩, ?_, rfl⟩
    · simp only [sinkClean, hs]
      exact clean_assignBit _ _ _ hlt hc
    · simp only [sinkBits, hs, take_assignBit, List.append_assoc]

/-- Pushing bits one after another (20_memory.md R48). -/
theorem pushList_ready (bits : List Bool) (s : State) (h : sinkReady s) :
    ∃ t, pushList bits s = .ok () t ∧ sinkReady t ∧ sinkBits t = sinkBits s ++ bits ∧ sameButSink s t := by
  induction bits generalizing s with
  | nil => exact ⟨s, rfl, h, by simp, rfl⟩
  | cons b bits ih =>
    obtain ⟨t, h1, h2, h3, h4⟩ := pushBit_ready b s h
    obtain ⟨u, k1, k2, k3, k4⟩ := ih t h2
    exact ⟨u, by simp [pushList, h1, k1], k2, by simp [k3, h3], h4.trans k4⟩

theorem pushList_append (a b : List Bool) (s : State) :
    pushList (a ++ b) s = (pushList a s).bind fun _ t => pushList b t := by
  induction a generalizing s with
  | nil => rfl
  | cons x a ih => simp [pushList, ih, Res.bind_assoc]

/-- PUSH_BITS of at most 64 bits is the pushes of its bits (40_bitio.md R91). -/
theorem pushBits_eq (value n : Nat) (s : State) (h : n ≤ 64) : pushBits value n s = pushList (bitsMsb value n) s := by
  simp [pushBits, Config.pushMax, show ¬ 64 < n by omega]

/-- A Rice codeword whose K is at most 64 is the pushes of its bits (41_codes.md R111). -/
theorem pushRice_eq (q r k : Nat) (s : State) (h : k ≤ 64) : pushRice q r k s = pushList (riceBits k q r) s := by
  unfold pushRice riceBits
  rw [show List.replicate q false ++ true :: bitsMsb r k = (List.replicate q false ++ [true]) ++ bitsMsb r k by simp,
    pushList_append (List.replicate q false ++ [true])]
  show _ = Res.bind _ _
  congr 1
  funext _ t
  by_cases hk : k = 0
  · subst hk; rfl
  · rw [if_neg hk, pushBits_eq r k t h]

/-- A codeword of at most 64 bits is the pushes of its bits (R120). -/
theorem pushCodeword_eq (n : Nat) (cw : Codeword) (s : State) (h : phasedM n < 64) :
    pushCodeword n cw s = pushList (codewordBits n cw) s := by
  cases cw with
  | short x => exact pushBits_eq _ _ _ (by omega)
  | long y => exact pushBits_eq _ _ _ (by omega)

/-- The pushes change the sink, OUT and the writer's answers only, whatever their outcome; a failed write leaves the
error's state no less framed. -/
theorem byteOut_frame {b : Byte} {s t : State} (h : byteOut b s = .ok () t) : sameButSink s t ∧ t.sink = s.sink := by
  unfold byteOut at h
  split at h <;> cases h <;> exact ⟨rfl, rfl⟩

theorem byteOut_raise {b : Byte} {e : Err} {s t : State} (h : byteOut b s = .raise e t) :
    e = .ioError ∧ t = withSink s s.sink s.out t.outFail := by
  unfold byteOut at h
  split at h <;> cases h
  exact ⟨rfl, rfl⟩

/-- PUSH_BIT completes, or raises, and in both cases changes only what pushing changes. -/
theorem pushBit_cases (b : Bool) (s : State) :
    (∃ t, pushBit b s = .ok () t ∧ sameButSink s t ∧ t.sink.flushed = s.sink.flushed ∧ (sinkClean s → sinkClean t)) ∨
      (∃ e t, pushBit b s = .raise e t ∧ sameButSink s t) := by
  unfold pushBit
  by_cases hf : s.sink.flushed = true
  · exact .inr ⟨.useAfterFlush, s, by simp [hf], rfl⟩
  · simp only [hf, if_false, Bool.false_eq_true]
    by_cases h7 : s.sink.cnt = 7
    · rw [if_pos h7]
      generalize hr : byteOut (assignBit s.sink.acc (7 - s.sink.cnt.toNat) b) _ = r
      cases r with
      | ok a t =>
        have hk := byteOut_frame hr
        refine .inl ⟨_, rfl, ?_, ?_, ?_⟩
        · rw [hk.1]; rfl
        · rw [hk.1]; simp [withSink, hk.2]
        · intro _ j _; simp
      | raise e t => exact .inr ⟨e, t, rfl, by rw [(byteOut_raise hr).2]; rfl⟩
      | fault x => unfold byteOut at hr; split at hr <;> cases hr
      | refuse x => unfold byteOut at hr; split at hr <;> cases hr
    · rw [if_neg h7]
      have hlt : s.sink.cnt.toNat < 7 := by
        have := s.sink.cnt.isLt
        have : s.sink.cnt.toNat ≠ 7 := fun e => h7 (BitVec.eq_of_toNat_eq (by simpa using e))
        omega
      have hs : (s.sink.cnt + 1).toNat = s.sink.cnt.toNat + 1 := by
        rw [BitVec.toNat_add]; simp; omega
      refine .inl ⟨_, rfl, rfl, rfl, fun hc => ?_⟩
      simp only [sinkClean, hs]
      exact clean_assignBit _ _ _ hlt hc

theorem pushList_cases (bits : List Bool) (s : State) :
    (∃ t, pushList bits s = .ok () t ∧ sameButSink s t ∧ t.sink.flushed = s.sink.flushed ∧ (sinkClean s → sinkClean t)) ∨
      (∃ e t, pushList bits s = .raise e t ∧ sameButSink s t) := by
  induction bits generalizing s with
  | nil => exact .inl ⟨s, rfl, rfl, rfl, id⟩
  | cons b bits ih =>
    rcases pushBit_cases b s with ⟨t, h1, h2, h3, h4⟩ | ⟨e, t, h1, h2⟩
    · rcases ih t with ⟨u, k1, k2, k3, k4⟩ | ⟨e, u, k1, k2⟩
      · exact .inl ⟨u, by simp [pushList, h1, k1], h2.trans k2, k3.trans h3, k4 ∘ h4⟩
      · exact .inr ⟨e, u, by simp [pushList, h1, k1], h2.trans k2⟩
    · exact .inr ⟨e, t, by simp [pushList, h1], h2⟩

/-- PUSH_BIT fails exactly where `pushFails` says (R90). -/
theorem pushBit_fails (b : Bool) (s : State) (h : pushFails s) : ∃ e t, pushBit b s = .raise e t := by
  unfold pushBit
  by_cases hf : s.sink.flushed = true
  · exact ⟨.useAfterFlush, s, by simp [hf]⟩
  · rcases h with h | ⟨h7, ho⟩
    · exact absurd h hf
    · rw [if_neg hf]
      simp only [h7, if_true]
      unfold byteOut
      cases hl : s.outFail with
      | nil => simp [hl] at ho
      | cons f fs =>
        rw [hl] at ho
        simp only [List.head?_cons, Option.some.injEq] at ho
        subst ho
        exact ⟨_, _, rfl⟩

theorem pushBit_completes (b : Bool) (s : State) (h : ¬ pushFails s) : ∃ t, pushBit b s = .ok () t := by
  unfold pushBit
  unfold pushFails at h
  rw [if_neg (fun hf => h (.inl hf))]
  by_cases h7 : s.sink.cnt = 7
  · simp only [h7, if_true]
    unfold byteOut
    cases hl : s.outFail with
    | nil => exact ⟨_, rfl⟩
    | cons f fs =>
      cases f with
      | true => exact absurd (.inr ⟨h7, by simp [hl]⟩) h
      | false => exact ⟨_, rfl⟩
  · rw [if_neg h7]; exact ⟨_, rfl⟩

/-- The pushes of Machine/Ops.lean are the PUSH_BITs of `pushEach`, whatever they raise. -/
theorem pushEach_eq (bits : List Bool) (s : State) : pushEach bits s = (pushList bits s).finish := by
  induction bits generalizing s with
  | nil => rfl
  | cons b bits ih =>
    have hb : (BitVec.ofBool b).getLsbD 0 = b := by cases b <;> rfl
    simp only [pushEach, pushList, exec, execPushBit, hb]
    by_cases hp : pushFails s
    · obtain ⟨e, t, h⟩ := pushBit_fails b s hp
      simp [h, hp]
    · obtain ⟨t, h⟩ := pushBit_completes b s hp
      simp [h, hp, ih]

theorem pushList_appends (bits : List Bool) (s : State) (h : sinkReady s) :
    appends bits s (pushList bits s).finish := by
  obtain ⟨t, h1, h2, h3, h4⟩ := pushList_ready bits s h
  exact ⟨t, by rw [h1]; rfl, h2, h3, h4⟩

end Sys2Proof.Machine
end

