-- ==== Sys2Proof/Laws/Source.lean ====
section
/-! SUPPORT. What the bit source's operations do, once each: `byteIn`, `pullBit`, and the readings over a list of bits. -/

namespace Sys2Proof.Machine

@[simp] theorem sameButSource_refl (s : State) : sameButSource s s := rfl

theorem sameButSource.trans {s t u : State} (h : sameButSource s t) (h' : sameButSource t u) : sameButSource s u := by
  unfold sameButSource at *
  rw [h', h]
  rfl

/-- ByteIn on a reader that does not fail: the byte at IN_POS or EOF (20_memory.md R43). -/
theorem byteIn_quiet (s : State) (h : quietIn s) :
    byteIn s = .ok s.inp[s.inPos]?
      (withSource s s.src (s.inPos + if s.inPos < s.inp.length then 1 else 0) s.inFail.tail) := by
  unfold byteIn nextByte
  split
  · rename_i rest hf; exact absurd (h true (by simp [hf])) (by simp)
  · rename_i rest hf
    simp only
    by_cases hl : s.inPos < s.inp.length
    · simp [hl, withSource, hf]
    · simp [hl, withSource, hf]
  · rename_i hf
    by_cases hl : s.inPos < s.inp.length
    · simp [hl, withSource, hf]
    · simp [hl, withSource, hf]
      cases s
      simp_all

/-- ByteIn completes or fails, and changes IN_POS and the reader's answers only. -/
theorem byteIn_frame (s : State) :
    (∃ x t, byteIn s = .ok x t ∧ sameButSource s t ∧ t.src = s.src ∧ t.inp = s.inp) ∨
      (∃ t, byteIn s = .err .ioError t ∧ sameButSource s t ∧ t.inPos = s.inPos) := by
  unfold byteIn nextByte
  split
  · exact .inr ⟨_, rfl, rfl, rfl⟩
  · rename_i rest hf
    simp only
    cases hx : s.inp[s.inPos]? with
    | none => exact .inl ⟨_, _, rfl, rfl, rfl, rfl⟩
    | some x => exact .inl ⟨_, _, rfl, rfl, rfl, rfl⟩
  · rename_i hf
    cases hx : s.inp[s.inPos]? with
    | none => exact .inl ⟨_, _, rfl, rfl, rfl, rfl⟩
    | some x => exact .inl ⟨_, _, rfl, rfl, rfl, rfl⟩

theorem bitsMsb_pos (v n : Nat) (h : 0 < n) : bitsMsb v n = v.testBit (n - 1) :: bitsMsb v (n - 1) := by
  cases n with
  | zero => omega
  | succ n => rfl

/-- ByteIn where the reader has a byte to deliver. -/
theorem byteIn_cons (s : State) (b : Byte) (rest : List Byte) (h : readableBytes s = b :: rest) :
    ∃ t, byteIn s = .ok (some b) t ∧ readableBytes t = rest ∧ readEnd t = readEnd s ∧ t.src = s.src ∧
      t.inPos = s.inPos + 1 ∧ sameButSource s t := by
  have hd : ∀ l : List Byte, s.inp.drop s.inPos = b :: l →
      s.inp[s.inPos]? = some b ∧ s.inp.drop (s.inPos + 1) = l := by
    intro l hl
    constructor
    · rw [← List.head?_drop, hl]; rfl
    · rw [← List.tail_drop, hl]; rfl
  unfold readableBytes at h
  unfold byteIn
  cases hf : s.inFail with
  | nil =>
    simp only [hf, readsBeforeFailure] at h
    obtain ⟨h1, h2⟩ := hd rest h
    exact ⟨{ s with inPos := s.inPos + 1 }, by simp [nextByte, h1], by simp [readableBytes, hf, readsBeforeFailure, h2],
      by simp [readEnd, hf, readsBeforeFailure], rfl, rfl, rfl⟩
  | cons f fs =>
    cases f with
    | true => simp [hf, readsBeforeFailure] at h
    | false =>
      cases hr : readsBeforeFailure fs with
      | none =>
        simp only [hf, readsBeforeFailure, hr, Option.map_none] at h
        obtain ⟨h1, h2⟩ := hd rest h
        exact ⟨{ s with inPos := s.inPos + 1, inFail := fs }, by simp [nextByte, h1],
          by simp [readableBytes, hr, h2], by simp [readEnd, hf, readsBeforeFailure, hr], rfl, rfl, rfl⟩
      | some n =>
        simp only [hf, readsBeforeFailure, hr, Option.map_some] at h
        cases hl : s.inp.drop s.inPos with
        | nil => simp [hl] at h
        | cons x l =>
          rw [hl, List.take_succ_cons] at h
          injection h with hx hrest
          subst hx hrest
          obtain ⟨h1, h2⟩ := hd l hl
          exact ⟨{ s with inPos := s.inPos + 1, inFail := fs }, by simp [nextByte, h1],
            by simp [readableBytes, hr, h2],
            by simp only [readEnd, hf, readsBeforeFailure, hr, Option.map_some, h2, hl, List.length_cons,
              Nat.add_le_add_iff_right], rfl, rfl, rfl⟩

/-- ByteIn where the reader delivers no byte any more: EOF, or its failure. -/
theorem byteIn_nil (s : State) (h : readableBytes s = []) :
    (byteIn s = .ok none { s with inFail := s.inFail.tail } ∧ readEnd s = .truncated) ∨
      (byteIn s = .err .ioError { s with inFail := s.inFail.tail } ∧ readEnd s = .ioError) := by
  have hd : s.inp.drop s.inPos = [] → s.inp[s.inPos]? = none := by
    intro hl
    rw [← List.head?_drop, hl]; rfl
  unfold readableBytes at h
  unfold byteIn
  cases hf : s.inFail with
  | nil =>
    simp only [hf, readsBeforeFailure] at h
    refine .inl ⟨?_, by simp [readEnd, hf, readsBeforeFailure]⟩
    simp only [nextByte, hd h, List.tail_nil]
    rw [← hf]
  | cons f fs =>
    cases f with
    | true => exact .inr ⟨rfl, by simp [readEnd, hf, readsBeforeFailure]⟩
    | false =>
      cases hr : readsBeforeFailure fs with
      | none =>
        simp only [hf, readsBeforeFailure, hr, Option.map_none] at h
        exact .inl ⟨by simp [nextByte, hd h], by simp [readEnd, hf, readsBeforeFailure, hr]⟩
      | some n =>
        simp only [hf, readsBeforeFailure, hr, Option.map_some] at h
        have hl : s.inp.drop s.inPos = [] := by
          cases hl : s.inp.drop s.inPos with
          | nil => rfl
          | cons x l => simp [hl] at h
        exact .inl ⟨by simp [nextByte, hd hl], by simp [readEnd, hf, readsBeforeFailure, hr, hl]⟩

/-- The source t is the source s after pulls that leave the given bits: nothing but the source has changed, and it will
end as it would have ended, at the same byte of IN. -/
def leaves (s t : State) (rest : List Bool) : Prop :=
  sameButSource s t ∧ readableBits t = rest ∧ readEnd t = readEnd s ∧
    t.inPos + (readableBytes t).length = s.inPos + (readableBytes s).length

theorem leaves_refl (s : State) : leaves s s (readableBits s) := ⟨rfl, rfl, rfl, rfl⟩

theorem leaves.trans {s t u : State} {r r' : List Bool} (h : leaves s t r) (h' : leaves t u r') : leaves s u r' :=
  ⟨h.1.trans h'.1, h'.2.1, h'.2.2.1.trans h.2.2.1, h'.2.2.2.trans h.2.2.2⟩

theorem leaves.exhausted {s t u : State} {r : List Bool} (h : leaves s t r) (h' : exhausted t u) : exhausted s u :=
  ⟨h.1.trans h'.1, h'.2.1, h'.2.2.trans h.2.2.2⟩

/-- PULL_BIT where a bit is left: it delivers the first readable bit and leaves the others (40_bitio.md R93). -/
theorem pullBit_cons (s : State) (b : Bool) (rest : List Bool) (hu : readableBits s = b :: rest) :
    ∃ t, pullBit s = .ok b t ∧ leaves s t rest := by
  unfold pullBit
  by_cases hc : s.src.cnt = 0
  · rw [if_pos hc]
    have hu' : streamBits (readableBytes s) = b :: rest := by simpa [readableBits, hc, bitsMsb] using hu
    cases hl : readableBytes s with
    | nil => rw [hl] at hu'; simp at hu'
    | cons x l =>
      obtain ⟨t, h1, h2, h3, h4, h6, h5⟩ := byteIn_cons s x l hl
      rw [hl, streamBits_cons] at hu'
      have hb : byteBits x = x.getLsbD 7 :: bitsMsb x.toNat 7 := rfl
      rw [hb] at hu'
      injection hu' with k1 k2
      subst k1 k2
      rw [h1]
      have hr : readableBytes { t with src := ⟨x, 7⟩ } = l := h2
      refine ⟨{ t with src := ⟨x, 7⟩ }, rfl, h5.trans rfl, ?_, h3, ?_⟩
      · simp only [readableBits, hr]
        rfl
      · simp only [hr, hl, List.length_cons]
        omega
  · rw [if_neg hc]
    have h0 : s.src.cnt.toNat ≠ 0 := fun e => hc (BitVec.eq_of_toNat_eq (by simpa using e))
    have hs : (s.src.cnt - 1).toNat = s.src.cnt.toNat - 1 := by
      rw [BitVec.toNat_sub_of_le (by rw [BitVec.le_def]; simp; omega)]; rfl
    unfold readableBits at hu
    rw [bitsMsb_pos _ _ (by omega)] at hu
    injection hu with h1 h2
    subst h1 h2
    exact ⟨_, rfl, rfl, by simp only [readableBits, hs]; rfl, rfl, rfl⟩

/-- PULL_BIT where no bit is left raises what the reading ends in, and moves nothing (R93, 20_memory.md R44). -/
theorem pullBit_nil (s : State) (hu : readableBits s = []) :
    pullBit s = .err (readEnd s) { s with inFail := s.inFail.tail } ∧ s.src.cnt = 0 ∧ readableBytes s = [] := by
  have hlen := congrArg List.length hu
  simp only [readableBits, List.length_append, bitsMsb_length, streamBits_length, List.length_nil] at hlen
  have hc : s.src.cnt = 0 := BitVec.eq_of_toNat_eq (by simp; omega)
  have hb : readableBytes s = [] := List.length_eq_zero_iff.1 (by omega)
  refine ⟨?_, hc, hb⟩
  unfold pullBit
  rw [if_pos hc]
  rcases byteIn_nil s hb with ⟨h1, h2⟩ | ⟨h1, h2⟩
  · rw [h1, h2]; rfl
  · rw [h1, h2]; rfl

/-- A pull past the readable bits exhausts the source. -/
theorem pullBit_exhausted (s : State) (hu : readableBits s = []) :
    ∃ t, pullBit s = .err (readEnd s) t ∧ exhausted s t := by
  obtain ⟨h1, h2, h3⟩ := pullBit_nil s hu
  exact ⟨_, h1, rfl, h2, by simp [h3]⟩

/-- PULL_BIT completes or raises Truncated or IoError, and changes only what pulling changes. -/
theorem pullBit_frame (s : State) :
    (∃ b t, pullBit s = .ok b t ∧ sameButSource s t) ∨
      (∃ e t, pullBit s = .err e t ∧ (e = .truncated ∨ e = .ioError) ∧ sameButSource s t) := by
  unfold pullBit
  by_cases hc : s.src.cnt = 0
  · rw [if_pos hc]
    rcases byteIn_frame s with ⟨x, t, h1, h2, h3, h4⟩ | ⟨t, h1, h2, _⟩
    · rw [h1]
      cases x with
      | none => exact .inr ⟨_, t, rfl, .inl rfl, h2⟩
      | some x => exact .inl ⟨_, _, rfl, h2.trans rfl⟩
    · rw [h1]; exact .inr ⟨_, t, rfl, .inr rfl, h2⟩
  · rw [if_neg hc]; exact .inl ⟨_, _, rfl, rfl⟩

/-- n pulls where n bits are left (40_bitio.md R94). -/
theorem readBits_leaves (n acc : Nat) (s : State) (h : n ≤ (readableBits s).length) :
    ∃ t, readBits pullBit n acc s = .ok (acc * 2 ^ n + ofBits ((readableBits s).take n)) t ∧
      leaves s t ((readableBits s).drop n) := by
  induction n generalizing acc s with
  | zero => exact ⟨s, by simp [readBits, ofBits], leaves_refl s⟩
  | succ n ih =>
    cases hb : readableBits s with
    | nil => rw [hb] at h; simp at h
    | cons b rest =>
      obtain ⟨t, h1, h2⟩ := pullBit_cons s b rest hb
      have hr := h2.2.1
      obtain ⟨u, k1, k2⟩ := ih (2 * acc + b.toNat) t (by rw [hr]; rw [hb] at h; simpa using h)
      rw [hr] at k1 k2
      refine ⟨u, ?_, h2.trans k2⟩
      have hl : (rest.take n).length = n := by rw [hb] at h; simp at h ⊢; omega
      simp only [readBits, h1, Read.bind_ok, k1, List.take_succ_cons, ofBits_cons, hl]
      congr 1
      ring

/-- n pulls where fewer than n bits are left (R94, 20_memory.md R48). -/
theorem readBits_exhausted (n acc : Nat) (s : State) (h : (readableBits s).length < n) :
    ∃ t, readBits pullBit n acc s = .err (readEnd s) t ∧ exhausted s t := by
  induction n generalizing acc s with
  | zero => omega
  | succ n ih =>
    cases hb : readableBits s with
    | nil =>
      obtain ⟨t, h1, h2⟩ := pullBit_exhausted s hb
      exact ⟨t, by simp [readBits, h1], h2⟩
    | cons b rest =>
      obtain ⟨t, h1, h2⟩ := pullBit_cons s b rest hb
      obtain ⟨u, k1, k2⟩ := ih (2 * acc + b.toNat) t (by rw [h2.2.1]; rw [hb] at h; simpa using h)
      exact ⟨u, by simp only [readBits, h1, Read.bind_ok, k1, h2.2.2.1], h2.exhausted k2⟩

theorem readField_leaves (n : Nat) (s : State) (hn : n ≤ Config.pushMax) (h : n ≤ (readableBits s).length) :
    ∃ t, readField pullBit n s = .ok (ofBits ((readableBits s).take n)) t ∧ leaves s t ((readableBits s).drop n) := by
  obtain ⟨t, h1, h2⟩ := readBits_leaves n 0 s h
  exact ⟨t, by rw [readField, if_neg (by omega), h1]; simp, h2⟩

theorem readField_exhausted (n : Nat) (s : State) (hn : n ≤ Config.pushMax) (h : (readableBits s).length < n) :
    ∃ t, readField pullBit n s = .err (readEnd s) t ∧ exhausted s t := by
  obtain ⟨t, h1, h2⟩ := readBits_exhausted n 0 s h
  exact ⟨t, by rw [readField, if_neg (by omega), h1], h2⟩

/-- A run of zeros that a one ends, within the bound (41_codes.md R112). -/
theorem countZeros_leaves (left q n : Nat) (s : State) (rest : List Bool) (hn : n ≤ left)
    (h : readableBits s = List.replicate n false ++ true :: rest) :
    ∃ t, countZeros pullBit left q s = .ok (q + n) t ∧ leaves s t rest := by
  induction n generalizing left q s with
  | zero =>
    obtain ⟨t, h1, h2⟩ := pullBit_cons s true rest h
    exact ⟨t, by cases left <;> simp [countZeros, h1], h2⟩
  | succ n ih =>
    cases left with
    | zero => omega
    | succ left =>
      obtain ⟨t, h1, h2⟩ := pullBit_cons s false (List.replicate n false ++ true :: rest) h
      obtain ⟨u, k1, k2⟩ := ih left (q + 1) t (by omega) h2.2.1
      exact ⟨u, by simp only [countZeros, h1, Read.bind_ok, k1]; simp; omega, h2.trans k2⟩

/-- A run of zeros beyond the bound is MalformedCodeword at the first zero too many (R113). -/
theorem countZeros_malformed (left q : Nat) (s : State) (rest : List Bool)
    (h : readableBits s = List.replicate (left + 1) false ++ rest) :
    ∃ t, countZeros pullBit left q s = .err .malformedCodeword t ∧ leaves s t rest := by
  induction left generalizing q s with
  | zero =>
    obtain ⟨t, h1, h2⟩ := pullBit_cons s false rest h
    exact ⟨t, by simp [countZeros, h1], h2⟩
  | succ left ih =>
    obtain ⟨t, h1, h2⟩ := pullBit_cons s false (List.replicate (left + 1) false ++ rest) h
    obtain ⟨u, k1, k2⟩ := ih (q + 1) t h2.2.1
    exact ⟨u, by simp only [countZeros, h1, Read.bind_ok, k1]; simp, h2.trans k2⟩

/-- A stream that ends inside a run of zeros within the bound (R112). -/
theorem countZeros_exhausted (left q n : Nat) (s : State) (hn : n ≤ left)
    (h : readableBits s = List.replicate n false) :
    ∃ t, countZeros pullBit left q s = .err (readEnd s) t ∧ exhausted s t := by
  induction n generalizing left q s with
  | zero =>
    obtain ⟨t, h1, h2⟩ := pullBit_exhausted s h
    exact ⟨t, by cases left <;> simp [countZeros, h1], h2⟩
  | succ n ih =>
    cases left with
    | zero => omega
    | succ left =>
      obtain ⟨t, h1, h2⟩ := pullBit_cons s false (List.replicate n false) h
      obtain ⟨u, k1, k2⟩ := ih left (q + 1) t (by omega) h2.2.1
      exact ⟨u, by simp only [countZeros, h1, Read.bind_ok, k1, h2.2.2.1]; simp, h2.exhausted k2⟩

end Sys2Proof.Machine

namespace Sys2Proof

/-- Reading a list that holds the bits gives their number and leaves the rest (40_bitio.md R94). -/
theorem readBits_list (bits rest : List Bool) (acc : Nat) :
    readBits pullList bits.length acc (bits ++ rest) = .ok (acc * 2 ^ bits.length + ofBits bits) rest := by
  induction bits generalizing acc with
  | nil => simp [readBits, ofBits]
  | cons b bits ih =>
    simp only [List.length_cons, readBits, List.cons_append, pullList, Read.bind]
    rw [ih, ofBits_cons]
    congr 1
    ring

/-- A field of at most 64 bits that carries the number v (R91, R94). -/
theorem readField_list (v n : Nat) (rest : List Bool) (h : n ≤ Config.pushMax) (hv : v < 2 ^ n) :
    readField pullList n (bitsMsb v n ++ rest) = .ok v rest := by
  have := readBits_list (bitsMsb v n) rest 0
  rw [bitsMsb_length, ofBits_bitsMsb, Nat.mod_eq_of_lt hv] at this
  rw [readField, if_neg (by omega), this]
  simp

end Sys2Proof
end

