-- ==== Sys2Proof/Laws/Ops.lean ====
section
/-! SUPPORT. One lemma for each shared operation above the bit layer: everything it can answer. -/

namespace Sys2Proof.Machine

/-- What the engine takes: the host's oldest event, when STATUS is not BUSY or the event takes over. -/
theorem nextEvent_cases (s : State) :
    (nextEvent s = none ∧ (s.cmdq = [] ∨ s.stat.status = .busy)) ∨
      ∃ e rest, s.cmdq = e :: rest ∧ nextEvent s = some (e, { s with cmdq := rest }) ∧
        (s.stat.status ≠ .busy ∨ takesOver e = true) := by
  unfold nextEvent
  cases hq : s.cmdq with
  | nil => exact .inl ⟨rfl, .inl rfl⟩
  | cons e rest =>
    by_cases h : s.stat.status ≠ .busy ∨ takesOver e = true
    · exact .inr ⟨e, rest, rfl, by simp [h], h⟩
    · exact .inl ⟨by simp [h], .inr (by tauto)⟩

/-- A host command's word decodes to one of the three commands (30_encoding.md R76). -/
theorem isHostCommand_cases {c : Issue} (h : isHostCommand c = true) :
    decodeCommand c = .ok .compress ∨ decodeCommand c = .ok .decompress ∨ decodeCommand c = .ok .readHeader := by
  rcases of_decide_eq_true h with h | h | h <;> simp [decodeCommand, h]

/-- A word that takes over starts a command or is no operation's code. -/
theorem takesOver_cases {c : Issue} (h : takesOver (.word c) = true) :
    decodeCommand c = .ok .compress ∨ decodeCommand c = .ok .decompress ∨ decodeCommand c = .ok .readHeader ∨
      ∃ e, decodeCommand c = .error e := by
  simp only [takesOver, Bool.and_eq_true, Bool.or_eq_true] at h
  rcases h.2 with h | h
  · rcases isHostCommand_cases h with h | h | h
    · exact .inl h
    · exact .inr (.inl h)
    · exact .inr (.inr (.inl h))
  · unfold isUnknownCode at h
    cases hd : decodeCommand c with
    | error e => exact .inr (.inr (.inr ⟨e, rfl⟩))
    | ok i => rw [hd] at h; cases h

/-- Everything a step can do: the host's reset, a word performed, a word not performed, a code that is no operation, the
running command's next step, or nothing. -/
theorem step_cases (s : State) :
    (∃ rest, s.cmdq = .reset :: rest ∧ step s = .next (resetEngine { s with cmdq := rest })) ∨
    (∃ c rest i, s.cmdq = .word c :: rest ∧ decodeCommand c = .ok i ∧
      (s.stat.status ≠ .busy ∨ takesOver (.word c) = true) ∧
      ((performs c s = true ∧ step s = exec i { s with cmdq := rest }) ∨
        (performs c s = false ∧ step s = .next { s with cmdq := rest }))) ∨
    (∃ c rest e, s.cmdq = .word c :: rest ∧ decodeCommand c = .error e ∧
      step s = .next (raiseError .invalidInput { s with cmdq := rest })) ∨
    (s.stat.status = .busy ∧ step s = engineStep s) ∨ (s.stat.status ≠ .busy ∧ s.cmdq = [] ∧ step s = .next s) := by
  rcases nextEvent_cases s with ⟨hn, hb⟩ | ⟨e, rest, hq, hn, ht⟩
  · right; right; right
    by_cases h : s.stat.status = .busy
    · exact .inl ⟨h, by simp [step, hn, h]⟩
    · refine .inr ⟨h, hb.resolve_right h, ?_⟩
      unfold step
      rw [hn]
      cases hs : s.stat.status <;> simp_all
  · cases e with
    | reset => exact .inl ⟨rest, hq, by simp [step, hn]⟩
    | word c =>
      cases hd : decodeCommand c with
      | error e => exact .inr (.inr (.inl ⟨c, rest, e, hq, hd, by simp [step, hn, hd]⟩))
      | ok i =>
        refine .inr (.inl ⟨c, rest, i, hq, hd, ht, ?_⟩)
        cases hp : performs c s with
        | true => exact .inl ⟨rfl, by simp [step, hn, hd, show performs c { s with cmdq := rest } = true from hp]⟩
        | false => exact .inr ⟨rfl, by simp [step, hn, hd, show performs c { s with cmdq := rest } = false from hp]⟩

/-- PREDICT is not performed for a verbatim sample (42_predictor_selector.md R134, log entry 10). -/
theorem predict_verbatim (s : State) (h : idx s < 2) : predict s = .ok () s := by simp [predict, h]

/-- PREDICT on two written neighbours (R130, R136). -/
theorem predict_eq (s : State) (h : 2 ≤ idx s) (a b : Int)
    (ha : chanRead s.chan s.seq.ch.toNat (neighbours s.hdr.width.toNat s.seq.row.toNat s.seq.col.toNat).1.1
      (neighbours s.hdr.width.toNat s.seq.row.toNat s.seq.col.toNat).1.2 = some a)
    (hb : chanRead s.chan s.seq.ch.toNat (neighbours s.hdr.width.toNat s.seq.row.toNat s.seq.col.toNat).2.1
      (neighbours s.hdr.width.toNat s.seq.row.toNat s.seq.col.toNat).2.2 = some b) :
    predict s = .ok () { s with
      dp := { s.dp with a := a, b := b, l := min a b, h := max a b, delta := (max a b - min a b).toNat } } := by
  simp [predict, show ¬ idx s < 2 by omega, ha, hb]

/-- PREDICT completes, changing the datapath only, or reads an unwritten cell. -/
theorem predict_cases (s : State) :
    (∃ dp, predict s = .ok () { s with dp := dp } ∧ dp.p = s.dp.p ∧ dp.k = s.dp.k ∧ dp.v = s.dp.v) ∨
      predict s = .fault .unwrittenCell := by
  unfold predict
  by_cases h : idx s < 2
  · exact .inl ⟨s.dp, by simp [h], rfl, rfl, rfl⟩
  · simp only [h, if_false]
    split
    · exact .inl ⟨_, rfl, rfl, rfl, rfl⟩
    · exact .inr rfl

/-- Reading a row of T draws no free value (R21). -/
theorem drawRow_eq (delta : Nat) (s : State) (h : delta ≤ maxSample s) : drawRow delta s = s := by simp [drawRow, h]

theorem rowEntry_eq (delta : Nat) (s : State) (h : delta ≤ maxSample s) : rowEntry delta s = tableRead s.table delta := by
  funext k; simp [rowEntry, h]

/-- GET_K in the table (R138). -/
theorem getK_eq (delta : Nat) (s : State) (h : delta ≤ maxSample s) :
    getK delta s = .ok (selectK (tableRead s.table delta) (kset s))
      { s with dp := { s.dp with k := selectK (tableRead s.table delta) (kset s) } } := by
  simp only [getK, rowEntry_eq delta s h]
  rw [drawRow_eq]
  exact h

/-- UPDATE in the table (R139). -/
theorem updateTable_eq (delta v : Nat) (s : State) (h : delta ≤ maxSample s) :
    updateTable delta v s =
      .ok () { s with table := writeRow delta s.table (updatedRow (kset s) (tableRead s.table delta) v) } := by
  simp only [updateTable, rowEntry_eq delta s h]
  rw [drawRow_eq]
  exact h

/-- UPDATE always completes and keeps the canonical form; outside the table it draws free values (log entry 9). -/
theorem updateTable_cases (delta v : Nat) (s : State) :
    ∃ t d, updateTable delta v s = .ok () { s with table := t, drawn := d } ∧ (tableWf s.table = true → tableWf t = true) :=
  ⟨_, _, rfl, fun hw => tableWf_writeRow _ hw _ _⟩

/-- PHASED_DEC answers an index, or raises what its reading raises (41_codes.md R121, log entry 35). -/
theorem phasedDec_pos (n : Nat) (s : State) (h : 1 ≤ n) : phasedDec n s = ofRead (readPhased pullBit n s) := by
  simp [phasedDec, show n ≠ 0 by omega]

/-! ## The sequencer -/

/-- The advance changes the sequencer, and clears T at a channel change (10_state.md R15, R22). -/
theorem advance_cases (s : State) :
    ∃ q, advance s = { s with seq := q } ∨ advance s = { s with seq := q, table := [] } := by
  unfold advance
  split
  · exact ⟨_, .inl rfl⟩
  · split
    · exact ⟨_, .inl rfl⟩
    · split
      · exact ⟨_, .inr rfl⟩
      · exact ⟨_, .inl rfl⟩

theorem advance_wf (s : State) (h : Memory.wf s = true) : Memory.wf (advance s) = true := by
  obtain ⟨q, hq | hq⟩ := advance_cases s
  · rw [hq]; exact h
  · rw [hq]
    simp only [Memory.wf, Bool.and_eq_true] at h ⊢
    exact ⟨h.1, rfl⟩

@[simp] theorem advance_hdr (s : State) : (advance s).hdr = s.hdr := by
  obtain ⟨q, hq | hq⟩ := advance_cases s <;> rw [hq]

@[simp] theorem advance_stat (s : State) : (advance s).stat = s.stat := by
  obtain ⟨q, hq | hq⟩ := advance_cases s <;> rw [hq]

@[simp] theorem advance_dp (s : State) : (advance s).dp = s.dp := by
  obtain ⟨q, hq | hq⟩ := advance_cases s <;> rw [hq]

@[simp] theorem advance_sink (s : State) : (advance s).sink = s.sink := by
  obtain ⟨q, hq | hq⟩ := advance_cases s <;> rw [hq]

@[simp] theorem advance_src (s : State) : (advance s).src = s.src := by
  obtain ⟨q, hq | hq⟩ := advance_cases s <;> rw [hq]

@[simp] theorem advance_chan (s : State) : (advance s).chan = s.chan := by
  obtain ⟨q, hq | hq⟩ := advance_cases s <;> rw [hq]

@[simp] theorem advance_out (s : State) : (advance s).out = s.out := by
  obtain ⟨q, hq | hq⟩ := advance_cases s <;> rw [hq]

@[simp] theorem advance_inp (s : State) : (advance s).inp = s.inp := by
  obtain ⟨q, hq | hq⟩ := advance_cases s <;> rw [hq]

@[simp] theorem advance_inPos (s : State) : (advance s).inPos = s.inPos := by
  obtain ⟨q, hq | hq⟩ := advance_cases s <;> rw [hq]

@[simp] theorem advance_pix (s : State) : (advance s).pix = s.pix := by
  obtain ⟨q, hq | hq⟩ := advance_cases s <;> rw [hq]

@[simp] theorem advance_cmdq (s : State) : (advance s).cmdq = s.cmdq := by
  obtain ⟨q, hq | hq⟩ := advance_cases s <;> rw [hq]

/-- A decoded sample's cell keeps the canonical form. -/
theorem storeSample_wf (p : Int) (s : State) (h : Memory.wf s = true) : Memory.wf (storeSample p s) = true := by
  apply advance_wf
  simp only [Memory.wf, Bool.and_eq_true] at h ⊢
  exact ⟨cellsWf_chanWrite _ h.1 _ _ _ _, h.2⟩

/-! ## The container -/

/-- A loaded pixel writes channel cells only, in canonical form (45_container.md R186). -/
theorem loadPixel_cases (s : State) (i : Nat) :
    ∃ m, loadPixel s i = { s with chan := m } ∧ (cellsWf s.chan = true → cellsWf m = true) := by
  unfold loadPixel
  split
  · exact ⟨_, rfl, fun h => cellsWf_chanWrite _ h _ _ _ _⟩
  · exact ⟨_, rfl, fun h => cellsWf_chanWrite _ (cellsWf_chanWrite _ (cellsWf_chanWrite _ h _ _ _ _) _ _ _ _) _ _ _ _⟩

/-- The channel load writes channel cells only, in canonical form (R186). -/
theorem loadChannels_cases (s : State) :
    ∃ m, loadChannels s = { s with chan := m } ∧ (cellsWf s.chan = true → cellsWf m = true) := by
  have aux : ∀ (l : List Nat) (s : State),
      ∃ m, l.foldl loadPixel s = { s with chan := m } ∧ (cellsWf s.chan = true → cellsWf m = true) := by
    intro l
    induction l with
    | nil => exact fun s => ⟨s.chan, rfl, id⟩
    | cons i l ih =>
      intro s
      obtain ⟨m, h1, h2⟩ := loadPixel_cases s i
      obtain ⟨m', k1, k2⟩ := ih (loadPixel s i)
      rw [List.foldl_cons, k1]
      rw [h1] at k2 ⊢
      exact ⟨m', rfl, fun h => k2 (h2 h)⟩
  exact aux _ s

/-- The FINISH phase replaces PIX whole, leaves it for MalformedCodeword, or reads an unwritten cell (R190). -/
theorem reconstruct_cases (s : State) :
    (∃ xs, reconstruct s = .ok () { s with pix := xs }) ∨ reconstruct s = .raise .malformedCodeword s ∨
      reconstruct s = .fault .unwrittenCell := by
  unfold reconstruct
  split
  · exact .inr (.inr rfl)
  · split
    · exact .inr (.inl rfl)
    · exact .inl ⟨_, rfl⟩

end Sys2Proof.Machine
end

