-- ==== Sys2Proof/Laws/PerInstr.lean ====
section
/-! SUPPORT. Statements made per instruction, one lemma for each constructor. `CommandCodes`: the command word of an
operation decodes to the operation with its operands, and a wire field has no operation code (30_encoding.md R73). -/

namespace Sys2Proof.Laws.CommandCodes

/-- The command word written for the instruction decodes to it; an instruction with none is a field of the stream. -/
def Statement (i : Instr) : Prop :=
  match encodeCommand i with
  | some c => decodeCommand c = .ok i
  | none => ∀ c : Issue, decodeCommand c ≠ .ok i

theorem compress : Statement (.compress) := rfl

theorem decompress : Statement (.decompress) := rfl

theorem readHeader : Statement (.readHeader) := rfl

theorem pushBit (b : BitVec 1) : Statement (.pushBit b) := rfl

theorem pushBits (value : BitVec 64) (n : Nat) : Statement (.pushBits value n) := rfl

theorem flush : Statement (.flush) := rfl

theorem pullBit : Statement (.pullBit) := rfl

theorem pullBits (n : Nat) : Statement (.pullBits n) := rfl

theorem riceEnc (v k : Nat) : Statement (.riceEnc v k) := rfl

theorem riceDec (k w : Nat) : Statement (.riceDec k w) := rfl

theorem phasedEnc (v n : Nat) : Statement (.phasedEnc v n) := rfl

theorem phasedDec (n : Nat) : Statement (.phasedDec n) := rfl

theorem predict : Statement (.predict) := rfl

theorem getK (delta : Nat) : Statement (.getK delta) := rfl

theorem update (delta v : Nat) : Statement (.update delta v) := rfl

theorem ycocgFwd (r g b : Int) : Statement (.ycocgFwd r g b) := rfl

theorem ycocgInv (y co cg : Int) : Statement (.ycocgInv y co cg) := rfl

theorem encSample : Statement (.encSample) := rfl

theorem decSample : Statement (.decSample) := rfl

theorem writeHeader : Statement (.writeHeader) := rfl

theorem parseHeader : Statement (.parseHeader) := rfl

theorem header (color depth : BitVec 1) (width height : Word32) : Statement (.header color depth width height) := by
  intro c h
  unfold decodeCommand at h
  split at h <;> cases h

theorem rawSample (v : Nat) : Statement (.rawSample v) := by
  intro c h
  unfold decodeCommand at h
  split at h <;> cases h

theorem symIn (v : Nat) : Statement (.symIn v) := by
  intro c h
  unfold decodeCommand at h
  split at h <;> cases h

theorem symBelow (v : Nat) : Statement (.symBelow v) := by
  intro c h
  unfold decodeCommand at h
  split at h <;> cases h

theorem symAbove (v : Nat) : Statement (.symAbove v) := by
  intro c h
  unfold decodeCommand at h
  split at h <;> cases h

theorem riceCodeword (q r : Nat) : Statement (.riceCodeword q r) := by
  intro c h
  unfold decodeCommand at h
  split at h <;> cases h

theorem phasedShort (x : Nat) : Statement (.phasedShort x) := by
  intro c h
  unfold decodeCommand at h
  split at h <;> cases h

theorem phasedLong (y : Nat) : Statement (.phasedLong y) := by
  intro c h
  unfold decodeCommand at h
  split at h <;> cases h

theorem padding : Statement (.padding) := by
  intro c h
  unfold decodeCommand at h
  split at h <;> cases h

end Sys2Proof.Laws.CommandCodes
end

