-- ==== Sys2Proof/Laws/Selector.lean ====
section
/-! SUPPORT. The selector's tables: the K-sets, what GET_K picks from a row, and what UPDATE leaves in the table. -/

namespace Sys2Proof.Machine

/-- The K-set and the width of the channel in progress go with the image's depth (42_predictor_selector.md R142). -/
theorem kset_cases (s : State) :
    (kset s = [0, 1, 2, 3, 4, 5] ∧ (chanWidth s = 8 ∨ chanWidth s = 9)) ∨
      (kset s = [5, 6, 7, 8, 9, 10, 11] ∧ (chanWidth s = 16 ∨ chanWidth s = 17)) := by
  unfold kset chanWidth widthOf depthBits
  by_cases hd : s.hdr.depth = 0
  · rw [if_pos hd]
    by_cases hc : s.seq.ch.toNat = 0
    · rw [if_pos hc]; exact .inl ⟨rfl, .inl rfl⟩
    · rw [if_neg hc]; exact .inl ⟨rfl, .inr rfl⟩
  · rw [if_neg hd]
    by_cases hc : s.seq.ch.toNat = 0
    · rw [if_pos hc]; exact .inr ⟨rfl, .inl rfl⟩
    · rw [if_neg hc]; exact .inr ⟨rfl, .inr rfl⟩

theorem kset_lt (s : State) : ∀ k ∈ kset s, k < 32 := by
  rcases kset_cases s with ⟨h, -⟩ | ⟨h, -⟩ <;> rw [h] <;> decide

theorem kset_nodup (s : State) : (kset s).Nodup := by
  rcases kset_cases s with ⟨h, -⟩ | ⟨h, -⟩ <;> rw [h] <;> decide

/-- The selection over a rising list of candidates: a least entry, and the largest candidate that has it (R138). -/
theorem selectK_cons (f : Nat → Nat) (ks : List Nat) (b : Nat) (hs : (b :: ks).Pairwise (· < ·)) :
    selectK f (b :: ks) ∈ b :: ks ∧ (∀ j ∈ b :: ks, f (selectK f (b :: ks)) ≤ f j) ∧
      (∀ j ∈ b :: ks, f j = f (selectK f (b :: ks)) → j ≤ selectK f (b :: ks)) := by
  show _ ∈ b :: ks ∧ _
  simp only [selectK]
  induction ks generalizing b with
  | nil => simp
  | cons x ks ih =>
    simp only [List.foldl_cons]
    simp only [List.pairwise_cons, List.mem_cons, forall_eq_or_imp] at hs
    by_cases h : f x ≤ f b
    · simp only [h, if_true]
      obtain ⟨h1, h2, h3⟩ := ih x (by simp only [List.pairwise_cons]; exact ⟨hs.2.1, hs.2.2⟩)
      refine ⟨List.mem_cons_of_mem _ h1, ?_, ?_⟩
      · intro j hj
        rcases List.mem_cons.1 hj with rfl | hj
        · exact (h2 x List.mem_cons_self).trans h
        · exact h2 j hj
      · intro j hj he
        rcases List.mem_cons.1 hj with rfl | hj
        · exact (le_of_lt hs.1.1).trans
            (h3 x List.mem_cons_self (le_antisymm (by rw [← he]; exact h) (h2 x List.mem_cons_self)))
        · exact h3 j hj he
    · simp only [h, if_false]
      obtain ⟨h1, h2, h3⟩ := ih b (by simp only [List.pairwise_cons]; exact ⟨hs.1.2, hs.2.2⟩)
      refine ⟨?_, ?_, ?_⟩
      · rcases List.mem_cons.1 h1 with h1 | h1
        · rw [h1]; exact List.mem_cons_self
        · exact List.mem_cons_of_mem _ (List.mem_cons_of_mem _ h1)
      · intro j hj
        rcases List.mem_cons.1 hj with rfl | hj
        · exact h2 _ List.mem_cons_self
        · rcases List.mem_cons.1 hj with rfl | hj
          · exact (h2 b List.mem_cons_self).trans (by omega)
          · exact h2 j (List.mem_cons_of_mem _ hj)
      · intro j hj he
        rcases List.mem_cons.1 hj with rfl | hj
        · exact h3 _ List.mem_cons_self he
        · rcases List.mem_cons.1 hj with rfl | hj
          · have := h2 b List.mem_cons_self; omega
          · exact h3 j (List.mem_cons_of_mem _ hj) he

/-- The entry that a row of (candidate, value) pairs gives a candidate. -/
theorem find_map (ks : List Nat) (f : Nat → Nat) (k : Nat) :
    ((ks.map fun j => (j, f j)).find? fun e => e.1 == k) = if k ∈ ks then some (k, f k) else none := by
  induction ks with
  | nil => simp
  | cons j ks ih =>
    rw [List.map_cons, List.find?_cons, ih]
    by_cases h : j = k
    · subst h; simp
    · have h' : (j == k) = false := by simpa using h
      simp [h', Ne.symm h]

/-- Reading T after a row has been written entry by entry. -/
theorem tableRead_writeRow (d : Nat) (row t : List (Nat × Nat)) (ht : tableWf t = true) (hr : ∀ e ∈ row, e.1 < 32)
    (hn : (row.map Prod.fst).Nodup) (d' k : Nat) (hk : k < 32) :
    tableRead (writeRow d t row) d' k =
      if d' = d then ((row.find? fun e => e.1 == k).map Prod.snd).getD (tableRead t d' k) else tableRead t d' k := by
  induction row generalizing t with
  | nil => simp [writeRow]
  | cons e row ih =>
    have hi := ih (tableWrite t d e.1 e.2) (tableWf_write t ht _ _ _) (fun x hx => hr x (List.mem_cons_of_mem _ hx))
      (by simp only [List.map_cons, List.nodup_cons] at hn; exact hn.2)
    have hw : tableRead (tableWrite t d e.1 e.2) d' k = if d' = d ∧ k = e.1 then e.2 else tableRead t d' k := by
      rw [tableRead_write t (tableWf_cells ht)]
      simp only [tableKey_inj hk (hr e List.mem_cons_self)]
    show tableRead (writeRow d (tableWrite t d e.1 e.2) row) d' k = _
    rw [hi, hw]
    by_cases hd : d' = d
    · by_cases hke : e.1 = k
      · subst hke
        have hnone : (row.find? fun x => x.1 == e.1) = none := by
          rw [List.find?_eq_none]
          intro x hx
          simp only [List.map_cons, List.nodup_cons, List.mem_map, not_exists, not_and] at hn
          simpa using hn.1 x hx
        simp [hd, hnone]
      · have h' : (e.1 == k) = false := by simpa using hke
        simp [hd, Ne.symm hke, h']
    · simp [hd]

/-- The row that UPDATE leaves, entry by entry (R139). -/
theorem updatedRow_eq (ks : List Nat) (f : Nat → Nat) (v : Nat) :
    updatedRow ks f v = ks.map fun k => (k,
      if ∀ j ∈ ks, 1024 ≤ f j + (v / 2 ^ j + 1 + j) then (f k + (v / 2 ^ k + 1 + k)) / 2
      else f k + (v / 2 ^ k + 1 + k)) := by
  have hiff : ((grownRow ks f v).all fun e => decide (Config.halveAt ≤ e.2)) = true ↔
      ∀ j ∈ ks, 1024 ≤ f j + (v / 2 ^ j + 1 + j) := by
    simp only [grownRow, riceLength, Config.halveAt, List.all_eq_true, List.mem_map, forall_exists_index, and_imp]
    exact ⟨fun h j hj => of_decide_eq_true (h _ j hj rfl), fun h e j hj he => he ▸ decide_eq_true (h j hj)⟩
  unfold updatedRow
  by_cases h : ∀ j ∈ ks, 1024 ≤ f j + (v / 2 ^ j + 1 + j)
  · simp only [hiff.2 h, if_true, if_pos h]
    simp [grownRow, riceLength]
  · have hf : ((grownRow ks f v).all fun e => decide (Config.halveAt ≤ e.2)) = false := by
      rw [Bool.eq_false_iff]
      exact fun hc => h (hiff.1 hc)
    simp only [hf, Bool.false_eq_true, if_false, if_neg h]
    simp [grownRow, riceLength]

/-- Every entry of T after UPDATE's row has been written (R139). -/
theorem tableRead_updated (s : State) (hw : tableWf s.table = true) (d v d' k : Nat) (hk : k < 32) :
    tableRead (writeRow d s.table (updatedRow (kset s) (tableRead s.table d) v)) d' k =
      if d' = d ∧ k ∈ kset s then
        (if ∀ j ∈ kset s, 1024 ≤ tableRead s.table d j + (v / 2 ^ j + 1 + j)
          then (tableRead s.table d k + (v / 2 ^ k + 1 + k)) / 2
          else tableRead s.table d k + (v / 2 ^ k + 1 + k))
      else tableRead s.table d' k := by
  have h1 : ∀ e ∈ updatedRow (kset s) (tableRead s.table d) v, e.1 < 32 := by
    intro e he
    rw [updatedRow_eq, List.mem_map] at he
    obtain ⟨k, hm, rfl⟩ := he
    exact kset_lt s k hm
  have h2 : ((updatedRow (kset s) (tableRead s.table d) v).map Prod.fst).Nodup := by
    rw [updatedRow_eq, List.map_map]
    simpa [Function.comp_def] using kset_nodup s
  rw [tableRead_writeRow d _ _ hw h1 h2 d' k hk, updatedRow_eq, find_map]
  by_cases hd : d' = d <;> by_cases hm : k ∈ kset s <;> simp [hd, hm]

end Sys2Proof.Machine
end

