-- ==== Sys2Proof/Tests/Slice0.lean ====
section
/-! SUPPORT. The model's own tests. Expected values are those of spec/95_test_vectors.md (the comment names the vector) or are
worked out by hand from the rule cited. The second part gives, for every statement with hypotheses, states and operands that
meet them. -/

namespace Sys2Proof.Tests

open Sys2Proof Sys2Proof.Machine

/-! ## Helpers -/

/-- The next state of an outcome, if it is one. -/
def after (o : Host.Outcome State Fault Refusal) : Option State :=
  match o with
  | .next s => some s
  | .fault _ => none
  | .refused _ => none

/-- Bits written as zeros and ones. -/
def bits (l : List Nat) : List Bool := l.map fun n => decide (n = 1)

/-- An instruction that was read, with the bits left. -/
def readOk (r : Read (List Bool) Instr) : Option (Instr × List Bool) :=
  match r with
  | .ok i rest => some (i, rest)
  | .err _ _ => none

/-- The error of a reading. -/
def readErr (r : Read (List Bool) Instr) : Option Err :=
  match r with
  | .ok _ _ => none
  | .err e _ => some e

/-- The operation of a command word. -/
def command (c : Issue) : Option Instr :=
  match decodeCommand c with
  | .ok i => some i
  | .error _ => none

/-- A machine with the given bit sink. -/
def sinkAt (acc : Byte) (cnt : BitVec 3) (out : List Byte) : State :=
  { State.reset with sink := ⟨acc, cnt, false⟩, out := out }

/-- A machine about to read the given bytes. -/
def readingFrom (inp : List Byte) : State := { State.reset with inp := inp }

/-- A running command at a sample of a Gray 8-bit image whose cells, in raster order, hold the given values. -/
def gray (mode : Mode) (w h row col : Word32) (cells : List Int) (inp : List Byte) : State :=
  { State.reset with
    hdr := ⟨0, 0, w, h⟩
    stat := ⟨.busy, 0, 0, mode⟩
    seq := ⟨.samples, 0, row, col⟩
    chan := (List.range cells.length).foldl
      (fun m i => chanWrite m 0 (i / w.toNat) (i % w.toNat) (cells.getD i 0)) []
    inp := inp }

/-- The same machine with a row of the context table. -/
def withRow (s : State) (delta : Nat) (row : List (Nat × Nat)) : State :=
  { s with table := writeRow delta s.table row }

/-- A 1 x 1 Rgb 8-bit image in the FINISH phase with the given channel cells. -/
def rgbFinish (y co cg : Int) : State :=
  { State.reset with
    hdr := ⟨1, 0, 1, 1⟩
    stat := ⟨.busy, 0, 0, .dec⟩
    seq := ⟨.finish, 2, 0, 0⟩
    chan := chanWrite (chanWrite (chanWrite [] 0 0 0 y) 1 0 0 co) 2 0 0 cg }

/-- A host command or micro-operation already issued. -/
def issued (c : Issue) (s : State) : State := { s with cmdq := [.word c] }

/-- The same machine with a command ended in DONE. -/
def ended (s : State) : State := finishCommand s

/-- The same machine after `UnsupportedColorType(7)`. -/
def failed (s : State) : State := raiseError (.unsupportedColorType 7) s

/-- The entries of T for one context of an 8-bit channel. -/
def row8 (s : State) (delta : Nat) : List Nat := kset8.map (tableRead s.table delta)

/-- The 3 x 4 channel of 95_test_vectors.md section 5.1. -/
def grid (row col : Word32) : State := gray .enc 4 3 row col [10, 20, 30, 40, 50, 60, 70, 80, 90, 100, 110, 120] []

/-- S3 at its third sample: neighbours 32 and 16. -/
def s3 (mode : Mode) (inp : List Byte) : State := gray mode 3 1 0 2 [0x10, 0x20, 0x18] inp

/-- S5 at its third sample: neighbours 128 and 128. -/
def s5 (mode : Mode) (inp : List Byte) : State := gray mode 3 1 0 2 [0x80, 0x80, 0x00] inp

/-- The image of S1, valid inputs of COMPRESS. -/
def s1 : State := { State.reset with hdr := ⟨0, 0, 1, 1⟩, pix := [0x42] }

/-! ## Well-formed instructions: each check refuses an ill-formed term -/

theorem test_wf_refuses :
    ([.pushBits 0 65, .pullBits 65, .riceEnc 0 65, .riceDec 65 8, .riceDec 0 10, .phasedEnc 3 3, .phasedEnc 0 0,
      .phasedDec 0, .getK 131072, .update 131072 0, .ycocgFwd (-1) 0 0, .ycocgFwd 65536 0 0, .ycocgFwd 0 (-1) 0,
      .ycocgFwd 0 65536 0, .ycocgFwd 0 0 (-1), .ycocgFwd 0 0 65536, .header 0 0 0 1, .header 0 0 1 0, .rawSample 131072,
      .symIn 131072, .symBelow 131071, .symAbove 131071, .riceCodeword 131072 0, .riceCodeword 0 2048,
      .phasedShort 131072, .phasedLong 131072] : List Instr).all (fun i => !i.wf) = true := by decide

theorem test_wf_admits :
    ([.compress, .decompress, .readHeader, .pushBit 1, .pushBits 0 64, .flush, .pullBit, .pullBits 64, .riceEnc 0 64,
      .riceDec 64 17, .phasedEnc 2 3, .phasedDec 1, .predict, .getK 131071, .update 131071 0, .ycocgFwd 65535 0 65535,
      .ycocgInv 0 (-256) (-256), .encSample, .decSample, .writeHeader, .parseHeader, .header 1 1 1 1, .rawSample 131071,
      .symIn 131071, .symBelow 131070, .symAbove 131070, .riceCodeword 131071 2047, .phasedShort 131071,
      .phasedLong 131071, .padding] : List Instr).all Instr.wf = true := by decide

/-! ## Decoding: words written out from the tables of 30_encoding.md -/

/-- R73: the code of every operation, bit by bit. -/
theorem test_codes :
    ([0b00000001, 0b00000010, 0b00000011, 0b00010000, 0b00010001, 0b00010010, 0b00011000, 0b00011001, 0b00100000,
      0b00100001, 0b00100010, 0b00100011, 0b00110000, 0b00110001, 0b00110010, 0b01000000, 0b01000001, 0b01010000,
      0b01010001, 0b01100000, 0b01100001] : List (BitVec 8)).map
      (fun c => command { code := c, regs := { b := 1, value := 5, n := 4, v := 3, k := 2, w := 8, delta := 7, r := 10,
                                               g := 20, bl := 30, y := 40, co := 50, cg := 60 } }) =
    ([.compress, .decompress, .readHeader, .pushBit 1, .pushBits 5 4, .flush, .pullBit, .pullBits 4, .riceEnc 3 2,
      .riceDec 2 8, .phasedEnc 3 4, .phasedDec 4, .predict, .getK 7, .update 7 3, .ycocgFwd 10 20 30, .ycocgInv 40 50 60,
      .encSample, .decSample, .writeHeader, .parseHeader] : List Instr).map some := by decide

/-- R76: codes beside the table's are no operation. -/
theorem test_no_such_code :
    ([0x00, 0x04, 0x0F, 0x13, 0x17, 0x1A, 0x24, 0x33, 0x42, 0x52, 0x62, 0xFF] : List (BitVec 8)).map
      (fun c => command { code := c }) = List.replicate 12 none := by decide

/-- R60: the header of vector S6, 46 4C 43 53 01 00 00 00 00 01 00 00 00 01. -/
theorem test_decode_header :
    readOk (decodeField .header (bits
      [0, 1, 0, 0, 0, 1, 1, 0, 0, 1, 0, 0, 1, 1, 0, 0, 0, 1, 0, 0, 0, 0, 1, 1, 0, 1, 0, 1, 0, 0, 1, 1,
       0, 0, 0, 0, 0, 0, 0, 1, 0, 0, 0, 0, 0, 0, 0, 0,
       0, 0, 0, 0, 0, 0, 0, 0, 0, 0, 0, 0, 0, 0, 0, 0, 0, 0, 0, 0, 0, 0, 0, 0, 0, 0, 0, 0, 0, 0, 0, 1,
       0, 0, 0, 0, 0, 0, 0, 0, 0, 0, 0, 0, 0, 0, 0, 0, 0, 0, 0, 0, 0, 0, 0, 0, 0, 0, 0, 0, 0, 0, 0, 1])) =
      some (.header 1 0 1 1, []) := by decide

/-- R60: color type, depth code, width and height each read from their own bytes (and by the host's table word). -/
theorem test_decode_header_fields :
    decodeTableWord 112 0x464C435300010102030405060708 = some (.header 0 1 0x01020304 0x05060708) ∧
      decodeTableWord 112 0x464C435400010102030405060708 = none ∧ decodeTableWord 8 0x32 = some (.update 0 0) ∧
      decodeTableWord 8 0x04 = none ∧ decodeTableWord 2 1 = none := by decide

/-- R63: a verbatim sample of 9 bits (vector V7, Co (0,0)). -/
theorem test_decode_raw :
    readOk (decodeField (.raw 9) (bits [1, 1, 1, 0, 0, 1, 0, 0, 1, 1])) = some (.rawSample 457, bits [1]) := by decide

/-- R64: the symbols of S3 (`1 0111`), S5 (`00 0001 11111`) and E24 (`01 1 01110`), with the bits after them. -/
theorem test_decode_symbols :
    readOk (decodeField (.symbol 17 5 8) (bits [1, 0, 1, 1, 1, 0, 0, 0])) = some (.symIn 8, bits [0, 0, 0]) ∧
    readOk (decodeField (.symbol 1 5 8) (bits [0, 0, 0, 0, 0, 1, 1, 1, 1, 1, 1, 0])) = some (.symBelow 127, bits [0]) ∧
    readOk (decodeField (.symbol 1 5 8) (bits [0, 1, 1, 0, 1, 1, 1, 0])) = some (.symAbove 14, []) := by decide

/-- R65, R66, R62: a Rice codeword, the two kinds of phased-in codeword (n = 17), and the padding after 5 bits. -/
theorem test_decode_codewords :
    readOk (decodeField (.rice 5 8) (bits [0, 0, 0, 1, 1, 1, 1, 1, 1])) = some (.riceCodeword 3 31, []) ∧
    readOk (decodeField (.phased 17) (bits [0, 1, 1, 1, 0])) = some (.phasedShort 7, bits [0]) ∧
    readOk (decodeField (.phased 17) (bits [1, 1, 1, 1, 0, 1])) = some (.phasedLong 30, bits [1]) ∧
    readOk (decodeField (.padding 5) (bits [1, 1, 1, 0])) = some (.padding, bits [0]) := by decide

/-- R69, R70: rejected by name. -/
theorem test_decode_rejects :
    readErr (decodeField .header (streamBits [0x46, 0x4C, 0x43, 0x00])) = some .badSignature ∧
    readErr (decodeField .header (streamBits [0x46, 0x4C, 0x43, 0x53, 0x07])) = some (.unsupportedColorType 7) ∧
    readErr (decodeField .header (streamBits [0x46, 0x4C, 0x43, 0x53, 0, 2])) = some (.unsupportedDepth 2) ∧
    readErr (decodeField .header (streamBits [0x46, 0x4C, 0x43, 0x53, 0, 0, 0, 0, 0, 0, 0, 0, 0, 1])) =
      some .zeroDimension ∧
    readErr (decodeField (.rice 5 8) (bits [0, 0, 0, 0, 0, 0, 0, 0])) = some .malformedCodeword ∧
    readErr (decodeField (.rice 5 8) (bits [0, 0, 0, 0, 0, 0, 0, 1])) = some .truncated := by decide

/-- The encoder writes the same words (S3, S5, E24, and 95_test_vectors.md section 4: n = 129 and n = 131071). -/
theorem test_encode :
    encodeField (.symbol 17 5 8) (.symIn 8) = some (bits [1, 0, 1, 1, 1]) ∧
    encodeField (.symbol 1 5 8) (.symBelow 127) = some (bits [0, 0, 0, 0, 0, 1, 1, 1, 1, 1, 1]) ∧
    encodeField (.symbol 1 5 8) (.symAbove 14) = some (bits [0, 1, 1, 0, 1, 1, 1, 0]) ∧
    codewordBits 129 (phasedCodeword 129 0) = bits [1, 1, 1, 1, 1, 1, 1, 1] ∧
    codewordBits 131071 (phasedCodeword 131071 65535) = List.replicate 16 false ∧
    codewordBits 1 (phasedCodeword 1 0) = [] := by decide

/-! ## One step of each instruction -/

/-- R26: COMPRESS starts a run and clears what a run before it left. -/
theorem test_compress :
    exec .compress { sinkAt 0x80 1 [7] with table := [(5, 9)], inPos := 3, hdr := ⟨0, 0, 1, 1⟩ } =
      .next { State.reset with stat := ⟨.busy, 0, 0, .enc⟩, seq := ⟨.header, 0, 0, 0⟩, hdr := ⟨0, 0, 1, 1⟩ } := rfl

/-- Section 8 of 95_test_vectors.md: WIDTH = 0 is InvalidInput with OUT empty. -/
theorem test_compress_invalid :
    (after (exec .compress State.reset)).bind (fun s => after (step s)) =
    some { startCommand .enc State.reset with stat := ⟨.error, 8, 0, .enc⟩, seq := ⟨.error, 0, 0, 0⟩ } := by decide

/-- P3 and E10: DECOMPRESS through its HEADER step. -/
theorem test_decompress_header :
    (after (step (startCommand .dec (readingFrom [0x46, 0x4C, 0x43, 0x53, 0, 0, 0, 0, 0, 3, 0, 0, 0, 1, 0x10])))).map
      (fun s => (s.hdr, s.seq.phase, s.inPos)) = some (⟨0, 0, 3, 1⟩, .samples, 14) ∧
    (after (step (startCommand .dec (readingFrom [0x46, 0x4C, 0x43, 0x53, 0, 0, 0, 0, 0, 0, 0, 0, 0, 1])))).map
      (fun s => (s.stat, s.seq.phase, s.inPos, s.hdr)) = some (⟨.error, 4, 0, .dec⟩, .error, 14, ⟨0, 0, 0, 0⟩) := by decide

/-- S6 and E27: the FINISH step with components in range and out of range. -/
theorem test_decompress_finish :
    (after (step (rgbFinish 78 457 153))).map (fun s => (s.pix, s.stat.status)) = some ([231, 27, 30], .done) ∧
    (after (step (rgbFinish 0 256 511))).map (fun s => (s.pix, s.stat.errCode, s.seq.ch)) = some ([], 6, 2) := by decide

/-- E12 and E5: READ_HEADER. -/
theorem test_readHeader :
    (after (step (startCommand .hdr (readingFrom [0x46, 0x4C, 0x43, 0x53, 0, 0, 0, 0, 0, 1, 0, 0, 0, 1])))).map
      (fun s => (s.hdr, s.stat.status, s.inPos)) = some (⟨0, 0, 1, 1⟩, .done, 14) ∧
    (after (step (startCommand .hdr (readingFrom [0x46, 0x4C, 0x43, 0x53, 7])))).map
      (fun s => (s.stat, s.inPos)) = some (⟨.error, 2, 7, .hdr⟩, 5) := by decide

/-- B1 step 1, and the eighth bit of a byte. -/
theorem test_pushBit :
    (after (exec (.pushBit 1) State.reset)).map (fun s => (s.sink, s.out)) = some (⟨0x80, 1, false⟩, []) ∧
    (after (exec (.pushBit 1) (sinkAt 0xFE 7 []))).map (fun s => (s.sink, s.out)) = some (⟨0, 0, false⟩, [0xFF]) := by
  decide

/-- B1 step 3: nine bits over a byte boundary. -/
theorem test_pushBits :
    (after (exec (.pushBits 0x1FF 9) (sinkAt 0xB0 5 []))).map (fun s => (s.sink, s.out)) =
      some (⟨0xFC, 6, false⟩, [0xB7]) := by decide

/-- B3 and B4: only the low bits are pushed; 65 bits are InvalidInput. -/
theorem test_pushBits_low :
    (after (exec (.pushBits 0xFFFFFFFFFFFFFFF5 4) State.reset)).map (fun s => s.sink) = some ⟨0x50, 4, false⟩ ∧
    (after (exec (.pushBits 0 65) State.reset)).map (fun s => (s.stat.errCode, s.sink)) = some (8, ⟨0, 0, false⟩) := by
  decide

/-- B1 steps 4 and 5. -/
theorem test_flush :
    (after (exec .flush (sinkAt 0xFC 6 [0xB7]))).map (fun s => (s.sink, s.out)) =
      some (⟨0, 0, true⟩, [0xB7, 0xFC]) ∧
    (after (exec (.pushBit 0) { State.reset with sink := ⟨0, 0, true⟩ })).map (fun s => s.stat.errCode) = some 9 := by
  decide

/-- B6: the first bit of B8, and the end of IN. -/
theorem test_pullBit :
    (after (exec .pullBit (readingFrom [0xB8, 0x01]))).map (fun s => (s.res.bit, s.src, s.inPos)) =
      some (1, ⟨0xB8, 7⟩, 1) ∧
    (after (exec .pullBit (readingFrom []))).map (fun s => (s.stat.errCode, s.inPos)) = some (5, 0) := by decide

/-- B6: five bits over a byte boundary. -/
theorem test_pullBits :
    (after (exec (.pullBits 5) { readingFrom [0xB8, 0x01] with src := ⟨0xB8, 3⟩, inPos := 1 })).map
      (fun s => (s.res.val, s.src, s.inPos)) = some (0, ⟨0x01, 6⟩, 2) := by decide

/-- P1: RICE_ENC 127, 5 after `80 80` and two bits. -/
theorem test_riceEnc :
    (after (exec (.riceEnc 127 5) (sinkAt 0 2 [0x80, 0x80]))).map (fun s => (s.sink, s.out)) =
      some (⟨0xE0, 3, false⟩, [0x80, 0x80, 0x07]) := by decide

/-- 95_test_vectors.md section 3: `01 FF` gives 255, the eighth zero of `00 FF` is MalformedCodeword. -/
theorem test_riceDec :
    (after (exec (.riceDec 5 8) (readingFrom [0x01, 0xFF]))).map (fun s => (s.dp.v, s.inPos, s.src.cnt)) =
      some (255, 2, 3) ∧
    (after (exec (.riceDec 5 8) (readingFrom [0x00, 0xFF]))).map (fun s => (s.stat.errCode, s.inPos, s.src.cnt)) =
      some (6, 1, 0) := by decide

/-- 95_test_vectors.md section 4, n = 17: 8 is `0111`, 0 is `11111`. -/
theorem test_phasedEnc :
    (after (exec (.phasedEnc 8 17) State.reset)).map (fun s => s.sink) = some ⟨0x70, 4, false⟩ ∧
    (after (exec (.phasedEnc 0 17) State.reset)).map (fun s => s.sink) = some ⟨0xF8, 5, false⟩ := by decide

/-- The same table read back: `0111` is 8, `11110` is 16. -/
theorem test_phasedDec :
    (after (exec (.phasedDec 17) (readingFrom [0x70]))).map (fun s => (s.res.val, s.src.cnt)) = some (8, 4) ∧
    (after (exec (.phasedDec 17) (readingFrom [0xF0]))).map (fun s => (s.res.val, s.src.cnt)) = some (16, 3) := by decide

/-- 95_test_vectors.md section 5.1: (0,3), (1,0) and (2,3). -/
theorem test_predict :
    ([grid 0 3, grid 1 0, grid 2 3].map fun s =>
      (after (exec .predict s)).map fun t => (t.dp.a, t.dp.b, t.dp.l, t.dp.h, t.dp.delta)) =
    [some (30, 20, 20, 30, 10), some (10, 20, 10, 20, 10), some (80, 110, 80, 110, 30)] := by decide

/-- Section 5.1, one column: (2,0) of 5 / 9 / 7 / 20. -/
theorem test_predict_one_column :
    (after (exec .predict (gray .enc 1 4 2 0 [5, 9, 7, 20] []))).map
      (fun t => (t.dp.a, t.dp.b, t.dp.l, t.dp.h, t.dp.delta)) = some (9, 5, 5, 9, 4) := by decide

/-- Section 5.2: the largest of the candidates that tie. -/
theorem test_getK :
    (after (exec (.getK 0) State.reset)).map (fun s => s.dp.k) = some 5 ∧
    (after (exec (.getK 3) (withRow State.reset 3 [(0, 4), (1, 3), (2, 3), (3, 4), (4, 5), (5, 6)]))).map
      (fun s => s.dp.k) = some 2 := by decide

/-- Section 5.3: halving at 1024, none at 1023. -/
theorem test_update :
    (after (exec (.update 0 0)
      (withRow State.reset 0 [(0, 1500), (1, 1200), (2, 1100), (3, 1020), (4, 1030), (5, 1040)]))).map
      (fun s => row8 s 0) = some [750, 601, 551, 512, 517, 523] ∧
    (after (exec (.update 0 0)
      (withRow State.reset 0 [(0, 1500), (1, 1200), (2, 1100), (3, 1019), (4, 1030), (5, 1040)]))).map
      (fun s => row8 s 0) = some [1501, 1202, 1103, 1023, 1035, 1046] := by decide

/-- Section 5.2: rows of an 8-bit and of a 16-bit channel. -/
theorem test_update_widths :
    (after (exec (.update 0 127) State.reset)).map (fun s => row8 s 0) = some [128, 65, 34, 19, 12, 9] ∧
    (after (exec (.update 0 1000) { State.reset with hdr := ⟨0, 1, 1, 1⟩ })).map
      (fun s => kset16.map (tableRead s.table 0)) = some [37, 22, 15, 12, 11, 11, 12] := by decide

/-- Section 6: (231, 27, 30), and (0, 0, 255), where the shifts are of negative numbers. -/
theorem test_ycocgFwd :
    (after (exec (.ycocgFwd 231 27 30) State.reset)).map (fun s => (s.res.y, s.res.co, s.res.cg)) =
      some (78, 201, -103) ∧
    (after (exec (.ycocgFwd 0 0 255) State.reset)).map (fun s => (s.res.y, s.res.co, s.res.cg)) =
      some (63, -255, -127) := by decide

/-- Section 6: the inverse, in and outside the transform's image. -/
theorem test_ycocgInv :
    (after (exec (.ycocgInv 78 201 (-103)) State.reset)).map (fun s => (s.res.r, s.res.g, s.res.b)) =
      some (231, 27, 30) ∧
    (after (exec (.ycocgInv 0 (-256) (-256)) State.reset)).map (fun s => (s.res.r, s.res.g, s.res.b)) =
      some (0, -128, 256) := by decide

/-- S3, sample 2: in range, `1 0111`. -/
theorem test_encSample_in_range :
    (after (exec .encSample (gray .enc 3 1 0 2 [0x10, 0x20, 0x18] []))).map
      (fun s => (s.sink, s.dp.delta, s.table, s.seq)) = some (⟨0xB8, 5, false⟩, 16, [], ⟨.flush, 0, 0, 0⟩) := by decide

/-- S5, sample 2: below, `00 0001 11111`, and the row after. -/
theorem test_encSample_below :
    (after (exec .encSample (gray .enc 3 1 0 2 [0x80, 0x80, 0x00] []))).map
      (fun s => (s.sink, s.out, s.dp.k, s.dp.v, row8 s 0)) =
    some (⟨0xE0, 3, false⟩, [0x07], 5, 127, [128, 65, 34, 19, 12, 9]) := by decide

/-- P3, sample 2. -/
theorem test_decSample_in_range :
    (after (exec .decSample (gray .dec 3 1 0 2 [0x10, 0x20] [0xB8]))).map
      (fun s => (chanRead s.chan 0 0 2, s.dp.p, s.seq, s.src.cnt)) =
    some (some 24, 24, ⟨.finish, 0, 0, 0⟩, 3) := by decide

/-- E24 and E25: above, at the last value and one past it. -/
theorem test_decSample_above :
    (after (exec .decSample (gray .dec 3 1 0 2 [0xF0, 0xF0] [0x6E]))).map
      (fun s => (chanRead s.chan 0 0 2, s.dp.v)) = some (some 255, 14) ∧
    (after (exec .decSample (gray .dec 3 1 0 2 [0xF0, 0xF0] [0x6F]))).map
      (fun s => (s.stat.errCode, chanRead s.chan 0 0 2, s.table, s.seq)) =
      some (6, none, [], ⟨.error, 0, 0, 2⟩) := by decide

/-- P2: the 14 bytes of a header. -/
theorem test_writeHeader :
    (after (exec .writeHeader { State.reset with hdr := ⟨0, 0, 5, 1⟩ })).map (fun s => (s.out, s.sink.cnt)) =
      some ([0x46, 0x4C, 0x43, 0x53, 0, 0, 0, 0, 0, 5, 0, 0, 0, 1], 0) := by decide

/-- E8: a depth code outside {8-bit, 16-bit}; the metadata are left. -/
theorem test_parseHeader :
    (after (exec .parseHeader (readingFrom [0x46, 0x4C, 0x43, 0x53, 1, 0x10, 0, 0, 0, 1, 0, 0, 0, 1]))).map
      (fun s => (s.stat.errCode, s.stat.errInfo, s.inPos, s.hdr.color)) = some (3, 0x10, 6, 0) := by decide

/-- R60 on both sides. -/
theorem test_header :
    (after (exec (.header 1 0 2 3) State.reset)).map (fun s => s.hdr) = some ⟨1, 0, 2, 3⟩ ∧
    (after (exec (.header 1 0 2 3) { State.reset with stat := ⟨.busy, 0, 0, .enc⟩ })).map (fun s => s.out) =
      some [0x46, 0x4C, 0x43, 0x53, 1, 0, 0, 0, 0, 2, 0, 0, 0, 3] := by decide

/-- R63 on both sides. -/
theorem test_rawSample :
    (after (exec (.rawSample 0x42) (gray .enc 2 1 0 0 [0x42] []))).map (fun s => (s.out, s.seq.col)) =
      some ([0x42], 1) ∧
    (after (exec (.rawSample 0x42) (gray .dec 2 1 0 0 [] []))).map (fun s => (chanRead s.chan 0 0 0, s.seq.col)) =
      some (some 0x42, 1) := by decide

/-- S3 on both sides. -/
theorem test_symIn :
    (after (exec (.symIn 8) (gray .enc 3 1 0 2 [0x10, 0x20] []))).map (fun s => s.sink) = some ⟨0xB8, 5, false⟩ ∧
    (after (exec (.symIn 8) (gray .dec 3 1 0 2 [0x10, 0x20] []))).map (fun s => chanRead s.chan 0 0 2) =
      some (some 24) := by decide

/-- S5 on both sides. -/
theorem test_symBelow :
    (after (exec (.symBelow 127) (gray .enc 3 1 0 2 [0x80, 0x80] []))).map (fun s => (s.out, s.sink.acc)) =
      some ([0x07], 0xE0) ∧
    (after (exec (.symBelow 127) (gray .dec 3 1 0 2 [0x80, 0x80] []))).map
      (fun s => (chanRead s.chan 0 0 2, row8 s 0)) = some (some 0, [128, 65, 34, 19, 12, 9]) := by decide

/-- E24 on both sides. -/
theorem test_symAbove :
    (after (exec (.symAbove 14) (gray .enc 3 1 0 2 [0xF0, 0xF0] []))).map (fun s => s.out) = some [0x6E] ∧
    (after (exec (.symAbove 14) (gray .dec 3 1 0 2 [0xF0, 0xF0] []))).map (fun s => chanRead s.chan 0 0 2) =
      some (some 255) := by decide

/-- `0001 11111` on both sides, K = 5. -/
theorem test_riceCodeword :
    (after (exec (.riceCodeword 3 31) { gray .enc 1 1 0 0 [] [] with dp := ⟨0, 0, 0, 0, 0, 0, 5, 0⟩ })).map
      (fun s => (s.out, s.sink)) = some ([0x1F], ⟨0x80, 1, false⟩) ∧
    (after (exec (.riceCodeword 3 31) { gray .dec 1 1 0 0 [] [] with dp := ⟨0, 0, 0, 0, 0, 0, 5, 0⟩ })).map
      (fun s => s.dp.v) = some 127 := by decide

/-- n = 17: `0111` is 8 on both sides; the long words begin at 30. -/
theorem test_phasedWords :
    (after (exec (.phasedShort 7) { gray .enc 1 1 0 0 [] [] with dp := ⟨0, 0, 0, 0, 16, 0, 0, 0⟩ })).map
      (fun s => s.sink) = some ⟨0x70, 4, false⟩ ∧
    (after (exec (.phasedShort 7) { gray .dec 1 1 0 0 [] [] with dp := ⟨0, 0, 0, 0, 16, 0, 0, 0⟩ })).map
      (fun s => s.res.val) = some 8 ∧
    (after (exec (.phasedLong 30) { gray .dec 1 1 0 0 [] [] with dp := ⟨0, 0, 0, 0, 16, 0, 0, 0⟩ })).map
      (fun s => s.res.val) = some 16 ∧
    (after (exec (.phasedLong 29) { gray .dec 1 1 0 0 [] [] with dp := ⟨0, 0, 0, 0, 16, 0, 0, 0⟩ })).map
      (fun s => s.stat.errCode) = some 6 := by decide

/-- V7: the last byte of the stream, 4C, of which 7 bits are data. -/
theorem test_padding :
    (after (exec .padding { sinkAt 0x4C 7 [0x94] with stat := ⟨.busy, 0, 0, .enc⟩ })).map (fun s => (s.out, s.sink)) =
      some ([0x94, 0x4C], ⟨0, 0, false⟩) := by decide

/-- The host's question: a table word is fetched and run as the first instruction after reset. -/
theorem test_withFetchWord :
    (after (step (State.reset.withFetchWord 8 0x40))).map (fun s => (s.cmdq, s.stat.status)) = some ([], .idle) ∧
    (after (step (State.reset.withFetchWord 8 0x02))).map (fun s => s.stat.mode) = some .dec ∧
    (after (step (State.reset.withFetchWord 112 0x464C435300010102030405060708))).map (fun s => s.hdr) =
      some ⟨0, 1, 0x01020304, 0x05060708⟩ := by decide

/-- R201 and R76: an unknown code after `UnsupportedColorType(7)` leaves ERR_CODE 8, ERR_INFO 0 and PHASE ERROR. -/
theorem test_unknownCode :
    (after (step (issued { code := 0xFF } (failed State.reset)))).map (fun s => (s.stat, s.seq.phase)) =
      some (⟨.error, 8, 0, .none⟩, .error) := by decide

/-- D17: in DONE and in ERROR a micro-operation moves nothing; a command starts. -/
theorem test_micro_after_end :
    after (step (issued { code := 0x10, regs := { b := 1 } } (failed State.reset))) = some (failed State.reset) ∧
    after (step (issued { code := 0x51 } (ended (s3 .dec [0xB8])))) = some (ended (s3 .dec [0xB8])) ∧
    (after (step (issued { code := 0x02 } (failed (s3 .dec [0xB8]))))).map (fun s => (s.stat, s.chan)) =
      some (⟨.busy, 0, 0, .dec⟩, []) := by decide

/-- R233: a reset of a running DECOMPRESS; PIX and IN are the host's. -/
theorem test_reset_running :
    after (step { s3 .dec [0xB8] with cmdq := [.reset], pix := [1, 2, 3] }) =
      some { State.reset with inp := [0xB8], pix := [1, 2, 3] } := by decide

/-- Rows outside T: GET_K and UPDATE complete, and T's own rows are kept. -/
theorem test_outside_table :
    (∃ k, exec (.getK 256) State.reset = .next { State.reset with dp := { State.reset.dp with k := k }, drawn := 1 }) ∧
    ∃ t, exec (.update 256 3) State.reset = .next { State.reset with table := t, drawn := 1 } := ⟨⟨_, rfl⟩, _, rfl⟩

/-! ## The hypotheses of the statements are met -/

/-- A BUSY engine with no word issued has its turn. -/
theorem engineTurn_of_empty (s : State) (hb : s.stat.status = .busy) (hq : s.cmdq = []) : engineTurn s :=
  ⟨hb, fun e rest h => by rw [hq] at h; cases h⟩

theorem s3_neighbours_enc :
    neighboursHold (s3 .enc []) 32 16 ∧ codedValue (s3 .enc []) 32 ∧ codedValue (s3 .enc []) 16 :=
  ⟨⟨by decide, by decide, by decide⟩, by decide, by decide⟩

theorem s3_neighbours (mode : Mode) (inp : List Byte) :
    neighboursHold (s3 mode inp) 32 16 ∧ codedValue (s3 mode inp) 32 ∧ codedValue (s3 mode inp) 16 := s3_neighbours_enc

theorem s5_neighbours_enc : neighboursHold (s5 .enc []) 128 128 ∧ codedValue (s5 .enc []) 128 :=
  ⟨⟨by decide, by decide, by decide⟩, by decide⟩

theorem s5_neighbours (mode : Mode) (inp : List Byte) :
    neighboursHold (s5 mode inp) 128 128 ∧ codedValue (s5 mode inp) 128 := s5_neighbours_enc

/-- A micro-operation in IDLE, a host command in IDLE, in ERROR and at once while BUSY; a micro-operation's word in DONE and in
ERROR. -/
theorem test_wit_StepRunsIssuedInstruction :
    (issued { code := 0x12 } State.reset).stat.status = .idle ∧ decodeCommand { code := 0x12 } = .ok .flush ∧
    isHostCommand { code := 0x12 } = false ∧ isHostCommand { code := 0x03 } = true ∧
    decodeCommand { code := 0x03, preempt := true } = .ok .readHeader ∧
    (issued { code := 0x03 } (failed State.reset)).stat.status ≠ .busy ∧
    (issued { code := 0x03, preempt := true } (s3 .enc [])).stat.status = .busy ∧
    isHostCommand { code := 0x03, preempt := true } = true ∧
    (issued { code := 0x12 } (ended State.reset)).stat.status = .done ∧
    (issued { code := 0x12 } (failed State.reset)).stat.status = .error :=
  ⟨rfl, rfl, by decide, by decide, rfl, by decide, rfl, by decide, rfl, rfl⟩

theorem test_wit_StepWithoutWord :
    State.reset.cmdq = [] ∧ State.reset.stat.status ≠ .busy ∧
    engineTurn (s3 .enc []) ∧ (s3 .enc []).seq.phase = .samples ∧ (s3 .enc []).stat.mode = .enc ∧
    engineTurn (s3 .dec []) ∧ (s3 .dec []).seq.phase = .samples ∧ (s3 .dec []).stat.mode = .dec :=
  ⟨rfl, by decide, engineTurn_of_empty _ rfl rfl, rfl, rfl, engineTurn_of_empty _ rfl rfl, rfl, rfl⟩

theorem test_wit_UnknownCodeRejected :
    (issued { code := 0x00 } State.reset).stat.status ≠ .busy ∧
    (issued { code := 0x00, preempt := true } (s3 .enc [])).stat.status = .busy ∧
    ∀ code ∈ ([0x00, 0x04, 0x62, 0xFF] : List (BitVec 8)),
      code ∉ ([0x01, 0x02, 0x03, 0x10, 0x11, 0x12, 0x18, 0x19, 0x20, 0x21, 0x22, 0x23, 0x30, 0x31, 0x32, 0x40, 0x41,
        0x50, 0x51, 0x60, 0x61] : List (BitVec 8)) := by decide

theorem test_wit_HostCommandTakesOver :
    (issued { code := 0x01, preempt := true } (s3 .enc [])).cmdq =
      [.word { code := 0x01, preempt := true }] ∧
    imageTooLarge (issued { code := 0x01, preempt := true } (s3 .enc [])) = false := by decide

/-- MAX_SAMPLES equal to the image's samples, and no MAX_SAMPLES. -/
theorem test_wit_CommandStart :
    (∀ m, (some 3 : Option Nat) = some m → nsamp (s3 .enc []).hdr * nch (s3 .enc []).hdr ≤ m) ∧
    (∀ m, State.reset.maxSamples = some m → nsamp State.reset.hdr * nch State.reset.hdr ≤ m) :=
  ⟨fun m h => by cases h; decide, fun m h => by cases h⟩

theorem test_wit_ErrorEntry : Err.truncated.code ≠ 2 ∧ Err.truncated.code ≠ 3 := by decide

theorem test_wit_PushBit :
    (⟨0, 0, true⟩ : BitSink).flushed = true ∧ (sinkAt 0 6 []).sink.cnt ≠ 7 ∧ (sinkAt 0xFE 7 []).sink.flushed = false ∧
    (sinkAt 0xFE 7 []).sink.cnt = 7 ∧ ({ sinkAt 0xFE 7 [] with outFail := [true] } : State).outFail.head? = some true ∧
    (sinkAt 0xFE 7 []).outFail.head? ≠ some true := by decide

/-- n = 64 and n = 65, and a sink that takes bits, empty and with seven bits in it. -/
theorem test_wit_PushBits :
    64 < 65 ∧ 64 ≤ 64 ∧ sinkReady State.reset ∧ sinkReady (sinkAt 0xFE 7 [1]) := by decide

theorem test_wit_Flush :
    ({ State.reset with sink := ⟨0, 0, true⟩ } : State).sink.flushed = true ∧
    State.reset.sink.flushed = false ∧ State.reset.sink.cnt = 0 ∧
    (sinkAt 0x80 1 []).sink.flushed = false ∧ (sinkAt 0x80 1 []).sink.cnt ≠ 0 ∧
    ({ sinkAt 0x80 1 [] with outFail := [true] } : State).outFail.head? = some true ∧
    (sinkAt 0x80 1 []).outFail.head? ≠ some true := by decide

theorem test_wit_PullBit :
    ({ readingFrom [] with src := ⟨0x80, 1⟩ } : State).src.cnt ≠ 0 ∧ (readingFrom []).src.cnt = 0 ∧
    ({ readingFrom [] with inFail := [true] } : State).inFail.head? = some true ∧
    (readingFrom []).inFail.head? ≠ some true ∧ (readingFrom []).inp[(readingFrom []).inPos]? = none ∧
    (readingFrom [0xB8]).inp[(readingFrom [0xB8]).inPos]? = some 0xB8 := by decide

/-- All the bits there are, one more, none, and 65. -/
theorem test_wit_PullBits :
    8 ≤ (readableBits (readingFrom [0xB8])).length ∧ (readableBits (readingFrom [0xB8])).length < 9 ∧
    0 ≤ (readableBits (readingFrom [])).length ∧ 64 < 65 := by decide

theorem test_wit_BitSinkLaw :
    (∀ i ∈ ([.pushBit 1, .pushBits 6 4, .pushBits 0 0, .pushBits 5 64] : List Instr), isPush i = true) ∧
    State.reset.sink = ⟨0, 0, false⟩ ∧ State.reset.out = [] ∧ quietOut State.reset ∧
    (readingFrom [0xB7]).src.cnt = 0 ∧ (readingFrom [0xB7]).inPos = 0 ∧ (readingFrom [0xB7]).inp = [0xB7] ∧
    quietIn (readingFrom [0xB7]) := by decide

theorem test_wit_RiceEnc : 64 ≤ 64 ∧ 64 < 65 ∧ sinkReady (sinkAt 0x80 1 [7]) := by decide

/-- The five forms: q = QMAX = 7 with 5 remainder bits, the eighth zero, the end in the zeros, the end in the remainder,
and K = 65. -/
theorem test_wit_RiceDec :
    7 ≤ (2 ^ 8 - 1) / 2 ^ 5 ∧ (bits [1, 1, 1, 1, 1]).length = 5 ∧
    readableBits (readingFrom [0x01, 0xFF]) =
      List.replicate 7 false ++ true :: (bits [1, 1, 1, 1, 1] ++ bits [1, 1, 1]) ∧
    readableBits (readingFrom [0x00, 0xFF]) =
      List.replicate ((2 ^ 8 - 1) / 2 ^ 5 + 1) false ++ bits [1, 1, 1, 1, 1, 1, 1, 1] ∧
    readableBits { readingFrom [] with src := ⟨0, 7⟩ } = List.replicate 7 false ∧
    (bits [1, 1]).length < 5 ∧ readableBits (readingFrom [0x07]) = List.replicate 5 false ++ true :: bits [1, 1] ∧
    0 ≤ (2 ^ 8 - 1) / 2 ^ 65 ∧ readableBits (readingFrom [0x80]) = List.replicate 0 false ++ true :: bits
      [0, 0, 0, 0, 0, 0, 0] := by decide

theorem test_wit_RiceRoundTrip :
    5 ≤ 64 ∧ sinkReady State.reset ∧ 255 / 2 ^ 5 ≤ (2 ^ 8 - 1) / 2 ^ 5 ∧
    readableBits (readingFrom [0x01, 0xF8]) = (List.replicate 7 false ++ true :: bits [1, 1, 1, 1, 1]) ++ bits [0, 0, 0] := by
  decide

/-- v = n, v = n - 1, and an alphabet whose words are longer than 64 bits. -/
theorem test_wit_PhasedEnc :
    17 ≤ 17 ∧ 16 < 17 ∧ sinkReady State.reset ∧ (bitsMsb 30 5).length ≤ 64 ∧ 64 < (bitsMsb 1 65).length := by decide

/-- n = 17 with a short and a long word, n = 1 with no bits, a stream that ends in the first field and after it, m = 65. -/
theorem test_wit_PhasedDec :
    (1 ≤ 17 ∧ Nat.log2 17 ≤ 64 ∧ (bits [0, 1, 1, 1]).length = Nat.log2 17 ∧
      ofBits (bits [0, 1, 1, 1]) < 2 ^ (Nat.log2 17 + 1) - 17 ∧
      readableBits (readingFrom [0x70]) = bits [0, 1, 1, 1] ++ bits [0, 0, 0, 0]) ∧
    (2 ^ (Nat.log2 17 + 1) - 17 ≤ ofBits (bits [1, 1, 1, 1]) ∧
      readableBits (readingFrom [0xF0]) = bits [1, 1, 1, 1] ++ false :: bits [0, 0, 0]) ∧
    (1 ≤ 1 ∧ (bits []).length = Nat.log2 1 ∧ ofBits (bits []) < 2 ^ (Nat.log2 1 + 1) - 1) ∧
    (readableBits (readingFrom [])).length < Nat.log2 17 ∧
    readableBits { readingFrom [] with src := ⟨0x0F, 4⟩ } = bits [1, 1, 1, 1] ∧
    64 < Nat.log2 (2 ^ 65) := by decide +kernel

theorem test_wit_PhasedCodeProperties : 1 ≤ 1 ∧ 1 ≤ 27 ∧ (bits [1, 0, 1, 0, 1]).length = Nat.log2 27 + 1 := by decide

/-- Each of the four positions, (0,2), (1,0), (1,1) and (2,0) of one column, with its two neighbours written. -/
theorem test_wit_Predict :
    ((grid 0 2).seq.col.toNat < (grid 0 2).hdr.width.toNat ∧ (grid 0 2).seq.row.toNat = 0 ∧
      2 ≤ (grid 0 2).seq.col.toNat ∧ chanRead (grid 0 2).chan 0 0 1 = some 20 ∧ chanRead (grid 0 2).chan 0 0 0 = some 10) ∧
    (1 ≤ (grid 1 0).seq.row.toNat ∧ (grid 1 0).seq.col.toNat = 0 ∧ 2 ≤ (grid 1 0).hdr.width.toNat ∧
      chanRead (grid 1 0).chan 0 0 0 = some 10 ∧ chanRead (grid 1 0).chan 0 0 1 = some 20) ∧
    (1 ≤ (grid 1 1).seq.row.toNat ∧ 1 ≤ (grid 1 1).seq.col.toNat ∧ chanRead (grid 1 1).chan 0 0 1 = some 20 ∧
      chanRead (grid 1 1).chan 0 1 0 = some 50) ∧
    ((gray .enc 1 4 2 0 [5, 9, 7, 20] []).hdr.width.toNat = 1 ∧
      2 ≤ (gray .enc 1 4 2 0 [5, 9, 7, 20] []).seq.row.toNat ∧
      chanRead (gray .enc 1 4 2 0 [5, 9, 7, 20] []).chan 0 1 0 = some 9 ∧
      chanRead (gray .enc 1 4 2 0 [5, 9, 7, 20] []).chan 0 0 0 = some 5) := by decide

theorem test_wit_PredictReadsWrittenCells :
    seqInRange (s3 .enc []) ∧ 2 ≤ idx (s3 .enc []) ∧
    (∀ row col, row < (s3 .enc []).hdr.height.toNat → col < (s3 .enc []).hdr.width.toNat →
      row * (s3 .enc []).hdr.width.toNat + col < idx (s3 .enc []) →
      (chanRead (s3 .enc []).chan (s3 .enc []).seq.ch.toNat row col).isSome = true) := by
  refine ⟨⟨by decide, by decide, by decide⟩, by decide, fun row col hr hc _ => ?_⟩
  have h : ∀ row < (s3 .enc []).hdr.height.toNat, ∀ col < (s3 .enc []).hdr.width.toNat,
    (chanRead (s3 .enc []).chan (s3 .enc []).seq.ch.toNat row col).isSome = true := by decide
  exact h row hr col hc

theorem test_wit_ChannelKSets : (⟨0, 0, 1, 1⟩ : HeaderFields).depth = 0 ∧ (⟨0, 1, 1, 1⟩ : HeaderFields).depth = 1 := by
  decide

/-- The last row of an 8-bit table. -/
theorem test_wit_GetK : 255 ≤ maxSample State.reset := by decide

/-- A row that is not halved and a row that is. -/
theorem test_wit_Update :
    255 ≤ maxSample State.reset ∧ tableWf State.reset.table = true ∧
    (∃ k ∈ kset State.reset, tableRead State.reset.table 255 k + (127 / 2 ^ k + 1 + k) < 1024) ∧
    tableWf (withRow State.reset 0 [(0, 1023), (1, 1022), (2, 1021), (3, 1020), (4, 1019), (5, 1018)]).table = true ∧
    (∀ k ∈ kset8, 1024 ≤ tableRead
      (withRow State.reset 0 [(0, 1023), (1, 1022), (2, 1021), (3, 1020), (4, 1019), (5, 1018)]).table 0 k +
        (0 / 2 ^ k + 1 + k)) := by decide

/-- The third sample of a row of which only the second is written. -/
def oneCell : State := { gray .dec 3 1 0 2 [] [] with chan := chanWrite [] 0 0 1 7 }

/-- An Rgb image in FINISH whose third channel is unwritten. -/
def twoCells : State := { rgbFinish 0 0 0 with chan := chanWrite (chanWrite [] 0 0 0 1) 1 0 0 1 }

/-- The first neighbour unwritten, the second alone, the sample's own cell, FINISH's last cell; the first context past T; a
value one past DELTA; an image one sample past MAX_SAMPLES. -/
theorem test_wit_ModelStops :
    idx State.reset < 2 ∧ 2 ≤ idx (gray .dec 3 1 0 2 [] []) ∧
    chanRead (gray .dec 3 1 0 2 [] []).chan 0 (neighbours 3 0 2).1.1 (neighbours 3 0 2).1.2 = none ∧
    2 ≤ idx oneCell ∧ chanRead oneCell.chan 0 (neighbours 3 0 2).1.1 (neighbours 3 0 2).1.2 = some 7 ∧
    chanRead oneCell.chan 0 (neighbours 3 0 2).2.1 (neighbours 3 0 2).2.2 = none ∧
    currentCell (gray .enc 3 1 0 2 [0x10, 0x20] []) = none ∧
    engineTurn twoCells ∧ twoCells.stat.mode = .dec ∧ twoCells.seq.phase = .finish ∧ 2 < nch twoCells.hdr ∧
    chanRead twoCells.chan 2 0 0 = none ∧
    maxSample State.reset < 256 ∧ tableWf State.reset.table = true ∧ sinkReady (s3 .enc []) ∧
    neighboursHold (s3 .enc []) 32 16 ∧ codedValue (s3 .enc []) 32 ∧ codedValue (s3 .enc []) 16 ∧ deltaOf 32 16 < 17 ∧
    2 < nsamp (s3 .enc []).hdr * nch (s3 .enc []).hdr ∧
    engineTurn (startCommand .dec (readingFrom (headerBytes ⟨0, 0, 3, 1⟩))) ∧
    readableBits (startCommand .dec (readingFrom (headerBytes ⟨0, 0, 3, 1⟩))) = headerBits ⟨0, 0, 3, 1⟩ ++ [] ∧
    2 < nsamp ⟨0, 0, 3, 1⟩ * nch ⟨0, 0, 3, 1⟩ :=
  ⟨by decide, by decide, by decide, by decide, by decide, by decide, by decide,
    engineTurn_of_empty _ rfl rfl, by decide, by decide, by decide, by decide, by decide, by decide, by decide,
    s3_neighbours_enc.1, s3_neighbours_enc.2.1, s3_neighbours_enc.2.2, by decide, by decide,
    engineTurn_of_empty _ rfl rfl, by decide, by decide⟩

/-- A cleared row, the largest magnitude of an 8-bit sample, and the row that UPDATE makes of it. -/
theorem test_wit_RowStaysBounded :
    (∀ k ∈ kset State.reset, tableRead State.reset.table 0 k = 0) ∧ tableWf State.reset.table = true ∧
    255 ≤ maxSample State.reset ∧ 254 + 1 ≤ maxSample State.reset ∧ rowBounded State.reset 0 ∧
    ∃ t, exec (.update 0 254) State.reset = .next t :=
  ⟨by decide, rfl, by decide, by decide, fun k hk => by revert k; decide, _, rfl⟩

theorem test_wit_Ycocg :
    1 ≤ 8 ∧ (0 : Int) ≤ 255 ∧ (255 : Int) ≤ 2 ^ 8 - 1 ∧ (∃ t, exec (.ycocgFwd 255 0 255) State.reset = .next t) :=
  ⟨by decide, by decide, by decide, _, rfl⟩

/-- Inside a row, the end of a row, the end of a channel, the end of the image. -/
theorem test_wit_SequencerAdvance :
    (grid 1 2).stat.mode = .enc ∧ (grid 1 2).seq.col.toNat + 1 < (grid 1 2).hdr.width.toNat ∧
    (grid 1 3).hdr.width.toNat ≤ (grid 1 3).seq.col.toNat + 1 ∧
    (grid 1 3).seq.row.toNat + 1 < (grid 1 3).hdr.height.toNat ∧
    (grid 2 3).hdr.height.toNat ≤ (grid 2 3).seq.row.toNat + 1 ∧
    nch (grid 2 3).hdr ≤ (grid 2 3).seq.ch.toNat + 1 ∧
    ({ grid 2 3 with hdr := ⟨1, 0, 4, 3⟩ } : State).seq.ch.toNat + 1 < nch ⟨1, 0, 4, 3⟩ := by decide

theorem test_wit_EncSampleVerbatim :
    idx (gray .enc 2 1 0 1 [0, 255] []) < 2 ∧ currentCell (gray .enc 2 1 0 1 [0, 255] []) = some ((255 : Nat) : Int) ∧
    255 < 2 ^ chanWidth (gray .enc 2 1 0 1 [0, 255] []) ∧ sinkReady (gray .enc 2 1 0 1 [0, 255] []) := by decide

/-- In range (S3), below with the least sample (S5), and above by one, where v = 0. -/
theorem test_wit_EncSamplePredicted :
    neighboursHold (s3 .enc []) 32 16 ∧ codedValue (s3 .enc []) 32 ∧ codedValue (s3 .enc []) 16 ∧
    currentCell (s3 .enc []) = some 24 ∧ min 32 16 ≤ (24 : Int) ∧ (24 : Int) ≤ max 32 16 ∧ sinkReady (s3 .enc []) ∧
    neighboursHold (s5 .enc []) 128 128 ∧ codedValue (s5 .enc []) 128 ∧ currentCell (s5 .enc []) = some 0 ∧
    (0 : Int) < min 128 128 ∧ ((127 : Nat) : Int) = min 128 128 - 0 - 1 ∧ sinkReady (s5 .enc []) ∧
    currentCell (gray .enc 3 1 0 2 [128, 128, 129] []) = some 129 ∧ max 128 128 < (129 : Int) ∧
    ((0 : Nat) : Int) = 129 - max 128 128 - 1 := by
  obtain ⟨h1, h2, h3⟩ := s3_neighbours .enc []
  obtain ⟨h4, h5⟩ := s5_neighbours .enc []
  exact ⟨h1, h2, h3, by decide, by decide, by decide, by decide, h4, h5, by decide, by decide, by decide, by decide,
    by decide, by decide, by decide⟩

/-- Exactly the bits of a sample, one fewer byte, and in-range symbols of S3 and of a context 0 (V3). -/
theorem test_wit_DecSampleVerbatimAndInRange :
    idx (gray .dec 1 1 0 0 [] [0x42]) < 2 ∧
    chanWidth (gray .dec 1 1 0 0 [] [0x42]) ≤ (readableBits (gray .dec 1 1 0 0 [] [0x42])).length ∧
    (readableBits (gray .dec 1 1 0 0 [] [])).length < chanWidth (gray .dec 1 1 0 0 [] []) ∧
    neighboursHold (s3 .dec [0xB8]) 32 16 ∧ codedValue (s3 .dec [0xB8]) 32 ∧ codedValue (s3 .dec [0xB8]) 16 ∧
    8 ≤ deltaOf 32 16 ∧
    readableBits (s3 .dec [0xB8]) =
      true :: (codewordBits (deltaOf 32 16 + 1) (phasedCodeword (deltaOf 32 16 + 1) 8) ++ bits [0, 0, 0]) ∧
    neighboursHold (s5 .dec [0x80]) 128 128 ∧ 0 ≤ deltaOf 128 128 ∧
    readableBits (s5 .dec [0x80]) =
      true :: (codewordBits (deltaOf 128 128 + 1) (phasedCodeword (deltaOf 128 128 + 1) 0) ++
        bits [0, 0, 0, 0, 0, 0, 0]) := by
  obtain ⟨h1, h2, h3⟩ := s3_neighbours .dec [0xB8]
  exact ⟨by decide, by decide, by decide, h1, h2, h3, by decide, by decide, (s5_neighbours .dec [0x80]).1, by decide,
    by decide⟩

/-- S5, whose sample is the least that can be, and E22, one below it. -/
theorem test_wit_DecSampleOutOfRange :
    neighboursHold (s5 .dec [0x07, 0xE0]) 128 128 ∧ codedValue (s5 .dec [0x07, 0xE0]) 128 ∧
    kFor (s5 .dec [0x07, 0xE0]) (deltaOf 128 128) = 5 ∧ 3 ≤ qmax (chanWidth (s5 .dec [0x07, 0xE0])) 5 ∧
    (bits [1, 1, 1, 1, 1]).length = 5 ∧ 127 = 3 * 2 ^ 5 + ofBits (bits [1, 1, 1, 1, 1]) ∧
    (0 : Int) = min 128 128 - (127 : Nat) - 1 ∧ codedValue (s5 .dec [0x07, 0xE0]) 0 ∧
    readableBits (s5 .dec [0x07, 0xE0]) =
      false :: false :: (List.replicate 3 false ++ true :: (bits [1, 1, 1, 1, 1] ++ bits [0, 0, 0, 0, 0])) ∧
    neighboursHold (gray .dec 3 1 0 2 [0x7F, 0x7F] [0x07, 0xE0]) 127 127 ∧
    ¬ codedValue (gray .dec 3 1 0 2 [0x7F, 0x7F] [0x07, 0xE0]) (-1) :=
  ⟨(s5_neighbours .dec _).1, (s5_neighbours .dec _).2, by decide, by decide, by decide, by decide, by decide, by decide,
    by decide, ⟨by decide, by decide, by decide⟩, by decide⟩

theorem test_wit_DecSampleRunsTheFieldRead :
    (s3 .dec [0xB8]).stat.mode ≠ .enc ∧
    (2 ≤ idx (s3 .dec [0xB8]) ∧ ∃ a b, neighboursHold (s3 .dec [0xB8]) a b ∧ codedValue (s3 .dec [0xB8]) a ∧
      codedValue (s3 .dec [0xB8]) b) ∧
    (∃ i u, readInstr pullBit (nextField (s3 .dec [0xB8])) (s3 .dec [0xB8]) = .ok i u) ∧
    (∃ e u, readInstr pullBit (nextField (s3 .dec [])) (s3 .dec []) = .err e u) :=
  ⟨by decide, ⟨by decide, 32, 16, s3_neighbours .dec _⟩, ⟨_, _, rfl⟩, ⟨_, _, rfl⟩⟩

/-- A sample stored, and one that is not. -/
theorem test_wit_DecSampleFrame :
    Memory.wf (s3 .dec [0xB8]) = true ∧ (∃ t, exec .decSample (s3 .dec [0xB8]) = .next t) ∧
    (s3 .dec []).seq.phase ≠ .error ∧ (∃ t, exec .decSample (s3 .dec []) = .next t ∧ t.seq.phase = .error) :=
  ⟨by decide, ⟨_, rfl⟩, by decide, _, rfl, rfl⟩

theorem test_wit_WireHeader :
    (s3 .enc []).stat.mode = .enc ∧ sinkReady (s3 .enc []) ∧ (s3 .dec []).stat.mode ≠ .enc ∧
    (⟨1, 1, 1, 1⟩ : HeaderFields).width ≠ 0 ∧ (⟨1, 1, 1, 1⟩ : HeaderFields).height ≠ 0 ∧
    (⟨1, 1, 0, 1⟩ : HeaderFields).width = 0 := by decide

theorem test_wit_WireRawAndInRange :
    (s3 .enc []).stat.mode = .enc ∧ sinkReady (s3 .enc []) ∧ (s3 .dec []).stat.mode ≠ .enc ∧
    255 < 2 ^ chanWidth (s3 .dec []) ∧ neighboursHold (s3 .enc []) 32 16 ∧ neighboursHold (s3 .dec []) 32 16 ∧
    codedValue (s3 .enc []) 32 ∧ codedValue (s3 .enc []) 16 ∧ 16 ≤ deltaOf 32 16 ∧ deltaOf 32 16 < 17 :=
  ⟨by decide, by decide, by decide, by decide, (s3_neighbours .enc []).1, (s3_neighbours .dec []).1,
    (s3_neighbours .enc []).2.1, (s3_neighbours .enc []).2.2, by decide, by decide⟩

/-- Both markers, with the sample at 0, at 255 and one past it. -/
theorem test_wit_WireOutOfRange :
    neighboursHold (s5 .dec []) 128 128 ∧ codedValue (s5 .dec []) 128 ∧ neighboursHold (s5 .enc []) 128 128 ∧
    sinkReady (s5 .enc []) ∧ (0 : Int) = min 128 128 - (127 : Nat) - 1 ∧ codedValue (s5 .dec []) 0 ∧
    (255 : Int) = max 128 128 + (126 : Nat) + 1 ∧ codedValue (s5 .dec []) 255 ∧ ¬ codedValue (s5 .dec []) 256 :=
  ⟨(s5_neighbours .dec []).1, (s5_neighbours .dec []).2, (s5_neighbours .enc []).1, by decide, by decide, by decide,
    by decide, by decide, by decide⟩

/-- K = 5 with q at QMAX and above it; n = 17 with a short and a long word and two words of no index; DELTA + 1 = 2^65, whose
words are longer than 64 bits. -/
theorem test_wit_WireCodewords :
    (5 ≤ 64 ∧ 7 ≤ qmax 8 5 ∧ qmax 8 5 < 8) ∧ 16 ≤ 16 ∧
    phasedCodeword 17 8 = .short 7 ∧ phasedCodeword 17 16 = .long 30 ∧ sinkReady (s3 .enc []) ∧
    (codewordBits 17 (.long 30)).length ≤ 64 ∧
    (∀ v' ≤ 16, phasedCodeword 17 v' ≠ .long 29) ∧ (∀ v' ≤ 16, phasedCodeword 17 v' ≠ .short 15) ∧
    64 < (codewordBits (2 ^ 65 - 1 + 1) (.short 0)).length := by decide +kernel

theorem test_wit_WriteHeader :
    sinkReady State.reset ∧ State.reset.sink.cnt = 0 ∧ sinkReady (sinkAt 0x80 1 []) := by decide

/-- One source for each branch: E1, E3, E4, E5, 40 bits, E7, E9, E10, E12. -/
theorem test_wit_ParseHeader :
    (readableBits (readingFrom [0x46, 0x4C, 0x43])).length < 32 ∧
    ofBits ((readableBits (readingFrom [0x46, 0x4C, 0x43, 0x00])).take 32) ≠ 0x464C4353 ∧
    (readableBits (readingFrom [0x46, 0x4C, 0x43, 0x53])).length = 32 ∧
    1 < ofBits (((readableBits (readingFrom [0x46, 0x4C, 0x43, 0x53, 2])).drop 32).take 8) ∧
    (readableBits (readingFrom [0x46, 0x4C, 0x43, 0x53, 1])).length = 40 ∧
    1 < ofBits (((readableBits (readingFrom [0x46, 0x4C, 0x43, 0x53, 1, 2])).drop 40).take 8) ∧
    (readableBits (readingFrom [0x46, 0x4C, 0x43, 0x53, 0, 0, 0, 0, 0, 0])).length = 80 ∧
    ofBits (((readableBits (readingFrom [0x46, 0x4C, 0x43, 0x53, 0, 0, 0, 0, 0, 0, 0, 0, 0, 1])).drop 48).take 32) = 0 ∧
    ofBits (((readableBits (readingFrom (headerBytes ⟨1, 1, 1, 1⟩))).drop 48).take 32) = 1 := by decide

/-- A zero dimension, a PIX that is too short, a sample too large; and valid inputs, the smallest image. -/
theorem test_wit_CompressHeaderStep :
    engineTurn (startCommand .enc s1) ∧ (startCommand .enc s1).stat.mode = .enc ∧
    (startCommand .enc s1).seq.phase = .header ∧ inputsValid (startCommand .enc s1) = true ∧
    sinkReady (startCommand .enc s1) ∧ Memory.wf (startCommand .enc s1) = true ∧
    State.reset.hdr.width = 0 ∧ ({ s1 with pix := [] } : State).pix.length ≠ nsamp s1.hdr * nch s1.hdr ∧
    (∃ x ∈ ({ s1 with pix := [256] } : State).pix, 2 ^ depthBits s1.hdr ≤ x) :=
  ⟨engineTurn_of_empty _ rfl rfl, by decide, by decide, by decide, by decide, by decide, by decide, by decide,
    by decide⟩

/-- S6, whose components fit, and E27, whose do not. -/
theorem test_wit_FinishWritesPix :
    engineTurn (rgbFinish 78 457 153) ∧ (rgbFinish 78 457 153).stat.mode = .dec ∧
    (rgbFinish 78 457 153).seq.phase = .finish ∧
    (∀ c < 3, ∀ row < 1, ∀ col < 1, chanRead (rgbFinish 78 457 153).chan c row col =
      some (((fun c _ _ => [78, 457, 153].getD c 0) c row col : Nat) : Int)) ∧
    ycocgInverse 78 (457 - 2 ^ 8) (153 - 2 ^ 8) = (231, 27, 30) ∧
    ycocgInverse 0 (256 - 2 ^ 8) (511 - 2 ^ 8) = (-127, 128, -127) ∧
    (∃ t, step (rgbFinish 0 256 511) = .next t ∧ t.stat.status = .error) :=
  ⟨engineTurn_of_empty _ rfl rfl, by decide, by decide, by decide, by decide, by decide, _, rfl, by decide⟩

theorem test_wit_ReadHeaderRun :
    (readingFrom (headerBytes ⟨0, 0, 1, 1⟩)).cmdq = [] ∧ quietIn (readingFrom (headerBytes ⟨0, 0, 1, 1⟩)) ∧
    (⟨0, 0, 1, 1⟩ : HeaderFields).width ≠ 0 ∧
    (∃ t, runCommand .readHeader 1 (readingFrom (headerBytes ⟨0, 0, 1, 1⟩)) = .next t ∧ t.stat.status = .done) ∧
    (∃ t, runCommand .readHeader 1 (readingFrom [0x46, 0x4C, 0x43, 0x00]) = .next t ∧ t.stat.errCode = 1) ∧
    (∃ t, runCommand .readHeader 1 (readingFrom [0x46, 0x4C, 0x43, 0x53, 7]) = .next t ∧ t.stat.errCode = 2) ∧
    (∃ t, runCommand .readHeader 1 (readingFrom [0x46, 0x4C, 0x43, 0x53, 0, 2]) = .next t ∧ t.stat.errCode = 3) ∧
    (∃ t, runCommand .readHeader 1 (readingFrom (headerBytes ⟨0, 0, 0, 1⟩)) = .next t ∧ t.stat.errCode = 4) :=
  ⟨by decide, by decide, by decide, ⟨_, rfl, by decide⟩, ⟨_, rfl, by decide⟩, ⟨_, rfl, by decide⟩, ⟨_, rfl, by decide⟩,
    _, rfl, by decide⟩

theorem test_wit_StreamsOnlyAdvance :
    (∃ t, step (s3 .enc []) = .next t) ∧ ∃ t, step { s3 .enc [] with cmdq := [.reset], out := [1] } = .next t :=
  ⟨⟨_, rfl⟩, _, rfl⟩

theorem test_wit_PixAndMetadataKept :
    (∃ t, step (rgbFinish 78 457 153) = .next t ∧ t.pix ≠ (rgbFinish 78 457 153).pix) ∧
    engineTurn (s3 .enc []) ∧ (s3 .enc []).seq.phase ≠ .header ∧ (∃ t, step (s3 .enc []) = .next t) :=
  ⟨⟨_, rfl, by decide⟩, engineTurn_of_empty _ rfl rfl, by decide, _, rfl⟩

theorem s3_inv : engineInv (s3 .enc []) := by
  refine ⟨by decide, by decide, by decide, fun _ => ⟨by decide, by decide, ⟨by decide, by decide, by decide⟩, ?_⟩⟩
  have h : ∀ c < 1, ∀ row < 1, ∀ col < 3,
      chanRead (s3 .enc []).chan c row col = some (((chanRead (s3 .enc []).chan c row col).getD 0).toNat : Int) ∧
      ((chanRead (s3 .enc []).chan c row col).getD 0).toNat < 2 ^ widthOf (s3 .enc []).hdr c := by decide
  exact fun c row col hc hr hcol => ⟨_, h c hc row hr col hcol⟩

theorem test_wit_EngineInvariant :
    engineInv (s3 .enc []) ∧ (s3 .enc []).cmdq = [] ∧ (∃ t, step (s3 .enc []) = .next t) := ⟨s3_inv, rfl, _, rfl⟩

theorem test_wit_CommandWords :
    encodeCommand (.getK 7) = some { code := 0x31, regs := { delta := 7 } } ∧ encodeCommand (.rawSample 0) = none := by
  decide

/-- Every field at the ends of what it admits. -/
theorem test_wit_FieldRoundTrip :
    ([(.header, .header 1 1 1 1), (.raw 17, .rawSample 131071), (.raw 64, .rawSample 0), (.symbol 131072 11 17, .symIn 131071),
      (.symbol 1 5 8, .symBelow 255), (.symbol 1 11 17, .symAbove 131071), (.rice 0 8, .riceCodeword 255 0),
      (.phased 1, .phasedShort 0), (.phased 17, .phasedLong 30), (.phased 17, .phasedLong 31), (.padding 3, .padding)] :
      List (FieldKind × Instr)).all (fun p => fieldFits p.1 p.2) = true := by decide

theorem test_wit_SourceReadsAsDecoder :
    (∃ i rest, decodeField (.raw 8) (readableBits (readingFrom [0x42])) = .ok i rest) ∧
    (∃ rest, decodeField (.raw 9) (readableBits (readingFrom [0x42])) = .err .truncated rest) ∧
    (∃ rest, decodeField (.rice 5 8) (readableBits (readingFrom [0])) = .err .malformedCodeword rest) :=
  ⟨⟨_, _, rfl⟩, ⟨_, rfl⟩, _, rfl⟩

/-- The decoder of S3 at its third sample, given the byte that holds the encoder's bits, with other values left in its
datapath. -/
def s3Other : State := { s3 .dec [0xB8] with dp := ⟨1, 2, 3, 4, 5, 6, 7, 8⟩ }

theorem test_wit_Mirror :
    (s3 .enc []).hdr = s3Other.hdr ∧ (s3 .enc []).seq = s3Other.seq ∧ (s3 .enc []).table = s3Other.table ∧
    (s3 .enc []).dp ≠ s3Other.dp ∧ seqInRange (s3 .enc []) ∧ Memory.wf (s3 .enc []) = true ∧
    Memory.wf s3Other = true ∧ channelsFull (s3 .enc []) ∧ sinkReady (s3 .enc []) ∧ (s3 .enc []).chan = s3Other.chan ∧
    ∃ e', exec .encSample (s3 .enc []) = .next e' ∧
      readableBits s3Other = (sinkBits e').drop (sinkBits (s3 .enc [])).length ++ bits [0, 0, 0] :=
  ⟨rfl, rfl, rfl, by decide, ⟨by decide, by decide, by decide⟩, by decide, by decide, (s3_inv.2.2.2 rfl).2.2.2, by decide,
    by decide, _, rfl, by decide⟩

/-- The machine of S1 with a writer that fails after k bytes. -/
def s1Failing (k : Nat) : State := { s1 with outFail := List.replicate k false ++ [true] }

/-- S3 in PHASE FLUSH, five bits in the sink. -/
def s3Flush : State := { s3 .enc [] with seq := ⟨.flush, 0, 0, 0⟩, sink := ⟨0xB8, 5, false⟩ }

/-- S1, whose stream has 15 bytes, with failures in the HEADER phase, at its one sample and past its end; and a FLUSH with
bits to write, without and with a failure, and with none. -/
theorem test_wit_CompressRun :
    (s1.cmdq = [] ∧ inputsValid s1 = true ∧ imageTooLarge s1 = false ∧ quietOut s1) ∧
    (∃ t, runCommand .compress (nsamp s1.hdr * nch s1.hdr + 2) { s1Failing 14 with outFail := [] } = .next t ∧
      t.out.length = 15) ∧
    ((s1Failing 13).cmdq = [] ∧ inputsValid (s1Failing 13) = true ∧ imageTooLarge (s1Failing 13) = false) ∧
    readsBeforeFailure (s1Failing 13).outFail = some 13 ∧ readsBeforeFailure (s1Failing 14).outFail = some 14 ∧
    readsBeforeFailure (s1Failing 15).outFail = some 15 ∧
    (engineTurn s3Flush ∧ s3Flush.stat.mode = .enc ∧ s3Flush.seq.phase = .flush ∧ s3Flush.sink.flushed = false ∧
      s3Flush.sink.cnt ≠ 0 ∧ s3Flush.outFail.head? ≠ some true) ∧
    ({ s3Flush with outFail := [true] } : State).outFail.head? = some true ∧
    ({ s3Flush with sink := ⟨0, 0, false⟩ } : State).sink.cnt = 0 :=
  ⟨by decide, ⟨_, rfl, by decide⟩, by decide, by decide, by decide, by decide,
    ⟨engineTurn_of_empty _ rfl rfl, by decide, by decide, by decide, by decide, by decide⟩, by decide, by decide⟩

/-- S1 compresses to its stream, and the stream is what DECOMPRESS is given. -/
theorem test_wit_RoundTrip :
    s1.cmdq = [] ∧ ∃ t, runCommand .compress 3 s1 = .next t ∧ t.stat.status = .done ∧
      t.out = headerBytes ⟨0, 0, 1, 1⟩ ++ [0x42] ∧
      (readingFrom (headerBytes ⟨0, 0, 1, 1⟩ ++ [0x42])).inp = t.out ∧
      (readingFrom t.out).cmdq = [] ∧ quietIn (readingFrom t.out) ∧ (readingFrom t.out).maxSamples = s1.maxSamples :=
  ⟨rfl, _, rfl, by decide, by decide, by decide, by decide, by decide, by decide⟩

/-- The same metadata and pixels in two machines that differ otherwise. -/
theorem test_wit_CompressIsDeterministic :
    s1.hdr = { s1 with out := [1], inPos := 7 }.hdr ∧ s1.pix = { s1 with out := [1], inPos := 7 }.pix ∧
    (∃ t, runCommand .compress 3 s1 = .next t ∧ t.stat.status = .done) ∧
    (∃ t, runCommand .compress 3 { s1 with out := [1], inPos := 7 } = .next t ∧ t.stat.status = .done) :=
  ⟨rfl, rfl, ⟨_, rfl, by decide⟩, _, rfl, by decide⟩

/-- E15 in small: S1's stream with two more bytes, and without them. -/
theorem test_wit_TrailingDataIgnored :
    ∃ t, runCommand .decompress 3 (readingFrom (headerBytes ⟨0, 0, 1, 1⟩ ++ [0x42, 0xFF, 0xFF])) = .next t ∧
      t.stat.status = .done ∧ 8 * t.inPos - t.src.cnt.toNat ≤ 8 * (headerBytes ⟨0, 0, 1, 1⟩ ++ [0x42]).length ∧
      (streamBits (headerBytes ⟨0, 0, 1, 1⟩ ++ [0x42])).take (8 * t.inPos - t.src.cnt.toNat) =
        (streamBits (headerBytes ⟨0, 0, 1, 1⟩ ++ [0x42, 0xFF, 0xFF])).take (8 * t.inPos - t.src.cnt.toNat) :=
  ⟨_, rfl, by decide, by decide, by decide⟩

theorem test_wit_CommandsTerminate : State.reset.cmdq = [] ∧ State.reset.maxSamples = none := by decide

/-- S5's third sample, one byte and three bits: no failure pending, the failure on the second byte, and on the first. -/
theorem test_wit_EncSampleOnFailingWriter :
    (s5 .enc []).sink.flushed = false ∧
    (∃ u, exec .encSample { s5 .enc [] with outFail := [] } = .next u ∧ u.out.length = 1) ∧
    readsBeforeFailure [] = none ∧ readsBeforeFailure [false, true] = some 1 ∧ readsBeforeFailure [true] = some 0 ∧
    (∃ t, exec .encSample { s5 .enc [] with outFail := [true] } = .next t ∧ t.seq.phase = .error) ∧
    (s5 .enc []).seq.phase ≠ .error :=
  ⟨by decide, ⟨_, rfl, by decide⟩, by decide, by decide, by decide, ⟨_, rfl, by decide⟩, by decide⟩

/-- A running DECOMPRESS, with and without a word after the reset. -/
theorem test_wit_HostReset :
    ({ s3 .dec [0xB8] with cmdq := [.reset] } : State).cmdq = .reset :: [] ∧
    ({ s3 .dec [0xB8] with cmdq := [.reset, .word { code := 0x03 }] } : State).cmdq =
      .reset :: [.word { code := 0x03 }] ∧
    (s3 .dec [0xB8]).stat.status = .busy ∧ (s3 .dec [0xB8]).stat.mode = .dec := by decide

end Sys2Proof.Tests
end

section
/-! PROOF. The state's reset values and the sequencer's advance (10_state.md R15, R25). -/

namespace Sys2Proof.Machine

/-! ## Cleared memories -/

/-- A cleared T (10_state.md R22). -/
@[simp] theorem tableRead_nil (delta k : Nat) : tableRead [] delta k = 0 := rfl

/-- A CHAN with no cell written (R23). -/
@[simp] theorem chanRead_nil (c row col : Nat) : chanRead [] c row col = none := rfl

/-! ## The advance, one equation for each branch of R15 -/

theorem advance_in_row (s : State) (hcol : s.seq.col.toNat + 1 < s.hdr.width.toNat) :
    advance s = { s with seq := { s.seq with col := s.seq.col + 1 } } := by
  rw [advance, if_pos hcol]

theorem advance_row_end (s : State) (hcol : s.hdr.width.toNat ≤ s.seq.col.toNat + 1)
    (hrow : s.seq.row.toNat + 1 < s.hdr.height.toNat) :
    advance s = { s with seq := { s.seq with row := s.seq.row + 1, col := 0 } } := by
  rw [advance, if_neg hcol.not_gt, if_pos hrow]

theorem advance_channel_end (s : State) (hcol : s.hdr.width.toNat ≤ s.seq.col.toNat + 1)
    (hrow : s.hdr.height.toNat ≤ s.seq.row.toNat + 1) (hch : s.seq.ch.toNat + 1 < nch s.hdr) :
    advance s = { s with seq := { s.seq with ch := s.seq.ch + 1, row := 0, col := 0 }, table := [] } := by
  rw [advance, if_neg hcol.not_gt, if_neg hrow.not_gt, if_pos hch]

/-- The next PHASE is named for MODE ENC and DEC only (R15, log entry 13), hence the premise on MODE. -/
theorem advance_image_end (s : State) (hmode : s.stat.mode = .enc ∨ s.stat.mode = .dec)
    (hcol : s.hdr.width.toNat ≤ s.seq.col.toNat + 1) (hrow : s.hdr.height.toNat ≤ s.seq.row.toNat + 1)
    (hch : nch s.hdr ≤ s.seq.ch.toNat + 1) :
    advance s = { s with seq := ⟨if s.stat.mode = .enc then .flush else .finish, s.seq.ch, 0, 0⟩ } := by
  rw [advance, if_neg hcol.not_gt, if_neg hrow.not_gt, if_neg hch.not_gt]
  rcases hmode with henc | hdec
  · simp [henc]
  · simp [hdec]

/-! ## The statements -/

/-- Settles O1: the registers are read off `State.reset`; T and CHAN are cleared memories, so every read of them is too. -/
theorem resetValues : Obligations.ResetValues :=
  ⟨rfl, rfl, tableRead_nil, rfl, rfl, chanRead_nil, rfl, rfl⟩

/-- Settles O29, by the branches of the advance. -/
theorem sequencerAdvance : Obligations.SequencerAdvance := by
  intro s hmode
  refine ⟨advance_in_row s, advance_row_end s, fun hcol hrow => ⟨?channel, ?image⟩⟩
  case channel => exact advance_channel_end s hcol hrow
  case image => exact advance_image_end s hmode hcol hrow

end Sys2Proof.Machine
end

section
/-! PROOF. The bit layer (40_bitio.md R90 to R95): what each operation does on every path, and the bit-sink law. -/

namespace Sys2Proof.Machine

/-! ## The byte ports by the next answer (20_memory.md R42, R43) -/

theorem byteOut_fails (b : Byte) (s : State) (h : s.outFail.head? = some true) :
    byteOut b s = .raise .ioError { s with outFail := s.outFail.tail } := by
  obtain ⟨rest, hf⟩ := List.head?_eq_some_iff.1 h
  simp [byteOut, hf]

theorem byteOut_writes (b : Byte) (s : State) (h : s.outFail.head? ≠ some true) :
    byteOut b s = .ok () { s with out := s.out ++ [b], outFail := s.outFail.tail } := by
  unfold byteOut
  split
  next hf => simp [hf] at h
  next hf => rw [hf]; rfl
  next hf => rw [hf, List.tail_nil, ← hf]

theorem byteIn_fails (s : State) (h : s.inFail.head? = some true) :
    byteIn s = .err .ioError { s with inFail := s.inFail.tail } := by
  obtain ⟨rest, hf⟩ := List.head?_eq_some_iff.1 h
  simp [byteIn, hf]

/-- A reader that does not fail now answers what IN holds at IN_POS. -/
theorem byteIn_answers (s : State) (h : s.inFail.head? ≠ some true) :
    byteIn s = .ok (nextByte { s with inFail := s.inFail.tail }).1 (nextByte { s with inFail := s.inFail.tail }).2 := by
  unfold byteIn
  split
  next hf => simp [hf] at h
  next hf => rw [hf]; rfl
  next hf => rw [hf, List.tail_nil, ← hf]

theorem byteIn_delivers (s : State) (x : Byte) (h : s.inFail.head? ≠ some true) (hx : s.inp[s.inPos]? = some x) :
    byteIn s = .ok (some x) { s with inPos := s.inPos + 1, inFail := s.inFail.tail } := by
  simp [byteIn_answers s h, nextByte, hx]

theorem byteIn_eof (s : State) (h : s.inFail.head? ≠ some true) (hx : s.inp[s.inPos]? = none) :
    byteIn s = .ok none { s with inFail := s.inFail.tail } := by
  simp only [byteIn_answers s h, nextByte, hx]

/-! ## PUSH_BIT, one equation for each path of R90 -/

section
variable {s : State} (b : Bool)

theorem pushBit_flushed (hf : s.sink.flushed = true) : pushBit b s = .raise .useAfterFlush s := if_pos hf

theorem pushBit_room (hf : s.sink.flushed = false) (hc : s.sink.cnt ≠ 7) :
    pushBit b s = .ok () { s with
      sink := ⟨assignBit s.sink.acc (7 - s.sink.cnt.toNat) b, s.sink.cnt + 1, false⟩ } := by
  simp only [pushBit, hf, hc, Bool.false_eq_true, if_false]

theorem pushBit_full_fails (hf : s.sink.flushed = false) (hc : s.sink.cnt = 7) (ho : s.outFail.head? = some true) :
    pushBit b s = .raise .ioError { s with
      sink := ⟨assignBit s.sink.acc (7 - s.sink.cnt.toNat) b, 7, false⟩, outFail := s.outFail.tail } := by
  simp [pushBit, hf, hc, byteOut_fails, ho]

theorem pushBit_full_writes (hf : s.sink.flushed = false) (hc : s.sink.cnt = 7) (ho : s.outFail.head? ≠ some true) :
    pushBit b s = .ok () { s with
      sink := ⟨0, 0, false⟩, out := s.out ++ [assignBit s.sink.acc (7 - s.sink.cnt.toNat) b],
      outFail := s.outFail.tail } := by
  simp [pushBit, hf, hc, byteOut_writes, ho]

end

/-! ## FLUSH, one equation for each path of R92 -/

section
variable {s : State}

theorem flushSink_flushed (hf : s.sink.flushed = true) : flushSink s = .raise .useAfterFlush s := by
  simp [flushSink, emitPadding, hf]

theorem flushSink_aligned (hf : s.sink.flushed = false) (hc : s.sink.cnt = 0) :
    flushSink s = .ok () { s with sink := ⟨s.sink.acc, 0, true⟩ } := by
  simp [flushSink, emitPadding, setFlushed, hf, hc]

theorem flushSink_partial_fails (hf : s.sink.flushed = false) (hc : s.sink.cnt ≠ 0)
    (ho : s.outFail.head? = some true) :
    flushSink s = .raise .ioError { s with outFail := s.outFail.tail } := by
  rw [flushSink, emitPadding, if_neg (by simp [hf]), if_neg hc, byteOut_fails _ _ ho]; rfl

theorem flushSink_partial_writes (hf : s.sink.flushed = false) (hc : s.sink.cnt ≠ 0)
    (ho : s.outFail.head? ≠ some true) :
    flushSink s = .ok () { s with
      sink := ⟨0, 0, true⟩, out := s.out ++ [s.sink.acc], outFail := s.outFail.tail } := by
  rw [flushSink, emitPadding, if_neg (by simp [hf]), if_neg hc, byteOut_writes _ _ ho]; rfl

end

/-! ## PULL_BIT, one equation for each path of R93 -/

section
variable {s : State}

theorem pullBit_buffered (hc : s.src.cnt ≠ 0) :
    pullBit s = .ok (s.src.acc.getLsbD (s.src.cnt.toNat - 1)) { s with src := ⟨s.src.acc, s.src.cnt - 1⟩ } :=
  if_neg hc

theorem pullBit_fails (hc : s.src.cnt = 0) (hi : s.inFail.head? = some true) :
    pullBit s = .err .ioError { s with inFail := s.inFail.tail } := by
  rw [pullBit, if_pos hc, byteIn_fails s hi, Read.bind_err]

theorem pullBit_eof (hc : s.src.cnt = 0) (hi : s.inFail.head? ≠ some true) (hx : s.inp[s.inPos]? = none) :
    pullBit s = .err .truncated { s with inFail := s.inFail.tail } := by
  rw [pullBit, if_pos hc, byteIn_eof s hi hx, Read.bind_ok]

theorem pullBit_fetches {x : Byte} (hc : s.src.cnt = 0) (hi : s.inFail.head? ≠ some true)
    (hx : s.inp[s.inPos]? = some x) :
    pullBit s = .ok (x.getLsbD 7) { s with src := ⟨x, 7⟩, inPos := s.inPos + 1, inFail := s.inFail.tail } := by
  rw [pullBit, if_pos hc, byteIn_delivers s x hi hx, Read.bind_ok]

end

/-! ## The operations on sink and source as instructions -/

theorem exec_pushBit (b : BitVec 1) (s : State) : exec (.pushBit b) s = (pushBit (b.getLsbD 0) s).finish := rfl

theorem exec_pushBits (value : BitVec 64) (n : Nat) (s : State) :
    exec (.pushBits value n) s = (pushBits value.toNat n s).finish := rfl

theorem exec_flush (s : State) : exec .flush s = (flushSink s).finish := rfl

theorem exec_pullBit_of_ok {s t : State} {b : Bool} (h : pullBit s = .ok b t) :
    exec .pullBit s = .next { t with res := { t.res with bit := BitVec.ofBool b } } := by
  simp [exec, execPullBit, h]

theorem exec_pullBit_of_err {s t : State} {e : Err} (h : pullBit s = .err e t) :
    exec .pullBit s = .next (raiseError e t) := by
  simp [exec, execPullBit, h]

theorem exec_pullBits_of_ok {n v : Nat} {s t : State} (h : readField pullBit n s = .ok v t) :
    exec (.pullBits n) s = .next { t with res := { t.res with val := v } } := by
  simp [exec, execPullBits, pullBits, h]

theorem exec_pullBits_of_err {n : Nat} {s t : State} {e : Err} (h : readField pullBit n s = .err e t) :
    exec (.pullBits n) s = .next (raiseError e t) := by
  simp [exec, execPullBits, pullBits, h]

theorem sameButSink.stat_eq {s t : State} (h : sameButSink s t) : t.stat = s.stat := by
  rw [h, withSink_stat]

theorem sameButSource.stat_eq {s t : State} (h : sameButSource s t) : t.stat = s.stat := by
  rw [h, withSource_stat]

theorem sameButSource.res_eq {s t : State} (h : sameButSource s t) : t.res = s.res := by
  rw [h, withSource_res]

/-! ## Programs of pushes (R95) -/

theorem runProgram_append {a : List Instr} {s t : State} (h : runProgram a s = .next t) (b : List Instr) :
    runProgram (a ++ b) s = runProgram b t := by
  induction a generalizing s with
  | nil => cases h; rfl
  | cons i a ih =>
    simp only [runProgram, List.cons_append] at h ⊢
    cases hi : exec i s with
    | next u => simp only [hi] at h ⊢; exact ih h
    | fault f => simp [hi] at h
    | refused r => simp [hi] at h

/-- More than 64 bits are refused before the first push (R91). -/
theorem pushBits_above (value : Nat) {n : Nat} (s : State) (h : 64 < n) :
    pushBits value n s = .raise .invalidInput s := if_pos h

theorem exec_pushBits_eq_pushEach (value : BitVec 64) {n : Nat} (s : State) (h : n ≤ 64) :
    exec (.pushBits value n) s = pushEach (bitsMsb value.toNat n) s := by
  rw [exec_pushBits, pushBits_eq _ _ _ h, pushEach_eq]

theorem pushEach_appends (bits : List Bool) {s : State} (h : sinkReady s) : appends bits s (pushEach bits s) := by
  rw [pushEach_eq]; exact pushList_appends bits s h

/-- A push into a sink that takes bits appends its bits. -/
theorem exec_push_appends {i : Instr} {s : State} (hi : isPush i = true) (h : sinkReady s) :
    appends (pushedBits i) s (exec i s) := by
  cases i with
  | pushBit b =>
    obtain ⟨t, hpush, ht⟩ := pushBit_ready (b.getLsbD 0) s h
    exact ⟨t, by rw [exec_pushBit, hpush, finish_ok], ht⟩
  | pushBits value n =>
    rw [exec_pushBits_eq_pushEach value s (of_decide_eq_true hi)]
    exact pushEach_appends _ h
  | _ => exact absurd hi (by simp [isPush])

theorem runProgram_pushes_appends {pushes : List Instr} {s : State} (hp : ∀ i ∈ pushes, isPush i = true)
    (h : sinkReady s) : appends (pushes.flatMap pushedBits) s (runProgram pushes s) := by
  induction pushes generalizing s with
  | nil => exact ⟨s, rfl, h, by simp, sameButSink_refl s⟩
  | cons i pushes ih =>
    obtain ⟨hi, hrest⟩ := List.forall_mem_cons.1 hp
    obtain ⟨t, hexec, hready, hbits, hframe⟩ := exec_push_appends hi h
    obtain ⟨u, hrun, hready', hbits', hframe'⟩ := ih hrest hready
    exact ⟨u, by rw [runProgram, hexec]; exact hrun, hready', by simp [hbits', hbits], hframe.trans hframe'⟩

/-! ## FLUSH of a sink that takes bits (R92, R97) -/

/-- A byte whose low bits are zero is its used bits and then zeros. -/
theorem byteBits_of_clean {acc : Byte} {n : Nat} (hn : n < 8) (h : ∀ j < 8 - n, acc.getLsbD j = false) :
    byteBits acc = (byteBits acc).take n ++ List.replicate (8 - n) false := by
  rw [byteBits_eq]
  interval_cases n <;>
    simp (disch := omega) only [h, List.take_succ_cons, List.take_zero, List.cons_append, List.nil_append,
      List.replicate]

/-- FLUSH emits the bits pushed and zeros up to the next byte boundary. -/
theorem flushSink_ready {s : State} (h : sinkReady s) :
    ∃ t, flushSink s = .ok () t ∧ t.stat = s.stat ∧ t.out.length = ((sinkBits s).length + 7) / 8 ∧
      streamBits t.out = sinkBits s ++ List.replicate (8 * t.out.length - (sinkBits s).length) false := by
  obtain ⟨hf, hclean, hquiet⟩ := h
  have hlt : s.sink.cnt.toNat < 8 := s.sink.cnt.isLt
  have hlen : (sinkBits s).length = 8 * s.out.length + s.sink.cnt.toNat := by simp [sinkBits]; omega
  by_cases hc : s.sink.cnt = 0
  case pos =>
    have h0 : s.sink.cnt.toNat = 0 := by simp [hc]
    refine ⟨_, flushSink_aligned hf hc, rfl, ?_, ?_⟩
    · show s.out.length = _
      omega
    · rw [hlen, h0]
      simp [sinkBits, h0]
  case neg =>
    have h0 : s.sink.cnt.toNat ≠ 0 := fun e => hc (BitVec.eq_of_toNat_eq e)
    have ho : s.outFail.head? ≠ some true := fun e => by simpa using hquiet true (List.mem_of_head? e)
    have hpad : 8 * (s.out.length + 1) - (8 * s.out.length + s.sink.cnt.toNat) = 8 - s.sink.cnt.toNat := by omega
    refine ⟨_, flushSink_partial_writes hf hc ho, rfl, ?_, ?_⟩
    · simp only [List.length_append, List.length_singleton]
      omega
    · rw [hlen, List.length_append, List.length_singleton, hpad, sinkBits, List.append_assoc,
        ← byteBits_of_clean hlt hclean]
      simp

/-! ## Pulling the bits back (R93, R95) -/

theorem readsBeforeFailure_quiet {l : List Bool} (h : ∀ f ∈ l, f = false) : readsBeforeFailure l = none := by
  induction l with
  | nil => rfl
  | cons f l ih =>
    obtain ⟨hf, hl⟩ := List.forall_mem_cons.1 h
    simp [hf, readsBeforeFailure, ih hl]

/-- A fresh source over a reader that does not fail delivers every bit of IN. -/
theorem readableBits_fresh {u : State} (hc : u.src.cnt = 0) (hp : u.inPos = 0) (hq : quietIn u) :
    readableBits u = streamBits u.inp := by
  simp [readableBits, readableBytes, readsBeforeFailure_quiet hq, hc, hp, bitsMsb]

/-- PULL_BIT where a bit is left, as an instruction. -/
theorem exec_pullBit_cons {s : State} {b : Bool} {rest : List Bool} (h : readableBits s = b :: rest) :
    ∃ t, exec .pullBit s = .next t ∧ t.res.bit.getLsbD 0 = b ∧ readableBits t = rest ∧ t.stat = s.stat := by
  obtain ⟨t, hpull, hframe, hrest, -⟩ := pullBit_cons s b rest h
  exact ⟨_, exec_pullBit_of_ok hpull, by cases b <;> simp, hrest, hframe.stat_eq⟩

/-- PULL_BITs one after another deliver the bits in front, in order, and none raises. -/
theorem pullBits_one_by_one {bits rest : List Bool} {s : State} (h : readableBits s = bits ++ rest) :
    pulledBits bits.length s = bits ∧
      ∃ t, runProgram (List.replicate bits.length .pullBit) s = .next t ∧ t.stat = s.stat := by
  induction bits generalizing s with
  | nil => exact ⟨rfl, s, rfl, rfl⟩
  | cons b bits ih =>
    obtain ⟨t, hexec, hbit, hrest, hstat⟩ := exec_pullBit_cons h
    obtain ⟨hpulled, u, hrun, hstat'⟩ := ih hrest
    refine ⟨?_, u, ?_, hstat'.trans hstat⟩
    · simp only [List.length_cons, pulledBits, hexec, hbit, hpulled]
    · simp only [List.length_cons, List.replicate_succ, runProgram, hexec, hrun]

end Sys2Proof.Machine

/-! ## The statements

In a namespace of their own, since the model's operations hold the names `pushBit`, `pullBit` and so on. -/

namespace Sys2Proof.Machine.BitLayer

/-- Settles O13: the pushes leave the bits in a sink that takes bits, FLUSH pads them, and a fresh source over the
padded bytes has them in front. -/
theorem bitSinkLaw : Obligations.BitSinkLaw := by
  intro s pushes hpushes hsink hout hquiet
  have hready : sinkReady s := ⟨by rw [hsink], fun j _ => by simp [hsink], hquiet⟩
  have hfresh : sinkBits s = [] := by simp [sinkBits, hsink, hout]
  obtain ⟨t, hrun, hready', hbits, hframe⟩ := runProgram_pushes_appends hpushes hready
  obtain ⟨u, hflush, hstat, hlen, hstream⟩ := flushSink_ready hready'
  rw [hbits, hfresh, List.nil_append] at hlen hstream
  refine ⟨u, ?_, hstat.trans hframe.stat_eq, hlen, hstream, fun v hc hp hinp hq => ?_⟩
  · simp only [runProgram_append hrun, runProgram, exec_flush, hflush, finish_ok]
  · exact pullBits_one_by_one ((readableBits_fresh hc hp hq).trans (hinp ▸ hstream))

/-- Settles O9, by the single pushes that PUSH_BITS is. -/
theorem pushBits : Obligations.PushBits := by
  intro s value n
  refine ⟨fun hn => ?_, fun hn => ?_⟩
  · rw [exec_pushBits, pushBits_above _ _ hn, finish_raise]
  · rw [exec_pushBits_eq_pushEach value s hn]
    exact ⟨rfl, pushEach_appends _⟩

/-- Settles O12, by what n pulls give when n bits are left and when fewer are. -/
theorem pullBits : Obligations.PullBits := by
  intro s n
  refine ⟨fun hn => ?tooMany, fun hn hbits => ?delivered, fun hn hbits => ?short⟩
  case tooMany => exact exec_pullBits_of_err (if_pos hn)
  case delivered =>
    obtain ⟨t, hread, hframe, hrest, -⟩ := readField_leaves n s hn hbits
    exact ⟨t, hframe, hrest, hframe.res_eq ▸ exec_pullBits_of_ok hread⟩
  case short =>
    obtain ⟨t, hread, hend⟩ := readField_exhausted n s hn hbits
    exact ⟨t, hend, exec_pullBits_of_err hread⟩

/-- Settles O8: the bit's place in S_ACC is `assignBit`'s, and each path is one equation of PUSH_BIT. -/
theorem pushBit : Obligations.PushBit := by
  intro s b
  refine ⟨fun hf => ?_, fun hf => ⟨assignBit s.sink.acc (7 - s.sink.cnt.toNat) (b.getLsbD 0),
    fun j hj => getLsbD_assignBit _ _ _ _ hj, fun hc => ?_, fun hc ho => ?_, fun hc ho => ?_⟩⟩
  · rw [exec_pushBit, pushBit_flushed _ hf, finish_raise]
  · rw [exec_pushBit, pushBit_room _ hf hc, finish_ok]
  · rw [exec_pushBit, pushBit_full_fails _ hf hc ho, finish_raise]
  · rw [exec_pushBit, pushBit_full_writes _ hf hc ho, finish_ok]

/-- Settles O10, by the paths of FLUSH. -/
theorem flush : Obligations.Flush := by
  intro s
  refine ⟨fun hf => ?_, fun hf hc => ?_, fun hf hc ho => ?_, fun hf hc ho => ?_⟩
  · rw [exec_flush, flushSink_flushed hf, finish_raise]
  · rw [exec_flush, flushSink_aligned hf hc, finish_ok]
  · rw [exec_flush, flushSink_partial_fails hf hc ho, finish_raise]
  · rw [exec_flush, flushSink_partial_writes hf hc ho, finish_ok]

/-- Settles O11, by the paths of PULL_BIT. -/
theorem pullBit : Obligations.PullBit := fun _ =>
  ⟨fun hc => exec_pullBit_of_ok (pullBit_buffered hc),
    fun hc hi => exec_pullBit_of_err (pullBit_fails hc hi),
    fun hc hi hx => exec_pullBit_of_err (pullBit_eof hc hi hx),
    fun _ hc hi hx => exec_pullBit_of_ok (pullBit_fetches hc hi hx)⟩

end Sys2Proof.Machine.BitLayer
end

section
/-! PROOF. The predictor and the selector (42_predictor_selector.md R130 to R142): where the neighbours of a position lie,
and what PREDICT, GET_K and UPDATE leave. -/

namespace Sys2Proof.Machine

/-! ## The neighbours, one equation for each position -/

section
variable {width row col : Nat}

theorem neighbours_first_row (hrow : row = 0) : neighbours width row col = ((0, col - 1), (0, col - 2)) := if_pos hrow

theorem neighbours_one_column (hrow : 1 ≤ row) (hwidth : width = 1) :
    neighbours width row col = ((row - 1, 0), (row - 2, 0)) := by
  rw [neighbours, if_neg (by omega), if_pos hwidth]

theorem neighbours_first_column (hrow : 1 ≤ row) (hwidth : 2 ≤ width) (hcol : col = 0) :
    neighbours width row col = ((row - 1, 0), (row - 1, 1)) := by
  rw [neighbours, if_neg (by omega), if_neg (by omega), if_pos hcol]

theorem neighbours_inner (hrow : 1 ≤ row) (hcol : 1 ≤ col) (hin : col < width) :
    neighbours width row col = ((row - 1, col), (row, col - 1)) := by
  rw [neighbours, if_neg (by omega), if_neg (by omega), if_neg (by omega)]

/-- The positions at which PREDICT is performed: IDX 2 or more is column 2 or more of the first row, row 2 or more of a
one-column image, and everything after the first row of a wider one (R131 to R135). -/
theorem predicted_position_iff (hin : col < width) :
    2 ≤ row * width + col ↔
      (row = 0 ∧ 2 ≤ col) ∨ (2 ≤ row ∧ width = 1) ∨ (1 ≤ row ∧ 2 ≤ width ∧ col = 0) ∨ (1 ≤ row ∧ 1 ≤ col) := by
  cases row with
  | zero => omega
  | succ r =>
    rw [Nat.succ_mul]
    by_cases hwidth : width = 1
    · rw [hwidth]; omega
    · omega

/-- Both neighbours come before the sample in raster order and lie in its row or above (R134). -/
theorem neighbours_precede (hin : col < width) (hidx : 2 ≤ row * width + col) {pos : Nat × Nat}
    (hpos : pos = (neighbours width row col).1 ∨ pos = (neighbours width row col).2) :
    pos.1 ≤ row ∧ pos.2 < width ∧ pos.1 * width + pos.2 < row * width + col := by
  have habove : 1 ≤ row → row * width = (row - 1) * width + width := fun hrow => by
    rw [← Nat.succ_mul, Nat.succ_eq_add_one, Nat.sub_add_cancel hrow]
  rcases (predicted_position_iff hin).1 hidx with
    ⟨hrow, hcol⟩ | ⟨hrow, hwidth⟩ | ⟨hrow, hwidth, hcol⟩ | ⟨hrow, hcol⟩
  · rw [neighbours_first_row hrow] at hpos
    rcases hpos with rfl | rfl <;> dsimp only <;> omega
  · rw [neighbours_one_column (by omega) hwidth] at hpos
    subst hwidth
    rcases hpos with rfl | rfl <;> dsimp only <;> omega
  · rw [neighbours_first_column hrow hwidth hcol] at hpos
    have := habove hrow
    rcases hpos with rfl | rfl <;> dsimp only <;> omega
  · rw [neighbours_inner hrow hcol hin] at hpos
    have := habove hrow
    rcases hpos with rfl | rfl <;> dsimp only <;> omega

end

/-! ## PREDICT, GET_K and UPDATE as instructions -/

/-- PREDICT on the two cells that the position's rule names (R130, R136). -/
theorem exec_predict_of_neighbours {s : State} {posA posB : Nat × Nat} {a b : Int} (hidx : 2 ≤ idx s)
    (hn : neighbours s.hdr.width.toNat s.seq.row.toNat s.seq.col.toNat = (posA, posB))
    (ha : chanRead s.chan s.seq.ch.toNat posA.1 posA.2 = some a)
    (hb : chanRead s.chan s.seq.ch.toNat posB.1 posB.2 = some b) :
    exec .predict s = .next (afterPredict s a b) := by
  have hp : predict s = .ok () (afterPredict s a b) :=
    predict_eq s hidx a b (by rw [hn]; exact ha) (by rw [hn]; exact hb)
  simp [exec, execPredict, hp]

theorem exec_getK_of_le {s : State} {delta : Nat} (h : delta ≤ maxSample s) :
    exec (.getK delta) s = .next { s with dp := { s.dp with k := kFor s delta } } := by
  simp [exec, execGetK, getK_eq delta s h, kFor]

theorem exec_update_of_le {s : State} {delta : Nat} (v : Nat) (h : delta ≤ maxSample s) :
    exec (.update delta v) s =
      .next { s with table := writeRow delta s.table (updatedRow (kset s) (tableRead s.table delta) v) } := by
  simp [exec, execUpdate, updateTable_eq delta v s h]

/-- GET_K's choice on any row: a candidate of least entry, the largest of those that tie (R138). -/
theorem selectK_kset (s : State) (f : Nat → Nat) :
    selectK f (kset s) ∈ kset s ∧ (∀ j ∈ kset s, f (selectK f (kset s)) ≤ f j) ∧
      (∀ j ∈ kset s, f j = f (selectK f (kset s)) → j ≤ selectK f (kset s)) := by
  rcases kset_cases s with ⟨hk, -⟩ | ⟨hk, -⟩
  · rw [hk]; exact selectK_cons f _ _ (by decide)
  · rw [hk]; exact selectK_cons f _ _ (by decide)

/-- A channel is as wide as the image's samples, or one bit wider (10_state.md R12). -/
theorem widthOf_cases (m : Meta) (c : Nat) : widthOf m c = depthBits m ∨ widthOf m c = depthBits m + 1 := by
  by_cases hc : c = 0
  · exact .inl (if_pos hc)
  · exact .inr (if_neg hc)

end Sys2Proof.Machine

/-! ## The statements

In a namespace of their own, since the model's operations hold the names `predict` and `getK`. -/

namespace Sys2Proof.Machine.Selector

/-- Settles O20: each position is a predicted one, and its equation of `neighbours` names the two cells. -/
theorem predict : Obligations.Predict := by
  intro s ra ca rb cb a b hin hpos ha hb
  have hidx := (predicted_position_iff (row := s.seq.row.toNat) hin).2
  rcases hpos with ⟨hrow, hcol, rfl, rfl, rfl, rfl⟩ | ⟨hrow, hcol, hwidth, rfl, rfl, rfl, rfl⟩ |
    ⟨hrow, hcol, rfl, rfl, rfl, rfl⟩ | ⟨hwidth, hrow, rfl, rfl, rfl, rfl⟩
  · exact exec_predict_of_neighbours (hidx (by omega)) (neighbours_first_row hrow) ha hb
  · exact exec_predict_of_neighbours (hidx (by omega)) (neighbours_first_column hrow hwidth hcol) ha hb
  · exact exec_predict_of_neighbours (hidx (by omega)) (neighbours_inner hrow hcol hin) ha hb
  · exact exec_predict_of_neighbours (hidx (by omega)) (neighbours_one_column (by omega) hwidth) ha hb

/-- Settles O21: both neighbours precede the sample, so the premise has both cells written. -/
theorem predictReadsWrittenCells : Obligations.PredictReadsWrittenCells := by
  intro s ⟨_, hrow, hcol⟩ hidx hwritten
  have hbefore : ∀ pos, pos = (neighbours s.hdr.width.toNat s.seq.row.toNat s.seq.col.toNat).1 ∨
      pos = (neighbours s.hdr.width.toNat s.seq.row.toNat s.seq.col.toNat).2 →
      pos.1 < s.hdr.height.toNat ∧ pos.2 < s.hdr.width.toNat ∧ pos.1 * s.hdr.width.toNat + pos.2 < idx s := by
    intro pos hpos
    obtain ⟨hup, hleft, hearlier⟩ := neighbours_precede hcol hidx hpos
    exact ⟨hup.trans_lt hrow, hleft, hearlier⟩
  obtain ⟨hrowA, hcolA, hearlierA⟩ := hbefore _ (.inl rfl)
  obtain ⟨hrowB, hcolB, hearlierB⟩ := hbefore _ (.inr rfl)
  obtain ⟨a, ha⟩ := Option.isSome_iff_exists.1 (hwritten _ _ hrowA hcolA hearlierA)
  obtain ⟨b, hb⟩ := Option.isSome_iff_exists.1 (hwritten _ _ hrowB hcolB hearlierB)
  exact ⟨hbefore, a, b, exec_predict_of_neighbours hidx rfl ha hb⟩

/-- Settles O23, by what GET_K chooses from a row. -/
theorem getK : Obligations.GetK := by
  intro s delta hdelta
  obtain ⟨hmem, hleast, hlargest⟩ := selectK_kset s (tableRead s.table delta)
  exact ⟨kFor s delta, hmem, hleast, hlargest, exec_getK_of_le hdelta⟩

/-- Settles O24: each clause is one branch of `tableRead_updated`, the halving decided by the whole row. -/
theorem update : Obligations.Update := by
  intro s delta v hdelta hwf
  have hread := tableRead_updated s hwf delta v
  refine ⟨_, exec_update_of_le v hdelta, tableWf_writeRow _ hwf _ _, ?added, ?halved, ?kept⟩
  case added =>
    rintro ⟨j, hj, hlow⟩ k hk
    rw [hread delta k (kset_lt s k hk), if_pos ⟨rfl, hk⟩, if_neg fun hall => hlow.not_ge (hall j hj)]
  case halved =>
    intro hall k hk
    rw [hread delta k (kset_lt s k hk), if_pos ⟨rfl, hk⟩, if_pos hall]
  case kept =>
    intro d k hk hother
    rw [hread d k hk, if_neg (by tauto)]

/-- Settles O22: the channel widths 8 and 9 share one K-set, and 16 and 17 the other. -/
theorem channelKSets : Obligations.ChannelKSets := by
  intro m c
  refine ⟨fun hdepth => ?eight, fun hdepth => ?sixteen⟩
  case eight =>
    have hd : depthBits m = 8 := if_pos hdepth
    rcases widthOf_cases m c with hw | hw
    · rw [hw, hd]; rfl
    · rw [hw, hd]; rfl
  case sixteen =>
    have hd : depthBits m = 16 := if_neg (by rw [hdepth]; decide)
    rcases widthOf_cases m c with hw | hw
    · rw [hw, hd]; rfl
    · rw [hw, hd]; rfl

end Sys2Proof.Machine.Selector
end

section
/-! PROOF. The colour transform (43_color_transform.md R151 to R155): the forward transform in closed form, its ranges,
and the inverse that undoes its lifting steps. -/

namespace Sys2Proof.Machine

/-! ## YCOCG_FWD and YCOCG_INV as instructions -/

theorem exec_ycocgFwd (r g b : Int) (s : State) :
    exec (.ycocgFwd r g b) s =
      .next { s with res :=
        { s.res with
          y := (ycocgForward r g b).1, co := (ycocgForward r g b).2.1, cg := (ycocgForward r g b).2.2 } } :=
  rfl

theorem exec_ycocgInv (y co cg : Int) (s : State) :
    exec (.ycocgInv y co cg) s =
      .next { s with res :=
        { s.res with
          r := (ycocgInverse y co cg).1, g := (ycocgInverse y co cg).2.1, b := (ycocgInverse y co cg).2.2 } } :=
  rfl

/-- What a YCOCG_FWD that has completed left in the result registers. -/
theorem ycocgForward_of_exec {r g b : Int} {s t : State} (h : exec (.ycocgFwd r g b) s = .next t) :
    ycocgForward r g b = (t.res.y, t.res.co, t.res.cg) := by
  rw [exec_ycocgFwd] at h
  cases h
  rfl

/-! ## The transform of one pixel -/

section
variable {r g b y co cg n : Int}

/-- What a lifting step makes, a value plus half of another's distance from it, is the floored mean of the
two (R151). -/
theorem lift_eq_mean (x z : Int) : z + (x - z) / 2 = (x + z) / 2 := by omega

/-- Both lifting steps are floored means: `t` of R and B, then Y of G and `t` (R151). -/
theorem ycocgForward_eq (r g b : Int) :
    ycocgForward r g b = ((g + (r + b) / 2) / 2, r - b, g - (r + b) / 2) := by
  simp only [ycocgForward, lift_eq_mean]

/-- Components in `[0, n]` have Y in `[0, n]` and Co, Cg in `[-n, n]` (R153), since a mean stays between
its two values. -/
theorem ycocgForward_range (hr : 0 ≤ r ∧ r ≤ n) (hg : 0 ≤ g ∧ g ≤ n) (hb : 0 ≤ b ∧ b ≤ n)
    (h : ycocgForward r g b = (y, co, cg)) : (0 ≤ y ∧ y ≤ n) ∧ (-n ≤ co ∧ co ≤ n) ∧ (-n ≤ cg ∧ cg ≤ n) := by
  rw [ycocgForward_eq] at h
  cases h
  have ht : 0 ≤ (r + b) / 2 ∧ (r + b) / 2 ≤ n := by omega
  omega

/-- Each step of the inverse takes back what the same step of the forward transform added (R155). -/
theorem ycocgInverse_of_ycocgForward (h : ycocgForward r g b = (y, co, cg)) : ycocgInverse y co cg = (r, g, b) := by
  cases h
  simp only [ycocgInverse, add_sub_cancel_right, sub_add_cancel, add_sub_cancel]

/-- A corner of the box that no pixel reaches (R155): its only preimage has B above `n`. -/
theorem ycocgForward_ne_corner (hn : 0 < n) (hb : b ≤ n) : ycocgForward r g b ≠ (n, 0, -n) := by
  intro h
  have hinv : ycocgInverse n 0 (-n) = (r, g, b) := ycocgInverse_of_ycocgForward h
  cases hinv
  omega

end

end Sys2Proof.Machine

/-! ## The statements

In a namespace of their own, since the model's functions hold the names `ycocgForward` and `ycocgInverse`. -/

namespace Sys2Proof.Machine.Colour

/-- Settles O27: the assignments are the model's, and `t` and Y are means, which bounds every result. -/
theorem ycocgForward : Obligations.YcocgForward := by
  refine ⟨fun s r g b => ⟨exec_ycocgFwd r g b s, lift_eq_mean r b, lift_eq_mean g _⟩, ?range, rfl, rfl, rfl, rfl⟩
  case range =>
    intro d r g b s t _ hr hr' hg hg' hb hb' hexec
    obtain ⟨⟨hy, hy'⟩, ⟨hco, hco'⟩, hcg, hcg'⟩ :=
      ycocgForward_range ⟨hr, hr'⟩ ⟨hg, hg'⟩ ⟨hb, hb'⟩ (ycocgForward_of_exec hexec)
    exact ⟨hy, hy', by omega, hco', by omega, hcg'⟩

/-- Settles O28: the inverse of what YCOCG_FWD left is the pixel, and the corner `(2^d - 1, 0, -2^d + 1)` of the box is
no pixel's transform. -/
theorem ycocgInverse : Obligations.YcocgInverse := by
  refine ⟨fun s y co cg => exec_ycocgInv y co cg s, ?roundTrip, ?notOnto⟩
  case roundTrip =>
    intro s t r g b hexec
    have hinv := ycocgInverse_of_ycocgForward (ycocgForward_of_exec hexec)
    refine ⟨_, exec_ycocgInv _ _ _ t, ?_⟩
    rw [hinv]
    exact ⟨rfl, rfl, rfl⟩
  case notOnto =>
    intro d hd
    have hpow : (1 : Int) < 2 ^ d := one_lt_pow₀ one_lt_two (by omega)
    refine ⟨2 ^ d - 1, 0, -(2 ^ d - 1), by omega, le_rfl, by omega, by omega, by omega, by omega, ?_⟩
    intro r g b _ _ _ _ _ hb
    exact ycocgForward_ne_corner (by omega) hb

end Sys2Proof.Machine.Colour
end

section
/-! PROOF. Readings of known bits (40_bitio.md R94, 41_codes.md R112 to R121): what the bit source gives where a field, a
Rice codeword or a phased-in codeword stands in front. -/

namespace Sys2Proof

/-! ## Codewords (41_codes.md R116 to R119) -/

theorem bitsMsb_succ_eq_append (v n : Nat) : bitsMsb v (n + 1) = bitsMsb (v / 2) n ++ [decide (v % 2 = 1)] := by
  induction n with
  | zero => simp [bitsMsb, Nat.testBit_zero]
  | succ n ih =>
    rw [bitsMsb, ih, bitsMsb, Nat.testBit_succ]
    rfl

/-- A codeword is a short word below `|B|`, or a long one from `2|B|` on (R118). -/
theorem phasedCodeword_cases {n v : Nat} (hv : v < n) :
    (∃ x, phasedCodeword n v = .short x ∧ x < shortCount n) ∨
      ∃ y, phasedCodeword n v = .long y ∧ 2 * shortCount n ≤ y ∧ y < 2 ^ (phasedM n + 1) := by
  obtain ⟨-, -, hparts, -, htotal⟩ := shortCount_bounds n (by omega)
  have hrot : (v + longCount n / 2) % n < n := Nat.mod_lt _ (by omega)
  by_cases hlong : (v + longCount n / 2) % n < longCount n
  · exact .inr ⟨_, if_pos hlong, by omega, by omega⟩
  · exact .inl ⟨_, if_neg hlong, by omega⟩

/-- With one value in the alphabet the codeword is empty (R116, 30_encoding.md R66). -/
theorem codewordBits_one {v : Nat} (hv : v < 1) : codewordBits 1 (phasedCodeword 1 v) = [] := by
  have hm : phasedM 1 = 0 := by decide
  have hshort : shortCount 1 = 1 := by decide
  rcases phasedCodeword_cases hv with ⟨x, hcw, -⟩ | ⟨y, -, hlow, hhigh⟩
  · rw [hcw, codewordBits, hm, bitsMsb]
  · rw [hshort] at hlow
    rw [hm] at hhigh
    omega

theorem phasedM_le_of_le {n w : Nat} (hn : 1 ≤ n) (h : n ≤ 2 ^ w) : phasedM n ≤ w :=
  (Nat.pow_le_pow_iff_right one_lt_two).1 ((phasedM_le n hn).trans h)

end Sys2Proof

namespace Sys2Proof.Machine

/-! ## Readings that meet known bits -/

section
variable {s : State} {rest : List Bool}

theorem leaves.frame {t : State} (h : leaves s t rest) : sameButSource s t := h.1

theorem leaves.readable {t : State} (h : leaves s t rest) : readableBits t = rest := h.2.1

/-- A field of at most 64 bits (40_bitio.md R94). -/
theorem readField_bits {bits : List Bool} (hlen : bits.length ≤ 64) (h : readableBits s = bits ++ rest) :
    ∃ t, readField pullBit bits.length s = .ok (ofBits bits) t ∧ leaves s t rest := by
  have hread := readField_leaves bits.length s hlen (by simp [h])
  rwa [h, List.take_left, List.drop_left] at hread

/-- K = 0 needs no case of its own: a field of no bits is 0 (41_codes.md R112). -/
theorem readRicePair_eq (k w : Nat) (s : State) :
    readRicePair pullBit k w s =
      (countZeros pullBit (qmax w k) 0 s).bind fun q s => (readField pullBit k s).bind fun r s => .ok (q, r) s := by
  cases k with
  | zero => rfl
  | succ k => rfl

/-- A Rice codeword whose quotient is within QMAX (R112, R113). -/
theorem readRice_bits {k w q : Nat} {rem : List Bool} (hk : k ≤ 64) (hq : q ≤ qmax w k) (hrem : rem.length = k)
    (h : readableBits s = List.replicate q false ++ true :: (rem ++ rest)) :
    ∃ t, readRice pullBit k w s = .ok (q * 2 ^ k + ofBits rem) t ∧ leaves s t rest := by
  subst hrem
  obtain ⟨t, hzeros, hmid⟩ := countZeros_leaves _ 0 q s (rem ++ rest) hq h
  obtain ⟨u, hfield, hleft⟩ := readField_bits hk hmid.readable
  refine ⟨u, ?_, hmid.trans hleft⟩
  simp only [readRice, readRicePair_eq, hzeros, hfield, Read.bind_ok, riceValue, Nat.zero_add]

/-- A word below `|B|` is read as a short codeword (R119). -/
theorem readCodeword_short {n x : Nat} (hn : 1 ≤ n) (hm : phasedM n ≤ 64) (hx : x < shortCount n)
    (h : readableBits s = bitsMsb x (phasedM n) ++ rest) :
    ∃ t, readCodeword pullBit n s = .ok (.short x) t ∧ leaves s t rest := by
  obtain ⟨t, hfield, hleft⟩ := readField_bits (by simpa using hm) h
  have hlt : x < 2 ^ phasedM n := hx.trans_le (shortCount_bounds n hn).2.1
  rw [bitsMsb_length, ofBits_bitsMsb, Nat.mod_eq_of_lt hlt] at hfield
  exact ⟨t, by simp only [readCodeword, hfield, Read.bind_ok, if_pos hx], hleft⟩

/-- A word whose first m bits give `|B|` or more takes one bit more (R119). -/
theorem readCodeword_long {n y : Nat} (hm : phasedM n ≤ 64) (hlow : 2 * shortCount n ≤ y)
    (hhigh : y < 2 ^ (phasedM n + 1)) (h : readableBits s = bitsMsb y (phasedM n + 1) ++ rest) :
    ∃ t, readCodeword pullBit n s = .ok (.long y) t ∧ leaves s t rest := by
  rw [bitsMsb_succ_eq_append, List.append_assoc] at h
  obtain ⟨t, hfield, hmid⟩ := readField_bits (by simpa using hm) h
  rw [bitsMsb_length, ofBits_bitsMsb, Nat.mod_eq_of_lt (by rw [pow_succ] at hhigh; omega)] at hfield
  obtain ⟨u, hbit, hleft⟩ := pullBit_cons t _ rest hmid.readable
  have hy : 2 * (y / 2) + (decide (y % 2 = 1)).toNat = y := by
    rcases Nat.mod_two_eq_zero_or_one y with hy | hy
    · simp [hy]; omega
    · simp [hy]; omega
  refine ⟨u, ?_, hmid.trans hleft⟩
  simp only [readCodeword, hfield, hbit, Read.bind_ok, if_neg (show ¬ y / 2 < shortCount n by omega), hy]

/-- PHASED_DEC's reading of the codeword of v is v (R119, R121). -/
theorem readPhased_codeword {n v : Nat} (hv : v < n) (hm : phasedM n ≤ 64)
    (h : readableBits s = codewordBits n (phasedCodeword n v) ++ rest) :
    ∃ t, readPhased pullBit n s = .ok v t ∧ leaves s t rest := by
  have hword : ∃ t, readCodeword pullBit n s = .ok (phasedCodeword n v) t ∧ leaves s t rest := by
    rcases phasedCodeword_cases hv with ⟨x, hcw, hx⟩ | ⟨y, hcw, hlow, hhigh⟩
    · rw [hcw] at h ⊢; exact readCodeword_short (by omega) hm hx h
    · rw [hcw] at h ⊢; exact readCodeword_long hm hlow hhigh h
  obtain ⟨t, hread, hleft⟩ := hword
  exact ⟨t, by simp only [readPhased, hread, Read.bind_ok, codewordIndex_phasedCodeword n v hv], hleft⟩

end

end Sys2Proof.Machine
end

section
/-! PROOF. The channel coder, one side at a time (44_channel_coder.md R160 to R169): what ENC_SAMPLE pushes for each kind of
sample, and what DEC_SAMPLE makes of such bits. -/

namespace Sys2Proof.Machine

/-! ## The bounds of a channel's samples (10_state.md R12, R21) -/

section
variable {s : State} {a b : Int}

theorem chanWidth_le (s : State) : chanWidth s ≤ 17 := by
  rcases kset_cases s with ⟨-, h | h⟩ | ⟨-, h | h⟩ <;> omega

theorem kFor_le (s : State) (delta : Nat) : kFor s delta ≤ 64 :=
  (kset_lt s _ (selectK_kset s (tableRead s.table delta)).1).le.trans (by decide)

/-- The context of two values of the channel is a row of T (R143). -/
theorem deltaOf_le (ha : codedValue s a) (hb : codedValue s b) : deltaOf a b ≤ maxSample s := by
  unfold deltaOf
  omega

/-- The alphabet of a row of T has codewords that PUSH_BITS and PULL_BITS can move (log entry 21). -/
theorem phasedM_lt_of_row {delta : Nat} (h : delta ≤ maxSample s) : phasedM (delta + 1) < 64 := by
  have hpow : 0 < 2 ^ chanWidth s := Nat.two_pow_pos _
  have hle : phasedM (delta + 1) ≤ chanWidth s := phasedM_le_of_le (by omega) (by unfold maxSample at h; omega)
  have := chanWidth_le s
  omega

/-- The values of a channel are the numbers of w(CH) bits (10_state.md R12). -/
theorem codedValue_natCast {v : Nat} : codedValue s (v : Int) ↔ v < 2 ^ chanWidth s := by
  have hpow : 0 < 2 ^ chanWidth s := Nat.two_pow_pos _
  unfold codedValue maxSample
  omega

/-- Any w(CH) bits are a value of the channel (R166). -/
theorem codedValue_ofBits {bits : List Bool} (h : bits.length ≤ chanWidth s) : codedValue s (ofBits bits : Nat) :=
  codedValue_natCast.2 ((ofBits_lt bits).trans_le (Nat.pow_le_pow_right two_pos h))

end

/-! ## PREDICT and UPDATE on a sample in progress -/

/-- What UPDATE makes of T for a context of T and a magnitude (42_predictor_selector.md R139). -/
def tableAfter (s : State) (delta v : Nat) : List (Nat × Nat) :=
  writeRow delta s.table (updatedRow (kset s) (tableRead s.table delta) v)

theorem updateTable_tableAfter {s : State} {delta : Nat} (v : Nat) (h : delta ≤ maxSample s) :
    updateTable delta v s = .ok () { s with table := tableAfter s delta v } := updateTable_eq delta v s h

theorem exec_update_tableAfter {s : State} {delta : Nat} (v : Nat) (h : delta ≤ maxSample s) :
    exec (.update delta v) s = .next { s with table := tableAfter s delta v } := exec_update_of_le v h

theorem getK_kFor {s : State} {delta : Nat} (h : delta ≤ maxSample s) :
    getK delta s = .ok (kFor s delta) { s with dp := { s.dp with k := kFor s delta } } := getK_eq delta s h

theorem predict_of_neighboursHold {s : State} {a b : Int} (h : neighboursHold s a b) :
    predict s = .ok () (afterPredict s a b) := predict_eq s h.1 a b h.2.1 h.2.2

/-! ## Pushing and pulling keep the datapath, and do not go by it -/

theorem sameButSink.dp_eq {s t : State} (h : sameButSink s t) : t.dp = s.dp := by rw [h, withSink_dp]

theorem sameButSource.dp_eq {s t : State} (h : sameButSource s t) : t.dp = s.dp := by rw [h, withSource_dp]

theorem sameButSink.setDp {s t : State} (h : sameButSink s t) (dp : Datapath) :
    sameButSink { s with dp := dp } { t with dp := dp } := by
  rw [h]
  rfl

theorem sameButSource.setDp {s t : State} (h : sameButSource s t) (dp : Datapath) :
    sameButSource { s with dp := dp } { t with dp := dp } := by
  rw [h]
  rfl

/-! ## The encoder's side of a sample -/

section
variable {s : State} {p a b : Int} {v : Nat}

/-- The marker 1 and the phased-in codeword, on a sink that takes bits (R162). -/
theorem emitIn_ready (hv : v ≤ s.dp.delta) (hrow : s.dp.delta ≤ maxSample s) (hready : sinkReady s) :
    ∃ t, emitIn v s = .ok () t ∧ sinkReady t ∧
      sinkBits t = sinkBits s ++ true :: codewordBits (s.dp.delta + 1) (phasedCodeword (s.dp.delta + 1) v) ∧
      sameButSink s t := by
  obtain ⟨t, hmark, hready', hbits, hframe⟩ := pushBit_ready true s hready
  obtain ⟨u, hword, hready'', hbits', hframe'⟩ :=
    pushList_ready (codewordBits (s.dp.delta + 1) (phasedCodeword (s.dp.delta + 1) v)) t hready'
  refine ⟨u, ?_, hready'', by simp [hbits', hbits], hframe.trans hframe'⟩
  rw [emitIn, hmark, Res.bind_ok, hframe.dp_eq, phasedEnc, if_pos (by omega),
    pushCodeword_eq _ _ _ (phasedM_lt_of_row hrow), hword]

/-- The two markers and the Rice codeword, on a sink that takes bits, and T after them.
GET_K stands before the codeword and UPDATE after it, so the codeword's K is that of the row before (R163, R164). -/
theorem emitOutOfRange_ready (above : Bool) (v : Nat) (hrow : s.dp.delta ≤ maxSample s) (hready : sinkReady s) :
    ∃ t, emitOutOfRange above v s = .ok () { t with table := tableAfter s s.dp.delta v } ∧ sinkReady t ∧
      sinkBits t = sinkBits s ++ ([false, above] ++
        riceBits (kFor s s.dp.delta) (v / 2 ^ kFor s s.dp.delta) (low v (kFor s s.dp.delta))) ∧
      sameButSink { s with dp := { s.dp with k := kFor s s.dp.delta, v := v } } t := by
  obtain ⟨t, hout, hready₁, hbits₁, hframe₁⟩ := pushBit_ready false s hready
  obtain ⟨u, hside, hready₂, hbits₂, hframe₂⟩ := pushBit_ready above t hready₁
  have hframe := hframe₁.trans hframe₂
  obtain ⟨w, hrice, hready₃, hbits₃, hframe₃⟩ := pushList_ready
    (riceBits (kFor s s.dp.delta) (v / 2 ^ kFor s s.dp.delta) (low v (kFor s s.dp.delta)))
    { u with dp := { s.dp with k := kFor s s.dp.delta, v := v } } hready₂
  have hframe' := (hframe.setDp _).trans hframe₃
  have hk : kFor u s.dp.delta = kFor s s.dp.delta := by rw [hframe]; rfl
  have htable : tableAfter w s.dp.delta v = tableAfter s s.dp.delta v := by rw [hframe']; rfl
  have hrow₂ : s.dp.delta ≤ maxSample u := by rw [hframe]; exact hrow
  have hrow₃ : s.dp.delta ≤ maxSample w := by rw [hframe']; exact hrow
  have hbits : sinkBits w = sinkBits u ++ _ := hbits₃
  refine ⟨w, ?_, hready₃, by simp [hbits, hbits₂, hbits₁], hframe'⟩
  simp only [emitOutOfRange, riceEnc, hout, hside, hframe.dp_eq, getK_kFor hrow₂, hk, Res.bind_ok,
    pushRice_eq _ _ _ _ (kFor_le _ _), hrice, hframe'.dp_eq, updateTable_tableAfter v hrow₃, htable]

/-- The range test's first case (R162). -/
theorem emitSymbol_inRange (hlow : s.dp.l ≤ p) (hhigh : p ≤ s.dp.h) : emitSymbol p s = emitIn (p - s.dp.l).toNat s := by
  simp only [emitSymbol, rangeTest, if_pos (And.intro hlow hhigh)]

/-- The other two cases of the range test, told apart by the second marker (R163, R164). -/
theorem emitSymbol_outOfRange {above : Bool} (hle : s.dp.l ≤ s.dp.h)
    (hbelow : above = false → p < s.dp.l ∧ (v : Int) = s.dp.l - p - 1)
    (habove : above = true → s.dp.h < p ∧ (v : Int) = p - s.dp.h - 1) :
    emitSymbol p s = emitOutOfRange above v s := by
  cases above with
  | false =>
    obtain ⟨hp, hv⟩ := hbelow rfl
    simp only [emitSymbol, rangeTest, if_neg (show ¬ (s.dp.l ≤ p ∧ p ≤ s.dp.h) by omega), if_pos hp, ← hv,
      Int.toNat_natCast]
  | true =>
    obtain ⟨hp, hv⟩ := habove rfl
    simp only [emitSymbol, rangeTest, if_neg (show ¬ (s.dp.l ≤ p ∧ p ≤ s.dp.h) by omega),
      if_neg (show ¬ p < s.dp.l by omega), ← hv, Int.toNat_natCast]

/-- ENC_SAMPLE of a verbatim sample pushes its w(CH) bits (R161). -/
theorem exec_encSample_verbatim {p : Nat} (hidx : idx s < 2) (hcell : currentCell s = some (p : Int))
    (hp : p < 2 ^ chanWidth s) (hready : sinkReady s) :
    ∃ u, exec .encSample s = .next (advance u) ∧ sinkReady u ∧
      sinkBits u = sinkBits s ++ bitsMsb p (chanWidth s) ∧ sameButSink { s with dp := { s.dp with p := p } } u := by
  obtain ⟨u, hpush, hready', hbits, hframe⟩ :=
    pushList_ready (bitsMsb p (chanWidth s)) { s with dp := { s.dp with p := p } } hready
  have hwidth : chanWidth s ≤ 64 := (chanWidth_le s).trans (by decide)
  have hlow : ((p : Int) % 2 ^ chanWidth s).toNat = p := by
    rw [Int.emod_eq_of_lt (Int.natCast_nonneg p) (by exact_mod_cast hp), Int.toNat_natCast]
  have hraw : emitRaw p { s with dp := { s.dp with p := p } } = .ok () u := by
    rw [← hpush, ← pushBits_eq _ _ _ hwidth]
    exact congrArg (fun value => pushBits value (chanWidth s) _) hlow
  refine ⟨u, ?_, hready', hbits, hframe⟩
  have hidx' : idx { s with dp := { s.dp with p := p } } < 2 := hidx
  unfold currentCell at hcell
  simp only [exec, execEncSample, encodeSample, hcell, if_pos hidx', hraw, Res.bind_ok, finish_ok]

/-- ENC_SAMPLE of a predicted sample is its symbol's emission, then the advance (R165). -/
theorem exec_encSample_of_symbol {u : State} (hn : neighboursHold s a b) (hcell : currentCell s = some p)
    (hsymbol : emitSymbol p (afterPredict { s with dp := { s.dp with p := p } } a b) = .ok () u) :
    exec .encSample s = .next (advance u) := by
  have hidx : ¬ idx { s with dp := { s.dp with p := p } } < 2 := hn.1.not_gt
  have hpredict : predict { s with dp := { s.dp with p := p } } = _ := predict_of_neighboursHold hn
  unfold currentCell at hcell
  simp only [exec, execEncSample, encodeSample, hcell, if_neg hidx, hpredict, Res.bind_ok, hsymbol, finish_ok]

end

/-! ## The decoder's side of a sample -/

section
variable {s : State} {p a b : Int} {v : Nat} {rest : List Bool}

theorem sampleFits_iff (s : State) (p : Int) : sampleFits (maxSample s) p = true ↔ codedValue s p := decide_eq_true_iff

/-- DEC_SAMPLE of a verbatim sample takes the next w(CH) bits, with nothing to check (R166). -/
theorem exec_decSample_verbatim (hidx : idx s < 2) (hbits : chanWidth s ≤ (readableBits s).length) :
    ∃ u, exec .decSample s = .next (advance (withSample u (ofBits ((readableBits s).take (chanWidth s)) : Nat))) ∧
      leaves s u ((readableBits s).drop (chanWidth s)) := by
  obtain ⟨u, hfield, hleft⟩ := readField_leaves _ s ((chanWidth_le s).trans (by decide)) hbits
  refine ⟨u, ?_, hleft⟩
  simp only [exec, execDecSample, decodeSample, if_pos hidx, pullBits, hfield, ofRead_ok, Res.bind_ok, finish_ok]
  rfl

/-- A stream that ends inside a verbatim sample raises what the reading ends in (R94, 20_memory.md R44). -/
theorem exec_decSample_verbatim_short (hidx : idx s < 2) (hbits : (readableBits s).length < chanWidth s) :
    ∃ u, exec .decSample s = .next (raiseError (readEnd s) u) ∧ exhausted s u := by
  obtain ⟨u, hfield, hend⟩ := readField_exhausted _ s ((chanWidth_le s).trans (by decide)) hbits
  refine ⟨u, ?_, hend⟩
  simp only [exec, execDecSample, decodeSample, if_pos hidx, pullBits, hfield, ofRead_err, Res.bind_raise, finish_raise]

/-- DEC_SAMPLE of a predicted sample is the decoding of a symbol after PREDICT (R168). -/
theorem exec_decSample_predicted (hn : neighboursHold s a b) :
    exec .decSample s = (takeSymbol (afterPredict s a b)).finish := by
  simp only [exec, execDecSample, decodeSample, if_neg hn.1.not_gt, predict_of_neighboursHold hn, Res.bind_ok]

/-- The marker 1 and the codeword of v give L + v (R167). -/
theorem takeSymbol_inRange (hv : v ≤ s.dp.delta) (hrow : s.dp.delta ≤ maxSample s)
    (hbits : readableBits s =
      true :: (codewordBits (s.dp.delta + 1) (phasedCodeword (s.dp.delta + 1) v) ++ rest)) :
    ∃ t, takeSymbol s = .ok () (advance (withSample t (s.dp.l + v))) ∧ leaves s t rest := by
  obtain ⟨t, hmark, hmid⟩ := pullBit_cons s _ _ hbits
  obtain ⟨u, hword, hleft⟩ := readPhased_codeword (Nat.lt_succ_of_le hv) (phasedM_lt_of_row hrow).le hmid.readable
  refine ⟨u, ?_, hmid.trans hleft⟩
  simp only [takeSymbol, hmark, ofRead_ok, Res.bind_ok, if_true, hmid.frame.dp_eq, phasedDec_pos _ _ (Nat.succ_pos _),
    hword, (hmid.trans hleft).frame.dp_eq]
  rfl

/-- The two markers and a Rice codeword with the K of GET_K give V, and leave P and the rest to the range check (R168). -/
theorem takeSymbol_outOfRange {above : Bool} {q : Nat} {rem : List Bool} (hrow : s.dp.delta ≤ maxSample s)
    (hq : q ≤ qmax (chanWidth s) (kFor s s.dp.delta)) (hrem : rem.length = kFor s s.dp.delta)
    (hv : v = q * 2 ^ kFor s s.dp.delta + ofBits rem)
    (hbits : readableBits s = false :: above :: (List.replicate q false ++ true :: (rem ++ rest))) :
    ∃ t, takeSymbol s = takeOutOfRange above v t ∧ readableBits t = rest ∧
      sameButSource { s with dp := { s.dp with k := kFor s s.dp.delta, v := v } } t := by
  obtain ⟨t, hout, hleft₁⟩ := pullBit_cons s _ _ hbits
  obtain ⟨u, hside, hleft₂⟩ := pullBit_cons t _ _ hleft₁.readable
  have hframe := (hleft₁.trans hleft₂).frame
  have hk : kFor u s.dp.delta = kFor s s.dp.delta := by rw [hframe]; rfl
  have hrow₂ : s.dp.delta ≤ maxSample u := by rw [hframe]; exact hrow
  obtain ⟨w, hrice, hleft₃⟩ := readRice_bits (s := { u with dp := { s.dp with k := kFor s s.dp.delta } })
    (kFor_le s _) hq hrem hleft₂.readable
  rw [← hv] at hrice
  have hwidth : chanWidth { u with dp := { s.dp with k := kFor s s.dp.delta } } = chanWidth s := by rw [hframe]; rfl
  refine ⟨{ w with dp := { s.dp with k := kFor s s.dp.delta, v := v } }, ?_, hleft₃.readable,
    (hframe.setDp _).trans (hleft₃.frame.setDp _)⟩
  simp only [takeSymbol, riceDec, hout, hside, ofRead_ok, Res.bind_ok, Bool.false_eq_true, if_false, hframe.dp_eq,
    getK_kFor hrow₂, hk, hwidth, hrice, hleft₃.frame.dp_eq]

/-- The value that an out-of-range symbol stands for (R168). -/
theorem takeOutOfRange_fits {above : Bool} (hrow : s.dp.delta ≤ maxSample s)
    (hp : p = if above then s.dp.h + v + 1 else s.dp.l - v - 1) (hfits : codedValue s p) :
    takeOutOfRange above v s =
      .ok () (advance (withSample { s with table := tableAfter s s.dp.delta v } p)) := by
  have hfits' : sampleFits (maxSample { s with dp := { s.dp with p := p } }) p = true := (sampleFits_iff s p).2 hfits
  have hupdate := updateTable_tableAfter (s := { s with dp := { s.dp with p := p } }) v hrow
  simp only [takeOutOfRange, ← hp, hfits', if_true, hupdate, Res.bind_ok]
  rfl

/-- Outside the channel's range the raise comes before UPDATE and before the cell is written (R169). -/
theorem takeOutOfRange_raises {above : Bool}
    (hp : p = if above then s.dp.h + v + 1 else s.dp.l - v - 1) (hout : ¬ codedValue s p) :
    takeOutOfRange above v s = .raise .malformedCodeword { s with dp := { s.dp with p := p } } := by
  subst hp
  exact if_neg fun hfits => hout ((sampleFits_iff s _).1 hfits)

end

/-! ## The statements of one side -/

/-- Settles O31: the range test names the symbol, and each symbol's emission is one lemma. -/
theorem encSamplePredicted : Obligations.EncSamplePredicted := by
  refine ⟨fun s a b p hn ha hb hcell hlow hhigh hready => ?inRange,
    fun s a b p above v hn ha hb hcell hbelow habove hready => ?outOfRange⟩
  case inRange =>
    have hv : (p - min a b).toNat ≤ deltaOf a b := by unfold deltaOf; omega
    obtain ⟨u, hemit, hready', hbits, hframe⟩ :=
      emitIn_ready (s := afterPredict { s with dp := { s.dp with p := p } } a b) hv (deltaOf_le ha hb) hready
    exact ⟨u, exec_encSample_of_symbol hn hcell ((emitSymbol_inRange hlow hhigh).trans hemit), hready', hbits, hframe⟩
  case outOfRange =>
    obtain ⟨u, hemit, hready', hbits, hframe⟩ :=
      emitOutOfRange_ready (s := afterPredict { s with dp := { s.dp with p := p } } a b) above v (deltaOf_le ha hb) hready
    refine ⟨_, { u with table := tableAfter s (deltaOf a b) v }, exec_update_tableAfter v (deltaOf_le ha hb),
      exec_encSample_of_symbol hn hcell ((emitSymbol_outOfRange min_le_max hbelow habove).trans hemit), hready', hbits, ?_⟩
    rw [hframe]
    rfl

/-- Settles O32: any w(CH) bits are a value of the channel, and an index of the alphabet lies between L and H. -/
theorem decSampleVerbatimAndInRange : Obligations.DecSampleVerbatimAndInRange := by
  refine ⟨fun s hidx => ⟨fun hbits => ?verbatim, fun hbits => ?short⟩,
    fun s a b v rest hn ha hb hv hbits => ?inRange⟩
  case verbatim =>
    obtain ⟨u, hexec, hframe, hrest, -⟩ := exec_decSample_verbatim hidx hbits
    exact ⟨u, hframe, hrest, codedValue_ofBits (by simp), hexec⟩
  case short =>
    obtain ⟨u, hexec, hend⟩ := exec_decSample_verbatim_short hidx hbits
    exact ⟨u, hend, hexec⟩
  case inRange =>
    obtain ⟨u, htake, hframe, hrest, -⟩ := takeSymbol_inRange (s := afterPredict s a b) hv (deltaOf_le ha hb) hbits
    refine ⟨u, hframe, hrest, ?_, by unfold deltaOf at hv; omega, fun hzero => ?_⟩
    · rw [exec_decSample_predicted hn, htake, finish_ok]
      rfl
    · rw [hzero] at hv ⊢
      exact codewordBits_one (Nat.lt_succ_of_le hv)

/-- Settles O33, by the range check on what the symbol stands for. -/
theorem decSampleOutOfRange : Obligations.DecSampleOutOfRange := by
  intro s a b p above q v rem rest hn ha hb hq hrem hv hp hbits
  obtain ⟨t, htake, hrest, hframe⟩ :=
    takeSymbol_outOfRange (s := afterPredict s a b) (deltaOf_le ha hb) hq hrem hv hbits
  have hexec : exec .decSample s = (takeOutOfRange above v t).finish := by rw [exec_decSample_predicted hn, htake]
  have hrow : t.dp.delta ≤ maxSample t := by rw [hframe]; exact deltaOf_le ha hb
  have hvalue : p = if above then t.dp.h + v + 1 else t.dp.l - v - 1 := by rw [hframe.dp_eq]; exact hp
  have hcoded : codedValue t p ↔ codedValue s p := by rw [hframe]; rfl
  refine ⟨fun hfits => ?stored, fun hout => ?raised⟩
  case stored =>
    have htable : tableAfter t t.dp.delta v = tableAfter s (deltaOf a b) v := by rw [hframe]; rfl
    refine ⟨_, { t with table := tableAfter s (deltaOf a b) v }, exec_update_tableAfter v (deltaOf_le ha hb), ?_, hrest,
      ?_⟩
    · rw [hframe]
      rfl
    · rw [hexec, takeOutOfRange_fits hrow hvalue (hcoded.2 hfits), htable, finish_ok]
  case raised =>
    refine ⟨{ t with dp := { t.dp with p := p } }, ?_, hrest, ?_⟩
    · rw [hframe]
      rfl
    · rw [hexec, takeOutOfRange_raises hvalue (mt hcoded.1 hout), finish_raise]

end Sys2Proof.Machine
end

section
/-! PROOF. The mirror property (44_channel_coder.md R171): DEC_SAMPLE over the bits that ENC_SAMPLE appended ends where
ENC_SAMPLE ended. -/

namespace Sys2Proof.Machine

/-! ## Two sides in step -/

/-- The two sides hold the same metadata, position and T. -/
structure InStep (e d : State) : Prop where
  hdr : e.hdr = d.hdr
  ch : e.seq.ch = d.seq.ch
  row : e.seq.row = d.seq.row
  col : e.seq.col = d.seq.col
  table : e.table = d.table

section
variable {e d : State}

theorem InStep.idx_eq (h : InStep e d) : idx d = idx e := by simp only [idx, h.hdr, h.row, h.col]

theorem InStep.chanWidth_eq (h : InStep e d) : chanWidth d = chanWidth e := by simp only [chanWidth, h.hdr, h.ch]

theorem InStep.maxSample_eq (h : InStep e d) : maxSample d = maxSample e := by
  simp only [maxSample, h.chanWidth_eq]

theorem InStep.codedValue {x : Int} (h : InStep e d) (hx : Machine.codedValue e x) : Machine.codedValue d x := by
  rwa [Machine.codedValue, h.maxSample_eq]

theorem InStep.kset_eq (h : InStep e d) : kset d = kset e := by simp only [kset, h.chanWidth_eq]

theorem InStep.kFor_eq (h : InStep e d) (delta : Nat) : kFor d delta = kFor e delta := by
  simp only [kFor, h.kset_eq, h.table]

theorem InStep.tableAfter_eq (h : InStep e d) (delta v : Nat) : tableAfter d delta v = tableAfter e delta v := by
  simp only [tableAfter, h.kset_eq, h.table]

/-- The advance goes by the metadata and the position alone (10_state.md R15). -/
theorem InStep.advance (h : InStep e d) : InStep (advance e) (advance d) := by
  obtain ⟨hhdr, hch, hrow, hcol, htable⟩ := h
  unfold Machine.advance
  rw [hhdr, hch, hrow, hcol]
  split_ifs
  · exact ⟨rfl, hch, hrow, rfl, htable⟩
  · exact ⟨rfl, hch, rfl, rfl, htable⟩
  · exact ⟨rfl, rfl, rfl, rfl, rfl⟩
  · exact ⟨rfl, hch, rfl, rfl, htable⟩

end

/-! ## The neighbours of a sample, on both sides -/

/-- The decoder holds the encoder's cells of the channel up to the sample in progress. -/
def SameCellsBefore (e d : State) : Prop :=
  ∀ row col, row < e.hdr.height.toNat → col < e.hdr.width.toNat → row * e.hdr.width.toNat + col < idx e →
    chanRead d.chan e.seq.ch.toNat row col = chanRead e.chan e.seq.ch.toNat row col

section
variable {e d : State} {a b : Int}

/-- A coded cell of the channel in progress holds a value of that channel (R23). -/
theorem codedValue_of_cellCoded {s : State} {row col : Nat} (h : cellCoded s s.seq.ch.toNat row col) :
    ∃ v : Nat, chanRead s.chan s.seq.ch.toNat row col = some (v : Int) ∧ codedValue s v := by
  obtain ⟨v, hread, hlt⟩ := h
  exact ⟨v, hread, codedValue_natCast.2 hlt⟩

/-- The neighbours of a predicted sample of a full channel hold values of the channel (R134, R186). -/
theorem neighboursHold_of_full (hseq : seqInRange e) (hfull : channelsFull e) (hidx : 2 ≤ idx e) :
    ∃ a b, neighboursHold e a b ∧ codedValue e a ∧ codedValue e b := by
  obtain ⟨hch, hrow, hcol⟩ := hseq
  have hcell : ∀ pos, pos = (neighbours e.hdr.width.toNat e.seq.row.toNat e.seq.col.toNat).1 ∨
      pos = (neighbours e.hdr.width.toNat e.seq.row.toNat e.seq.col.toNat).2 →
      ∃ v : Nat, chanRead e.chan e.seq.ch.toNat pos.1 pos.2 = some (v : Int) ∧ codedValue e v := by
    intro pos hpos
    obtain ⟨hup, hleft, -⟩ := neighbours_precede hcol hidx hpos
    exact codedValue_of_cellCoded (hfull _ _ _ hch (hup.trans_lt hrow) hleft)
  obtain ⟨a, ha, hacoded⟩ := hcell _ (.inl rfl)
  obtain ⟨b, hb, hbcoded⟩ := hcell _ (.inr rfl)
  exact ⟨a, b, ⟨hidx, ha, hb⟩, hacoded, hbcoded⟩

/-- A decoder that has the cells before the sample has the same neighbours: both come earlier (R134). -/
theorem InStep.neighboursHold (h : InStep e d) (hseq : seqInRange e) (hcells : SameCellsBefore e d)
    (hn : Machine.neighboursHold e a b) : Machine.neighboursHold d a b := by
  obtain ⟨-, hrow, hcol⟩ := hseq
  obtain ⟨hidx, ha, hb⟩ := hn
  have hsame : ∀ pos, pos = (neighbours e.hdr.width.toNat e.seq.row.toNat e.seq.col.toNat).1 ∨
      pos = (neighbours e.hdr.width.toNat e.seq.row.toNat e.seq.col.toNat).2 →
      chanRead d.chan e.seq.ch.toNat pos.1 pos.2 = chanRead e.chan e.seq.ch.toNat pos.1 pos.2 := by
    intro pos hpos
    obtain ⟨hup, hleft, hearlier⟩ := neighbours_precede hcol hidx hpos
    exact hcells _ _ (hup.trans_lt hrow) hleft hearlier
  refine ⟨h.idx_eq ▸ hidx, ?_, ?_⟩
  · rw [← h.hdr, ← h.ch, ← h.row, ← h.col, hsame _ (.inl rfl), ha]
  · rw [← h.hdr, ← h.ch, ← h.row, ← h.col, hsame _ (.inr rfl), hb]

/-- The Rice codeword that the encoder writes for v is one that the decoder takes: V is v again (R114), and its quotient
is within QMAX where v is a magnitude of the channel. -/
theorem exec_decSample_riceBits {s : State} {p : Int} {above : Bool} {v : Nat} {rest : List Bool}
    (hn : neighboursHold s a b) (ha : codedValue s a) (hb : codedValue s b) (hp : codedValue s p) (hv : v ≤ maxSample s)
    (hvalue : p = if above then max a b + v + 1 else min a b - v - 1)
    (hbits : readableBits s = [false, above] ++
      riceBits (kFor s (deltaOf a b)) (v / 2 ^ kFor s (deltaOf a b)) (low v (kFor s (deltaOf a b))) ++ rest) :
    ∃ w, sameButSource (afterPredict { s with
        dp := { s.dp with k := kFor s (deltaOf a b), v := v }, table := tableAfter s (deltaOf a b) v } a b) w ∧
      readableBits w = rest ∧ exec .decSample s = .next (advance (withSample w p)) := by
  have hv' : v = v / 2 ^ kFor s (deltaOf a b) * 2 ^ kFor s (deltaOf a b) +
      ofBits (bitsMsb (low v (kFor s (deltaOf a b))) (kFor s (deltaOf a b))) := by
    rw [ofBits_bitsMsb, low, Nat.mod_mod, Nat.div_add_mod']
  obtain ⟨hstored, -⟩ := decSampleOutOfRange s a b p above _ v _ rest hn ha hb (Nat.div_le_div_right hv)
    (bitsMsb_length _ _) hv' hvalue (by rw [hbits]; simp [riceBits])
  obtain ⟨r, w, hupdate, hw, hrest, hdec⟩ := hstored hp
  rw [exec_update_tableAfter v (deltaOf_le ha hb)] at hupdate
  cases hupdate
  exact ⟨w, hw, hrest, hdec⟩

/-! ## What the two sides end with -/

/-- The registers that R171 names: PREDICT's, and on an out-of-range sample those of its symbol. -/
structure SameRegisters (x y : Datapath) : Prop where
  a : y.a = x.a
  b : y.b = x.b
  l : y.l = x.l
  h : y.h = x.h
  delta : y.delta = x.delta
  symbol : x.p < x.l ∨ x.h < x.p → y.k = x.k ∧ y.v = x.v

/-- The mirror property of one sample (R171): the conclusion of `Obligations.Mirror` for two given sides. -/
def Mirrors (e d : State) : Prop :=
  ∀ (e' : State) (rest : List Bool), exec .encSample e = .next e' →
    readableBits d = (sinkBits e').drop (sinkBits e).length ++ rest →
    ∃ d', exec .decSample d = .next d' ∧ d'.dp.p = e'.dp.p ∧ (2 ≤ idx e → SameRegisters e'.dp d'.dp) ∧ InStep e' d' ∧
      d'.stat = d.stat ∧ readableBits d' = rest ∧
      chanRead d'.chan e.seq.ch.toNat e.seq.row.toNat e.seq.col.toNat = currentCell e

theorem sinkBits_advance (s : State) : sinkBits (advance s) = sinkBits s := by
  simp only [sinkBits, advance_out, advance_sink]

theorem readableBits_advance (s : State) : readableBits (advance s) = readableBits s := by
  obtain ⟨q, hq | hq⟩ := advance_cases s
  · rw [hq]; rfl
  · rw [hq]; rfl

/-- Both sides change their datapath (to `x` and `y`), T (to `t` and `t'`) and their end of the stream, and then advance.
What is left to show of a kind of sample is its bits, and that its registers and T agree. -/
theorem mirrors_of_sides {u : State} {p : Int} {sym : List Bool} {x y : Datapath} {t t' : List (Nat × Nat)}
    (h : InStep e d) (hwf : cellsWf d.chan = true) (hcell : currentCell e = some p)
    (henc : exec .encSample e = .next (advance u)) (hsym : sinkBits u = sinkBits e ++ sym)
    (hu : sameButSink { e with dp := x, table := t } u)
    (hdec : ∀ rest, readableBits d = sym ++ rest → ∃ w, sameButSource { d with dp := y, table := t' } w ∧
      readableBits w = rest ∧ exec .decSample d = .next (advance (withSample w p)))
    (hp : x.p = p) (hregs : 2 ≤ idx e → SameRegisters x { y with p := p }) (ht : t = t') : Mirrors e d := by
  intro e' rest hexec hbits
  rw [henc] at hexec
  cases hexec
  rw [sinkBits_advance, hsym, List.drop_left] at hbits
  obtain ⟨w, hw, hrest, hdecoded⟩ := hdec rest hbits
  have hudp : u.dp = x := hu.dp_eq
  have hwdp : (withSample w p).dp = { y with p := p } := by rw [hw]; rfl
  refine ⟨_, hdecoded, ?_, fun hidx => ?_, InStep.advance ?_, ?_, ?_, ?_⟩
  · rw [advance_dp, advance_dp, hudp, hwdp, hp]
  · rw [advance_dp, advance_dp, hudp, hwdp]
    exact hregs hidx
  · rw [hu, hw]
    exact ⟨h.hdr, h.ch, h.row, h.col, ht⟩
  · rw [advance_stat, hw]
    rfl
  · rw [readableBits_advance]
    exact hrest
  · have hchan : (withSample w p).chan = chanWrite d.chan d.seq.ch.toNat d.seq.row.toNat d.seq.col.toNat p := by
      rw [hw]; rfl
    rw [advance_chan, hchan, h.ch, h.row, h.col, hcell, chanRead_write _ hwf _ _ _ _ _ _ _ (BitVec.isLt _)
      (BitVec.isLt _) (BitVec.isLt _) (BitVec.isLt _), if_pos ⟨rfl, rfl, rfl⟩]

/-! ## The kinds of sample, and every sample -/

/-- A verbatim sample: both sides move the same w(CH) bits (R161, R166). -/
theorem mirrors_verbatim {p : Nat} (h : InStep e d) (hwf : cellsWf d.chan = true) (hready : sinkReady e)
    (hcell : currentCell e = some (p : Int)) (hp : codedValue e p) (hidx : idx e < 2) : Mirrors e d := by
  have hlt := codedValue_natCast.1 hp
  obtain ⟨u, henc, -, hsym, hu⟩ := exec_encSample_verbatim hidx hcell hlt hready
  refine mirrors_of_sides (x := { e.dp with p := p }) (y := d.dp) (t := e.table) (t' := d.table) h hwf hcell henc hsym hu
    (fun rest hbits => ?_) rfl (fun hpred => absurd hidx hpred.not_gt) h.table
  obtain ⟨w, hdec, hw, hrest, -⟩ := exec_decSample_verbatim (h.idx_eq ▸ hidx) (by simp [hbits, h.chanWidth_eq])
  have hlen : (bitsMsb p (chanWidth e)).length = chanWidth e := bitsMsb_length _ _
  rw [hbits, h.chanWidth_eq, List.drop_left' hlen] at hrest
  rw [hbits, h.chanWidth_eq, List.take_left' hlen, ofBits_bitsMsb, Nat.mod_eq_of_lt hlt] at hdec
  exact ⟨w, hw, hrest, hdec⟩

/-- An in-range sample: the decoder's L + v is the encoder's sample (R162, R167). -/
theorem mirrors_inRange {p : Int} (h : InStep e d) (hwf : cellsWf d.chan = true) (hready : sinkReady e)
    (hcell : currentCell e = some p) (hn : neighboursHold e a b) (hn' : neighboursHold d a b) (ha : codedValue e a)
    (hb : codedValue e b) (hlow : min a b ≤ p) (hhigh : p ≤ max a b) : Mirrors e d := by
  obtain ⟨u, henc, -, hsym, hu⟩ := encSamplePredicted.1 e a b p hn ha hb hcell hlow hhigh hready
  have hv : (p - min a b).toNat ≤ deltaOf a b := by unfold deltaOf; omega
  have hp : min a b + (p - min a b).toNat = p := by omega
  refine mirrors_of_sides (y := (afterPredict d a b).dp) h hwf hcell henc hsym hu (fun rest hbits => ?_) rfl
    (fun _ => ?_) h.table
  · obtain ⟨w, hw, hrest, hdec, -⟩ :=
      decSampleVerbatimAndInRange.2 d a b _ rest hn' (h.codedValue ha) (h.codedValue hb) hv hbits
    rw [hp] at hdec
    exact ⟨w, hw, hrest, hdec⟩
  · exact ⟨rfl, rfl, rfl, rfl, rfl, fun hout => absurd hout (not_or.2 ⟨hlow.not_gt, hhigh.not_gt⟩)⟩

/-- An out-of-range sample: both sides read K off the row before and make the same UPDATE (R163, R164, R168). -/
theorem mirrors_outOfRange {p : Int} {above : Bool} {v : Nat} (h : InStep e d) (hwf : cellsWf d.chan = true)
    (hready : sinkReady e) (hcell : currentCell e = some p) (hn : neighboursHold e a b) (hn' : neighboursHold d a b)
    (ha : codedValue e a) (hb : codedValue e b) (hp : codedValue e p)
    (hvalue : p = if above then max a b + v + 1 else min a b - v - 1) : Mirrors e d := by
  have hbelow : above = false → p < min a b ∧ (v : Int) = min a b - p - 1 := fun hside => by
    rw [hside, if_neg Bool.false_ne_true] at hvalue
    omega
  have habove : above = true → max a b < p ∧ (v : Int) = p - max a b - 1 := fun hside => by
    rw [hside, if_pos rfl] at hvalue
    omega
  have hv : v ≤ maxSample e := by
    cases above with
    | false => have := hbelow rfl; omega
    | true => have := habove rfl; omega
  obtain ⟨r, u, hupdate, henc, -, hsym, hu⟩ := encSamplePredicted.2 e a b p above v hn ha hb hcell hbelow habove hready
  rw [exec_update_tableAfter v (deltaOf_le ha hb)] at hupdate
  cases hupdate
  refine mirrors_of_sides h hwf hcell henc hsym hu (fun rest hbits => exec_decSample_riceBits hn' (h.codedValue ha)
    (h.codedValue hb) (h.codedValue hp) (by rw [h.maxSample_eq]; exact hv) hvalue (by rw [hbits, h.kFor_eq])) rfl
    (fun _ => ?_) (h.tableAfter_eq _ _).symm
  exact ⟨rfl, rfl, rfl, rfl, rfl, fun _ => ⟨h.kFor_eq _, rfl⟩⟩

/-- Every sample is verbatim, in range, below or above (R161 to R164). -/
theorem mirrors_of_inStep (h : InStep e d) (hwf : cellsWf d.chan = true) (hseq : seqInRange e) (hfull : channelsFull e)
    (hready : sinkReady e) (hcells : SameCellsBefore e d) : Mirrors e d := by
  have ⟨hch, hrow, hcol⟩ := hseq
  obtain ⟨p, hcell, hp⟩ := codedValue_of_cellCoded (hfull _ _ _ hch hrow hcol)
  by_cases hidx : idx e < 2
  case pos => exact mirrors_verbatim h hwf hready hcell hp hidx
  case neg =>
    obtain ⟨a, b, hn, ha, hb⟩ := neighboursHold_of_full hseq hfull (not_lt.1 hidx)
    have hn' := h.neighboursHold hseq hcells hn
    rcases lt_or_ge (p : Int) (min a b) with hbelow | hlow
    · exact mirrors_outOfRange (above := false) (v := (min a b - p - 1).toNat) h hwf hready hcell hn hn' ha hb hp
        (by rw [if_neg Bool.false_ne_true]; omega)
    · rcases lt_or_ge (max a b) (p : Int) with habove | hhigh
      · exact mirrors_outOfRange (above := true) (v := (p - max a b - 1).toNat) h hwf hready hcell hn hn' ha hb hp
          (by rw [if_pos rfl]; omega)
      · exact mirrors_inRange h hwf hready hcell hn hn' ha hb hlow hhigh

end

/-- Settles O53: the premises put the two sides in step, and `Mirrors` is what they then end with. -/
theorem mirror : Obligations.Mirror := by
  intro e d e' rest hhdr hch hrow hcol htable hseq _ hwf hfull hready hcells hexec hbits
  have hwf' : cellsWf d.chan = true := (Bool.and_eq_true_iff.1 hwf).1
  have hmirrors := mirrors_of_inStep ⟨hhdr, hch, hrow, hcol, htable⟩ hwf' hseq hfull hready hcells
  obtain ⟨d', hdec, hp, hregs, hstep, hstat, hrest, hcell⟩ := hmirrors e' rest hexec hbits
  refine ⟨d', hdec, hp, fun hidx => ?_, hstep.table.symm, hstep.ch.symm, hstep.row.symm, hstep.col.symm, hstat, hrest,
    hcell⟩
  obtain ⟨ha, hb, hl, hh, hdelta, hsymbol⟩ := hregs hidx
  exact ⟨ha, hb, hl, hh, hdelta, hsymbol⟩

end Sys2Proof.Machine
end

section
/-! PROOF. The header of the stream (45_container.md R181, R183; 30_encoding.md R60): its bits as bytes, WRITE_HEADER, and
PARSE_HEADER on every stream. -/

namespace Sys2Proof

/-! ## Bytes as bits -/

/-- A number's bits, high part first. -/
theorem bitsMsb_add (v m n : Nat) : bitsMsb v (m + n) = bitsMsb (v / 2 ^ n) m ++ bitsMsb v n := by
  induction m with
  | zero => simp [bitsMsb]
  | succ m ih => rw [Nat.succ_add, bitsMsb, ih, bitsMsb, Nat.testBit_div_two_pow, List.cons_append]

/-- One byte cut out of a word. -/
theorem byteBits_shift {n : Nat} (w : BitVec n) (i : Nat) :
    byteBits ((w >>> i).setWidth 8) = bitsMsb (w.toNat / 2 ^ i) 8 := by
  rw [byteBits, BitVec.toNat_setWidth, BitVec.toNat_ushiftRight, Nat.shiftRight_eq_div_pow, bitsMsb_low]

/-- A flag in a byte of its own: its upper seven bits are zero (R181). -/
theorem byteBits_flag (b : BitVec 1) : byteBits (b.setWidth 8) = bitsMsb b.toNat 8 := by
  rw [byteBits, BitVec.toNat_setWidth, bitsMsb_low]

/-- A word's four bytes, "big-endian throughout" (R60). -/
theorem streamBits_word (w : Word32) :
    streamBits ([24, 16, 8, 0].map fun i => (w >>> i).setWidth 8) = bitsMsb w.toNat 32 := by
  have hsplit : bitsMsb w.toNat 32 = bitsMsb (w.toNat / 2 ^ 24) 8 ++ (bitsMsb (w.toNat / 2 ^ 16) 8 ++
      (bitsMsb (w.toNat / 2 ^ 8) 8 ++ bitsMsb (w.toNat / 2 ^ 0) 8)) := by
    rw [bitsMsb_add _ 8 24, bitsMsb_add _ 8 16, bitsMsb_add _ 8 8, pow_zero, Nat.div_one]
  simp only [List.map_cons, List.map_nil, streamBits_cons, streamBits_nil, byteBits_shift, List.append_nil, hsplit]

/-- The bits of the 14 header bytes are those that WRITE_HEADER pushes. -/
theorem streamBits_headerBytes (h : HeaderFields) : streamBits (Machine.headerBytes h) = headerBits h := by
  simp only [Machine.headerBytes, headerBits, Config.magic, streamBits_append, streamBits_word, streamBits_cons,
    streamBits_nil, byteBits_flag, List.append_assoc, List.append_nil]
  rfl

/-- A byte is the number of its bits. -/
theorem ofBits_byteBits (b : Byte) : ofBits (byteBits b) = b.toNat := by
  rw [byteBits, ofBits_bitsMsb, Nat.mod_eq_of_lt b.isLt]

/-- Different byte sequences have different bits. -/
theorem streamBits_injective : Function.Injective streamBits := by
  intro a b h
  have hlen : a.length = b.length := by simpa using congrArg List.length h
  induction a generalizing b with
  | nil => exact (List.length_eq_zero_iff.1 hlen.symm).symm
  | cons x a ih =>
    cases b with
    | nil => cases hlen
    | cons y b =>
      rw [streamBits_cons, streamBits_cons] at h
      obtain ⟨hbyte, hrest⟩ := List.append_inj h (by simp)
      have hxy : x = y := BitVec.eq_of_toNat_eq (by rw [← ofBits_byteBits, hbyte, ofBits_byteBits])
      rw [hxy, ih hrest (Nat.succ.inj hlen)]

end Sys2Proof

namespace Sys2Proof.Machine

/-! ## WRITE_HEADER (R181) -/

/-- Whole bytes pushed into an empty buffer land in OUT. -/
theorem out_of_sinkBits {s t : State} {bytes : List Byte} (hcnt : s.sink.cnt = 0)
    (h : sinkBits t = sinkBits s ++ streamBits bytes) : t.out = s.out ++ bytes ∧ t.sink.cnt = 0 := by
  have hs : sinkBits s = streamBits s.out := by simp [sinkBits, hcnt]
  rw [hs, ← streamBits_append] at h
  have hlt : t.sink.cnt.toNat < 8 := t.sink.cnt.isLt
  have hlen := congrArg List.length h
  simp only [sinkBits, List.length_append, streamBits_length, List.length_take, byteBits_length] at hlen
  have hzero : t.sink.cnt.toNat = 0 := by omega
  rw [sinkBits, hzero, List.take_zero, List.append_nil] at h
  exact ⟨streamBits_injective h, BitVec.eq_of_toNat_eq hzero⟩

end Sys2Proof.Machine

namespace Sys2Proof.Machine.Container

/-- Settles O40: the pushes are those of the header's bits, which are the bits of the 14 bytes. -/
theorem writeHeader : Obligations.WriteHeader := by
  intro s
  have happends : sinkReady s → appends (streamBits (headerBytes s.hdr)) s (exec .writeHeader s) := fun hready => by
    rw [streamBits_headerBytes]
    exact pushList_appends _ s hready
  refine ⟨?pushes, happends, fun hready hcnt => ?bytes⟩
  case pushes =>
    rw [pushEach_eq]
    rfl
  case bytes =>
    obtain ⟨t, hexec, -, hbits, -⟩ := happends hready
    exact ⟨t, hexec, out_of_sinkBits hcnt hbits⟩

end Sys2Proof.Machine.Container
end

section
/-! PROOF. PARSE_HEADER (45_container.md R183): the fields one after another, each tested as soon as it has been read. -/

namespace Sys2Proof

/-! ## The reading of a header, from each of its fields on -/

section
variable {σ : Type} (pull : σ → Read σ Bool)

/-- The two dimensions, tested together after both (92_eei_decisions.md D10). -/
def readDimensions (ct dc : Nat) (s : σ) : Read σ HeaderFields :=
  (readField pull 32 s).bind fun wd s =>
  (readField pull 32 s).bind fun ht s =>
  if wd = 0 ∨ ht = 0 then .err .zeroDimension s else
  .ok ⟨BitVec.ofNat 1 ct, BitVec.ofNat 1 dc, BitVec.ofNat 32 wd, BitVec.ofNat 32 ht⟩ s

/-- The depth byte, then the dimensions. -/
def readFromDepth (ct : Nat) (s : σ) : Read σ HeaderFields :=
  (readField pull 8 s).bind fun dc s =>
  if 1 < dc then .err (.unsupportedDepth (BitVec.ofNat 8 dc)) s else readDimensions pull ct dc s

/-- The colour byte, then the rest. -/
def readFromColor (s : σ) : Read σ HeaderFields :=
  (readField pull 8 s).bind fun ct s =>
  if 1 < ct then .err (.unsupportedColorType (BitVec.ofNat 8 ct)) s else readFromDepth pull ct s

theorem readHeader_eq (s : σ) : readHeader pull s =
    (readField pull 32 s).bind fun sig s =>
      if sig ≠ Config.magicWord then .err .badSignature s else readFromColor pull s := rfl

end

end Sys2Proof

namespace Sys2Proof.Machine

theorem parseHeader_of_ok {s t : State} {h : HeaderFields} (hread : readHeader pullBit s = .ok h t) :
    parseHeader s = .ok () { t with hdr := h } := by
  rw [parseHeader, hread, ofRead_ok, Res.bind_ok]

theorem exec_parseHeader_of_ok {s t : State} {h : HeaderFields} (hread : readHeader pullBit s = .ok h t) :
    exec .parseHeader s = .next { t with hdr := h } := by
  simp only [exec, execParseHeader, parseHeader_of_ok hread, finish_ok]

theorem exec_parseHeader_of_err {s t : State} {e : Err} (hread : readHeader pullBit s = .err e t) :
    exec .parseHeader s = .next (raiseError e t) := by
  simp only [exec, execParseHeader, parseHeader, hread, ofRead_err, Res.bind_raise, finish_raise]

section
variable {s t : State} {α : Type} {bits rest : List Bool} {r : Read State α} {f : Nat → State → Read State α} {k n : Nat}

/-- A reading whose next field stands `k` bits into the stream, where the stream ends inside the field. -/
theorem field_exhausted (hr : r = (readField pullBit n t).bind f) (h : leaves s t (bits.drop k)) (hn : n ≤ 64)
    (hk : k ≤ bits.length) (hlen : bits.length < k + n) : ∃ u, r = .err (readEnd s) u ∧ exhausted s u := by
  obtain ⟨-, hrest, hraise, -⟩ := id h
  obtain ⟨u, hread, hend⟩ := readField_exhausted n t hn (by rw [hrest, List.length_drop]; omega)
  exact ⟨u, by rw [hr, hread, hraise, Read.bind_err], h.exhausted hend⟩

/-- The same where the stream holds the field: the reading goes on with its value. -/
theorem field_read (hr : r = (readField pullBit n t).bind f) (h : leaves s t (bits.drop k)) (hn : n ≤ 64)
    (hlen : k + n ≤ bits.length) :
    ∃ u, r = f (ofBits ((bits.drop k).take n)) u ∧ leaves s u (bits.drop (k + n)) := by
  obtain ⟨u, hread, hleft⟩ := readField_leaves n t hn (by rw [h.readable, List.length_drop]; omega)
  rw [h.readable] at hread hleft
  rw [List.drop_drop] at hleft
  exact ⟨u, by rw [hr, hread, Read.bind_ok], h.trans hleft⟩

/-- A field that carries a number of its width (40_bitio.md R94). -/
theorem readField_number {v : Nat} (hn : n ≤ 64) (hv : v < 2 ^ n) (h : readableBits s = bitsMsb v n ++ rest) :
    ∃ t, readField pullBit n s = .ok v t ∧ leaves s t rest := by
  obtain ⟨t, hread, hleft⟩ := readField_bits (by simpa using hn) h
  rw [bitsMsb_length, ofBits_bitsMsb, Nat.mod_eq_of_lt hv] at hread
  exact ⟨t, hread, hleft⟩

end

/-- The four bytes of the signature as one number (R183). -/
theorem streamBits_magic : streamBits Config.magic = bitsMsb Config.magicWord 32 := by decide

/-- A header with no zero dimension is read back whole (R183, 30_encoding.md R60). -/
theorem readHeader_headerBits {s : State} {h : HeaderFields} {rest : List Bool} (hwidth : h.width ≠ 0)
    (hheight : h.height ≠ 0) (hbits : readableBits s = headerBits h ++ rest) :
    ∃ t, readHeader pullBit s = .ok h t ∧ leaves s t rest := by
  have hflag : ∀ b : BitVec 1, b.toNat < 2 ^ 8 ∧ ¬ 1 < b.toNat := fun b => by have := b.isLt; omega
  have hzero : ∀ w : Word32, w ≠ 0 → w.toNat ≠ 0 := fun w hw e => hw (BitVec.eq_of_toNat_eq e)
  simp only [headerBits, streamBits_magic, List.append_assoc] at hbits
  obtain ⟨t₁, hmagic, hleft₁⟩ := readField_number (by decide) (by decide) hbits
  obtain ⟨t₂, hcolor, hleft₂⟩ := readField_number (by decide) (hflag _).1 hleft₁.readable
  obtain ⟨t₃, hdepth, hleft₃⟩ := readField_number (by decide) (hflag _).1 hleft₂.readable
  obtain ⟨t₄, hw, hleft₄⟩ := readField_number (by decide) h.width.isLt hleft₃.readable
  obtain ⟨t₅, hh, hleft₅⟩ := readField_number (by decide) h.height.isLt hleft₄.readable
  refine ⟨t₅, ?_, hleft₁.trans (hleft₂.trans (hleft₃.trans (hleft₄.trans hleft₅)))⟩
  simp only [readHeader_eq, hmagic, readFromColor, hcolor, readFromDepth, hdepth, readDimensions, hw, hh, Read.bind_ok,
    ne_eq, not_true_eq_false, if_false, if_neg (hflag _).2, if_neg (not_or.2 ⟨hzero _ hwidth, hzero _ hheight⟩),
    BitVec.ofNat_toNat, BitVec.setWidth_eq]

end Sys2Proof.Machine

namespace Sys2Proof.Machine.Container

/-- Settles O41: the reading is followed field by field; `h₀` to `h₃` say what is left of it where a field is next. -/
theorem parseHeader : Obligations.ParseHeader := by
  intro s bits hbits field raises ends
  have hraises : ∀ {e t n}, readHeader Machine.pullBit s = .err e t → leaves s t (bits.drop n) → raises e n :=
    fun hread hleft => ⟨_, hleft.frame, hleft.readable, exec_parseHeader_of_err hread⟩
  have hends : (∃ t, readHeader Machine.pullBit s = .err (readEnd s) t ∧ exhausted s t) → ends :=
    fun ⟨t, hread, hend⟩ => ⟨t, hend, exec_parseHeader_of_err hread⟩
  have h₀ := readHeader_eq Machine.pullBit s
  have hleft₀ : leaves s s (bits.drop 0) := hbits ▸ leaves_refl s
  by_cases h32 : bits.length < 32
  · rw [if_pos h32]
    exact hends (field_exhausted h₀ hleft₀ (by decide) (by omega) (by omega))
  rw [if_neg h32]
  obtain ⟨t₁, h₁, hleft₁⟩ := field_read h₀ hleft₀ (by decide) (by omega)
  by_cases hsig : field 0 32 ≠ 0x464C4353
  · rw [if_pos hsig]
    exact hraises (h₁.trans (if_pos hsig)) hleft₁
  rw [if_neg hsig]
  replace h₁ := h₁.trans (if_neg hsig)
  by_cases h40 : bits.length < 40
  · rw [if_pos h40]
    exact hends (field_exhausted h₁ hleft₁ (by decide) (by omega) (by omega))
  rw [if_neg h40]
  obtain ⟨t₂, h₂, hleft₂⟩ := field_read h₁ hleft₁ (by decide) (by omega)
  by_cases hcolor : 1 < field 32 8
  · rw [if_pos hcolor]
    exact hraises (h₂.trans (if_pos hcolor)) hleft₂
  rw [if_neg hcolor]
  replace h₂ := h₂.trans (if_neg hcolor)
  by_cases h48 : bits.length < 48
  · rw [if_pos h48]
    exact hends (field_exhausted h₂ hleft₂ (by decide) (by omega) (by omega))
  rw [if_neg h48]
  obtain ⟨t₃, h₃, hleft₃⟩ := field_read h₂ hleft₂ (by decide) (by omega)
  by_cases hdepth : 1 < field 40 8
  · rw [if_pos hdepth]
    exact hraises (h₃.trans (if_pos hdepth)) hleft₃
  rw [if_neg hdepth]
  replace h₃ := h₃.trans (if_neg hdepth)
  by_cases h80 : bits.length < 80
  · rw [if_pos (by omega)]
    exact hends (field_exhausted h₃ hleft₃ (by decide) (by omega) (by omega))
  obtain ⟨t₄, h₄, hleft₄⟩ := field_read h₃ hleft₃ (by decide) (by omega)
  by_cases h112 : bits.length < 112
  · rw [if_pos h112]
    exact hends (field_exhausted h₄ hleft₄ (by decide) (by omega) (by omega))
  rw [if_neg h112]
  obtain ⟨t₅, h₅, hleft₅⟩ := field_read h₄ hleft₄ (by decide) (by omega)
  by_cases hzero : field 48 32 = 0 ∨ field 80 32 = 0
  · rw [if_pos hzero]
    exact hraises (h₅.trans (if_pos hzero)) hleft₅
  rw [if_neg hzero]
  exact ⟨t₅, hleft₅.frame, hleft₅.readable, exec_parseHeader_of_ok (h₅.trans (if_neg hzero))⟩

end Sys2Proof.Machine.Container
end

section
/-! PROOF. The HEADER step of COMPRESS (45_container.md R184 to R186): the validation, and what the channel load leaves in
every cell. -/

namespace Sys2Proof.Machine

/-! ## One step of a running command -/

/-- With its turn, the engine makes the running command's next step (10_state.md R14). -/
theorem step_of_turn {s : State} (h : engineTurn s) : step s = engineStep s := by
  obtain ⟨hbusy, hqueue⟩ := h
  have hnone : nextEvent s = none := by
    rcases nextEvent_cases s with ⟨hnone, -⟩ | ⟨e, rest, hcons, -, htakes⟩
    · exact hnone
    · rcases htakes with hidle | htakes
      · exact absurd hbusy hidle
      · exact absurd htakes (by simp [hqueue e rest hcons])
  simp only [step, hnone, hbusy]

/-! ## The cell of a pixel (R186) -/

theorem flag_cases (b : BitVec 1) : b = 0 ∨ b = 1 := by
  revert b
  decide

theorem nch_gray {m : Meta} (h : m.color = 0) : nch m = 1 := if_pos h

theorem nch_rgb {m : Meta} (h : m.color = 1) : nch m = 3 := if_neg (by rw [h]; decide)

theorem nch_le (m : Meta) : nch m ≤ 3 := by
  rcases flag_cases m.color with h | h
  · rw [nch_gray h]; decide
  · rw [nch_rgb h]

theorem nch_pos (m : Meta) : 0 < nch m := by
  unfold nch
  split <;> decide

/-- What the channel load puts into the cell of channel `c` for the pixel of raster index `i`. -/
def pixelCell (s : State) (i c : Nat) : Int :=
  if s.hdr.color = 0 then pixAt s i
  else
    let f := ycocgForward (pixAt s (i * 3)) (pixAt s (i * 3 + 1)) (pixAt s (i * 3 + 2))
    if c = 0 then f.1 else if c = 1 then f.2.1 + chromaOffset s.hdr else f.2.2 + chromaOffset s.hdr

theorem pixelCell_gray {s : State} (h : s.hdr.color = 0) (i c : Nat) : pixelCell s i c = pixAt s i := if_pos h

theorem pixelCell_rgb {s : State} (h : s.hdr.color = 1) (i c : Nat) :
    pixelCell s i c =
      if c = 0 then (ycocgForward (pixAt s (i * 3)) (pixAt s (i * 3 + 1)) (pixAt s (i * 3 + 2))).1
      else if c = 1 then
        (ycocgForward (pixAt s (i * 3)) (pixAt s (i * 3 + 1)) (pixAt s (i * 3 + 2))).2.1 + chromaOffset s.hdr
      else (ycocgForward (pixAt s (i * 3)) (pixAt s (i * 3 + 1)) (pixAt s (i * 3 + 2))).2.2 + chromaOffset s.hdr :=
  if_neg (by rw [h]; decide)

theorem pixelCell_congr {s t : State} (hhdr : t.hdr = s.hdr) (hpix : t.pix = s.pix) (i c : Nat) :
    pixelCell t i c = pixelCell s i c := by
  simp only [pixelCell, pixAt, hhdr, hpix]

/-- The raster index names the position. -/
theorem raster_eq_iff {width row col i : Nat} (hcol : col < width) :
    row * width + col = i ↔ row = i / width ∧ col = i % width := by
  constructor
  · rintro rfl
    rw [Nat.mul_comm, Nat.mul_add_div (by omega), Nat.div_eq_of_lt hcol, Nat.mul_add_mod, Nat.mod_eq_of_lt hcol]
    exact ⟨rfl, rfl⟩
  · rintro ⟨rfl, rfl⟩
    exact Nat.div_add_mod' i width

theorem raster_lt {m : Meta} {row col : Nat} (hrow : row < m.height.toNat) (hcol : col < m.width.toNat) :
    row * m.width.toNat + col < nsamp m := by
  have : (row + 1) * m.width.toNat ≤ m.height.toNat * m.width.toNat := Nat.mul_le_mul_right _ hrow
  rw [nsamp, Nat.mul_comm m.width.toNat]
  rw [Nat.succ_mul] at this
  omega

/-! ## The inputs (R185) -/

theorem inputsValid_iff (s : State) : inputsValid s = true ↔
    s.hdr.width ≠ 0 ∧ s.hdr.height ≠ 0 ∧ s.pix.length = nsamp s.hdr * nch s.hdr ∧
      ∀ x ∈ s.pix, x < 2 ^ depthBits s.hdr := by
  simp only [inputsValid, Bool.and_eq_true, decide_eq_true_eq, List.all_eq_true, and_assoc]

theorem inputsValid_congr {s t : State} (hhdr : t.hdr = s.hdr) (hpix : t.pix = s.pix) :
    inputsValid t = inputsValid s := by
  simp only [inputsValid, hhdr, hpix]

/-- Samples of PIX are numbers of d bits. -/
theorem pixAt_range {s : State} (hvalid : inputsValid s = true) (i : Nat) :
    0 ≤ pixAt s i ∧ pixAt s i ≤ 2 ^ depthBits s.hdr - 1 := by
  obtain ⟨-, -, -, hpix⟩ := (inputsValid_iff s).1 hvalid
  have hlt : s.pix.getD i 0 < 2 ^ depthBits s.hdr := by
    by_cases hi : i < s.pix.length
    · rw [List.getD_eq_getElem _ _ hi]
      exact hpix _ (List.getElem_mem hi)
    · rw [List.getD_eq_default _ _ (by omega)]
      exact Nat.two_pow_pos _
  have : (s.pix.getD i 0 : Int) < 2 ^ depthBits s.hdr := by exact_mod_cast hlt
  unfold pixAt
  omega

/-- Every cell of the load is a value of its channel (R186, 43_color_transform.md R153, R154). -/
theorem pixelCell_range {s : State} (hvalid : inputsValid s = true) (i : Nat) {c : Nat} (hc : c < nch s.hdr) :
    ∃ v : Nat, pixelCell s i c = v ∧ v < 2 ^ widthOf s.hdr c := by
  have hnat : ∀ {x : Int} {n : Nat}, 0 ≤ x → x < 2 ^ n → ∃ v : Nat, x = v ∧ v < 2 ^ n := by
    intro x n hx hlt
    obtain ⟨v, rfl⟩ := Int.eq_ofNat_of_zero_le hx
    exact ⟨v, rfl, by exact_mod_cast hlt⟩
  rcases flag_cases s.hdr.color with hcolor | hcolor
  · rw [nch_gray hcolor] at hc
    obtain ⟨hlow, hhigh⟩ := pixAt_range hvalid i
    rw [pixelCell_gray hcolor, widthOf, if_pos (by omega)]
    exact hnat hlow (by omega)
  · have hpow : (2 : Int) ^ (depthBits s.hdr + 1) = 2 ^ depthBits s.hdr + 2 ^ depthBits s.hdr := by
      rw [pow_succ, mul_two]
    obtain ⟨y, co, cg, hforward⟩ : ∃ y co cg,
        ycocgForward (pixAt s (i * 3)) (pixAt s (i * 3 + 1)) (pixAt s (i * 3 + 2)) = (y, co, cg) := ⟨_, _, _, rfl⟩
    obtain ⟨⟨hy, hy'⟩, ⟨hco, hco'⟩, hcg, hcg'⟩ := ycocgForward_range (pixAt_range hvalid (i * 3))
      (pixAt_range hvalid (i * 3 + 1)) (pixAt_range hvalid (i * 3 + 2)) hforward
    rw [pixelCell_rgb hcolor, hforward, widthOf]
    simp only [chromaOffset]
    split_ifs
    · exact hnat hy (by omega)
    · exact hnat (by omega) (by omega)
    · exact hnat (by omega) (by omega)

/-! ## The channel load, cell by cell (R186) -/

theorem loadPixel_hdr (s : State) (i : Nat) : (loadPixel s i).hdr = s.hdr := by
  obtain ⟨m, h, -⟩ := loadPixel_cases s i
  rw [h]

theorem loadPixel_pix (s : State) (i : Nat) : (loadPixel s i).pix = s.pix := by
  obtain ⟨m, h, -⟩ := loadPixel_cases s i
  rw [h]

theorem loadPixel_wf (s : State) (i : Nat) (hwf : cellsWf s.chan = true) : cellsWf (loadPixel s i).chan = true := by
  obtain ⟨m, h, hm⟩ := loadPixel_cases s i
  rw [h]
  exact hm hwf

section
variable {s : State} {i c row col : Nat}

/-- A pixel's load writes its own cell in each channel and no other. -/
theorem chanRead_loadPixel (hwf : cellsWf s.chan = true) (hi : i < nsamp s.hdr) (hc : c < nch s.hdr)
    (hrow : row < s.hdr.height.toNat) (hcol : col < s.hdr.width.toNat) :
    chanRead (loadPixel s i).chan c row col =
      if row * s.hdr.width.toNat + col = i then some (pixelCell s i c) else chanRead s.chan c row col := by
  have hwidth := s.hdr.width.isLt
  have hheight := s.hdr.height.isLt
  have hr : i / s.hdr.width.toNat < 2 ^ 32 := (Nat.div_lt_of_lt_mul hi).trans hheight
  have hx : i % s.hdr.width.toNat < 2 ^ 32 := (Nat.mod_lt _ (by omega)).trans hwidth
  have hread : ∀ (m : List (Nat × Int)) (c' : Nat) (v : Int), cellsWf m = true →
      chanRead (chanWrite m c' (i / s.hdr.width.toNat) (i % s.hdr.width.toNat) v) c row col =
        if c = c' ∧ row * s.hdr.width.toNat + col = i then some v else chanRead m c row col := fun m c' v hm => by
    simp only [chanRead_write m hm _ _ _ _ _ _ _ hr hx (hrow.trans hheight) (hcol.trans hwidth), raster_eq_iff hcol]
  have hwrite : ∀ (m : List (Nat × Int)) (c' : Nat) (v : Int), cellsWf m = true →
      cellsWf (chanWrite m c' (i / s.hdr.width.toNat) (i % s.hdr.width.toNat) v) = true := fun m c' v hm =>
    cellsWf_chanWrite m hm _ _ _ _
  rcases flag_cases s.hdr.color with hcolor | hcolor
  · rw [nch_gray hcolor] at hc
    obtain rfl := Nat.lt_one_iff.1 hc
    simp only [loadPixel, hcolor, if_true, hread _ _ _ hwf, pixelCell_gray hcolor, true_and]
  · rw [nch_rgb hcolor] at hc
    have hne : s.hdr.color ≠ 0 := by rw [hcolor]; decide
    simp only [loadPixel, if_neg hne, hread _ _ _ (hwrite _ _ _ (hwrite _ _ _ hwf)), hread _ _ _ (hwrite _ _ _ hwf),
      hread _ _ _ hwf, pixelCell_rgb hcolor]
    by_cases hpos : row * s.hdr.width.toNat + col = i
    · interval_cases c <;> simp [hpos]
    · simp [hpos]

end

/-- The load of a list of pixels. -/
theorem chanRead_loadPixels {s : State} {l : List Nat} (hwf : cellsWf s.chan = true) (hl : ∀ i ∈ l, i < nsamp s.hdr)
    {c row col : Nat} (hc : c < nch s.hdr) (hrow : row < s.hdr.height.toNat) (hcol : col < s.hdr.width.toNat) :
    chanRead (l.foldl loadPixel s).chan c row col =
      if row * s.hdr.width.toNat + col ∈ l then some (pixelCell s (row * s.hdr.width.toNat + col) c)
      else chanRead s.chan c row col := by
  induction l generalizing s with
  | nil => simp
  | cons i l ih =>
    obtain ⟨hi, hl⟩ := List.forall_mem_cons.1 hl
    have hhdr := loadPixel_hdr s i
    rw [← hhdr] at hl hc hrow hcol
    rw [List.foldl_cons, ← hhdr, ih (loadPixel_wf s i hwf) hl hc hrow hcol,
      pixelCell_congr hhdr (loadPixel_pix s i)]
    rw [hhdr] at hc hrow hcol ⊢
    rw [chanRead_loadPixel hwf hi hc hrow hcol]
    by_cases hmem : row * s.hdr.width.toNat + col ∈ l
    · simp [hmem]
    · by_cases heq : row * s.hdr.width.toNat + col = i
      · simp [heq]
      · simp [hmem, heq]

/-- Every cell of the image holds what the channel load puts there, and the inputs keep the contract of COMPRESS. -/
structure Loaded (s : State) : Prop where
  valid : inputsValid s = true
  wf : cellsWf s.chan = true
  cell : ∀ c row col, c < nch s.hdr → row < s.hdr.height.toNat → col < s.hdr.width.toNat →
    chanRead s.chan c row col = some (pixelCell s (row * s.hdr.width.toNat + col) c)

theorem loaded_loadChannels {s : State} (hvalid : inputsValid s = true) (hwf : cellsWf s.chan = true) :
    Loaded (loadChannels s) := by
  obtain ⟨m, hload, hm⟩ := loadChannels_cases s
  have hcell : ∀ c row col, c < nch s.hdr → row < s.hdr.height.toNat → col < s.hdr.width.toNat →
      chanRead (loadChannels s).chan c row col = some (pixelCell s (row * s.hdr.width.toNat + col) c) :=
    fun c row col hc hrow hcol => by
      rw [loadChannels, chanRead_loadPixels hwf (fun i hi => List.mem_range.1 hi) hc hrow hcol,
        if_pos (List.mem_range.2 (raster_lt hrow hcol))]
  rw [hload] at hcell ⊢
  exact ⟨hvalid, hm hwf, hcell⟩

/-- A loaded image has every cell in its channel's range. -/
theorem Loaded.full {s : State} (h : Loaded s) : channelsFull s := fun c row col hc hrow hcol => by
  obtain ⟨v, hv, hlt⟩ := pixelCell_range h.valid (row * s.hdr.width.toNat + col) hc
  exact ⟨v, by rw [h.cell c row col hc hrow hcol, hv], hlt⟩

/-! ## The HEADER step -/

theorem compressHeader_invalid {s : State} (h : inputsValid s = false) :
    compressHeader s = .raise .invalidInput s := by
  rw [compressHeader, if_neg (by rw [h]; decide)]

/-- On valid inputs and a sink that takes bits: the header, the load, and the first sample. -/
theorem compressHeader_ready {s : State} (hvalid : inputsValid s = true) (hready : sinkReady s) :
    ∃ u, compressHeader s = .ok () (enterSamples (loadChannels u)) ∧ sameButSink s u ∧ sinkReady u ∧
      sinkBits u = sinkBits s ++ headerBits s.hdr := by
  obtain ⟨u, hpush, hready', hbits, hframe⟩ := pushList_ready (headerBits s.hdr) s hready
  exact ⟨u, by rw [compressHeader, if_pos hvalid, writeHeader, hpush, Res.bind_ok], hframe, hready', hbits⟩

theorem engineStep_compressHeader {s : State} (hmode : s.stat.mode = .enc) (hphase : s.seq.phase = .header) :
    engineStep s = (compressHeader s).finish := by
  simp only [engineStep, engineRes, hmode, hphase]

end Sys2Proof.Machine

namespace Sys2Proof.Machine.Container

/-- Settles O42: the validation refuses the invalid inputs, and each clause about a cell is what the load puts there. -/
theorem compressHeaderStep : Obligations.CompressHeaderStep := by
  refine ⟨fun s hturn hmode hphase hbad => ?invalid, fun s hturn hmode hphase hvalid hready hwf => ?valid⟩
  case invalid =>
    have hinvalid : inputsValid s = false := by
      rw [Bool.eq_false_iff, ne_eq, inputsValid_iff]
      rintro ⟨hwidth, hheight, hlength, hpix⟩
      rcases hbad with h | h | h | ⟨x, hx, hle⟩
      · exact hwidth h
      · exact hheight h
      · exact h hlength
      · exact (hpix x hx).not_ge hle
    rw [step_of_turn hturn, engineStep_compressHeader hmode hphase, compressHeader_invalid hinvalid, finish_raise]
  case valid =>
    obtain ⟨u, hexec, hframe, hready', hbits⟩ := compressHeader_ready hvalid hready
    obtain ⟨hhdr, hpix, hchan⟩ : u.hdr = s.hdr ∧ u.pix = s.pix ∧ u.chan = s.chan := by rw [hframe]; exact ⟨rfl, rfl, rfl⟩
    have hloaded : Loaded (loadChannels u) :=
      loaded_loadChannels (by rw [inputsValid_congr hhdr hpix, hvalid])
        (by rw [hchan]; exact (Bool.and_eq_true_iff.1 hwf).1)
    obtain ⟨m, hload, -⟩ := loadChannels_cases u
    rw [hload] at hexec hloaded
    have hcell : ∀ c row col, c < nch s.hdr → row < s.hdr.height.toNat → col < s.hdr.width.toNat →
        chanRead m c row col = some (pixelCell s (row * s.hdr.width.toNat + col) c) := by
      rw [← hhdr]
      exact fun c row col hc hrow hcol =>
        (hloaded.cell c row col hc hrow hcol).trans (congrArg some (pixelCell_congr hhdr hpix _ _))
    refine ⟨u, hframe, hready', by rw [hbits, streamBits_headerBytes], m, ?step, hloaded.wf, ?range,
      fun row col hrow hcol => ⟨fun hcolor => ?gray, fun hcolor y co cg hforward => ?rgb⟩⟩
    case step => rw [step_of_turn hturn, engineStep_compressHeader hmode hphase, hexec, finish_ok]; rfl
    case range => rw [← hhdr]; exact hloaded.full
    case gray => rw [hcell 0 row col (by rw [nch_gray hcolor]; decide) hrow hcol, pixelCell_gray hcolor]
    case rgb =>
      have hread : ∀ c, c < 3 → chanRead m c row col = some (if c = 0 then y
          else if c = 1 then co + 2 ^ depthBits s.hdr else cg + 2 ^ depthBits s.hdr) := fun c hc => by
        rw [hcell c row col (by rw [nch_rgb hcolor]; exact hc) hrow hcol, pixelCell_rgb hcolor, hforward]
        rfl
      exact ⟨hread 0 (by decide), hread 1 (by decide), hread 2 (by decide)⟩

end Sys2Proof.Machine.Container
end

section
/-! PROOF. The FINISH step of DECOMPRESS (45_container.md R190): the image that the channel cells hold, and that PIX is written
nowhere else. -/

namespace Sys2Proof.Machine

/-! ## The image behind the channel cells -/

/-- The samples of a pixel whose cells hold the given values. -/
def pixelOf (m : Meta) (cell : Nat → Int) : List Int :=
  if m.color = 0 then [cell 0]
  else
    let f := ycocgInverse (cell 0) (cell 1 - chromaOffset m) (cell 2 - chromaOffset m)
    [f.1, f.2.1, f.2.2]

theorem pixelOf_gray {m : Meta} (h : m.color = 0) (cell : Nat → Int) : pixelOf m cell = [cell 0] := if_pos h

theorem pixelOf_rgb {m : Meta} (h : m.color = 1) {cell : Nat → Int} {r g b : Int}
    (hinv : ycocgInverse (cell 0) (cell 1 - chromaOffset m) (cell 2 - chromaOffset m) = (r, g, b)) :
    pixelOf m cell = [r, g, b] := by
  rw [pixelOf, if_neg (by rw [h]; decide), hinv]

theorem pixelOf_length (m : Meta) (cell : Nat → Int) : (pixelOf m cell).length = nch m := by
  unfold pixelOf nch
  split_ifs
  · rfl
  · rfl

/-- The samples of the image whose cells hold the given values, in PIX order (20_memory.md R45). -/
def imageOf (m : Meta) (cell : Nat → Nat → Int) : List Int := (List.range (nsamp m)).flatMap fun i => pixelOf m (cell i)

/-- Element `j` of part `i`, where all parts have one length. -/
theorem getElem?_flatMap_range {α : Type} {part : Nat → List α} {k : Nat} (hk : ∀ i, (part i).length = k) {n i j : Nat}
    (hi : i < n) (hj : j < k) : ((List.range n).flatMap part)[i * k + j]? = (part i)[j]? := by
  have hlen : ∀ n, ((List.range n).flatMap part).length = n * k := fun n => by simp [List.length_flatMap, hk]
  induction n with
  | zero => omega
  | succ n ih =>
    rw [List.range_succ, List.flatMap_append]
    rcases Nat.lt_succ_iff_lt_or_eq.1 hi with hlt | rfl
    · have : (i + 1) * k ≤ n * k := Nat.mul_le_mul_right k hlt
      rw [Nat.succ_mul] at this
      rw [List.getElem?_append_left (by rw [hlen]; omega), ih hlt]
    · rw [List.getElem?_append_right (by rw [hlen]; omega), hlen, Nat.add_sub_cancel_left]
      simp

theorem imageOf_length (m : Meta) (cell : Nat → Nat → Int) : (imageOf m cell).length = nsamp m * nch m := by
  simp [imageOf, List.length_flatMap, pixelOf_length]

theorem getElem?_imageOf {m : Meta} {cell : Nat → Nat → Int} {i j : Nat} (hi : i < nsamp m) (hj : j < nch m) :
    (imageOf m cell)[i * nch m + j]? = (pixelOf m (cell i))[j]? :=
  getElem?_flatMap_range (fun _ => pixelOf_length _ _) hi hj

theorem raster_bounds {m : Meta} {i : Nat} (hi : i < nsamp m) :
    i / m.width.toNat < m.height.toNat ∧ i % m.width.toNat < m.width.toNat :=
  ⟨Nat.div_lt_of_lt_mul hi, Nat.mod_lt _ (Nat.pos_of_mul_pos_right (Nat.zero_lt_of_lt hi))⟩

/-- The raster indices are the positions of the image. -/
theorem forall_raster {m : Meta} {p : Nat → Prop} : (∀ i < nsamp m, p i) ↔
    ∀ row col, row < m.height.toNat → col < m.width.toNat → p (row * m.width.toNat + col) := by
  refine ⟨fun h row col hrow hcol => h _ (raster_lt hrow hcol), fun h i hi => ?_⟩
  obtain ⟨hrow, hcol⟩ := raster_bounds hi
  have := h _ _ hrow hcol
  rwa [Nat.div_add_mod'] at this

/-- The cells of the pixel of raster index `i`, given by row and column. -/
def rasterCell (m : Meta) (f : Nat → Nat → Nat → Nat) (i c : Nat) : Int := f c (i / m.width.toNat) (i % m.width.toNat)

theorem rasterCell_eq {m : Meta} {row col : Nat} (f : Nat → Nat → Nat → Nat) (hcol : col < m.width.toNat) (c : Nat) :
    rasterCell m f (row * m.width.toNat + col) c = f c row col := by
  obtain ⟨hr, hx⟩ := (raster_eq_iff (row := row) hcol).1 rfl
  rw [rasterCell, ← hr, ← hx]

/-! ## FINISH (R190) -/

/-- Pixels that all have their cells are gathered in order. -/
theorem gather_eq {pixel : Nat → Option (List Int)} {px : Nat → List Int} {i n : Nat}
    (h : ∀ j < n, pixel (i + j) = some (px (i + j))) :
    gather pixel i n = some ((List.range n).flatMap fun j => px (i + j)) := by
  induction n generalizing i with
  | zero => rfl
  | succ n ih =>
    have htail : gather pixel (i + 1) n = some ((List.range n).flatMap fun j => px (i + 1 + j)) :=
      ih fun j hj => by rw [Nat.add_assoc, Nat.add_comm 1 j]; exact h (j + 1) (Nat.succ_lt_succ hj)
    have hfun : (fun j => px (i + 1 + j)) = fun j => px (i + (j + 1)) := funext fun j => by
      rw [Nat.add_assoc, Nat.add_comm 1 j]
    have hhead := h 0 (Nat.succ_pos n)
    rw [Nat.add_zero] at hhead
    simp only [gather, hhead, htail, hfun, List.range_succ_eq_map, List.flatMap_cons, List.flatMap_map, Nat.add_zero]

/-- The cell of channel `c` for the pixel of raster index `i`. -/
def cellAt (s : State) (c i : Nat) : Option Int :=
  chanRead s.chan c (i / s.hdr.width.toNat) (i % s.hdr.width.toNat)

theorem pixelSamples_eq {s : State} {i : Nat} {cell : Nat → Int} (h : ∀ c < nch s.hdr, cellAt s c i = some (cell c)) :
    pixelSamples s i = some (pixelOf s.hdr cell) := by
  unfold cellAt at h
  rcases flag_cases s.hdr.color with hcolor | hcolor
  · rw [nch_gray hcolor] at h
    simp only [pixelSamples, hcolor, if_true, h 0 (by decide), pixelOf_gray hcolor, Option.map_some]
  · rw [nch_rgb hcolor] at h
    have hne : s.hdr.color ≠ 0 := by rw [hcolor]; decide
    simp only [pixelSamples, if_neg hne, h 0 (by decide), h 1 (by decide), h 2 (by decide), pixelOf]

/-- With every cell written, FINISH writes the image the cells hold, or finds a component outside the sample range. -/
theorem reconstruct_eq {s : State} {cell : Nat → Nat → Int}
    (h : ∀ i < nsamp s.hdr, ∀ c < nch s.hdr, cellAt s c i = some (cell i c)) :
    reconstruct s =
      if s.hdr.color ≠ 0 ∧ (imageOf s.hdr cell).all (componentFits s.hdr) = false then .raise .malformedCodeword s
      else .ok () { s with pix := (imageOf s.hdr cell).map Int.toNat } := by
  have hgather : gather (pixelSamples s) 0 (nsamp s.hdr) = some (imageOf s.hdr cell) := by
    rw [gather_eq (px := fun i => pixelOf s.hdr (cell i)) fun j hj => by
      rw [Nat.zero_add]; exact pixelSamples_eq (h j hj)]
    simp only [Nat.zero_add, imageOf]
  simp only [reconstruct, hgather]

/-- Every component of the image fits. -/
theorem imageOf_fits_iff {m : Meta} {cell : Nat → Nat → Int} :
    (imageOf m cell).all (componentFits m) = true ↔
      ∀ i < nsamp m, ∀ x ∈ pixelOf m (cell i), 0 ≤ x ∧ x < 2 ^ depthBits m := by
  simp only [imageOf, List.all_eq_true, List.mem_flatMap, List.mem_range, componentFits, decide_eq_true_eq]
  exact ⟨fun h i hi x hx => h x ⟨i, hi, hx⟩, fun h x ⟨i, hi, hx⟩ => h i hi x hx⟩

/-! ## What no operation but FINISH writes -/

/-- What the host and the environment own (log entries 19, 24): PIX, the queue of events, IN and the build's bound. -/
def hostSide (s : State) : List Nat × List HostEvent × List Byte × Option Nat := (s.pix, s.cmdq, s.inp, s.maxSamples)

theorem hostSide_eq_iff {s t : State} : hostSide t = hostSide s ↔
    t.pix = s.pix ∧ t.cmdq = s.cmdq ∧ t.inp = s.inp ∧ t.maxSamples = s.maxSamples := by
  simp only [hostSide, Prod.mk.injEq]

/-- Whatever the operation answers or raises, the host's side is the given one. -/
def Res.KeepsHost {α : Type} (host : List Nat × List HostEvent × List Byte × Option Nat) : Res α → Prop
  | .ok _ t => hostSide t = host
  | .raise _ t => hostSide t = host
  | .fault _ => True
  | .refuse _ => True

section
variable {α β : Type} {host : List Nat × List HostEvent × List Byte × Option Nat} (s : State)

theorem keepsHost_bind {r : Res α} {f : α → State → Res β} (hr : r.KeepsHost host)
    (hf : ∀ a t, (f a t).KeepsHost (hostSide t)) : (r.bind f).KeepsHost host := by
  cases r with
  | ok a t =>
    obtain rfl : hostSide t = host := hr
    exact hf a t
  | raise e t => exact hr
  | fault x => trivial
  | refuse x => trivial

theorem keepsHost_ofRead_bind {r : Read State α} {f : α → State → Read State β} (hr : (ofRead r).KeepsHost host)
    (hf : ∀ a t, (ofRead (f a t)).KeepsHost (hostSide t)) : (ofRead (r.bind f)).KeepsHost host := by
  rw [ofRead_bind]
  exact keepsHost_bind hr hf

theorem keepsHost_ite {p : Prop} [Decidable p] {r r' : Res α} (hr : r.KeepsHost host) (hr' : r'.KeepsHost host) :
    (if p then r else r').KeepsHost host := by
  split
  · exact hr
  · exact hr'

theorem keepsHost_finish {r : Res Unit} {t : State} (h : r.finish = .next t) (hr : r.KeepsHost host) :
    hostSide t = host := by
  rcases finish_eq_next h with rfl | ⟨e, u, rfl, rfl⟩
  · exact hr
  · exact hr

/-! Pulling, and the readings built on it. -/

theorem pullBit_keepsHost : (ofRead (pullBit s)).KeepsHost (hostSide s) := by
  rcases pullBit_frame s with ⟨b, t, h, hframe⟩ | ⟨e, t, h, -, hframe⟩
  · rw [h, hframe]; rfl
  · rw [h, hframe]; rfl

theorem readBits_keepsHost (n acc : Nat) : (ofRead (readBits pullBit n acc s)).KeepsHost (hostSide s) := by
  induction n generalizing acc s with
  | zero => rfl
  | succ n ih => exact keepsHost_ofRead_bind (pullBit_keepsHost s) fun b t => ih t _

theorem readField_keepsHost (n : Nat) : (ofRead (readField pullBit n s)).KeepsHost (hostSide s) := by
  unfold readField
  split
  · rfl
  · exact readBits_keepsHost s n 0

theorem countZeros_keepsHost (left q : Nat) : (ofRead (countZeros pullBit left q s)).KeepsHost (hostSide s) := by
  induction left generalizing q s with
  | zero =>
    refine keepsHost_ofRead_bind (pullBit_keepsHost s) fun b t => ?_
    cases b <;> rfl
  | succ left ih =>
    refine keepsHost_ofRead_bind (pullBit_keepsHost s) fun b t => ?_
    cases b
    · exact ih t _
    · rfl

theorem readRice_keepsHost (k w : Nat) : (ofRead (readRice pullBit k w s)).KeepsHost (hostSide s) := by
  rw [readRice, readRicePair_eq]
  refine keepsHost_ofRead_bind (keepsHost_ofRead_bind (countZeros_keepsHost s _ _) fun q t => ?_) fun _ _ => rfl
  exact keepsHost_ofRead_bind (readField_keepsHost t k) fun _ _ => rfl

theorem readPhased_keepsHost (n : Nat) : (ofRead (readPhased pullBit n s)).KeepsHost (hostSide s) := by
  refine keepsHost_ofRead_bind (keepsHost_ofRead_bind (readField_keepsHost s _) fun x t => ?_) fun cw t => ?_
  · split
    · rfl
    · exact keepsHost_ofRead_bind (pullBit_keepsHost t) fun _ _ => rfl
  · split <;> rfl

theorem readHeader_keepsHost : (ofRead (readHeader pullBit s)).KeepsHost (hostSide s) := by
  refine keepsHost_ofRead_bind (readField_keepsHost s _) fun sig t₁ => ?_
  split; · rfl
  refine keepsHost_ofRead_bind (readField_keepsHost t₁ _) fun ct t₂ => ?_
  split; · rfl
  refine keepsHost_ofRead_bind (readField_keepsHost t₂ _) fun dc t₃ => ?_
  split; · rfl
  refine keepsHost_ofRead_bind (readField_keepsHost t₃ _) fun wd t₄ => ?_
  refine keepsHost_ofRead_bind (readField_keepsHost t₄ _) fun ht t₅ => ?_
  split <;> rfl

theorem riceDec_keepsHost (k w : Nat) : (riceDec k w s).KeepsHost (hostSide s) :=
  keepsHost_bind (readRice_keepsHost s k w) fun _ _ => rfl

theorem phasedDec_keepsHost (n : Nat) : (phasedDec n s).KeepsHost (hostSide s) := by
  unfold phasedDec
  split
  · exact keepsHost_bind (readField_keepsHost { s with drawn := s.drawn + 1 } _) fun _ _ => rfl
  · exact readPhased_keepsHost s n

/-! Pushing, and what is built on it. -/

theorem pushList_keepsHost (bits : List Bool) : (pushList bits s).KeepsHost (hostSide s) := by
  rcases pushList_cases bits s with ⟨t, h, hframe, -⟩ | ⟨e, t, h, hframe⟩
  · rw [h, hframe]; rfl
  · rw [h, hframe]; rfl

theorem pushBit_keepsHost (b : Bool) : (pushBit b s).KeepsHost (hostSide s) := by
  rcases pushBit_cases b s with ⟨t, h, hframe, -⟩ | ⟨e, t, h, hframe⟩
  · rw [h, hframe]; rfl
  · rw [h, hframe]; rfl

theorem pushBits_keepsHost (value n : Nat) : (pushBits value n s).KeepsHost (hostSide s) :=
  keepsHost_ite rfl (pushList_keepsHost s _)

theorem riceEnc_keepsHost (v k : Nat) : (riceEnc v k s).KeepsHost (hostSide s) :=
  keepsHost_bind (pushList_keepsHost s _) fun _ t => keepsHost_ite rfl (pushBits_keepsHost t _ _)

theorem phasedEnc_keepsHost (v n : Nat) : (phasedEnc v n s).KeepsHost (hostSide s) := by
  refine keepsHost_ite ?_ trivial
  cases phasedCodeword n v with
  | short x => exact pushBits_keepsHost s _ _
  | long y => exact pushBits_keepsHost s _ _

theorem byteOut_keepsHost (b : Byte) : (byteOut b s).KeepsHost (hostSide s) := by
  unfold byteOut
  split <;> rfl

theorem flushSink_keepsHost : (flushSink s).KeepsHost (hostSide s) :=
  keepsHost_bind (keepsHost_ite rfl (keepsHost_ite rfl (keepsHost_bind (byteOut_keepsHost s _) fun _ _ => rfl)))
    fun _ _ => rfl

/-! The samples. -/

theorem predict_keepsHost : (predict s).KeepsHost (hostSide s) := by
  rcases predict_cases s with ⟨dp, h, -⟩ | h
  · rw [h]; rfl
  · rw [h]; trivial

theorem hostSide_advance : hostSide (advance s) = hostSide s := by
  obtain ⟨q, hq | hq⟩ := advance_cases s
  · rw [hq]; rfl
  · rw [hq]; rfl

theorem hostSide_storeSample (p : Int) : hostSide (storeSample p s) = hostSide s := hostSide_advance _

theorem emitOutOfRange_keepsHost (above : Bool) (v : Nat) : (emitOutOfRange above v s).KeepsHost (hostSide s) :=
  keepsHost_bind (pushBit_keepsHost s _) fun _ t => keepsHost_bind (pushBit_keepsHost t _) fun _ _ =>
    keepsHost_bind rfl fun _ t => keepsHost_bind (riceEnc_keepsHost { t with dp := { t.dp with v := v } } _ _) fun _ _ => rfl

theorem emitSymbol_keepsHost (p : Int) : (emitSymbol p s).KeepsHost (hostSide s) := by
  unfold emitSymbol
  split
  · exact keepsHost_bind (pushBit_keepsHost s _) fun _ t => phasedEnc_keepsHost t _ _
  · exact emitOutOfRange_keepsHost s _ _
  · exact emitOutOfRange_keepsHost s _ _

theorem encodeSample_keepsHost : (encodeSample s).KeepsHost (hostSide s) := by
  unfold encodeSample
  split
  · trivial
  · rename_i p _
    refine keepsHost_bind (keepsHost_ite (pushBits_keepsHost { s with dp := { s.dp with p := p } } _ _) ?_) fun _ t =>
      hostSide_advance t
    exact keepsHost_bind (predict_keepsHost { s with dp := { s.dp with p := p } }) fun _ t => emitSymbol_keepsHost t p

theorem takeOutOfRange_keepsHost (above : Bool) (v : Nat) : (takeOutOfRange above v s).KeepsHost (hostSide s) :=
  keepsHost_ite (keepsHost_bind rfl fun _ t => hostSide_storeSample t _) rfl

theorem takeSymbol_keepsHost : (takeSymbol s).KeepsHost (hostSide s) := by
  refine keepsHost_bind (pullBit_keepsHost s) fun inRange t => keepsHost_ite ?_ ?_
  · exact keepsHost_bind (phasedDec_keepsHost t _) fun _ u => hostSide_storeSample u _
  · exact keepsHost_bind (pullBit_keepsHost t) fun above u => keepsHost_bind rfl fun k w =>
      keepsHost_bind (riceDec_keepsHost w _ _) fun v x => takeOutOfRange_keepsHost x above v

theorem decodeSample_keepsHost : (decodeSample s).KeepsHost (hostSide s) :=
  keepsHost_ite (keepsHost_bind (readField_keepsHost s _) fun _ t => hostSide_storeSample t _)
    (keepsHost_bind (predict_keepsHost s) fun _ t => takeSymbol_keepsHost t)

/-! The container and the commands. -/

theorem parseHeader_keepsHost : (parseHeader s).KeepsHost (hostSide s) := keepsHost_bind (readHeader_keepsHost s) fun _ _ => rfl

theorem hostSide_loadChannels : hostSide (loadChannels s) = hostSide s := by
  obtain ⟨m, h, -⟩ := loadChannels_cases s
  rw [h]
  rfl

theorem compressHeader_keepsHost : (compressHeader s).KeepsHost (hostSide s) :=
  keepsHost_ite (keepsHost_bind (pushList_keepsHost s _) fun _ t => hostSide_loadChannels t) rfl

/-- A step of a running command keeps the host's side, or is the FINISH step that ends DONE and keeps all but PIX. -/
theorem engineStep_hostSide {t : State} (h : engineStep s = .next t) :
    hostSide t = hostSide s ∨ (t.stat.status = .done ∧ t.cmdq = s.cmdq) := by
  unfold engineStep engineRes at h
  split at h
  · exact .inl (keepsHost_finish h (compressHeader_keepsHost s))
  · exact .inl (keepsHost_finish h (encodeSample_keepsHost s))
  · exact .inl (keepsHost_finish h (keepsHost_bind (flushSink_keepsHost s) fun _ _ => rfl))
  · exact .inl (keepsHost_finish h (keepsHost_bind (parseHeader_keepsHost s) fun _ t => keepsHost_ite trivial rfl))
  · exact .inl (keepsHost_finish h (decodeSample_keepsHost s))
  · rcases reconstruct_cases s with ⟨xs, hr⟩ | hr | hr
    · rw [decompressFinish, hr] at h; cases h; exact .inr ⟨rfl, rfl⟩
    · rw [decompressFinish, hr] at h; cases h; exact .inl rfl
    · rw [decompressFinish, hr] at h; cases h
  · exact .inl (keepsHost_finish h (keepsHost_bind (parseHeader_keepsHost s) fun _ _ => rfl))
  · cases h

/-- No operation that a command word starts writes what the host owns. -/
theorem exec_hostSide {c : Issue} {i : Instr} {t : State} (hd : decodeCommand c = .ok i) (h : exec i s = .next t) :
    hostSide t = hostSide s := by
  unfold decodeCommand at hd
  split at hd <;> cases hd
  · simp only [exec, execCompress] at h
    split at h <;> cases h
    rfl
  · cases h; rfl
  · cases h; rfl
  · exact keepsHost_finish h (pushBit_keepsHost s _)
  · exact keepsHost_finish h (pushBits_keepsHost s _ _)
  · exact keepsHost_finish h (flushSink_keepsHost s)
  · exact keepsHost_finish h (keepsHost_bind (pullBit_keepsHost s) fun _ _ => rfl)
  · exact keepsHost_finish h (keepsHost_bind (readField_keepsHost s _) fun _ _ => rfl)
  · exact keepsHost_finish h (riceEnc_keepsHost s _ _)
  · exact keepsHost_finish h (keepsHost_bind (riceDec_keepsHost s _ _) fun _ _ => rfl)
  · exact keepsHost_finish h (phasedEnc_keepsHost s _ _)
  · exact keepsHost_finish h (keepsHost_bind (phasedDec_keepsHost s _) fun _ _ => rfl)
  · exact keepsHost_finish h (predict_keepsHost s)
  · cases h; rfl
  · cases h; rfl
  · cases h; rfl
  · cases h; rfl
  · exact keepsHost_finish h (encodeSample_keepsHost s)
  · exact keepsHost_finish h (decodeSample_keepsHost s)
  · exact keepsHost_finish h (pushList_keepsHost s _)
  · exact keepsHost_finish h (parseHeader_keepsHost s)

/-- A step keeps PIX, or ends a command DONE. -/
theorem step_pix {t : State} (h : step s = .next t) : t.pix = s.pix ∨ t.stat.status = .done := by
  rcases step_cases s with ⟨rest, -, hs⟩ | ⟨c, rest, i, -, hd, -, ⟨-, hs⟩ | ⟨-, hs⟩⟩ | ⟨c, rest, e, -, -, hs⟩ | ⟨-, hs⟩ |
    ⟨-, -, hs⟩ <;> rw [hs] at h
  · cases h; exact .inl rfl
  · exact .inl (hostSide_eq_iff.1 (exec_hostSide { s with cmdq := rest } hd h)).1
  · cases h; exact .inl rfl
  · cases h; exact .inl rfl
  · exact (engineStep_hostSide s h).imp (fun hk => (hostSide_eq_iff.1 hk).1) fun hk => hk.1
  · cases h; exact .inl rfl

end

theorem engineStep_decompressFinish {s : State} (hmode : s.stat.mode = .dec) (hphase : s.seq.phase = .finish) :
    engineStep s = (decompressFinish s).finish := by
  simp only [engineStep, engineRes, hmode, hphase]

end Sys2Proof.Machine

namespace Sys2Proof.Machine.Container

/-- Settles O43: FINISH writes the image the cells hold, and a step that writes PIX ends DONE. -/
theorem finishWritesPix : Obligations.FinishWritesPix := by
  refine ⟨fun s f hturn hmode hphase hcells => ?finish, fun s t hstep herror => ?raises⟩
  case raises =>
    rcases step_pix s hstep with hpix | hdone
    · exact hpix
    · rw [herror] at hdone; cases hdone
  case finish =>
    intro pixel fits allFit
    have hcell : ∀ i < nsamp s.hdr, ∀ c < nch s.hdr, cellAt s c i = some (rasterCell s.hdr f i c) := fun i hi c hc =>
      hcells c _ _ hc (raster_bounds hi).1 (raster_bounds hi).2
    have hpixel : s.hdr.color = 1 → ∀ row col, col < s.hdr.width.toNat →
        pixelOf s.hdr (rasterCell s.hdr f (row * s.hdr.width.toNat + col)) =
          [(pixel row col).1, (pixel row col).2.1, (pixel row col).2.2] := fun hcolor row col hcol =>
      pixelOf_rgb hcolor (by simp only [rasterCell_eq f hcol]; rfl)
    have hfits : s.hdr.color = 1 → ((imageOf s.hdr (rasterCell s.hdr f)).all (componentFits s.hdr) = true ↔ allFit) :=
      fun hcolor => by
        rw [imageOf_fits_iff, forall_raster]
        refine forall₂_congr fun row col => forall₂_congr fun _ hcol => ?_
        simp only [hpixel hcolor row col hcol, List.forall_mem_cons, List.not_mem_nil, false_imp_iff, implies_true,
          and_true, fits, Int.le_sub_one_iff]
    have hstep : step s = (decompressFinish s).finish := by
      rw [step_of_turn hturn, engineStep_decompressFinish hmode hphase]
    rw [decompressFinish, reconstruct_eq hcell] at hstep
    refine ⟨fun hall => ⟨(imageOf s.hdr (rasterCell s.hdr f)).map Int.toNat, ?_, ?_, fun row col hrow hcol =>
      ⟨fun hcolor => ?gray, fun hcolor => ?rgb⟩⟩, fun hcolor hbad => ?malformed⟩
    · rw [List.length_map, imageOf_length]
    · rw [hstep, if_neg]
      · rfl
      · rintro ⟨hcolor, hnone⟩
        have hcolor' := (flag_cases s.hdr.color).resolve_left hcolor
        rw [(hfits hcolor').2 (hall.resolve_left hcolor)] at hnone
        cases hnone
    case gray =>
      have := getElem?_imageOf (cell := rasterCell s.hdr f) (raster_lt hrow hcol) (j := 0) (by rw [nch_gray hcolor]; decide)
      rw [nch_gray hcolor, Nat.mul_one, Nat.add_zero, pixelOf_gray hcolor, rasterCell_eq f hcol] at this
      rw [List.getElem?_map, this]
      rfl
    case rgb =>
      have hget : ∀ j < 3, ((imageOf s.hdr (rasterCell s.hdr f)).map Int.toNat)[(row * s.hdr.width.toNat + col) * 3 + j]? =
          ([(pixel row col).1, (pixel row col).2.1, (pixel row col).2.2][j]?).map Int.toNat := fun j hj => by
        rw [← hpixel hcolor row col hcol, List.getElem?_map, ← getElem?_imageOf (raster_lt hrow hcol)
          (by rw [nch_rgb hcolor]; exact hj), nch_rgb hcolor]
      exact ⟨hget 0 (by decide), hget 1 (by decide), hget 2 (by decide)⟩
    case malformed =>
      rw [hstep, if_pos ⟨by rw [hcolor]; decide, Bool.eq_false_iff.2 (mt (hfits hcolor).1 hbad)⟩]
      rfl

end Sys2Proof.Machine.Container
end

section
/-! PROOF. Runs (30_encoding.md R74): what a run that ends DONE has done, the sequencer's walk over the image (10_state.md
R14, R15), and that a writer which does not fail changes nothing for an encoder that completes. -/

namespace Sys2Proof.Machine

/-! ## Runs of the machine -/

/-- `n` steps of the machine. -/
abbrev runSteps (n : Nat) (s : State) : Host.Outcome State Fault Refusal := Host.Core.run Sys2Proof.core n s

theorem runSteps_succ {s u : State} (n : Nat) (h : step s = .next u) : runSteps (n + 1) s = runSteps n u := by
  have hs : Sys2Proof.core.step s = .next u := h
  show Host.Core.run Sys2Proof.core (n + 1) s = Host.Core.run Sys2Proof.core n u
  simp only [Host.Core.run, hs]

/-- A run of more than no steps begins with a step. -/
theorem runSteps_succ_eq_next {n : Nat} {s t : State} (h : runSteps (n + 1) s = .next t) :
    ∃ u, step s = .next u ∧ runSteps n u = .next t := by
  cases hs : Sys2Proof.core.step s with
  | next u => exact ⟨u, hs, by simpa only [runSteps, Host.Core.run, hs] using h⟩
  | fault f => simp only [runSteps, Host.Core.run, hs, reduceCtorEq] at h
  | refused r => simp only [runSteps, Host.Core.run, hs, reduceCtorEq] at h

/-- An engine with nothing to do stays as it is (70_reset_and_hazards.md R230). -/
theorem runSteps_settled {s : State} (n : Nat) (hqueue : s.cmdq = []) (hidle : s.stat.status ≠ .busy) :
    runSteps n s = .next s := by
  have hstep : step s = .next s := by
    rcases step_cases s with ⟨rest, hq, -⟩ | ⟨c, rest, i, hq, -⟩ | ⟨c, rest, e, hq, -⟩ | ⟨hb, -⟩ | ⟨-, -, hs⟩
    · rw [hqueue] at hq; cases hq
    · rw [hqueue] at hq; cases hq
    · rw [hqueue] at hq; cases hq
    · exact absurd hb hidle
    · exact hs
  induction n with
  | zero => rfl
  | succ n ih => rw [runSteps_succ n hstep, ih]

theorem engineTurn_of_queue_empty {s : State} (hbusy : s.stat.status = .busy) (hqueue : s.cmdq = []) : engineTurn s :=
  ⟨hbusy, fun e rest h => by rw [hqueue] at h; cases h⟩

theorem step_of_busy {s : State} (hbusy : s.stat.status = .busy) (hqueue : s.cmdq = []) :
    step s = (engineRes s).finish := step_of_turn (engineTurn_of_queue_empty hbusy hqueue)

theorem cmdq_of_engineStep {s t : State} (h : engineStep s = .next t) : t.cmdq = s.cmdq := by
  rcases engineStep_hostSide s h with hk | ⟨-, hq⟩
  · exact (hostSide_eq_iff.1 hk).2.1
  · exact hq

/-- A run of a command that ends DONE begins with a step that completes: after a raise the engine would stay in ERROR
(60_exceptions.md R206). -/
theorem runSteps_done {n : Nat} {s t : State} (hbusy : s.stat.status = .busy) (hqueue : s.cmdq = [])
    (hrun : runSteps n s = .next t) (hdone : t.stat.status = .done) :
    ∃ m u, n = m + 1 ∧ engineRes s = .ok () u ∧ u.cmdq = [] ∧ runSteps m u = .next t := by
  cases n with
  | zero => cases hrun; rw [hbusy] at hdone; cases hdone
  | succ m =>
    obtain ⟨u, hstep, hrest⟩ := runSteps_succ_eq_next hrun
    rw [step_of_busy hbusy hqueue] at hstep
    have hqueue' : u.cmdq = [] := (cmdq_of_engineStep hstep).trans hqueue
    rcases finish_eq_next hstep with hok | ⟨e, v, -, rfl⟩
    · exact ⟨m, u, rfl, hok, hqueue', hrest⟩
    · rw [runSteps_settled m hqueue' (by simp)] at hrest
      cases hrest
      cases hdone

/-! ## The sequencer's walk (10_state.md R14, R15) -/

/-- The cell comes before the sample in progress, in channel and raster order (00_scope.md R9). -/
def isBefore (s : State) (c row col : Nat) : Prop :=
  c < s.seq.ch.toNat ∨ (c = s.seq.ch.toNat ∧ row * s.hdr.width.toNat + col < idx s)

/-- The cell is that of the sample in progress. -/
def isCurrent (s : State) (c row col : Nat) : Prop := c = s.seq.ch.toNat ∧ row = s.seq.row.toNat ∧ col = s.seq.col.toNat

/-- The sample in progress is the last of the image. -/
def lastSample (s : State) : Prop :=
  s.hdr.width.toNat ≤ s.seq.col.toNat + 1 ∧ s.hdr.height.toNat ≤ s.seq.row.toNat + 1 ∧ nch s.hdr ≤ s.seq.ch.toNat + 1

section
variable {s : State} {c row col : Nat}

theorem toNat_add_one {n : Nat} {x : BitVec n} {bound : Nat} (h : x.toNat + 1 < bound) (hbound : bound ≤ 2 ^ n) (hn : 0 < n) :
    (x + 1).toNat = x.toNat + 1 := by
  have hone : (1 : BitVec n).toNat = 1 := by
    rw [BitVec.ofNat_eq_ofNat, BitVec.toNat_ofNat, Nat.mod_eq_of_lt (Nat.one_lt_two_pow (by omega))]
  rw [BitVec.toNat_add, hone, Nat.mod_eq_of_lt (by omega)]

/-- In the channel in progress, the cells up to the sample in progress are those before it and its own. -/
theorem isBefore_or_isCurrent (hseq : seqInRange s) (hcol : col < s.hdr.width.toNat)
    (h : row * s.hdr.width.toNat + col ≤ idx s) :
    isBefore s s.seq.ch.toNat row col ∨ isCurrent s s.seq.ch.toNat row col := by
  rcases Nat.lt_or_eq_of_le h with hlt | heq
  · exact .inl (.inr ⟨rfl, hlt⟩)
  · obtain ⟨hr, hx⟩ := (raster_eq_iff hcol).1 heq
    obtain ⟨hr', hx'⟩ := (raster_eq_iff (row := s.seq.row.toNat) hseq.2.2).1 (rfl : _ = idx s)
    exact .inr ⟨rfl, hr.trans hr'.symm, hx.trans hx'.symm⟩

/-- At the end of its row and of its channel, the sample is the last of the raster. -/
theorem raster_le_idx (hcolEnd : s.hdr.width.toNat ≤ s.seq.col.toNat + 1)
    (hrowEnd : s.hdr.height.toNat ≤ s.seq.row.toNat + 1) (hrow : row < s.hdr.height.toNat) (hcol : col < s.hdr.width.toNat) :
    row * s.hdr.width.toNat + col ≤ idx s := by
  have : row * s.hdr.width.toNat ≤ s.seq.row.toNat * s.hdr.width.toNat := Nat.mul_le_mul_right _ (by omega)
  unfold idx
  omega

/-- The last sample leaves no cell out. -/
theorem isBefore_or_isCurrent_of_last (hseq : seqInRange s) (hlast : lastSample s) (hc : c < nch s.hdr)
    (hrow : row < s.hdr.height.toNat) (hcol : col < s.hdr.width.toNat) : isBefore s c row col ∨ isCurrent s c row col := by
  obtain ⟨hcolEnd, hrowEnd, hchEnd⟩ := hlast
  rcases Nat.lt_or_eq_of_le (show c ≤ s.seq.ch.toNat by omega) with hlt | rfl
  · exact .inl (.inl hlt)
  · exact isBefore_or_isCurrent hseq hcol (raster_le_idx hcolEnd hrowEnd hrow hcol)

/-- Before the last sample, the advance stays in the image and in its PHASE, and passes the sample in progress only. -/
theorem advance_walks (hseq : seqInRange s) (hlast : ¬ lastSample s) :
    seqInRange (advance s) ∧ (advance s).seq.phase = s.seq.phase ∧
      ∀ c row col, row < s.hdr.height.toNat → col < s.hdr.width.toNat → isBefore (advance s) c row col →
        isBefore s c row col ∨ isCurrent s c row col := by
  have ⟨hch, hrow, hcol⟩ := hseq
  have hzero : (0 : Word32).toNat = 0 := rfl
  by_cases hcolEnd : s.hdr.width.toNat ≤ s.seq.col.toNat + 1
  case neg =>
    have hnext : (s.seq.col + 1).toNat = s.seq.col.toNat + 1 :=
      toNat_add_one (not_le.1 hcolEnd) s.hdr.width.isLt.le (by decide)
    rw [advance_in_row s (not_le.1 hcolEnd)]
    refine ⟨⟨hch, hrow, ?_⟩, rfl, fun c row col _ hcol' hbefore => ?_⟩
    · show (s.seq.col + 1).toNat < s.hdr.width.toNat
      omega
    · rcases hbefore with hlt | ⟨rfl, hlt⟩
      · exact .inl (.inl hlt)
      · refine isBefore_or_isCurrent hseq hcol' ?_
        simp only [idx, hnext] at hlt ⊢
        omega
  case pos =>
    by_cases hrowEnd : s.hdr.height.toNat ≤ s.seq.row.toNat + 1
    case neg =>
      have hnext : (s.seq.row + 1).toNat = s.seq.row.toNat + 1 :=
        toNat_add_one (not_le.1 hrowEnd) s.hdr.height.isLt.le (by decide)
      rw [advance_row_end s hcolEnd (not_le.1 hrowEnd)]
      refine ⟨⟨hch, ?_, ?_⟩, rfl, fun c row col _ hcol' hbefore => ?_⟩
      · show (s.seq.row + 1).toNat < s.hdr.height.toNat
        omega
      · exact Nat.zero_lt_of_lt hcol
      · rcases hbefore with hlt | ⟨rfl, hlt⟩
        · exact .inl (.inl hlt)
        · refine isBefore_or_isCurrent hseq hcol' ?_
          simp only [idx, hnext, Nat.succ_mul, hzero] at hlt ⊢
          omega
    case pos =>
      have hmore : s.seq.ch.toNat + 1 < nch s.hdr := by
        by_contra hchEnd
        exact hlast ⟨hcolEnd, hrowEnd, not_lt.1 hchEnd⟩
      have hnext : (s.seq.ch + 1).toNat = s.seq.ch.toNat + 1 :=
        toNat_add_one hmore ((nch_le s.hdr).trans (by decide)) (by decide)
      rw [advance_channel_end s hcolEnd hrowEnd hmore]
      refine ⟨⟨?_, ?_, ?_⟩, rfl, fun c row col hrow' hcol' hbefore => ?_⟩
      · show (s.seq.ch + 1).toNat < nch s.hdr
        omega
      · exact Nat.zero_lt_of_lt hrow
      · exact Nat.zero_lt_of_lt hcol
      · rcases hbefore with hlt | ⟨-, hlt⟩
        · simp only [hnext] at hlt
          rcases Nat.lt_or_eq_of_le (Nat.lt_succ_iff.1 hlt) with hlt | rfl
          · exact .inl (.inl hlt)
          · exact isBefore_or_isCurrent hseq hcol' (raster_le_idx hcolEnd hrowEnd hrow' hcol')
        · simp [idx] at hlt

/-- After the last sample the PHASE is the command's next one (R15). -/
theorem advance_phase_of_last (hmode : s.stat.mode = .enc ∨ s.stat.mode = .dec) (hlast : lastSample s) :
    (advance s).seq.phase = if s.stat.mode = .enc then .flush else .finish := by
  obtain ⟨hcolEnd, hrowEnd, hchEnd⟩ := hlast
  rw [advance_image_end s hmode hcolEnd hrowEnd hchEnd]

end

end Sys2Proof.Machine
end

section
/-! PROOF. COMPRESS as a function of the metadata and PIX (45_container.md R194): an encoder that completes goes by nothing
else, sample by sample. -/

namespace Sys2Proof.Machine

/-! ## A writer that does not fail changes nothing for what completes -/

/-- The state with a writer that never fails. -/
def quieted (s : State) : State := { s with outFail := [] }

/-- Where the operation completes, it completes alike on a writer that never fails (20_memory.md R42). -/
def Quiets {α : Type} (f : State → Res α) : Prop := ∀ s a t, f s = .ok a t → f (quieted s) = .ok a (quieted t)

section
variable {α β : Type}

theorem quiets_bind {f : State → Res α} {g : α → State → Res β} (hf : Quiets f) (hg : ∀ a, Quiets (g a)) :
    Quiets fun s => (f s).bind g := by
  intro s b t h
  obtain ⟨a, u, hu, ht⟩ := Res.bind_eq_ok h
  show (f (quieted s)).bind g = _
  rw [hf s a u hu, Res.bind_ok]
  exact hg a u b t ht

theorem quiets_pushBit (b : Bool) : Quiets (pushBit b) := by
  intro s a t h
  by_cases hf : s.sink.flushed = true
  · rw [pushBit_flushed b hf] at h; cases h
  rw [Bool.not_eq_true] at hf
  by_cases hc : s.sink.cnt = 7
  · by_cases ho : s.outFail.head? = some true
    · rw [pushBit_full_fails b hf hc ho] at h; cases h
    · rw [pushBit_full_writes b hf hc ho] at h; cases h
      exact pushBit_full_writes (s := quieted s) b hf hc (by simp [quieted])
  · rw [pushBit_room b hf hc] at h; cases h
    exact pushBit_room (s := quieted s) b hf hc

theorem quiets_pushList (bits : List Bool) : Quiets (pushList bits) := by
  induction bits with
  | nil => intro s a t h; cases h; rfl
  | cons b bits ih => exact quiets_bind (quiets_pushBit b) fun _ => ih

theorem quiets_pushBits (value n : Nat) : Quiets (pushBits value n) := by
  intro s a t h
  unfold pushBits at h ⊢
  split at h
  · cases h
  · rename_i hn
    rw [if_neg hn]
    exact quiets_pushList _ s a t h

theorem quiets_riceEnc (v k : Nat) : Quiets (riceEnc v k) :=
  quiets_bind (quiets_pushList _) fun _ => by
    by_cases hk : k = 0
    · simp only [if_pos hk]; intro s a t h; cases h; rfl
    · simp only [if_neg hk]; exact quiets_pushBits _ _

theorem quiets_phasedEnc (v n : Nat) : Quiets (phasedEnc v n) := by
  intro s a t h
  unfold phasedEnc at h ⊢
  split at h
  · rename_i hv
    rw [if_pos hv]
    cases hcw : phasedCodeword n v with
    | short x => rw [hcw] at h; exact quiets_pushBits _ _ s a t h
    | long y => rw [hcw] at h; exact quiets_pushBits _ _ s a t h
  · cases h

theorem quiets_predict : Quiets predict := by
  intro s a t h
  by_cases hidx : idx s < 2
  · rw [predict_verbatim s hidx] at h; cases h
    exact predict_verbatim (quieted s) hidx
  · simp only [predict, if_neg hidx] at h
    split at h
    · rename_i x y hx hy
      cases h
      exact predict_eq (quieted s) (not_lt.1 hidx) x y hx hy
    · cases h

theorem quiets_emitIn (v : Nat) : Quiets (emitIn v) :=
  quiets_bind (quiets_pushBit true) fun _ s => quiets_phasedEnc v (s.dp.delta + 1) s

theorem quiets_emitOutOfRange (above : Bool) (v : Nat) : Quiets (emitOutOfRange above v) := by
  refine quiets_bind (quiets_pushBit false) fun _ => quiets_bind (quiets_pushBit above) fun _ => quiets_bind ?_ fun k =>
    quiets_bind (fun s => quiets_riceEnc v k { s with dp := { s.dp with v := v } }) fun _ => ?_
  · intro s a t h; cases h; rfl
  · intro s a t h; cases h; rfl

theorem quiets_emitSymbol (p : Int) : Quiets (emitSymbol p) := by
  intro s a t h
  have hrange : rangeTest (quieted s).dp.l (quieted s).dp.h p = rangeTest s.dp.l s.dp.h p := rfl
  unfold emitSymbol at h ⊢
  rw [hrange]
  split at h
  · exact quiets_emitIn _ s a t h
  · exact quiets_emitOutOfRange _ _ s a t h
  · exact quiets_emitOutOfRange _ _ s a t h

/-- The sample's part of ENC_SAMPLE: a verbatim sample, or PREDICT and the symbol (R165). -/
def emitSample (p : Int) (s : State) : Res Unit :=
  if idx s < 2 then emitRaw p s else (predict s).bind fun _ s => emitSymbol p s

theorem encodeSample_of_cell {s : State} {p : Int} (h : currentCell s = some p) :
    encodeSample s =
      (emitSample p { s with dp := { s.dp with p := p } }).bind fun _ s => .ok () (advance s) := by
  unfold currentCell at h
  simp only [encodeSample, h, emitSample]

theorem encodeSample_of_no_cell {s : State} (h : currentCell s = none) : encodeSample s = .fault .unwrittenCell := by
  unfold currentCell at h
  simp only [encodeSample, h]

theorem quiets_emitSample (p : Int) : Quiets (emitSample p) := by
  intro s a t h
  unfold emitSample at h ⊢
  by_cases hidx : idx s < 2
  · rw [if_pos hidx] at h
    rw [if_pos (show idx (quieted s) < 2 from hidx)]
    exact quiets_pushBits _ _ s a t h
  · rw [if_neg hidx] at h
    rw [if_neg (show ¬ idx (quieted s) < 2 from hidx)]
    exact quiets_bind quiets_predict (fun _ => quiets_emitSymbol p) s a t h

theorem advance_quieted (s : State) : advance (quieted s) = quieted (advance s) := by
  unfold advance
  simp only [apply_ite quieted]
  rfl

theorem quiets_encodeSample : Quiets encodeSample := by
  intro s a t h
  cases hcell : currentCell s with
  | none => rw [encodeSample_of_no_cell hcell] at h; cases h
  | some p =>
    rw [encodeSample_of_cell hcell] at h
    obtain ⟨b, u, hu, ht⟩ := Res.bind_eq_ok h
    cases ht
    have hu' := quiets_emitSample p _ _ _ hu
    rw [encodeSample_of_cell (s := quieted s) hcell, ← advance_quieted]
    show (emitSample p (quieted { s with dp := { s.dp with p := p } })).bind _ = _
    rw [hu', Res.bind_ok]

theorem quiets_flushSink : Quiets flushSink := by
  intro s a t h
  by_cases hf : s.sink.flushed = true
  · rw [flushSink_flushed hf] at h; cases h
  rw [Bool.not_eq_true] at hf
  by_cases hc : s.sink.cnt = 0
  · rw [flushSink_aligned hf hc] at h; cases h
    exact flushSink_aligned (s := quieted s) hf hc
  · by_cases ho : s.outFail.head? = some true
    · rw [flushSink_partial_fails hf hc ho] at h; cases h
    · rw [flushSink_partial_writes hf hc ho] at h; cases h
      exact flushSink_partial_writes (s := quieted s) hf hc (by simp [quieted])

theorem loadChannels_quieted (s : State) : loadChannels (quieted s) = quieted (loadChannels s) := by
  have hpixel : ∀ t i, loadPixel (quieted t) i = quieted (loadPixel t i) := fun t i => by
    unfold loadPixel
    simp only [apply_ite quieted]
    rfl
  exact List.foldl_hom quieted hpixel

theorem quiets_compressHeader : Quiets compressHeader := by
  intro s a t h
  unfold compressHeader at h ⊢
  split at h
  · rename_i hvalid
    rw [if_pos (show inputsValid (quieted s) = true from hvalid)]
    refine quiets_bind (fun s => quiets_pushList (headerBits s.hdr) s) (fun _ u b v hv => ?_) s a t h
    cases hv
    rw [loadChannels_quieted]
    rfl
  · cases h

end

/-! ## A running encoder -/

/-- A COMPRESS whose header is written, on a sink that takes bits: among its samples, or before its FLUSH (R184). -/
structure Encoding (e : State) : Prop where
  stat : e.stat = ⟨.busy, 0, 0, .enc⟩
  queue : e.cmdq = []
  ready : sinkReady e
  loaded : Loaded e
  place : (e.seq.phase = .samples ∧ seqInRange e) ∨ e.seq.phase = .flush

/-- Two encoders at the same place of the same image. -/
structure Alike (e e' : State) : Prop where
  inStep : InStep e e'
  phase : e'.seq.phase = e.seq.phase
  pix : e'.pix = e.pix

section
variable {e e' : State}

theorem Encoding.busy (h : Encoding e) : e.stat.status = .busy := by rw [h.stat]

theorem Encoding.engineRes_samples (h : Encoding e) (hphase : e.seq.phase = .samples) : engineRes e = encodeSample e := by
  simp only [engineRes, h.stat, hphase]

theorem Encoding.engineRes_flush (h : Encoding e) (hphase : e.seq.phase = .flush) : engineRes e = compressFlush e := by
  simp only [engineRes, h.stat, hphase]

theorem Encoding.inRange (h : Encoding e) (hphase : e.seq.phase = .samples) : seqInRange e := by
  rcases h.place with ⟨-, hseq⟩ | hflush
  · exact hseq
  · rw [hphase] at hflush; cases hflush

theorem Alike.refl (e : State) : Alike e e := ⟨⟨rfl, rfl, rfl, rfl, rfl⟩, rfl, rfl⟩

/-- Loaded with the same image, both hold the same cells. -/
theorem Alike.cell (h : Alike e e') (hl : Loaded e) (hl' : Loaded e') {c row col : Nat} (hc : c < nch e.hdr)
    (hrow : row < e.hdr.height.toNat) (hcol : col < e.hdr.width.toNat) :
    chanRead e'.chan c row col = chanRead e.chan c row col := by
  have hhdr := h.inStep.hdr
  rw [hl.cell c row col hc hrow hcol, hl'.cell c row col (hhdr ▸ hc) (hhdr ▸ hrow) (hhdr ▸ hcol),
    pixelCell_congr hhdr.symm h.pix, hhdr]

/-- What ENC_SAMPLE does to an encoder: its bits and T, which go by the place in the image alone (R194). -/
structure EncodesTo (e : State) (sym : List Bool) (table : List (Nat × Nat)) (u : State) : Prop where
  exec : exec .encSample e = .next (advance u)
  ready : sinkReady u
  bits : sinkBits u = sinkBits e ++ sym
  frame : ∃ dp, sameButSink { e with dp := dp, table := table } u

/-- ENC_SAMPLE appends the same bits and leaves the same T in every encoder at the same place of the same image. -/
theorem encodeSample_alike (hl : Loaded e) (hseq : seqInRange e) :
    ∃ sym table, ∀ e', Alike e e' → Loaded e' → sinkReady e' → ∃ u, EncodesTo e' sym table u := by
  have ⟨hch, hrow, hcol⟩ := hseq
  obtain ⟨p, hp, hcoded⟩ := codedValue_of_cellCoded (hl.full _ _ _ hch hrow hcol)
  have hcell : ∀ {e'}, Alike e e' → Loaded e' → currentCell e' = some (p : Int) := fun {e'} h hl' => by
    rw [currentCell, ← h.inStep.ch, ← h.inStep.row, ← h.inStep.col, h.cell hl hl' hch hrow hcol, hp]
  by_cases hidx : idx e < 2
  case pos =>
    refine ⟨bitsMsb p (chanWidth e), e.table, fun e' h hl' hready => ?_⟩
    obtain ⟨u, hexec, hready', hbits, hframe⟩ := exec_encSample_verbatim (by rwa [h.inStep.idx_eq]) (hcell h hl')
      (by rw [h.inStep.chanWidth_eq]; exact codedValue_natCast.1 hcoded) hready
    rw [h.inStep.chanWidth_eq] at hbits
    exact ⟨u, hexec, hready', hbits, _, by rw [h.inStep.table]; exact hframe⟩
  case neg =>
    obtain ⟨a, b, hn, ha, hb⟩ := neighboursHold_of_full hseq hl.full (not_lt.1 hidx)
    have hn' : ∀ {e'}, Alike e e' → Loaded e' → neighboursHold e' a b := fun h hl' =>
      h.inStep.neighboursHold hseq (fun row col hr hx _ => h.cell hl hl' hch hr hx) hn
    by_cases hin : min a b ≤ (p : Int) ∧ (p : Int) ≤ max a b
    case pos =>
      refine ⟨true :: codewordBits (deltaOf a b + 1) (phasedCodeword (deltaOf a b + 1) (p - min a b).toNat), e.table,
        fun e' h hl' hready => ?_⟩
      obtain ⟨u, hexec, hready', hbits, hframe⟩ := encSamplePredicted.1 e' a b p (hn' h hl') (h.inStep.codedValue ha)
        (h.inStep.codedValue hb) (hcell h hl') hin.1 hin.2 hready
      exact ⟨u, hexec, hready', hbits, _, by rw [h.inStep.table]; exact hframe⟩
    case neg =>
      obtain ⟨above, v, hbelow, habove⟩ : ∃ (above : Bool) (v : Nat),
          (above = false → (p : Int) < min a b ∧ (v : Int) = min a b - p - 1) ∧
            (above = true → max a b < (p : Int) ∧ (v : Int) = p - max a b - 1) := by
        by_cases hlow : (p : Int) < min a b
        · exact ⟨false, (min a b - p - 1).toNat, fun _ => by omega, fun h => by cases h⟩
        · exact ⟨true, (p - max a b - 1).toNat, fun h => (by cases h), fun _ => by omega⟩
      refine ⟨[false, above] ++ riceBits (kFor e (deltaOf a b)) (v / 2 ^ kFor e (deltaOf a b))
        (low v (kFor e (deltaOf a b))), tableAfter e (deltaOf a b) v, fun e' h hl' hready => ?_⟩
      obtain ⟨r, u, hupdate, hexec, hready', hbits, hframe⟩ := encSamplePredicted.2 e' a b p above v (hn' h hl')
        (h.inStep.codedValue ha) (h.inStep.codedValue hb) (hcell h hl') hbelow habove hready
      rw [exec_update_tableAfter v (deltaOf_le (h.inStep.codedValue ha) (h.inStep.codedValue hb))] at hupdate
      cases hupdate
      rw [h.inStep.kFor_eq] at hbits
      exact ⟨u, hexec, hready', hbits, _, by rw [← h.inStep.tableAfter_eq]; exact hframe⟩

section
variable {u : State} {sym : List Bool} {table : List (Nat × Nat)}

theorem sinkReady_advance {s : State} (h : sinkReady s) : sinkReady (advance s) := by
  obtain ⟨q, hq | hq⟩ := advance_cases s
  · rw [hq]; exact h
  · rw [hq]; exact h

/-- The encoder goes on: to the next sample, or after the last one to its FLUSH. -/
theorem EncodesTo.encoding (h : EncodesTo e sym table u) (he : Encoding e) (hphase : e.seq.phase = .samples) :
    Encoding (advance u) ∧
      (lastSample e → (advance u).seq.phase = .flush) ∧ (¬ lastSample e → (advance u).seq.phase = .samples) := by
  have hseq := he.inRange hphase
  obtain ⟨dp, hframe⟩ := h.frame
  obtain ⟨hstat, hqueue, hhdr, hseq', hchan, hpix⟩ : u.stat = e.stat ∧ u.cmdq = e.cmdq ∧ u.hdr = e.hdr ∧ u.seq = e.seq ∧
      u.chan = e.chan ∧ u.pix = e.pix := by
    rw [hframe]; exact ⟨rfl, rfl, rfl, rfl, rfl, rfl⟩
  have hin : seqInRange u := by unfold seqInRange; rw [hhdr, hseq']; exact hseq
  have hlast : lastSample u ↔ lastSample e := by unfold lastSample; rw [hhdr, hseq']
  have hflush : lastSample e → (advance u).seq.phase = .flush := fun hl => by
    rw [advance_phase_of_last (.inl (by rw [hstat, he.stat])) (hlast.2 hl), hstat, he.stat]
    rfl
  have hsamples : ¬ lastSample e → (advance u).seq.phase = .samples := fun hl => by
    rw [(advance_walks hin (mt hlast.1 hl)).2.1, hseq', hphase]
  refine ⟨⟨?_, ?_, sinkReady_advance h.ready, ?_, ?_⟩, hflush, hsamples⟩
  · rw [advance_stat, hstat, he.stat]
  · rw [advance_cmdq, hqueue, he.queue]
  · obtain ⟨hvalid, hwf, hcell⟩ := he.loaded
    have hpixel : ∀ i c, pixelCell (advance u) i c = pixelCell e i c :=
      pixelCell_congr ((advance_hdr u).trans hhdr) ((advance_pix u).trans hpix)
    refine ⟨?_, ?_, fun c row col => ?_⟩
    · rw [inputsValid_congr ((advance_hdr u).trans hhdr) ((advance_pix u).trans hpix), hvalid]
    · rw [advance_chan, hchan, hwf]
    · rw [advance_hdr, advance_chan, hhdr, hchan, hpixel]
      exact hcell c row col
  · by_cases hl : lastSample e
    · exact .inr (hflush hl)
    · exact .inl ⟨hsamples hl, (advance_walks hin (mt hlast.1 hl)).1⟩

end

/-! ## The run of an encoder to DONE -/

theorem exec_encSample (s : State) : exec .encSample s = (encodeSample s).finish := rfl

theorem EncodesTo.engineRes {u : State} {sym : List Bool} {table : List (Nat × Nat)} (h : EncodesTo e sym table u)
    (he : Encoding e) (hphase : e.seq.phase = .samples) : engineRes e = .ok () (advance u) := by
  have hexec := h.exec
  rw [exec_encSample] at hexec
  rw [he.engineRes_samples hphase]
  rcases finish_eq_next hexec with hok | ⟨err, v, -, hu⟩
  · exact hok
  · obtain ⟨dp, hframe⟩ := h.frame
    have hstat := congrArg State.stat hu
    rw [advance_stat, hframe, withSink_stat, he.stat] at hstat
    cases hstat

/-- In a run to DONE, the FLUSH is the last step: OUT is the bits pushed, padded to a whole byte (R92, R184). -/
theorem Encoding.out_of_flush {n : Nat} {t : State} (he : Encoding e) (hphase : e.seq.phase = .flush)
    (hrun : runSteps n e = .next t) (hdone : t.stat.status = .done) :
    t.out.length = ((sinkBits e).length + 7) / 8 ∧
      streamBits t.out = sinkBits e ++ List.replicate (8 * t.out.length - (sinkBits e).length) false := by
  obtain ⟨w, hflush, -, hlen, hbits⟩ := flushSink_ready he.ready
  obtain ⟨m, u, -, hok, hqueue, hrest⟩ := runSteps_done he.busy he.queue hrun hdone
  rw [he.engineRes_flush hphase, compressFlush, hflush] at hok
  cases hok
  rw [runSteps_settled m hqueue (by simp)] at hrest
  cases hrest
  exact ⟨hlen, hbits⟩

theorem quiets_compressFlush : Quiets compressFlush :=
  quiets_bind quiets_flushSink fun _ s a t h => by cases h; rfl

/-- The steps of a COMPRESS that complete, complete alike on a writer that never fails. -/
theorem engineRes_quieted {s u : State} (hmode : s.stat.mode = .enc) (h : engineRes s = .ok () u) :
    engineRes (quieted s) = .ok () (quieted u) := by
  have hmode' : (quieted s).stat.mode = .enc := hmode
  have hphase' : (quieted s).seq.phase = s.seq.phase := rfl
  unfold engineRes at h ⊢
  rw [hmode] at h
  rw [hmode', hphase']
  cases hphase : s.seq.phase with
  | header => rw [hphase] at h; exact quiets_compressHeader _ _ _ h
  | samples => rw [hphase] at h; exact quiets_encodeSample _ _ _ h
  | flush => rw [hphase] at h; exact quiets_compressFlush _ _ _ h
  | _ => rw [hphase] at h; cases h

/-- A step of an encoder that completes leaves an encoder, or ends DONE. -/
theorem Encoding.next {u : State} (he : Encoding e) (h : engineRes e = .ok () u) :
    Encoding u ∨ u.stat.status = .done := by
  rcases he.place with ⟨hphase, hseq⟩ | hphase
  · obtain ⟨sym, table, henc⟩ := encodeSample_alike he.loaded hseq
    obtain ⟨v, hv⟩ := henc e (Alike.refl e) he.loaded he.ready
    rw [hv.engineRes he hphase] at h
    obtain ⟨-, rfl⟩ := Res.ok.inj h
    exact .inl (hv.encoding he hphase).1
  · rw [he.engineRes_flush hphase, compressFlush] at h
    obtain ⟨_, w, -, hw⟩ := Res.bind_eq_ok h
    cases hw
    exact .inr rfl

/-- A run to DONE goes the same on a writer that never fails. -/
theorem quieted_run {n : Nat} {t : State} (he : Encoding (quieted e)) (hrun : runSteps n e = .next t)
    (hdone : t.stat.status = .done) : runSteps n (quieted e) = .next (quieted t) := by
  induction n generalizing e with
  | zero => cases hrun; rfl
  | succ n ih =>
    have hmode : e.stat.mode = .enc := congrArg StatusRegs.mode he.stat
    obtain ⟨m, u, hm, hok, hqueue, hrest⟩ := runSteps_done (s := e) he.busy he.queue hrun hdone
    cases hm
    have hquiet := engineRes_quieted hmode hok
    rw [runSteps_succ n ((step_of_busy he.busy he.queue).trans (by rw [hquiet, finish_ok]))]
    rcases he.next hquiet with he' | hdone'
    · exact ih he' hrest
    · have hsettled : u.stat.status ≠ .busy := by rw [show u.stat.status = .done from hdone']; decide
      rw [runSteps_settled n hqueue hsettled] at hrest
      cases hrest
      exact runSteps_settled (s := quieted t) n hqueue hsettled

/-- At the same place, both go on to the same place. -/
theorem Alike.advance {u u' : State} {sym sym' : List Bool} {table : List (Nat × Nat)} (h : Alike e e')
    (hu : EncodesTo e sym table u) (hu' : EncodesTo e' sym' table u') (he : Encoding e) (he' : Encoding e')
    (hphase : e.seq.phase = .samples) : Alike (advance u) (advance u') := by
  obtain ⟨⟨hhdr, hch, hrow, hcol, -⟩, hsame, hpix⟩ := h
  have hlast : lastSample e' ↔ lastSample e := by rw [lastSample, lastSample, hhdr, hch, hrow, hcol]
  obtain ⟨-, hflush, hsamples⟩ := hu.encoding he hphase
  obtain ⟨-, hflush', hsamples'⟩ := hu'.encoding he' (hsame.trans hphase)
  obtain ⟨dp, hframe⟩ := hu.frame
  obtain ⟨dp', hframe'⟩ := hu'.frame
  refine ⟨InStep.advance ?_, ?_, ?_⟩
  · rw [hframe, hframe']
    exact ⟨hhdr, hch, hrow, hcol, rfl⟩
  · by_cases hl : lastSample e
    · rw [hflush hl, hflush' (hlast.2 hl)]
    · rw [hsamples hl, hsamples' (mt hlast.1 hl)]
  · rw [advance_pix, advance_pix, hframe, hframe']
    exact hpix

/-- Two encoders at the same place of the same image that have pushed the same bits end with the same OUT (R194). -/
theorem Alike.out_eq {n n' : Nat} {t t' : State} (h : Alike e e') (he : Encoding e) (he' : Encoding e')
    (hbits : sinkBits e = sinkBits e') (hrun : runSteps n e = .next t) (hdone : t.stat.status = .done)
    (hrun' : runSteps n' e' = .next t') (hdone' : t'.stat.status = .done) : t.out = t'.out := by
  induction n generalizing n' e e' with
  | zero => cases hrun; rw [he.busy] at hdone; cases hdone
  | succ n ih =>
    rcases he.place with ⟨hphase, hseq⟩ | hphase
    · obtain ⟨m, u, hm, hok, -, hrest⟩ := runSteps_done he.busy he.queue hrun hdone
      obtain ⟨m', u', -, hok', -, hrest'⟩ := runSteps_done he'.busy he'.queue hrun' hdone'
      cases hm
      obtain ⟨sym, table, henc⟩ := encodeSample_alike he.loaded hseq
      obtain ⟨v, hv⟩ := henc e (Alike.refl e) he.loaded he.ready
      obtain ⟨v', hv'⟩ := henc e' h he'.loaded he'.ready
      have halike := h.advance hv hv' he he' hphase
      rw [hv.engineRes he hphase] at hok
      rw [hv'.engineRes he' (h.phase.trans hphase)] at hok'
      obtain ⟨-, rfl⟩ := Res.ok.inj hok
      obtain ⟨-, rfl⟩ := Res.ok.inj hok'
      refine ih halike (hv.encoding he hphase).1 (hv'.encoding he' (h.phase.trans hphase)).1 ?_ hrest hrest'
      rw [sinkBits_advance, sinkBits_advance, hv.bits, hv'.bits, hbits]
    · have hphase' : e'.seq.phase = .flush := h.phase.trans hphase
      obtain ⟨hlen, hout⟩ := he.out_of_flush hphase hrun hdone
      obtain ⟨hlen', hout'⟩ := he'.out_of_flush hphase' hrun' hdone'
      rw [hlen, hbits] at hout
      rw [hlen'] at hout'
      exact streamBits_injective (hout.trans hout'.symm)

end

/-! ## COMPRESS from its start (R184) -/

/-- A COMPRESS that ends DONE was given valid inputs within MAX_SAMPLES. -/
theorem runCommand_compress {n : Nat} {s t : State} (hrun : runCommand .compress n s = .next t) :
    imageTooLarge s = false ∧ runSteps n (startCommand .enc s) = .next t := by
  cases hlarge : imageTooLarge s with
  | false =>
    refine ⟨rfl, ?_⟩
    simpa only [runCommand, exec, execCompress, hlarge, Bool.false_eq_true, if_false] using hrun
  | true => simp only [runCommand, exec, execCompress, hlarge, if_true, reduceCtorEq] at hrun

/-- The encoder that a COMPRESS of the image `s` holds is at its first sample: the header is written and T is clear. -/
structure FirstSample (s e : State) : Prop where
  encoding : Encoding e
  seq : e.seq = ⟨.samples, 0, 0, 0⟩
  table : e.table = []
  hdr : e.hdr = s.hdr
  pix : e.pix = s.pix
  bits : sinkBits e = headerBits s.hdr

/-- The first sample's place is the same for the same image. -/
theorem FirstSample.alike {s s' e e' : State} (h : FirstSample s e) (h' : FirstSample s' e') (hhdr : s.hdr = s'.hdr)
    (hpix : s.pix = s'.pix) : Alike e e' := by
  have hseq : e'.seq = e.seq := h'.seq.trans h.seq.symm
  refine ⟨⟨?_, by rw [hseq], by rw [hseq], by rw [hseq], h.table.trans h'.table.symm⟩, by rw [hseq], ?_⟩
  · rw [h.hdr, h'.hdr, hhdr]
  · rw [h.pix, h'.pix, hpix]

/-- A COMPRESS that ends DONE is, on a writer that never fails, a run from the first sample to the same OUT. -/
theorem compress_done {n : Nat} {s t : State} (hqueue : s.cmdq = []) (hrun : runCommand .compress n s = .next t)
    (hdone : t.stat.status = .done) :
    inputsValid s = true ∧ imageTooLarge s = false ∧ ∃ m e t', FirstSample s e ∧ runSteps m e = .next t' ∧
      t'.stat.status = .done ∧ t'.out = t.out := by
  obtain ⟨hsmall, hrun⟩ := runCommand_compress hrun
  obtain ⟨m, e, -, hok, hqueue', hrest⟩ := runSteps_done (s := startCommand .enc s) rfl hqueue hrun hdone
  have hvalid : inputsValid s = true := by
    cases hvalid : inputsValid s with
    | true => rfl
    | false =>
      have hraise : engineRes (startCommand .enc s) = .raise .invalidInput (startCommand .enc s) :=
        compressHeader_invalid hvalid
      rw [hraise] at hok
      cases hok
  obtain ⟨u, hheader, hframe, hready, hbits⟩ := compressHeader_ready (s := quieted (startCommand .enc s)) hvalid
    ⟨rfl, fun j _ => by simp [quieted, startCommand], fun f hf => by cases hf⟩
  have he : quieted e = enterSamples (loadChannels u) :=
    (Res.ok.inj ((engineRes_quieted rfl hok).symm.trans hheader)).2
  obtain ⟨hhdr, hpix, hchan, hstat, htable, hcmdq⟩ : u.hdr = s.hdr ∧ u.pix = s.pix ∧ u.chan = [] ∧
      u.stat = ⟨.busy, 0, 0, .enc⟩ ∧ u.table = [] ∧ u.cmdq = s.cmdq := by
    rw [hframe]; exact ⟨rfl, rfl, rfl, rfl, rfl, rfl⟩
  have hloaded := loaded_loadChannels (s := u) (by rw [inputsValid_congr hhdr hpix, hvalid]) (by rw [hchan]; rfl)
  obtain ⟨c, hload, -⟩ := loadChannels_cases u
  rw [hload] at he hloaded
  have hfirst : FirstSample s (quieted e) := by
    obtain ⟨hwidth, hheight, -⟩ := (inputsValid_iff s).1 hvalid
    have hpos : ∀ w : Word32, w ≠ 0 → 0 < w.toNat := fun w hw =>
      Nat.pos_of_ne_zero fun h => hw (BitVec.eq_of_toNat_eq h)
    have hinRange : seqInRange (enterSamples { u with chan := c }) :=
      ⟨nch_pos _, by rw [← hhdr] at hheight; exact hpos _ hheight,
        by rw [← hhdr] at hwidth; exact hpos _ hwidth⟩
    rw [he]
    exact ⟨⟨hstat, hcmdq.trans hqueue, hready, ⟨hloaded.valid, hloaded.wf, hloaded.cell⟩, .inl ⟨rfl, hinRange⟩⟩, rfl, htable,
      hhdr, hpix, hbits⟩
  exact ⟨hvalid, hsmall, m, quieted e, quieted t, hfirst, quieted_run hfirst.encoding hrest hdone, hdone, rfl⟩

end Sys2Proof.Machine

namespace Sys2Proof.Machine.Container

/-- Settles O56: two COMPRESSes of one image are at the same first sample once their headers are written, and from there they
push the same bits. -/
theorem compressIsDeterministic : Obligations.CompressIsDeterministic := by
  intro s s' t t' n n' hqueue hqueue' hhdr hpix hrun hrun' hdone hdone'
  obtain ⟨-, -, m, e, u, hfirst, hrest, hdoneu, hout⟩ := compress_done hqueue hrun hdone
  obtain ⟨-, -, m', e', u', hfirst', hrest', hdoneu', hout'⟩ := compress_done hqueue' hrun' hdone'
  have halike := hfirst.alike hfirst' hhdr hpix
  have hbits : sinkBits e = sinkBits e' := by rw [hfirst.bits, hfirst'.bits, hhdr]
  rw [← hout, ← hout', halike.out_eq hfirst.encoding hfirst'.encoding hbits hrest hdoneu hrest' hdoneu']

end Sys2Proof.Machine.Container
end

section
/-! PROOF. DECOMPRESS goes by the bits it pulls (45_container.md R192): what completes has pulled some bits, and completes alike
on every source that starts with the same bits. -/

namespace Sys2Proof.Machine

/-! ## The same machine on another source -/

/-- The state with the source, IN and the reader's answers of another. -/
def atSource (s p : State) : State := { s with src := p.src, inp := p.inp, inPos := p.inPos, inFail := p.inFail }

/-- The two states differ at most in their sources. -/
def SameButIn (s s' : State) : Prop := s' = atSource s s'

/-- From `s` to `t` exactly these bits are pulled. -/
structure Consumes (bits : List Bool) (s t : State) : Prop where
  bits : readableBits s = bits ++ readableBits t
  bytes : t.inPos + (readableBytes t).length = s.inPos + (readableBytes s).length

/-- From `s` the operation completes with `a` and `t`, and alike on every source that starts with the bits it pulled. -/
structure GoesAlike {α : Type} (f : State → Res α) (s : State) (a : α) (t : State) (bits : List Bool) : Prop where
  consumes : Consumes bits s t
  alike : ∀ s', SameButIn s s' → bits <+: readableBits s' →
    ∃ t', f s' = .ok a t' ∧ SameButIn t t' ∧ Consumes bits s' t'

/-- All that the reading of a sample or a header changes: the source, and what is computed on the way. -/
def Decodes (s t : State) : Prop :=
  t = { s with
    src := t.src, inPos := t.inPos, inFail := t.inFail, dp := t.dp, table := t.table, drawn := t.drawn }

/-- Wherever the operation completes, it has read some bits and goes by them. -/
def ReadsAlike {α : Type} (f : State → Res α) : Prop :=
  ∀ s a t, f s = .ok a t → Decodes s t ∧ ∃ bits, GoesAlike f s a t bits

/-- The operation neither moves the source nor goes by it. -/
def SourceFree {α : Type} (f : State → Res α) : Prop :=
  ∀ s a t, f s = .ok a t → t = atSource t s ∧ ∀ p, f (atSource s p) = .ok a (atSource t p)

section
variable {s t u : State} {bits bits' : List Bool}

theorem Consumes.refl (s : State) : Consumes [] s s := ⟨rfl, rfl⟩

theorem Consumes.trans (h : Consumes bits s t) (h' : Consumes bits' t u) : Consumes (bits ++ bits') s u :=
  ⟨by rw [h.bits, h'.bits, List.append_assoc], h'.bytes.trans h.bytes⟩

/-- What stands after the bits pulled. -/
theorem Consumes.rest_isPrefix (h : Consumes bits s t) (hp : bits ++ bits' <+: readableBits s) : bits' <+: readableBits t := by
  rwa [h.bits, List.prefix_append_right_inj] at hp

theorem Decodes.trans (h : Decodes s t) (h' : Decodes t u) : Decodes s u := by
  unfold Decodes at *
  rw [h', h]

theorem decodes_of_sameButSource (h : sameButSource s t) : Decodes s t := by
  unfold Decodes
  rw [h]
  rfl

theorem Consumes.of_leaves {rest : List Bool} (hbits : readableBits s = bits ++ rest) (h : leaves s t rest) :
    Consumes bits s t := by
  obtain ⟨-, hrest, -, hbytes⟩ := h
  exact ⟨by rw [hbits, hrest], hbytes⟩

/-- The source of `t` is that of `s`. -/
theorem consumes_nil_of_atSource (h : t = atSource t s) : Consumes [] s t := by
  have hbytes : readableBytes t = readableBytes s := by rw [h]; rfl
  have hpos : t.inPos = s.inPos := by rw [h]; rfl
  have hsrc : t.src = s.src := by rw [h]; rfl
  exact ⟨by rw [readableBits, readableBits, hbytes, hsrc, List.nil_append], by rw [hbytes, hpos]⟩

end

/-! ## How operations that go by their bits compose -/

section
variable {α β γ : Type} {s t u : State} {bits bits' : List Bool}

theorem GoesAlike.bind {f : State → Res α} {g : α → State → Res β} {a : α} {b : β} (hf : GoesAlike f s a t bits)
    (hg : GoesAlike (g a) t b u bits') : GoesAlike (fun s => (f s).bind g) s b u (bits ++ bits') := by
  refine ⟨hf.consumes.trans hg.consumes, fun s' hs hp => ?_⟩
  obtain ⟨t', hok, ht, hc⟩ := hf.alike s' hs ((List.prefix_append _ _).trans hp)
  obtain ⟨u', hok', hu, hc'⟩ := hg.alike t' ht (hc.rest_isPrefix hp)
  exact ⟨u', by rw [hok, Res.bind_ok, hok'], hu, hc.trans hc'⟩

theorem SourceFree.goesAlike {f : State → Res α} {a : α} (h : SourceFree f) (hok : f s = .ok a t) :
    GoesAlike f s a t [] := by
  obtain ⟨hsrc, hfree⟩ := h s a t hok
  refine ⟨consumes_nil_of_atSource hsrc, fun s' hs _ => ⟨atSource t s', ?_, rfl, consumes_nil_of_atSource rfl⟩⟩
  rw [hs]
  exact hfree s'

theorem readsAlike_bind {f : State → Res α} {g : α → State → Res β} (hf : ReadsAlike f) (hg : ∀ a, ReadsAlike (g a)) :
    ReadsAlike fun s => (f s).bind g := by
  intro s b u h
  obtain ⟨a, t, ht, hu⟩ := Res.bind_eq_ok h
  obtain ⟨hd, bits, hfirst⟩ := hf s a t ht
  obtain ⟨hd', bits', hsecond⟩ := hg a t b u hu
  exact ⟨hd.trans hd', _, hfirst.bind hsecond⟩

theorem readsAlike_ofRead_bind {f : State → Read State α} {g : α → State → Read State β}
    (hf : ReadsAlike fun s => ofRead (f s)) (hg : ∀ a, ReadsAlike fun s => ofRead (g a s)) :
    ReadsAlike fun s => ofRead ((f s).bind g) := by
  simp only [ofRead_bind]
  exact readsAlike_bind hf hg

/-- A parameter taken from what is not the source. -/
theorem readsAlike_param {param : State → γ} {f : γ → State → Res α} (hparam : ∀ s p, param (atSource s p) = param s)
    (hf : ∀ x, ReadsAlike (f x)) : ReadsAlike fun s => f (param s) s := by
  intro s a t h
  obtain ⟨hd, bits, hgo⟩ := hf (param s) s a t h
  refine ⟨hd, bits, hgo.consumes, fun s' hs hp => ?_⟩
  have : param s' = param s := by rw [hs, hparam]
  simp only [this]
  exact hgo.alike s' hs hp

theorem readsAlike_of_sourceFree {f : State → Res α} (h : SourceFree f) (hd : ∀ s a t, f s = .ok a t → Decodes s t) :
    ReadsAlike f := fun s a t hok => ⟨hd s a t hok, [], h.goesAlike hok⟩

theorem readsAlike_ok (a : α) : ReadsAlike fun s => .ok a s :=
  readsAlike_of_sourceFree (fun s _ _ h => by cases h; exact ⟨rfl, fun _ => rfl⟩) fun s _ _ h => by cases h; rfl

theorem readsAlike_raise (e : Err) : ReadsAlike fun s => (.raise e s : Res α) := fun _ _ _ h => by cases h

theorem readsAlike_ite {p : Prop} [Decidable p] {f g : State → Res α} (hf : ReadsAlike f) (hg : ReadsAlike g) :
    ReadsAlike fun s => if p then f s else g s := by
  by_cases hp : p
  · simpa only [if_pos hp] using hf
  · simpa only [if_neg hp] using hg

theorem readsAlike_ofRead_ite {p : Prop} [Decidable p] {f g : State → Read State α} (hf : ReadsAlike fun s => ofRead (f s))
    (hg : ReadsAlike fun s => ofRead (g s)) : ReadsAlike fun s => ofRead (if p then f s else g s) := by
  simp only [apply_ite ofRead]
  exact readsAlike_ite hf hg

end

/-! ## Pulling, and the readings built on it -/

theorem pullBit_eq_ok {s t : State} {b : Bool} (h : pullBit s = .ok b t) :
    ∃ rest, readableBits s = b :: rest ∧ leaves s t rest := by
  cases hbits : readableBits s with
  | nil => rw [(pullBit_nil s hbits).1] at h; cases h
  | cons c rest =>
    obtain ⟨t', hok, hleft⟩ := pullBit_cons s c rest hbits
    rw [hok] at h
    cases h
    exact ⟨rest, rfl, hleft⟩

theorem readsAlike_pullBit : ReadsAlike fun s => ofRead (pullBit s) := by
  intro s b t h
  have hpull : pullBit s = .ok b t := by
    cases hpull : pullBit s with
    | err e u => simp only [hpull, ofRead_err, reduceCtorEq] at h
    | ok c u => simpa only [hpull, ofRead_ok, Res.ok.injEq, Read.ok.injEq] using h
  obtain ⟨rest, hbits, hleft⟩ := pullBit_eq_ok hpull
  refine ⟨decodes_of_sameButSource hleft.frame, [b], .of_leaves hbits hleft, fun s' hs ⟨rest', hbits'⟩ => ?_⟩
  obtain ⟨t', hok, hleft'⟩ := pullBit_cons s' b rest' hbits'.symm
  refine ⟨t', by simp only [hok, ofRead_ok], ?_, .of_leaves hbits'.symm hleft'⟩
  have ht := hleft.frame
  have ht' := hleft'.frame
  unfold SameButIn sameButSource at *
  rw [ht', ht, hs]
  rfl

theorem readsAlike_readBits (n acc : Nat) : ReadsAlike fun s => ofRead (readBits pullBit n acc s) := by
  induction n generalizing acc with
  | zero => exact readsAlike_ok acc
  | succ n ih => exact readsAlike_ofRead_bind readsAlike_pullBit fun b => ih _

theorem readsAlike_readField (n : Nat) : ReadsAlike fun s => ofRead (readField pullBit n s) := by
  by_cases hn : Config.pushMax < n
  · simpa only [readField, if_pos hn, ofRead_err] using readsAlike_raise _
  · simpa only [readField, if_neg hn] using readsAlike_readBits n 0

theorem readsAlike_countZeros (left q : Nat) : ReadsAlike fun s => ofRead (countZeros pullBit left q s) := by
  induction left generalizing q with
  | zero =>
    exact readsAlike_ofRead_bind readsAlike_pullBit fun b => readsAlike_ofRead_ite (readsAlike_ok q) (readsAlike_raise _)
  | succ left ih =>
    exact readsAlike_ofRead_bind readsAlike_pullBit fun b => readsAlike_ofRead_ite (readsAlike_ok q) (ih _)

theorem readsAlike_readRice (k w : Nat) : ReadsAlike fun s => ofRead (readRice pullBit k w s) := by
  simp only [readRice, readRicePair_eq]
  refine readsAlike_ofRead_bind (readsAlike_ofRead_bind (readsAlike_countZeros _ _) fun q => ?_) fun qr => readsAlike_ok _
  exact readsAlike_ofRead_bind (readsAlike_readField k) fun r => readsAlike_ok (q, r)

theorem readsAlike_readPhased (n : Nat) : ReadsAlike fun s => ofRead (readPhased pullBit n s) := by
  refine readsAlike_ofRead_bind (readsAlike_ofRead_bind (readsAlike_readField _) fun x => ?_) fun cw => ?_
  · exact readsAlike_ofRead_ite (readsAlike_ok (Codeword.short x))
      (readsAlike_ofRead_bind readsAlike_pullBit fun b => readsAlike_ok (Codeword.long (2 * x + b.toNat)))
  · cases codewordIndex n cw with
    | none => exact readsAlike_raise _
    | some v => exact readsAlike_ok v

theorem readsAlike_readHeader : ReadsAlike fun s => ofRead (readHeader pullBit s) :=
  readsAlike_ofRead_bind (readsAlike_readField 32) fun _ => readsAlike_ofRead_ite (readsAlike_raise _) <|
  readsAlike_ofRead_bind (readsAlike_readField 8) fun ct => readsAlike_ofRead_ite (readsAlike_raise _) <|
  readsAlike_ofRead_bind (readsAlike_readField 8) fun dc => readsAlike_ofRead_ite (readsAlike_raise _) <|
  readsAlike_ofRead_bind (readsAlike_readField 32) fun wd => readsAlike_ofRead_bind (readsAlike_readField 32) fun ht =>
  readsAlike_ofRead_ite (readsAlike_raise _) <|
  readsAlike_ok (⟨BitVec.ofNat 1 ct, BitVec.ofNat 1 dc, BitVec.ofNat 32 wd, BitVec.ofNat 32 ht⟩ : HeaderFields)

theorem readsAlike_riceDec (k w : Nat) : ReadsAlike (riceDec k w) :=
  readsAlike_bind (readsAlike_readRice k w) fun v => readsAlike_of_sourceFree
    (fun s a t h => by cases h; exact ⟨rfl, fun _ => rfl⟩) fun s a t h => by cases h; rfl

theorem readsAlike_phasedDec (n : Nat) (h : 1 ≤ n) : ReadsAlike (phasedDec n) := by
  simpa only [funext fun s => phasedDec_pos n s h] using readsAlike_readPhased n

/-! ## The value of a sample (44_channel_coder.md R166 to R169) -/

/-- What an out-of-range symbol stands for. -/
def symbolSample (above : Bool) (v : Nat) (s : State) : Int := if above then s.dp.h + v + 1 else s.dp.l - v - 1

/-- The end of an out-of-range symbol up to its value: the range check and UPDATE. -/
def outOfRangeValue (above : Bool) (v : Nat) (s : State) : Res Int :=
  if sampleFits (maxSample s) (symbolSample above v s) then
    (updateTable s.dp.delta v { s with dp := { s.dp with p := symbolSample above v s } }).bind
      fun _ t => .ok (symbolSample above v s) t
  else .raise .malformedCodeword { s with dp := { s.dp with p := symbolSample above v s } }

/-- A symbol's decoding up to its value. -/
def symbolValue (s : State) : Res Int :=
  (ofRead (pullBit s)).bind fun inRange s =>
  if inRange then (phasedDec (s.dp.delta + 1) s).bind fun v s => .ok (s.dp.l + v) s
  else
    (ofRead (pullBit s)).bind fun above s =>
    (getK s.dp.delta s).bind fun k s =>
    (riceDec k (chanWidth s) s).bind fun v s =>
    outOfRangeValue above v s

/-- DEC_SAMPLE up to the sample's value: what it reads, and what it computes on the way. -/
def sampleValue (s : State) : Res Int :=
  if idx s < 2 then (pullBits (chanWidth s) s).bind fun p s => .ok (p : Int) s
  else (predict s).bind fun _ s => symbolValue s

theorem takeOutOfRange_eq (above : Bool) (v : Nat) (s : State) :
    takeOutOfRange above v s = (outOfRangeValue above v s).bind fun p s => .ok () (storeSample p s) := by
  by_cases hfits : sampleFits (maxSample s) (symbolSample above v s) = true
  · rw [outOfRangeValue, if_pos hfits]
    exact if_pos hfits
  · rw [outOfRangeValue, if_neg hfits]
    exact if_neg hfits

theorem takeSymbol_eq (s : State) :
    takeSymbol s = (symbolValue s).bind fun p s => .ok () (storeSample p s) := by
  simp only [takeSymbol, symbolValue, Res.bind_assoc]
  congr 1
  funext inRange t
  cases inRange
  · simp only [Bool.false_eq_true, if_false, Res.bind_assoc, takeOutOfRange_eq]
  · simp only [if_true, Res.bind_assoc, Res.bind_ok]

/-- DEC_SAMPLE is the reading of a value and its storing (R168, R170). -/
theorem decodeSample_eq (s : State) :
    decodeSample s = (sampleValue s).bind fun p s => .ok () (storeSample p s) := by
  unfold decodeSample sampleValue
  by_cases hidx : idx s < 2
  · simp only [if_pos hidx, Res.bind_assoc, Res.bind_ok]
  · simp only [if_neg hidx, Res.bind_assoc, takeSymbol_eq]

theorem readsAlike_predict : ReadsAlike predict := by
  refine readsAlike_of_sourceFree (fun s a t h => ?_) fun s a t h => ?_
  · rcases Nat.lt_or_ge (idx s) 2 with hidx | hidx
    · rw [predict_verbatim s hidx] at h
      cases h
      exact ⟨rfl, fun p => predict_verbatim (atSource s p) hidx⟩
    · simp only [predict, if_neg hidx.not_gt] at h
      split at h
      · rename_i x y hx hy
        cases h
        exact ⟨rfl, fun p => predict_eq (atSource s p) hidx x y hx hy⟩
      · cases h
  · rcases predict_cases s with ⟨dp, hok, -⟩ | hfault
    · rw [hok] at h; cases h; rfl
    · rw [hfault] at h; cases h

theorem readsAlike_getK : ReadsAlike fun s => getK s.dp.delta s :=
  readsAlike_of_sourceFree (fun s a t h => by cases h; exact ⟨rfl, fun _ => rfl⟩) fun s a t h => by cases h; rfl

theorem outOfRangeValue_eq_ok {above : Bool} {v : Nat} {p : Int} {s t : State} (h : outOfRangeValue above v s = .ok p t) :
    sampleFits (maxSample s) (symbolSample above v s) = true := by
  by_contra hfits
  rw [outOfRangeValue, if_neg hfits] at h
  cases h

theorem readsAlike_outOfRangeValue (above : Bool) (v : Nat) : ReadsAlike (outOfRangeValue above v) := by
  refine readsAlike_of_sourceFree (fun s a t h => ?_) fun s a t h => ?_
  · have hfits := outOfRangeValue_eq_ok h
    rw [outOfRangeValue, if_pos hfits] at h
    cases h
    exact ⟨rfl, fun p => if_pos hfits⟩
  · rw [outOfRangeValue, if_pos (outOfRangeValue_eq_ok h)] at h
    cases h
    rfl

theorem readsAlike_symbolValue : ReadsAlike symbolValue := by
  refine readsAlike_bind readsAlike_pullBit fun inRange => readsAlike_ite ?_ ?_
  · refine readsAlike_bind (readsAlike_param (param := fun s => s.dp.delta) (f := fun delta => phasedDec (delta + 1))
      (fun _ _ => rfl) fun delta => readsAlike_phasedDec _ (Nat.succ_pos _)) fun v => ?_
    exact readsAlike_param (param := fun s => s.dp.l) (f := fun l s => .ok (l + v) s) (fun _ _ => rfl)
      fun l => readsAlike_ok _
  · refine readsAlike_bind readsAlike_pullBit fun above => readsAlike_bind readsAlike_getK fun k => ?_
    exact readsAlike_bind (readsAlike_param (param := chanWidth) (f := fun w => riceDec k w) (fun _ _ => rfl)
      fun w => readsAlike_riceDec k w) fun v => readsAlike_outOfRangeValue above v

theorem readsAlike_sampleValue : ReadsAlike sampleValue := by
  refine readsAlike_param (param := idx) (f := fun i s =>
    if i < 2 then (pullBits (chanWidth s) s).bind fun p s => .ok (p : Int) s
    else (predict s).bind fun _ s => symbolValue s) (fun _ _ => rfl) fun i => readsAlike_ite ?_ ?_
  · exact readsAlike_bind (readsAlike_param (param := chanWidth) (f := pullBits) (fun _ _ => rfl) readsAlike_readField)
      fun p => readsAlike_ok (p : Int)
  · exact readsAlike_bind readsAlike_predict fun _ => readsAlike_symbolValue

/-! ## The steps of a DECOMPRESS -/

theorem advance_atSource (s p : State) : advance (atSource s p) = atSource (advance s) p := by
  unfold advance
  simp only [apply_ite (fun t => atSource t p)]
  rfl

theorem sourceFree_storeSample (x : Int) : SourceFree fun s => .ok () (storeSample x s) := by
  have hstore : ∀ s p, storeSample x (atSource s p) = atSource (storeSample x s) p := fun s p =>
    advance_atSource (withSample s x) p
  intro s a t h
  cases h
  exact ⟨hstore s s, fun p => congrArg (Res.ok ()) (hstore s p)⟩

/-- What the HEADER step does with a header: the metadata, the bound of R195 and the first sample (R183, R188). -/
def takeHeader (h : HeaderFields) (s : State) : Res Unit :=
  if imageTooLarge { s with hdr := h } then .refuse .imageTooLarge else .ok () (enterSamples { s with hdr := h })

theorem decompressHeader_eq (s : State) : decompressHeader s = (ofRead (readHeader pullBit s)).bind takeHeader := by
  rw [decompressHeader, parseHeader, Res.bind_assoc]
  rfl

theorem takeHeader_eq_ok {h : HeaderFields} {s t : State} (hok : takeHeader h s = .ok () t) :
    ¬ imageTooLarge { s with hdr := h } = true ∧ t = enterSamples { s with hdr := h } := by
  unfold takeHeader at hok
  split at hok
  · cases hok
  · rename_i hsmall
    cases hok
    exact ⟨hsmall, rfl⟩

theorem sourceFree_takeHeader (h : HeaderFields) : SourceFree (takeHeader h) := by
  intro s a t hok
  obtain ⟨hsmall, rfl⟩ := takeHeader_eq_ok hok
  exact ⟨rfl, fun p => if_neg hsmall⟩

theorem sourceFree_decompressFinish : SourceFree decompressFinish := by
  intro s a t h
  rcases reconstruct_cases s with ⟨xs, hr⟩ | hr | hr
  · have hr' : ∀ p, reconstruct (atSource s p) = .ok () (atSource { s with pix := xs } p) := fun p => by
      unfold reconstruct at hr ⊢
      have hsame : gather (pixelSamples (atSource s p)) 0 (nsamp (atSource s p).hdr) =
        gather (pixelSamples s) 0 (nsamp s.hdr) := rfl
      rw [hsame]
      cases hg : gather (pixelSamples s) 0 (nsamp s.hdr) with
      | none => rw [hg] at hr; cases hr
      | some ys =>
        simp only [hg] at hr ⊢
        by_cases hbad : s.hdr.color ≠ 0 ∧ ys.all (componentFits s.hdr) = false
        · rw [if_pos hbad] at hr; cases hr
        · rw [if_neg hbad] at hr
          have hpix : ys.map Int.toNat = xs := congrArg State.pix (Res.ok.inj hr).2
          rw [← hpix]
          exact if_neg hbad
    rw [decompressFinish, hr] at h
    cases h
    exact ⟨rfl, fun p => by rw [decompressFinish, hr']; rfl⟩
  · rw [decompressFinish, hr] at h; cases h
  · rw [decompressFinish, hr] at h; cases h

theorem GoesAlike.congr {α : Type} {f g : State → Res α} {s t : State} {a : α} {bits : List Bool}
    (hfg : ∀ s', SameButIn s s' → f s' = g s') (h : GoesAlike g s a t bits) : GoesAlike f s a t bits :=
  ⟨h.consumes, fun s' hs hp => by rw [hfg s' hs]; exact h.alike s' hs hp⟩

/-- A step of a DECOMPRESS that completes goes by the bits it pulls. -/
theorem engineRes_alike {s u : State} (hmode : s.stat.mode = .dec) (h : engineRes s = .ok () u) :
    u.stat.mode = .dec ∧ ∃ bits, GoesAlike engineRes s () u bits := by
  have hsame : ∀ s', SameButIn s s' → s'.stat.mode = .dec ∧ s'.seq.phase = s.seq.phase := fun s' hs => by
    rw [hs]; exact ⟨hmode, rfl⟩
  cases hphase : s.seq.phase with
  | header =>
    have hres : ∀ s', SameButIn s s' → engineRes s' = (ofRead (readHeader pullBit s')).bind takeHeader := fun s' hs => by
      obtain ⟨hmode', hphase'⟩ := hsame s' hs
      simp only [engineRes, hmode', hphase', hphase, decompressHeader_eq]
    rw [hres s rfl] at h
    obtain ⟨hd, w, hread, htake⟩ := Res.bind_eq_ok h
    obtain ⟨hframe, bits, hgo⟩ := readsAlike_readHeader s hd w hread
    refine ⟨?_, _, (hgo.bind ((sourceFree_takeHeader hd).goesAlike htake)).congr hres⟩
    obtain ⟨-, rfl⟩ := takeHeader_eq_ok htake
    rw [hframe]
    exact hmode
  | samples =>
    have hres : ∀ s', SameButIn s s' → engineRes s' = (sampleValue s').bind fun p s => .ok () (storeSample p s) :=
      fun s' hs => by
        obtain ⟨hmode', hphase'⟩ := hsame s' hs
        simp only [engineRes, hmode', hphase', hphase, decodeSample_eq]
    rw [hres s rfl] at h
    obtain ⟨p, w, hread, hstore⟩ := Res.bind_eq_ok h
    obtain ⟨hframe, bits, hgo⟩ := readsAlike_sampleValue s p w hread
    refine ⟨?_, _, (hgo.bind ((sourceFree_storeSample p).goesAlike hstore)).congr hres⟩
    cases hstore
    rw [storeSample, advance_stat, hframe]
    exact hmode
  | finish =>
    have hres : ∀ s', SameButIn s s' → engineRes s' = decompressFinish s' := fun s' hs => by
      obtain ⟨hmode', hphase'⟩ := hsame s' hs
      simp only [engineRes, hmode', hphase', hphase]
    rw [hres s rfl] at h
    refine ⟨?_, _, (sourceFree_decompressFinish.goesAlike h).congr hres⟩
    rcases reconstruct_cases s with ⟨xs, hr⟩ | hr | hr <;> rw [decompressFinish, hr] at h <;> cases h
    exact hmode
  | _ => simp only [engineRes, hmode, hphase, reduceCtorEq] at h

/-- A run of a DECOMPRESS that ends DONE goes by the bits it pulls (R192). -/
theorem decompress_run_alike {n : Nat} {s t : State} (hmode : s.stat.mode = .dec) (hqueue : s.cmdq = [])
    (hrun : runSteps n s = .next t) (hdone : t.stat.status = .done) :
    ∃ bits, Consumes bits s t ∧ ∀ s', SameButIn s s' → bits <+: readableBits s' →
      ∃ t', runSteps n s' = .next t' ∧ SameButIn t t' ∧ Consumes bits s' t' := by
  induction n generalizing s with
  | zero =>
    cases hrun
    exact ⟨[], .refl _, fun s' hs _ => ⟨s', rfl, hs, .refl s'⟩⟩
  | succ n ih =>
    by_cases hbusy : s.stat.status = .busy
    · obtain ⟨m, u, hm, hok, hqueue', hrest⟩ := runSteps_done hbusy hqueue hrun hdone
      cases hm
      obtain ⟨hmode', bits, hgo⟩ := engineRes_alike hmode hok
      obtain ⟨bits', hconsumes, hrun'⟩ := ih hmode' hqueue' hrest
      refine ⟨bits ++ bits', hgo.consumes.trans hconsumes, fun s' hs hp => ?_⟩
      obtain ⟨u', hok', hu, hc⟩ := hgo.alike s' hs ((List.prefix_append _ _).trans hp)
      obtain ⟨t', hrest', ht, hc'⟩ := hrun' u' hu (hc.rest_isPrefix hp)
      have hstep : step s' = .next u' := by
        rw [step_of_busy (by rw [hs]; exact hbusy) (by rw [hs]; exact hqueue), hok', finish_ok]
      exact ⟨t', by rw [runSteps_succ n hstep, hrest'], ht, hc.trans hc'⟩
    · rw [runSteps_settled _ hqueue hbusy] at hrun
      cases hrun
      refine ⟨[], .refl _, fun s' hs _ => ⟨s', ?_, hs, .refl s'⟩⟩
      exact runSteps_settled _ (by rw [hs]; exact hqueue) (by rw [hs]; exact hbusy)

/-! ## Where the source stands after the bits pulled (R192) -/

section
variable {s t : State} {bits : List Bool}

theorem readableBits_length (s : State) :
    (readableBits s).length = s.src.cnt.toNat + 8 * (readableBytes s).length := by
  rw [readableBits, List.length_append, bitsMsb_length, streamBits_length]

/-- From an empty buffer at the start of IN, the number of bits pulled fixes IN_POS and R_CNT. -/
theorem Consumes.position (h : Consumes bits s t) (hcnt : s.src.cnt = 0) (hpos : s.inPos = 0) :
    t.inPos = (bits.length + 7) / 8 ∧ t.src.cnt.toNat = 8 * t.inPos - bits.length ∧
      bits.length = 8 * t.inPos - t.src.cnt.toNat := by
  have hlen := congrArg List.length h.bits
  have hbytes := h.bytes
  have hlt : t.src.cnt.toNat < 8 := t.src.cnt.isLt
  have hzero : s.src.cnt.toNat = 0 := by rw [hcnt]; rfl
  rw [List.length_append, readableBits_length, readableBits_length] at hlen
  omega

theorem streamBits_take (l : List Byte) (n : Nat) : streamBits (l.take n) = (streamBits l).take (8 * n) := by
  induction n generalizing l with
  | zero => simp
  | succ n ih =>
    cases l with
    | nil => simp
    | cons b l =>
      rw [List.take_succ_cons, streamBits_cons, ih, streamBits_cons, List.take_append, byteBits_length,
        List.take_of_length_le (l := byteBits b) (by rw [byteBits_length]; omega), show 8 * (n + 1) - 8 = 8 * n by omega]

/-- At the start of IN, the readable bits begin with the given ones where IN does, up to the reader's first failure. -/
theorem prefix_readableBits_iff (hcnt : s.src.cnt = 0) (hpos : s.inPos = 0) : bits <+: readableBits s ↔
    bits <+: streamBits s.inp ∧ ∀ n, readsBeforeFailure s.inFail = some n → bits.length ≤ 8 * n := by
  have hreadable : readableBits s = streamBits (readableBytes s) := by
    rw [readableBits, hcnt]
    rfl
  rw [hreadable, readableBytes, hpos, List.drop_zero]
  cases hfail : readsBeforeFailure s.inFail with
  | none => simp
  | some n => simp [streamBits_take, List.prefix_take_iff]

end

end Sys2Proof.Machine

namespace Sys2Proof.Machine.Container

/-- Settles O57: the run pulls some bits of IN, the other IN starts with the same bits, and so the run goes the same there. -/
theorem trailingDataIgnored : Obligations.TrailingDataIgnored := by
  intro s t n other hqueue hrun hdone hlen hagree
  obtain ⟨bits, hconsumes, halike⟩ :=
    decompress_run_alike (s := startCommand .dec s) rfl hqueue hrun hdone
  obtain ⟨-, -, hcount⟩ := hconsumes.position rfl rfl
  rw [← hcount] at hlen hagree
  obtain ⟨hprefix, hfail⟩ := (prefix_readableBits_iff (s := startCommand .dec s) rfl rfl).1
    (hconsumes.bits ▸ List.prefix_append _ _)
  have hother : bits <+: streamBits other := by
    rw [List.prefix_iff_eq_take] at hprefix ⊢
    rw [hagree]
    exact hprefix
  obtain ⟨t', hrun', hsame, hconsumes'⟩ := halike (startCommand .dec { s with inp := other }) rfl
    ((prefix_readableBits_iff rfl rfl).2 ⟨hother, hfail⟩)
  obtain ⟨hpos, hcnt, -⟩ := hconsumes.position rfl rfl
  obtain ⟨hpos', hcnt', -⟩ := hconsumes'.position rfl rfl
  have hpos'' : t'.inPos = t.inPos := by rw [hpos, hpos']
  refine ⟨t', hrun', ?_, ?_, ?_, hpos'', BitVec.eq_of_toNat_eq (by rw [hcnt, hcnt', hpos''])⟩
  · rw [hsame]; rfl
  · rw [hsame]; rfl
  · rw [hsame]; rfl

end Sys2Proof.Machine.Container
end

section
/-! PROOF. The round trip of the commands (45_container.md R193): DECOMPRESS walks through the image beside COMPRESS, by the
mirror property of each sample (44_channel_coder.md R171), and FINISH undoes the channel load. -/

namespace Sys2Proof.Machine

/-! ## FINISH undoes the channel load (R186, R190) -/

/-- The cells of a pixel give its samples back (43_color_transform.md R155). -/
theorem pixelOf_pixelCell (s : State) (i : Nat) :
    pixelOf s.hdr (pixelCell s i) = (List.range (nch s.hdr)).map fun j => pixAt s (i * nch s.hdr + j) := by
  rcases flag_cases s.hdr.color with hcolor | hcolor
  · rw [pixelOf_gray hcolor, pixelCell_gray hcolor, nch_gray hcolor, Nat.mul_one]
    rfl
  · have hinv := ycocgInverse_of_ycocgForward
      (rfl : ycocgForward (pixAt s (i * 3)) (pixAt s (i * 3 + 1)) (pixAt s (i * 3 + 2)) = (_, _, _))
    rw [nch_rgb hcolor, pixelOf_rgb hcolor (r := pixAt s (i * 3)) (g := pixAt s (i * 3 + 1)) (b := pixAt s (i * 3 + 2))]
    · rfl
    · simp only [pixelCell_rgb hcolor, if_true, one_ne_zero, OfNat.ofNat_ne_zero, OfNat.ofNat_ne_one, if_false,
        add_sub_cancel_right]
      exact hinv

/-- The image behind the loaded cells is PIX. -/
theorem imageOf_pixelCell {s : State} (hlen : s.pix.length = nsamp s.hdr * nch s.hdr) :
    imageOf s.hdr (pixelCell s) = s.pix.map Int.ofNat := by
  refine List.ext_getElem? fun k => ?_
  by_cases hk : k < nsamp s.hdr * nch s.hdr
  · have hj : k % nch s.hdr < nch s.hdr := Nat.mod_lt _ (nch_pos _)
    have hi : k / nch s.hdr < nsamp s.hdr := Nat.div_lt_of_lt_mul (by rwa [Nat.mul_comm])
    have hget := getElem?_imageOf (cell := pixelCell s) hi hj
    rw [Nat.div_add_mod', pixelOf_pixelCell, List.getElem?_map, List.getElem?_range hj, Option.map_some,
      Nat.div_add_mod'] at hget
    rw [hget, List.getElem?_map, List.getElem?_eq_getElem (hlen ▸ hk), Option.map_some, pixAt,
      List.getD_eq_getElem _ _ (hlen ▸ hk)]
    rfl
  · rw [List.getElem?_eq_none (by rw [imageOf_length]; omega), List.getElem?_eq_none (by rw [List.length_map]; omega)]

/-- FINISH over the cells of a loaded image writes that image's PIX. -/
theorem reconstruct_loaded {s t : State} (hvalid : inputsValid s = true) (hhdr : t.hdr = s.hdr)
    (hcell : ∀ c row col, c < nch s.hdr → row < s.hdr.height.toNat → col < s.hdr.width.toNat →
      chanRead t.chan c row col = some (pixelCell s (row * s.hdr.width.toNat + col) c)) :
    reconstruct t = .ok () { t with pix := s.pix } := by
  obtain ⟨-, -, hlen, hpix⟩ := (inputsValid_iff s).1 hvalid
  have hcells : ∀ i < nsamp t.hdr, ∀ c < nch t.hdr, cellAt t c i = some (pixelCell s i c) := fun i hi c hc => by
    rw [hhdr] at hi hc
    obtain ⟨hrow, hcol⟩ := raster_bounds hi
    rw [cellAt, hhdr, hcell c _ _ hc hrow hcol, Nat.div_add_mod']
  have hfits : (s.pix.map Int.ofNat).all (componentFits s.hdr) = true := by
    simp only [List.all_map, List.all_eq_true, Function.comp_apply, componentFits, decide_eq_true_eq]
    exact fun x hx => ⟨Int.natCast_nonneg x, Int.ofNat_lt.2 (hpix x hx) |>.trans_eq (Nat.cast_pow 2 _)⟩
  have hback : Int.toNat ∘ Int.ofNat = id := rfl
  rw [reconstruct_eq hcells, hhdr, imageOf_pixelCell hlen, if_neg (by rw [hfits]; simp), List.map_map, hback, List.map_id]

/-! ## The decoder beside the encoder (R171, R188) -/

/-- A DECOMPRESS whose header is read, at the encoder's place, with the cells that the encoder has passed. -/
structure Decoding (e d : State) : Prop where
  inStep : InStep e d
  stat : d.stat = ⟨.busy, 0, 0, .dec⟩
  queue : d.cmdq = []
  wf : cellsWf d.chan = true
  phase : d.seq.phase = if e.seq.phase = .samples then .samples else .finish
  cells : ∀ c row col, c < nch e.hdr → row < e.hdr.height.toNat → col < e.hdr.width.toNat →
    (e.seq.phase = .samples → isBefore e c row col) → chanRead d.chan c row col = chanRead e.chan c row col
  bytes : d.inPos + (readableBytes d).length = d.inp.length

/-- A DECOMPRESS that ended DONE with the image of `s` and all of IN consumed. -/
structure Restored (s v : State) : Prop where
  stat : v.stat = ⟨.done, 0, 0, .dec⟩
  hdr : v.hdr = s.hdr
  pix : v.pix = s.pix
  consumed : v.inPos = v.inp.length

section
variable {e d w : State} {sym rest : List Bool} {table : List (Nat × Nat)}

theorem Decoding.step (h : Decoding e d) : Machine.step d = (engineRes d).finish :=
  step_of_busy (by rw [h.stat]) h.queue

theorem EncodesTo.fields (h : EncodesTo e sym table w) :
    w.hdr = e.hdr ∧ w.seq = e.seq ∧ w.chan = e.chan ∧ w.pix = e.pix := by
  obtain ⟨dp, hframe⟩ := h.frame
  rw [hframe]
  exact ⟨rfl, rfl, rfl, rfl⟩

/-- What the encoder has passed after a sample, it had passed before or is that sample. -/
theorem EncodesTo.passed {c row col : Nat} (h : EncodesTo e sym table w) (hseq : seqInRange e) (hc : c < nch e.hdr)
    (hrow : row < e.hdr.height.toNat) (hcol : col < e.hdr.width.toNat)
    (hbefore : ¬ lastSample e → isBefore (advance w) c row col) : isBefore e c row col ∨ isCurrent e c row col := by
  obtain ⟨hhdr, hsame, -, -⟩ := h.fields
  by_cases hlast : lastSample e
  · exact isBefore_or_isCurrent_of_last hseq hlast hc hrow hcol
  · have hin : seqInRange w := by unfold seqInRange; rw [hhdr, hsame]; exact hseq
    have hlast' : ¬ lastSample w := by unfold lastSample; rw [hhdr, hsame]; exact hlast
    have hwalk := (advance_walks hin hlast').2.2 c row col (by rwa [hhdr]) (by rwa [hhdr]) (hbefore hlast)
    unfold isBefore isCurrent idx at hwalk ⊢
    rwa [hhdr, hsame] at hwalk

/-- DEC_SAMPLE on a running decoder that completes: a value is read, and stored in the cell in progress. -/
theorem decodeSample_stores {d' : State} (hdec : exec .decSample d = .next d') (hstat : d'.stat = d.stat)
    (hbusy : d.stat.status = .busy) :
    decodeSample d = .ok () d' ∧ ∃ x p, Decodes d x ∧ d' = advance (withSample x p) ∧
      x.inPos + (readableBytes x).length = d.inPos + (readableBytes d).length := by
  have hfinish : (decodeSample d).finish = .next d' := hdec
  rcases finish_eq_next hfinish with hok | ⟨err, v, -, rfl⟩
  · refine ⟨hok, ?_⟩
    rw [decodeSample_eq] at hok
    obtain ⟨p, x, hread, hstore⟩ := Res.bind_eq_ok hok
    obtain ⟨hframe, bits, hgo⟩ := readsAlike_sampleValue d p x hread
    cases hstore
    exact ⟨x, p, hframe, rfl, hgo.consumes.bytes⟩
  · rw [← hstat] at hbusy
    cases hbusy

/-- A sample stored in the cell in progress leaves every other cell of the image. -/
theorem Decoding.chanRead_withSample {x : State} {p : Int} {c row col : Nat} (h : Decoding e d) (hseq : x.seq = d.seq)
    (hchan : x.chan = d.chan) (hrow : row < e.hdr.height.toNat) (hcol : col < e.hdr.width.toNat)
    (hother : ¬ isCurrent e c row col) : chanRead (withSample x p).chan c row col = chanRead d.chan c row col := by
  obtain ⟨-, hch, hrow', hcol', -⟩ := h.inStep
  rw [withSample, hchan, hseq, chanRead_write d.chan h.wf _ _ _ _ _ _ _ (BitVec.isLt _) (BitVec.isLt _)
    (hrow.trans (BitVec.isLt _)) (hcol.trans (BitVec.isLt _)), ← hch, ← hrow', ← hcol']
  exact if_neg hother

/-- The decoder takes the encoder's sample and goes on beside it. -/
theorem Decoding.next (h : Decoding e d) (he : Encoding e) (hphase : e.seq.phase = .samples)
    (hw : EncodesTo e sym table w) (hbits : readableBits d = sym ++ rest) :
    ∃ d', engineRes d = .ok () d' ∧ Decoding (advance w) d' ∧ readableBits d' = rest := by
  have hseq := he.inRange hphase
  have hsame : SameCellsBefore e d := fun row col hrow hcol hlt =>
    h.cells _ row col hseq.1 hrow hcol fun _ => .inr ⟨rfl, hlt⟩
  obtain ⟨d', hdec, -, -, hstep, hstat, hrest, hcell⟩ := mirrors_of_inStep h.inStep h.wf hseq he.loaded.full he.ready hsame
    (advance w) rest hw.exec (by rw [sinkBits_advance, hw.bits, List.drop_left, hbits])
  obtain ⟨hok, x, p, hframe, rfl, hbytes⟩ := decodeSample_stores hdec hstat (by rw [h.stat])
  have hres : engineRes d = .ok () (advance (withSample x p)) := by
    have hphase' := h.phase
    rw [if_pos hphase] at hphase'
    simp only [engineRes, h.stat, hphase', hok]
  obtain ⟨hxseq, hxhdr, hxchan, hxqueue, hxinp⟩ : x.seq = d.seq ∧ x.hdr = d.hdr ∧ x.chan = d.chan ∧ x.cmdq = d.cmdq ∧
      x.inp = d.inp := by
    rw [hframe]; exact ⟨rfl, rfl, rfl, rfl, rfl⟩
  obtain ⟨hwhdr, hwseq, hwchan, -⟩ := hw.fields
  obtain ⟨-, hflush, hsamples⟩ := hw.encoding he hphase
  have hlast : lastSample (withSample x p) ↔ lastSample e := by
    obtain ⟨hhdr, hch, hrow, hcol, -⟩ := h.inStep
    unfold lastSample withSample
    rw [hxseq, hxhdr, hhdr, hch, hrow, hcol]
  refine ⟨_, hres, ⟨hstep, hstat.trans h.stat, ?queue, ?wf, ?phase, ?cells, ?bytes⟩, hrest⟩
  case queue => rw [advance_cmdq]; exact hxqueue.trans h.queue
  case wf => rw [advance_chan]; exact cellsWf_chanWrite _ (by rw [hxchan, h.wf]) _ _ _ _
  case phase =>
    by_cases hl : lastSample e
    · rw [hflush hl, advance_phase_of_last (.inr (by rw [← advance_stat, hstat, h.stat])) (hlast.2 hl),
        ← advance_stat, hstat, h.stat]
      rfl
    · have hin : seqInRange (withSample x p) := by
        obtain ⟨hhdr, hch, hrow, hcol, -⟩ := h.inStep
        unfold seqInRange withSample at *
        rwa [hxseq, hxhdr, ← hhdr, ← hch, ← hrow, ← hcol]
      rw [hsamples hl, (advance_walks hin (mt hlast.1 hl)).2.1, if_pos rfl]
      exact (congrArg Sequencer.phase hxseq).trans (h.phase.trans (if_pos hphase))
  case cells =>
    intro c row col hc hrow hcol hbefore
    rw [advance_hdr, hwhdr] at hc hrow hcol
    rw [advance_chan w, hwchan]
    by_cases hcurrent : isCurrent e c row col
    · obtain ⟨rfl, rfl, rfl⟩ := hcurrent
      exact hcell
    · have hold := (hw.passed hseq hc hrow hcol fun hl => hbefore (hsamples hl)).resolve_right hcurrent
      rw [advance_chan, h.chanRead_withSample hxseq hxchan hrow hcol hcurrent,
        h.cells c row col hc hrow hcol fun _ => hold]
  case bytes =>
    obtain ⟨hsrc, -⟩ := sourceFree_storeSample p x () (storeSample p x) rfl
    have hstored := (consumes_nil_of_atSource hsrc).bytes
    rw [advance_inp]
    exact hstored.trans (hbytes.trans (h.bytes.trans (congrArg List.length hxinp.symm)))

/-- FINISH ends the DECOMPRESS: fewer than 8 bits are left, so the last byte of IN has been fetched (R190). -/
theorem Decoding.finish (h : Decoding e d) (he : Encoding e) (hphase : e.seq.phase = .flush)
    (hshort : (readableBits d).length < 8) : ∃ v, runSteps 1 d = .next v ∧ Restored e v := by
  have hrestore : reconstruct d = .ok () { d with pix := e.pix } :=
    reconstruct_loaded he.loaded.valid h.inStep.hdr.symm fun c row col hc hrow hcol => by
      have hflush : e.seq.phase ≠ .samples := by rw [hphase]; decide
      rw [h.cells c row col hc hrow hcol fun hsamples => absurd hsamples hflush, he.loaded.cell c row col hc hrow hcol]
  have hres : engineRes d = .ok () (finishCommand { d with pix := e.pix }) := by
    have hphase' := h.phase
    rw [hphase, if_neg (by decide)] at hphase'
    simp only [engineRes, h.stat, hphase', decompressFinish, hrestore, Res.bind_ok]
  refine ⟨finishCommand { d with pix := e.pix }, ?_, ?stat, h.inStep.hdr.symm, rfl, ?consumed⟩
  · exact runSteps_succ 0 (by rw [h.step, hres, finish_ok])
  case stat => simp only [finishCommand, h.stat]
  case consumed =>
    have hbytes := h.bytes
    rw [readableBits_length] at hshort
    show d.inPos = d.inp.length
    omega

/-- Beside an encoder that ends DONE, a decoder over the rest of its OUT restores its image. -/
theorem Encoding.restored {n : Nat} {t : State} (he : Encoding e) (hrun : runSteps n e = .next t)
    (hdone : t.stat.status = .done) :
    ∃ tail, streamBits t.out = sinkBits e ++ tail ∧
      ∀ d, Decoding e d → readableBits d = tail → ∃ m v, runSteps m d = .next v ∧ Restored e v := by
  induction n generalizing e with
  | zero => cases hrun; rw [he.busy] at hdone; cases hdone
  | succ n ih =>
    rcases he.place with ⟨hphase, hseq⟩ | hphase
    · obtain ⟨m, u, hm, hok, -, hrest⟩ := runSteps_done he.busy he.queue hrun hdone
      cases hm
      obtain ⟨sym, table, henc⟩ := encodeSample_alike he.loaded hseq
      obtain ⟨w, hw⟩ := henc e (Alike.refl e) he.loaded he.ready
      rw [hw.engineRes he hphase] at hok
      obtain ⟨-, rfl⟩ := Res.ok.inj hok
      obtain ⟨tail, hout, htail⟩ := ih (hw.encoding he hphase).1 hrest
      rw [sinkBits_advance, hw.bits, List.append_assoc] at hout
      refine ⟨sym ++ tail, hout, fun d hd hbits => ?_⟩
      obtain ⟨d', hres, hd', hbits'⟩ := hd.next he hphase hw hbits
      obtain ⟨m, v, hrun', hstat, hhdr, hpix, hconsumed⟩ := htail d' hd' hbits'
      obtain ⟨hwhdr, -, -, hwpix⟩ := hw.fields
      refine ⟨m + 1, v, ?_, hstat, ?_, ?_, hconsumed⟩
      · rw [runSteps_succ m (by rw [hd.step, hres, finish_ok]), hrun']
      · rw [hhdr, advance_hdr, hwhdr]
      · rw [hpix, advance_pix, hwpix]
    · obtain ⟨hlen, hout⟩ := he.out_of_flush hphase hrun hdone
      refine ⟨_, hout, fun d hd hbits => ⟨1, hd.finish he hphase ?_⟩⟩
      rw [hbits, List.length_replicate]
      omega

end

/-! ## The header of the stream (R183, R191) -/

theorem step_startCommand {u : State} (mode : Mode) (hqueue : u.cmdq = []) :
    step (startCommand mode u) = (engineRes (startCommand mode u)).finish :=
  step_of_busy (s := startCommand mode u) rfl hqueue

/-- A command over a stream that begins with a header reads it (R182, R183). -/
theorem parseHeader_startCommand {u : State} {h : Meta} {tail : List Bool} (mode : Mode) (hwidth : h.width ≠ 0)
    (hheight : h.height ≠ 0) (hinp : streamBits u.inp = headerBits h ++ tail) (hquiet : quietIn u) :
    ∃ w, parseHeader (startCommand mode u) = .ok () { w with hdr := h } ∧ leaves (startCommand mode u) w tail := by
  obtain ⟨w, hread, hleft⟩ := readHeader_headerBits hwidth hheight
    ((readableBits_fresh (u := startCommand mode u) rfl rfl hquiet).trans hinp)
  exact ⟨w, parseHeader_of_ok hread, hleft⟩

/-- After its HEADER step, a DECOMPRESS of the image's stream is beside the encoder at the first sample. -/
theorem FirstSample.decoding {s e u : State} {tail : List Bool} (h : FirstSample s e) (hsmall : imageTooLarge s = false)
    (hinp : streamBits u.inp = headerBits s.hdr ++ tail) (hqueue : u.cmdq = []) (hquiet : quietIn u)
    (hmax : u.maxSamples = s.maxSamples) :
    ∃ d, engineRes (startCommand .dec u) = .ok () d ∧ Decoding e d ∧ readableBits d = tail := by
  obtain ⟨hwidth, hheight, -⟩ := (inputsValid_iff e).1 h.encoding.loaded.valid
  rw [h.hdr] at hwidth hheight
  obtain ⟨w, hparse, hleft⟩ := parseHeader_startCommand .dec hwidth hheight hinp hquiet
  obtain ⟨hframe, hrest, -, hbytes⟩ := hleft
  obtain ⟨hstat, hcmdq, hchan, htable, hinp', hmax'⟩ : w.stat = ⟨.busy, 0, 0, .dec⟩ ∧ w.cmdq = u.cmdq ∧ w.chan = [] ∧
      w.table = [] ∧ w.inp = u.inp ∧ w.maxSamples = u.maxSamples := by
    rw [hframe]; exact ⟨rfl, rfl, rfl, rfl, rfl, rfl⟩
  have hsmall' : imageTooLarge { w with hdr := s.hdr } = false := by
    rw [← hsmall]
    simp only [imageTooLarge, hmax', hmax]
  refine ⟨enterSamples { w with hdr := s.hdr }, ?header, ⟨?inStep, hstat, hcmdq.trans hqueue, ?wf, ?phase, ?cells, ?bytes⟩,
    hrest⟩
  case header =>
    show decompressHeader (startCommand .dec u) = _
    rw [decompressHeader, hparse, Res.bind_ok, hsmall', if_neg Bool.false_ne_true]
  case inStep =>
    refine ⟨h.hdr, ?_, ?_, ?_, h.table.trans htable.symm⟩ <;> rw [h.seq] <;> rfl
  case wf => exact congrArg cellsWf hchan
  case phase => rw [h.seq]; rfl
  case cells =>
    intro c row col _ _ _ hbefore
    have hnone := hbefore (by rw [h.seq])
    simp [isBefore, idx, h.seq] at hnone
  case bytes =>
    have hall : (readableBytes (startCommand .dec u)).length = u.inp.length := by
      simp [readableBytes, startCommand, readsBeforeFailure_quiet hquiet]
    show w.inPos + (readableBytes w).length = w.inp.length
    rw [hbytes, hall, hinp']
    exact Nat.zero_add _

end Sys2Proof.Machine

namespace Sys2Proof.Machine.Container

/-- Settles O55: DECOMPRESS reads the header, takes each sample beside the encoder, and FINISH finds the image's PIX;
READ_HEADER stops after the header. -/
theorem roundTrip : Obligations.RoundTrip := by
  intro s t u n hqueue hrun hdone hqueue' hinp hquiet hmax
  obtain ⟨hvalid, hsmall, m, e, t', hfirst, hrest, hdone', hout⟩ := compress_done hqueue hrun hdone
  obtain ⟨tail, hbits, htail⟩ := hfirst.encoding.restored hrest hdone'
  rw [hout, ← hinp, hfirst.bits] at hbits
  constructor
  case left =>
    obtain ⟨d, hheader, hd, hreadable⟩ := hfirst.decoding hsmall hbits hqueue' hquiet hmax
    obtain ⟨k, v, hrun', hstat, hhdr, hpix, hconsumed⟩ := htail d hd hreadable
    have hstep : step (startCommand .dec u) = .next d := by rw [step_startCommand .dec hqueue', hheader, finish_ok]
    refine ⟨k + 1, v, ?_, hstat, hhdr.trans hfirst.hdr, hpix.trans hfirst.pix, hconsumed⟩
    exact (runSteps_succ k hstep).trans hrun'
  case right =>
    obtain ⟨hwidth, hheight, -⟩ := (inputsValid_iff s).1 hvalid
    obtain ⟨w, hparse, hleft⟩ := parseHeader_startCommand .hdr hwidth hheight hbits hquiet
    have hres : engineRes (startCommand .hdr u) = .ok () (finishCommand { w with hdr := s.hdr }) := by
      show readHeaderOnly (startCommand .hdr u) = _
      rw [readHeaderOnly, hparse, Res.bind_ok]
    have hstep : step (startCommand .hdr u) = .next (finishCommand { w with hdr := s.hdr }) := by
      rw [step_startCommand .hdr hqueue', hres, finish_ok]
    refine ⟨_, runSteps_succ 0 hstep, ?_, rfl⟩
    simp only [finishCommand, hleft.frame.stat_eq, startCommand]

end Sys2Proof.Machine.Container
end

section
/-! PROOF. What the steps of a running command cannot do: an operation whose cells are written raises or completes, and
never stops the machine (60_exceptions.md R212, 42_predictor_selector.md R134). -/

namespace Sys2Proof.Machine

/-! ## Operations that do not stop -/

/-- The operation raises, or it completes in `Q`: it neither faults nor is refused. -/
def Res.NeverStops {α : Type} (Q : α → State → Prop) : Res α → Prop
  | .ok a t => Q a t
  | .raise _ _ => True
  | .fault _ => False
  | .refuse _ => False

section
variable {α β : Type} {P P' : α → State → Prop} {Q : β → State → Prop} {r r' : Res α}

theorem Res.NeverStops.bind {f : α → State → Res β} (hr : r.NeverStops P) (hf : ∀ a t, P a t → (f a t).NeverStops Q) :
    (r.bind f).NeverStops Q := by
  cases r with
  | ok a t => exact hf a t hr
  | raise e t => trivial
  | fault x => exact hr.elim
  | refuse x => exact hr.elim

/-- More may be said of what an operation completes with. -/
theorem Res.NeverStops.imp (hr : r.NeverStops P) (h : ∀ a t, r = .ok a t → P a t → P' a t) : r.NeverStops P' := by
  cases r with
  | ok a t => exact h a t rfl hr
  | raise e t => trivial
  | fault x => exact hr.elim
  | refuse x => exact hr.elim

theorem neverStops_ite {p : Prop} [Decidable p] (hr : p → r.NeverStops P) (hr' : ¬ p → r'.NeverStops P) :
    (if p then r else r').NeverStops P := by
  split
  · exact hr ‹_›
  · exact hr' ‹_›

theorem ofRead_eq_ok {r : Read State α} {a : α} {t : State} (h : ofRead r = .ok a t) : r = .ok a t := by
  cases r with
  | ok b u => cases h; rfl
  | err e u => cases h

/-- A reading answers or raises. -/
theorem neverStops_ofRead (r : Read State α) : (ofRead r).NeverStops fun _ _ => True := by
  cases r <;> trivial

end

/-! ## What the samples of a command keep -/

/-- The status, the metadata, the place in the image, its cells and the queue are those of `s`. -/
structure SamePlace (s t : State) : Prop where
  stat : t.stat = s.stat
  hdr : t.hdr = s.hdr
  seq : t.seq = s.seq
  chan : t.chan = s.chan
  queue : t.cmdq = s.cmdq

section
variable {s t u : State}

theorem SamePlace.trans (h : SamePlace s t) (h' : SamePlace t u) : SamePlace s u :=
  ⟨h'.stat.trans h.stat, h'.hdr.trans h.hdr, h'.seq.trans h.seq, h'.chan.trans h.chan, h'.queue.trans h.queue⟩

theorem samePlace_setDp (s : State) (dp : Datapath) : SamePlace s { s with dp := dp } := ⟨rfl, rfl, rfl, rfl, rfl⟩

theorem sameButSink.samePlace (h : sameButSink s t) : SamePlace s t := by
  rw [h]
  exact ⟨rfl, rfl, rfl, rfl, rfl⟩

theorem Decodes.samePlace (h : Decodes s t) : SamePlace s t := by
  rw [h]
  exact ⟨rfl, rfl, rfl, rfl, rfl⟩

end

/-! ## The encoder's side -/

section
variable (s : State)

theorem pushBit_neverStops (b : Bool) : (pushBit b s).NeverStops fun _ => sameButSink s := by
  rcases pushBit_cases b s with ⟨t, h, hframe, -⟩ | ⟨e, t, h, -⟩
  · rw [h]; exact hframe
  · rw [h]; trivial

theorem pushList_neverStops (bits : List Bool) : (pushList bits s).NeverStops fun _ => sameButSink s := by
  rcases pushList_cases bits s with ⟨t, h, hframe, -⟩ | ⟨e, t, h, -⟩
  · rw [h]; exact hframe
  · rw [h]; trivial

theorem pushBits_neverStops (value n : Nat) : (pushBits value n s).NeverStops fun _ => sameButSink s :=
  neverStops_ite (fun _ => trivial) fun _ => pushList_neverStops s _

theorem riceEnc_neverStops (v k : Nat) : (riceEnc v k s).NeverStops fun _ => sameButSink s :=
  (pushList_neverStops s _).bind fun _ t ht => neverStops_ite (fun _ => ht) fun _ =>
    (pushBits_neverStops t _ _).imp fun _ _ _ hu => ht.trans hu

/-- Within its contract PHASED_ENC is not refused (41_codes.md R120). -/
theorem phasedEnc_neverStops {v n : Nat} (hv : v < n) : (phasedEnc v n s).NeverStops fun _ => sameButSink s := by
  rw [phasedEnc, if_pos hv]
  cases phasedCodeword n v with
  | short x => exact pushBits_neverStops s _ _
  | long y => exact pushBits_neverStops s _ _

theorem emitIn_neverStops {v : Nat} (hv : v ≤ s.dp.delta) : (emitIn v s).NeverStops fun _ => SamePlace s :=
  (pushBit_neverStops s true).bind fun _ t ht => by
    rw [ht.dp_eq]
    exact (phasedEnc_neverStops t (Nat.lt_succ_of_le hv)).imp fun _ _ _ hu => (ht.trans hu).samePlace

theorem getK_neverStops (delta : Nat) : (getK delta s).NeverStops fun _ => SamePlace s :=
  show SamePlace s (drawRow _ _) from ⟨rfl, rfl, rfl, rfl, rfl⟩

theorem updateTable_neverStops (delta v : Nat) : (updateTable delta v s).NeverStops fun _ => SamePlace s :=
  show SamePlace s (drawRow _ _) from ⟨rfl, rfl, rfl, rfl, rfl⟩

theorem emitOutOfRange_neverStops (above : Bool) (v : Nat) :
    (emitOutOfRange above v s).NeverStops fun _ => SamePlace s :=
  (pushBit_neverStops s false).bind fun _ t ht => (pushBit_neverStops t above).bind fun _ u hu =>
    (getK_neverStops u _).bind fun k w hw => (riceEnc_neverStops _ v k).bind fun _ x hx =>
      (updateTable_neverStops x _ v).imp fun _ _ _ hy =>
        (((ht.trans hu).samePlace.trans hw).trans ((samePlace_setDp w _).trans hx.samePlace)).trans hy

/-- A symbol is in range only within L and H, where the context holds its index (44_channel_coder.md R162). -/
theorem emitSymbol_neverStops (p : Int) (hdelta : (s.dp.h - s.dp.l).toNat ≤ s.dp.delta) :
    (emitSymbol p s).NeverStops fun _ => SamePlace s := by
  by_cases hin : s.dp.l ≤ p ∧ p ≤ s.dp.h
  · rw [emitSymbol_inRange hin.1 hin.2]
    exact emitIn_neverStops s (by omega)
  · unfold emitSymbol
    split
    next hrange =>
      unfold rangeTest at hrange
      rw [if_neg hin] at hrange
      split at hrange <;> cases hrange
    next => exact emitOutOfRange_neverStops s _ _
    next => exact emitOutOfRange_neverStops s _ _

theorem emitSample_neverStops (p : Int) (hn : 2 ≤ idx s → ∃ a b, neighboursHold s a b) :
    (emitSample p s).NeverStops fun _ => SamePlace s := by
  refine neverStops_ite (fun _ => ?verbatim) fun hidx => ?predicted
  case verbatim => exact (pushBits_neverStops s _ _).imp fun _ _ _ ht => ht.samePlace
  case predicted =>
    obtain ⟨a, b, hab⟩ := hn (not_lt.1 hidx)
    rw [predict_of_neighboursHold hab, Res.bind_ok]
    exact (emitSymbol_neverStops (afterPredict s a b) p le_rfl).imp fun _ _ _ ht =>
      (samePlace_setDp s _).trans ht

/-- ENC_SAMPLE with its cell and its neighbours written (44_channel_coder.md R165). -/
theorem encodeSample_neverStops {p : Int} (hcell : currentCell s = some p)
    (hn : 2 ≤ idx s → ∃ a b, neighboursHold s a b) :
    (encodeSample s).NeverStops fun _ t => ∃ u, SamePlace s u ∧ t = advance u := by
  rw [encodeSample_of_cell hcell]
  exact (emitSample_neverStops { s with dp := { s.dp with p := p } } p hn).bind fun _ u hu =>
    ⟨u, (samePlace_setDp s _).trans hu, rfl⟩

theorem byteOut_neverStops (b : Byte) : (byteOut b s).NeverStops fun _ _ => True := by
  unfold byteOut
  split <;> trivial

theorem flushSink_neverStops : (flushSink s).NeverStops fun _ _ => True :=
  Res.NeverStops.bind (P := fun _ _ => True)
    (neverStops_ite (fun _ => trivial) fun _ => neverStops_ite (fun _ => trivial) fun _ =>
      (byteOut_neverStops s _).bind fun _ _ _ => trivial)
    fun _ _ _ => trivial

end

/-! ## The decoder's side -/

section
variable (s : State)

theorem riceDec_neverStops (k w : Nat) : (riceDec k w s).NeverStops fun _ _ => True :=
  (neverStops_ofRead _).bind fun _ _ _ => trivial

theorem outOfRangeValue_neverStops (above : Bool) (v : Nat) : (outOfRangeValue above v s).NeverStops fun _ _ => True :=
  neverStops_ite (fun _ => trivial) fun _ => trivial

theorem symbolValue_neverStops : (symbolValue s).NeverStops fun _ _ => True :=
  (neverStops_ofRead (pullBit s)).bind fun _ t _ => neverStops_ite
    (fun _ => by
      rw [phasedDec_pos _ t (Nat.succ_pos _)]
      exact (neverStops_ofRead _).bind fun _ _ _ => trivial)
    fun _ => (neverStops_ofRead (pullBit t)).bind fun above _ _ => (riceDec_neverStops _ _ _).bind fun v w _ =>
      outOfRangeValue_neverStops w above v

/-- DEC_SAMPLE up to its value, with its neighbours written (44_channel_coder.md R168). -/
theorem sampleValue_neverStops (hn : 2 ≤ idx s → ∃ a b, neighboursHold s a b) :
    (sampleValue s).NeverStops fun _ _ => True := by
  refine neverStops_ite (fun _ => ?verbatim) fun hidx => ?predicted
  case verbatim => exact (neverStops_ofRead (readField pullBit (chanWidth s) s)).bind fun _ _ _ => trivial
  case predicted =>
    obtain ⟨a, b, hab⟩ := hn (not_lt.1 hidx)
    rw [predict_of_neighboursHold hab, Res.bind_ok]
    exact symbolValue_neverStops _

theorem decodeSample_neverStops (hn : 2 ≤ idx s → ∃ a b, neighboursHold s a b) :
    (decodeSample s).NeverStops fun _ t => ∃ x p, SamePlace s x ∧ t = advance (withSample x p) := by
  rw [decodeSample_eq]
  have hvalue : (sampleValue s).NeverStops fun _ x => SamePlace s x :=
    (sampleValue_neverStops s hn).imp fun p x hread _ => (readsAlike_sampleValue s p x hread).1.samePlace
  exact hvalue.bind fun p x hx => ⟨x, p, hx, rfl⟩

/-- FINISH with every cell written (45_container.md R190). -/
theorem reconstruct_neverStops (hcells : ∀ i < nsamp s.hdr, ∀ c < nch s.hdr, ∃ x, cellAt s c i = some x) :
    (reconstruct s).NeverStops fun _ _ => True := by
  rw [reconstruct_eq (cell := fun i c => (cellAt s c i).getD 0) fun i hi c hc => by
    obtain ⟨x, hx⟩ := hcells i hi c hc
    rw [hx, Option.getD_some]]
  exact neverStops_ite (fun _ => trivial) fun _ => trivial

end

/-! ## A header that PARSE_HEADER accepts (45_container.md R183) -/

section
variable {s t : State} {h : HeaderFields}

theorem readField_lt {n v : Nat} (hn : n ≤ 64) (hread : readField pullBit n s = .ok v t) : v < 2 ^ n := by
  rcases Nat.lt_or_ge (readableBits s).length n with hshort | hlong
  · obtain ⟨u, herr, -⟩ := readField_exhausted n s hn hshort
    rw [herr] at hread
    cases hread
  · obtain ⟨u, hok, -⟩ := readField_leaves n s hn hlong
    rw [hok] at hread
    cases hread
    simpa [List.length_take, min_eq_left hlong] using ofBits_lt ((readableBits s).take n)

theorem readDimensions_eq_ok {ct dc : Nat} (hread : readDimensions pullBit ct dc s = .ok h t) :
    h.width ≠ 0 ∧ h.height ≠ 0 := by
  have hnonzero : ∀ v : Nat, v ≠ 0 → v < 2 ^ 32 → BitVec.ofNat 32 v ≠ 0 := fun v hv hlt hzero =>
    hv ((Nat.mod_eq_of_lt hlt).symm.trans (congrArg BitVec.toNat hzero))
  obtain ⟨wd, u, hwd, hread⟩ := Read.bind_eq_ok hread
  obtain ⟨ht, v, hht, hread⟩ := Read.bind_eq_ok hread
  split at hread
  · cases hread
  · rename_i hzero
    obtain ⟨hwd0, hht0⟩ := not_or.1 hzero
    cases hread
    exact ⟨hnonzero wd hwd0 (readField_lt (by decide) hwd), hnonzero ht hht0 (readField_lt (by decide) hht)⟩

/-- A header with a zero dimension is not accepted (R183, 92_eei_decisions.md D10). -/
theorem readHeader_eq_ok (hread : readHeader pullBit s = .ok h t) : h.width ≠ 0 ∧ h.height ≠ 0 := by
  rw [readHeader_eq] at hread
  obtain ⟨sig, u, -, hread⟩ := Read.bind_eq_ok hread
  split at hread; · cases hread
  obtain ⟨ct, v, -, hread⟩ := Read.bind_eq_ok hread
  split at hread; · cases hread
  obtain ⟨dc, w, -, hread⟩ := Read.bind_eq_ok hread
  split at hread; · cases hread
  exact readDimensions_eq_ok hread

end

end Sys2Proof.Machine
end

section
/-! PROOF. Termination (70_reset_and_hazards.md R249): each step of a command's samples moves one place further in the image,
whose places are finitely many, and the phases before and after are one step each. -/

namespace Sys2Proof.Machine

/-! ## Machines that end their command -/

/-- The machine comes to DONE or ERROR after finitely many steps. -/
def Ends (s : State) : Prop := ∃ n t, runSteps n s = .next t ∧ (t.stat.status = .done ∨ t.stat.status = .error)

section
variable {s : State}

theorem ends_finishCommand (s : State) : Ends (finishCommand s) := ⟨0, _, rfl, .inl rfl⟩

/-- A running command ends if its next step raises, or completes in a machine that ends. -/
theorem ends_of_engineRes (hbusy : s.stat.status = .busy) (hqueue : s.cmdq = [])
    (h : (engineRes s).NeverStops fun _ => Ends) : Ends s := by
  have hstep := step_of_busy hbusy hqueue
  cases hres : engineRes s with
  | ok a u =>
    rw [hres] at h hstep
    obtain ⟨n, t, hrun, hend⟩ := h
    exact ⟨n + 1, t, (runSteps_succ n hstep).trans hrun, hend⟩
  | raise e u =>
    rw [hres] at hstep
    exact ⟨1, raiseError e u, runSteps_succ 0 hstep, .inr rfl⟩
  | fault x => rw [hres] at h; exact h.elim
  | refuse x => rw [hres] at h; exact h.elim

end

/-! ## The place in the image (10_state.md R14, R15) -/

/-- How many samples of the image come before the sample in progress. -/
def samplePos (s : State) : Nat := s.seq.ch.toNat * nsamp s.hdr + idx s

section
variable {s : State}

theorem samplePos_lt (hseq : seqInRange s) : samplePos s < nch s.hdr * nsamp s.hdr := by
  obtain ⟨hch, hrow, hcol⟩ := hseq
  have hidx : idx s < nsamp s.hdr := raster_lt hrow hcol
  calc samplePos s < (s.seq.ch.toNat + 1) * nsamp s.hdr := by rw [Nat.succ_mul]; exact Nat.add_lt_add_left hidx _
    _ ≤ nch s.hdr * nsamp s.hdr := Nat.mul_le_mul_right _ hch

theorem samplePos_advance (hseq : seqInRange s) (hlast : ¬ lastSample s) : samplePos (advance s) = samplePos s + 1 := by
  obtain ⟨hch, hrow, hcol⟩ := hseq
  have hzero : (0 : Word32).toNat = 0 := rfl
  by_cases hcolEnd : s.hdr.width.toNat ≤ s.seq.col.toNat + 1
  case neg =>
    have hnext : (s.seq.col + 1).toNat = s.seq.col.toNat + 1 :=
      toNat_add_one (not_le.1 hcolEnd) s.hdr.width.isLt.le (by decide)
    rw [advance_in_row s (not_le.1 hcolEnd)]
    simp only [samplePos, idx, hnext]
    ring
  case pos =>
    have hwidth : s.hdr.width.toNat = s.seq.col.toNat + 1 := by omega
    by_cases hrowEnd : s.hdr.height.toNat ≤ s.seq.row.toNat + 1
    case neg =>
      have hnext : (s.seq.row + 1).toNat = s.seq.row.toNat + 1 :=
        toNat_add_one (not_le.1 hrowEnd) s.hdr.height.isLt.le (by decide)
      rw [advance_row_end s hcolEnd (not_le.1 hrowEnd)]
      simp only [samplePos, idx, hnext, hwidth, hzero]
      ring
    case pos =>
      have hheight : s.hdr.height.toNat = s.seq.row.toNat + 1 := by omega
      have hmore : s.seq.ch.toNat + 1 < nch s.hdr := not_le.1 fun hchEnd => hlast ⟨hcolEnd, hrowEnd, hchEnd⟩
      have hnext : (s.seq.ch + 1).toNat = s.seq.ch.toNat + 1 :=
        toNat_add_one hmore ((nch_le s.hdr).trans (by decide)) (by decide)
      rw [advance_channel_end s hcolEnd hrowEnd hmore]
      simp only [samplePos, idx, nsamp, hnext, hwidth, hheight, hzero]
      ring

end

/-! ## A command among its samples -/

/-- The cells of the image that satisfy `p` are written (10_state.md R23). -/
def CellsWritten (s : State) (p : Nat → Nat → Nat → Prop) : Prop :=
  ∀ c row col, c < nch s.hdr → row < s.hdr.height.toNat → col < s.hdr.width.toNat → p c row col →
    ∃ x, chanRead s.chan c row col = some x

/-- A COMPRESS or DECOMPRESS in PHASE SAMPLES, at a sample of the image: the encoder has every cell, the decoder those before
its place (45_container.md R184, R188). -/
structure Sampling (s : State) : Prop where
  busy : s.stat.status = .busy
  queue : s.cmdq = []
  mode : s.stat.mode = .enc ∨ s.stat.mode = .dec
  phase : s.seq.phase = .samples
  inRange : seqInRange s
  wf : cellsWf s.chan = true
  written : CellsWritten s fun c row col => s.stat.mode = .enc ∨ isBefore s c row col

/-- The command of `s` has dealt with the sample in progress, and `u` is what it advances from. -/
structure SampleTaken (s u : State) : Prop where
  stat : u.stat = s.stat
  hdr : u.hdr = s.hdr
  seq : u.seq = s.seq
  queue : u.cmdq = s.cmdq
  wf : cellsWf u.chan = true
  written : CellsWritten u fun c row col => s.stat.mode = .enc ∨ isBefore s c row col ∨ isCurrent s c row col

/-- A COMPRESS or DECOMPRESS in its last phase, where a decoder has every cell (R184, R188). -/
structure Closing (s : State) : Prop where
  busy : s.stat.status = .busy
  queue : s.cmdq = []
  place : s.stat.mode = .enc ∧ s.seq.phase = .flush ∨
    s.stat.mode = .dec ∧ s.seq.phase = .finish ∧ CellsWritten s fun _ _ _ => True

section
variable {s u : State}

/-- The neighbours of a predicted sample come before it, so they are written (42_predictor_selector.md R134). -/
theorem Sampling.neighboursHold (h : Sampling s) (hidx : 2 ≤ idx s) : ∃ a b, Machine.neighboursHold s a b := by
  obtain ⟨hch, hrow, hcol⟩ := h.inRange
  have hcell : ∀ pos, pos = (neighbours s.hdr.width.toNat s.seq.row.toNat s.seq.col.toNat).1 ∨
      pos = (neighbours s.hdr.width.toNat s.seq.row.toNat s.seq.col.toNat).2 →
      ∃ x, chanRead s.chan s.seq.ch.toNat pos.1 pos.2 = some x := by
    intro pos hpos
    obtain ⟨hup, hleft, hearlier⟩ := neighbours_precede hcol hidx hpos
    exact h.written _ _ _ hch (hup.trans_lt hrow) hleft (.inr (.inr ⟨rfl, hearlier⟩))
  obtain ⟨a, ha⟩ := hcell _ (.inl rfl)
  obtain ⟨b, hb⟩ := hcell _ (.inr rfl)
  exact ⟨a, b, hidx, ha, hb⟩

/-- An encoder's sample changes no cell. -/
theorem Sampling.taken_of_samePlace (h : Sampling s) (henc : s.stat.mode = .enc) (hu : SamePlace s u) :
    SampleTaken s u := by
  refine ⟨hu.stat, hu.hdr, hu.seq, hu.queue, by rw [hu.chan]; exact h.wf, ?_⟩
  unfold CellsWritten
  rw [hu.hdr, hu.chan]
  exact fun c row col hc hrow hcol _ => h.written c row col hc hrow hcol (.inl henc)

/-- A decoder's sample is written to the cell in progress. -/
theorem Sampling.taken_of_withSample (h : Sampling s) (hdec : s.stat.mode = .dec) (hu : SamePlace s u) (p : Int) :
    SampleTaken s (withSample u p) := by
  have hchan : (withSample u p).chan = chanWrite s.chan s.seq.ch.toNat s.seq.row.toNat s.seq.col.toNat p := by
    rw [withSample, hu.chan, hu.seq]
  have hhdr : (withSample u p).hdr = s.hdr := hu.hdr
  refine ⟨hu.stat, hhdr, hu.seq, hu.queue, by rw [hchan]; exact cellsWf_chanWrite _ h.wf _ _ _ _, ?_⟩
  unfold CellsWritten
  rw [hhdr, hchan]
  intro c row col hc hrow hcol hcell
  rw [chanRead_write _ h.wf _ _ _ _ _ _ _ (BitVec.isLt _) (BitVec.isLt _) (hrow.trans (BitVec.isLt _))
    (hcol.trans (BitVec.isLt _))]
  split
  · exact ⟨p, rfl⟩
  · rename_i hother
    rcases hcell with henc | hbefore | hcurrent
    · rw [hdec] at henc; cases henc
    · exact h.written c row col hc hrow hcol (.inr hbefore)
    · exact absurd hcurrent hother

/-- The step of a sample takes it and advances, or raises. -/
theorem Sampling.engineRes_neverStops (h : Sampling s) :
    (engineRes s).NeverStops fun _ t => ∃ u, SampleTaken s u ∧ t = advance u := by
  rcases h.mode with henc | hdec
  · obtain ⟨hch, hrow, hcol⟩ := h.inRange
    obtain ⟨p, hcell⟩ := h.written _ _ _ hch hrow hcol (.inl henc)
    have hres : engineRes s = encodeSample s := by simp only [engineRes, henc, h.phase]
    rw [hres]
    exact (encodeSample_neverStops s hcell h.neighboursHold).imp fun _ _ _ ⟨u, hu, ht⟩ =>
      ⟨u, h.taken_of_samePlace henc hu, ht⟩
  · have hres : engineRes s = decodeSample s := by simp only [engineRes, hdec, h.phase]
    rw [hres]
    exact (decodeSample_neverStops s h.neighboursHold).imp fun _ _ _ ⟨x, p, hx, ht⟩ =>
      ⟨withSample x p, h.taken_of_withSample hdec hx p, ht⟩

theorem SampleTaken.inRange (h : SampleTaken s u) (hs : Sampling s) : seqInRange u := by
  unfold seqInRange
  rw [h.hdr, h.seq]
  exact hs.inRange

theorem SampleTaken.lastSample_iff (h : SampleTaken s u) : lastSample u ↔ lastSample s := by
  unfold lastSample
  rw [h.hdr, h.seq]

/-- Before the last sample the command goes on to the next one. -/
theorem SampleTaken.sampling (h : SampleTaken s u) (hs : Sampling s) (hlast : ¬ lastSample s) :
    Sampling (advance u) := by
  obtain ⟨hin, hphase, hpassed⟩ := advance_walks (h.inRange hs) (mt h.lastSample_iff.1 hlast)
  refine ⟨?busy, ?queue, ?mode, ?phase, hin, ?wf, fun c row col hc hrow hcol hcell => ?written⟩
  case busy => rw [advance_stat, h.stat, hs.busy]
  case queue => rw [advance_cmdq, h.queue, hs.queue]
  case mode => rw [advance_stat, h.stat]; exact hs.mode
  case phase => rw [hphase, h.seq, hs.phase]
  case wf => rw [advance_chan, h.wf]
  case written =>
    rw [advance_hdr] at hc hrow hcol
    rw [advance_stat, h.stat] at hcell
    rw [advance_chan]
    refine h.written c row col hc hrow hcol (hcell.imp_right fun hbefore => ?_)
    have hpassed' := hpassed c row col hrow hcol hbefore
    unfold isBefore isCurrent idx at hpassed' ⊢
    rwa [h.hdr, h.seq] at hpassed'

/-- After the last sample the command is in its last phase. -/
theorem SampleTaken.closing (h : SampleTaken s u) (hs : Sampling s) (hlast : lastSample s) : Closing (advance u) := by
  have hphase := advance_phase_of_last (s := u) (by rw [h.stat]; exact hs.mode) (h.lastSample_iff.2 hlast)
  refine ⟨by rw [advance_stat, h.stat, hs.busy], by rw [advance_cmdq, h.queue, hs.queue], ?_⟩
  rw [advance_stat, hphase, h.stat]
  rcases hs.mode with henc | hdec
  · exact .inl ⟨henc, if_pos henc⟩
  · refine .inr ⟨hdec, if_neg (by rw [hdec]; decide), fun c row col hc hrow hcol _ => ?_⟩
    rw [advance_hdr] at hc hrow hcol
    rw [advance_chan]
    refine h.written c row col hc hrow hcol (.inr ?_)
    rw [h.hdr] at hc hrow hcol
    exact isBefore_or_isCurrent_of_last hs.inRange hlast hc hrow hcol

theorem SampleTaken.samplePos_advance (h : SampleTaken s u) (hs : Sampling s) (hlast : ¬ lastSample s) :
    samplePos (advance u) = samplePos s + 1 := by
  rw [Machine.samplePos_advance (h.inRange hs) (mt h.lastSample_iff.1 hlast), samplePos, samplePos, idx, idx, h.hdr, h.seq]

/-! ## The ends of the commands -/

theorem Closing.ends (h : Closing s) : Ends s := by
  refine ends_of_engineRes h.busy h.queue ?_
  rcases h.place with ⟨hmode, hphase⟩ | ⟨hmode, hphase, hcells⟩
  · have hres : engineRes s = compressFlush s := by simp only [engineRes, hmode, hphase]
    rw [hres]
    exact (flushSink_neverStops s).bind fun _ t _ => ends_finishCommand t
  · have hres : engineRes s = decompressFinish s := by simp only [engineRes, hmode, hphase]
    rw [hres]
    exact (reconstruct_neverStops s fun i hi c hc => hcells c _ _ hc (raster_bounds hi).1 (raster_bounds hi).2 trivial).bind
      fun _ t _ => ends_finishCommand t

/-- By induction on how many places of the image are left. -/
theorem Sampling.ends_of_left {left : Nat} (h : Sampling s) (hleft : nch s.hdr * nsamp s.hdr ≤ samplePos s + left) :
    Ends s := by
  induction left generalizing s with
  | zero => exact absurd (samplePos_lt h.inRange) hleft.not_gt
  | succ left ih =>
    refine ends_of_engineRes h.busy h.queue (h.engineRes_neverStops.imp ?_)
    rintro _ _ - ⟨u, hu, rfl⟩
    by_cases hlast : lastSample s
    · exact (hu.closing h hlast).ends
    · refine ih (hu.sampling h hlast) ?_
      rw [advance_hdr, hu.hdr, hu.samplePos_advance h hlast]
      omega

theorem Sampling.ends (h : Sampling s) : Ends s := h.ends_of_left (Nat.le_add_left _ _)

end

/-! ## The commands from their start -/

section
variable {s : State}

theorem imageTooLarge_unbounded (h : s.maxSamples = none) : imageTooLarge s = false := by
  simp only [imageTooLarge, h]

/-- The first sample of an image with no zero dimension is a sample of the image. -/
theorem seqInRange_enterSamples (hwidth : s.hdr.width ≠ 0) (hheight : s.hdr.height ≠ 0) :
    seqInRange (enterSamples s) := by
  have hpos : ∀ w : Word32, w ≠ 0 → 0 < w.toNat := fun w hw =>
    Nat.pos_of_ne_zero fun h => hw (BitVec.eq_of_toNat_eq h)
  exact ⟨nch_pos _, hpos _ hheight, hpos _ hwidth⟩

theorem ends_compress (hqueue : s.cmdq = []) : Ends (startCommand .enc s) := by
  refine ends_of_engineRes rfl hqueue ?_
  show (compressHeader (startCommand .enc s)).NeverStops _
  refine neverStops_ite (fun hvalid => ?_) fun _ => trivial
  refine (pushList_neverStops (startCommand .enc s) _).bind fun _ u hu => ?_
  obtain ⟨hstat, hhdr, -, hchan, hcmdq⟩ := hu.samePlace
  have hpix : u.pix = s.pix := by rw [hu]; rfl
  have hvalid' : inputsValid u = true := by rw [inputsValid_congr hhdr hpix]; exact hvalid
  have hloaded := loaded_loadChannels hvalid' (by rw [hchan]; rfl)
  obtain ⟨hwidth, hheight, -⟩ := (inputsValid_iff u).1 hvalid'
  obtain ⟨m, hload, -⟩ := loadChannels_cases u
  rw [hload] at hloaded ⊢
  have hmode : u.stat.mode = .enc := by rw [hstat]; rfl
  exact Sampling.ends ⟨by rw [enterSamples_stat, hstat]; rfl, hcmdq.trans hqueue, .inl hmode, rfl,
    seqInRange_enterSamples hwidth hheight, hloaded.wf,
    fun c row col hc hrow hcol _ => ⟨_, hloaded.cell c row col hc hrow hcol⟩⟩

theorem ends_decompress (hqueue : s.cmdq = []) (hmax : s.maxSamples = none) : Ends (startCommand .dec s) := by
  refine ends_of_engineRes rfl hqueue ?_
  show (decompressHeader (startCommand .dec s)).NeverStops _
  rw [decompressHeader_eq]
  have hheader : (ofRead (readHeader pullBit (startCommand .dec s))).NeverStops fun h t =>
      Decodes (startCommand .dec s) t ∧ h.width ≠ 0 ∧ h.height ≠ 0 :=
    (neverStops_ofRead _).imp fun h t hread _ =>
      ⟨(readsAlike_readHeader _ h t hread).1, readHeader_eq_ok (ofRead_eq_ok hread)⟩
  refine hheader.bind fun h t ⟨hframe, hwidth, hheight⟩ => ?_
  obtain ⟨hstat, -, -, hchan, hcmdq⟩ := hframe.samePlace
  have hsmall : imageTooLarge { t with hdr := h } = false :=
    imageTooLarge_unbounded (by rw [hframe]; exact hmax)
  rw [takeHeader, if_neg (by rw [hsmall]; decide)]
  refine Sampling.ends ⟨by rw [enterSamples_stat, hstat]; rfl, hcmdq.trans hqueue,
    .inr (by rw [enterSamples_stat, hstat]; rfl), rfl, seqInRange_enterSamples hwidth hheight,
    by rw [enterSamples_chan, hchan]; rfl, fun c row col _ _ _ hcell => ?_⟩
  rw [enterSamples_stat, hstat] at hcell
  simp [isBefore, idx] at hcell

theorem ends_readHeader (hqueue : s.cmdq = []) : Ends (startCommand .hdr s) :=
  ends_of_engineRes rfl hqueue <|
    show (readHeaderOnly (startCommand .hdr s)).NeverStops _ from
      Res.NeverStops.bind (P := fun _ _ => True) ((neverStops_ofRead _).bind fun _ _ _ => trivial)
        fun _ t _ => ends_finishCommand t

end

/-- Settles O58: a start leaves a BUSY engine in its HEADER phase, and from there each command ends. -/
theorem commandsTerminate : Obligations.CommandsTerminate := by
  rintro s i hqueue hmax (rfl | rfl | rfl)
  · obtain ⟨n, t, hrun, hend⟩ := ends_compress hqueue
    refine ⟨n, t, ?_, hend⟩
    have hexec : exec .compress s = .next (startCommand .enc s) :=
      if_neg (by rw [imageTooLarge_unbounded hmax]; decide)
    rw [runCommand, hexec]
    exact hrun
  · exact ends_decompress hqueue hmax
  · exact ends_readHeader hqueue

end Sys2Proof.Machine
end

section
/-! PROOF. The fields of the stream (30_encoding.md R60 to R68): what is read goes by the bits alone, whichever supply delivers
them, and reading a field gives back the field that was written. -/

namespace Sys2Proof

/-! ## Readings of the same bits from two supplies -/

/-- Two readings that go alike: the same value with supplies related by `R`, or errors related by `E`. -/
def Read.Alike {σ τ α : Type} (R : σ → τ → Prop) (E : Err → σ → Err → τ → Prop) : Read σ α → Read τ α → Prop
  | .ok a s, .ok b t => a = b ∧ R s t
  | .err e s, .err f t => E e s f t
  | .ok _ _, .err _ _ => False
  | .err _ _, .ok _ _ => False

/-- Related supplies deliver the same bit, and a field's own errors, none of which is Truncated, are related where the supplies
are. -/
structure PullAlike {σ τ : Type} (R : σ → τ → Prop) (E : Err → σ → Err → τ → Prop) (pull : σ → Read σ Bool)
    (pull' : τ → Read τ Bool) : Prop where
  bit : ∀ s t, R s t → (pull s).Alike R E (pull' t)
  own : ∀ e s t, e ≠ .truncated → R s t → E e s e t

section
variable {σ τ α β : Type} {R : σ → τ → Prop} {E : Err → σ → Err → τ → Prop} {pull : σ → Read σ Bool}
  {pull' : τ → Read τ Bool}

theorem Read.Alike.bind {r : Read σ α} {r' : Read τ α} {f : α → σ → Read σ β} {f' : α → τ → Read τ β} (h : r.Alike R E r')
    (hf : ∀ a s t, R s t → (f a s).Alike R E (f' a t)) : (r.bind f).Alike R E (r'.bind f') := by
  cases r with
  | ok a s =>
    cases r' with
    | ok b t => obtain ⟨rfl, hst⟩ := h; exact hf a s t hst
    | err e t => exact h.elim
  | err e s =>
    cases r' with
    | ok b t => exact h.elim
    | err f t => exact h

theorem Read.Alike.of_ok {a : α} {s : σ} {t : τ} (h : R s t) : (Read.ok a s).Alike R E (Read.ok a t) := ⟨rfl, h⟩

theorem Read.alike_ite {p : Prop} [Decidable p] {r u : Read σ α} {r' u' : Read τ α} (h : r.Alike R E r')
    (h' : u.Alike R E u') : (if p then r else u).Alike R E (if p then r' else u') := by
  split
  · exact h
  · exact h'

variable (h : PullAlike R E pull pull') {s : σ} {t : τ}
include h

theorem PullAlike.err {e : Err} (he : e ≠ .truncated) (hst : R s t) :
    (Read.err e s : Read σ α).Alike R E (Read.err e t : Read τ α) := h.own e s t he hst

theorem PullAlike.readBits (n acc : Nat) (hst : R s t) :
    (readBits pull n acc s).Alike R E (readBits pull' n acc t) := by
  induction n generalizing acc s t with
  | zero => exact .of_ok hst
  | succ n ih => exact (h.bit s t hst).bind fun b s t hst => ih _ hst

theorem PullAlike.readField (n : Nat) (hst : R s t) : (readField pull n s).Alike R E (readField pull' n t) :=
  Read.alike_ite (h.err (by decide) hst) (h.readBits n 0 hst)

theorem PullAlike.countZeros (left q : Nat) (hst : R s t) :
    (countZeros pull left q s).Alike R E (countZeros pull' left q t) := by
  induction left generalizing q s t with
  | zero => exact (h.bit s t hst).bind fun b s t hst => Read.alike_ite (.of_ok hst) (h.err (by decide) hst)
  | succ left ih => exact (h.bit s t hst).bind fun b s t hst => Read.alike_ite (.of_ok hst) (ih _ hst)

theorem PullAlike.readRicePair (k w : Nat) (hst : R s t) :
    (readRicePair pull k w s).Alike R E (readRicePair pull' k w t) :=
  (h.countZeros _ _ hst).bind fun _ _ _ hst => Read.alike_ite (.of_ok hst) <|
    (h.readField k hst).bind fun _ _ _ hst => .of_ok hst

theorem PullAlike.readRice (k w : Nat) (hst : R s t) : (readRice pull k w s).Alike R E (readRice pull' k w t) :=
  (h.readRicePair k w hst).bind fun _ _ _ hst => .of_ok hst

theorem PullAlike.readCodeword (n : Nat) (hst : R s t) :
    (readCodeword pull n s).Alike R E (readCodeword pull' n t) :=
  (h.readField _ hst).bind fun _ _ _ hst => Read.alike_ite (.of_ok hst) <|
    (h.bit _ _ hst).bind fun _ _ _ hst => .of_ok hst

theorem PullAlike.readPhased (n : Nat) (hst : R s t) : (readPhased pull n s).Alike R E (readPhased pull' n t) :=
  (h.readCodeword n hst).bind fun cw s t hst => by
    cases codewordIndex n cw with
    | some v => exact .of_ok hst
    | none => exact h.err (by decide) hst

theorem PullAlike.readHeader (hst : R s t) : (readHeader pull s).Alike R E (readHeader pull' t) :=
  (h.readField 32 hst).bind fun _ _ _ hst => Read.alike_ite (h.err (by decide) hst) <|
  (h.readField 8 hst).bind fun _ _ _ hst => Read.alike_ite (h.err (by simp) hst) <|
  (h.readField 8 hst).bind fun _ _ _ hst => Read.alike_ite (h.err (by simp) hst) <|
  (h.readField 32 hst).bind fun _ _ _ hst => (h.readField 32 hst).bind fun _ _ _ hst =>
  Read.alike_ite (h.err (by decide) hst) (.of_ok hst)

/-- A field of any kind is read alike from two supplies of the same bits. -/
theorem PullAlike.readInstr (kind : FieldKind) (hst : R s t) :
    (readInstr pull kind s).Alike R E (readInstr pull' kind t) := by
  cases kind with
  | header => exact (h.readHeader hst).bind fun _ _ _ hst => .of_ok hst
  | raw w => exact (h.readField w hst).bind fun _ _ _ hst => .of_ok hst
  | symbol n k w =>
    refine (h.bit s t hst).bind fun _ s t hst => Read.alike_ite ?_ ?_
    · exact (h.readPhased n hst).bind fun _ _ _ hst => .of_ok hst
    · exact (h.bit s t hst).bind fun _ _ _ hst => (h.readRice k w hst).bind fun _ _ _ hst => .of_ok hst
  | rice k w => exact (h.readRicePair k w hst).bind fun _ _ _ hst => .of_ok hst
  | phased n =>
    refine (h.readCodeword n hst).bind fun cw _ _ hst => ?_
    cases cw with
    | short x => exact .of_ok hst
    | long y => exact .of_ok hst
  | padding used => exact (h.readBits _ 0 hst).bind fun _ _ _ hst => .of_ok hst

end

end Sys2Proof

namespace Sys2Proof.Machine

/-! ## Reading the bits of a field from a list -/

section
variable {rest : List Bool}

theorem pullList_cons (b : Bool) : pullList (b :: rest) = .ok b rest := rfl

theorem countZeros_list {left q n : Nat} (hn : n ≤ left) :
    countZeros pullList left q (List.replicate n false ++ true :: rest) = .ok (q + n) rest := by
  induction n generalizing left q with
  | zero => cases left <;> rfl
  | succ n ih =>
    cases left with
    | zero => omega
    | succ left =>
      rw [List.replicate_succ, List.cons_append, countZeros, pullList_cons, Read.bind_ok, if_neg Bool.false_ne_true,
        ih (by omega)]
      congr 1
      omega

theorem readRicePair_list {k w q r : Nat} (hk : k ≤ Config.pushMax) (hq : q ≤ qmax w k) (hr : r < 2 ^ k) :
    readRicePair pullList k w (riceBits k q r ++ rest) = .ok (q, r) rest := by
  rw [readRicePair, riceBits, List.append_assoc, List.cons_append, countZeros_list hq, Read.bind_ok, Nat.zero_add]
  by_cases hk0 : k = 0
  · subst hk0
    rw [if_pos rfl, bitsMsb, List.nil_append, Nat.lt_one_iff.1 hr]
  · rw [if_neg hk0, readField_list r k rest hk hr, Read.bind_ok]

/-- The value comes back from its quotient and its remainder (41_codes.md R114). -/
theorem readRice_list {k w v : Nat} (hk : k ≤ Config.pushMax) (hq : v / 2 ^ k ≤ qmax w k) :
    readRice pullList k w (riceBits k (v / 2 ^ k) (low v k) ++ rest) = .ok v rest := by
  have hlow : low v k < 2 ^ k := Nat.mod_lt v (Nat.two_pow_pos k)
  rw [readRice, readRicePair_list hk hq hlow, Read.bind_ok, riceValue, low, Nat.div_add_mod']

theorem readCodeword_list_short {n x : Nat} (hn : 1 ≤ n) (hm : phasedM n ≤ Config.pushMax) (hx : x < shortCount n) :
    readCodeword pullList n (bitsMsb x (phasedM n) ++ rest) = .ok (.short x) rest := by
  rw [readCodeword, readField_list x _ rest hm (hx.trans_le (shortCount_bounds n hn).2.1), Read.bind_ok, if_pos hx]

theorem readCodeword_list_long {n y : Nat} (hm : phasedM n ≤ Config.pushMax) (hlow : 2 * shortCount n ≤ y)
    (hhigh : y < 2 ^ (phasedM n + 1)) :
    readCodeword pullList n (bitsMsb y (phasedM n + 1) ++ rest) = .ok (.long y) rest := by
  have hy : 2 * (y / 2) + (decide (y % 2 = 1)).toNat = y := by
    rcases Nat.mod_two_eq_zero_or_one y with hy | hy
    · simp [hy]; omega
    · simp [hy]; omega
  rw [bitsMsb_succ_eq_append, List.append_assoc, readCodeword,
    readField_list _ _ _ hm (by rw [pow_succ] at hhigh; omega), Read.bind_ok, if_neg (by omega), List.singleton_append,
    pullList_cons, Read.bind_ok, hy]

theorem readCodeword_list {n v : Nat} (hm : phasedM n ≤ Config.pushMax) (hv : v < n) :
    readCodeword pullList n (codewordBits n (phasedCodeword n v) ++ rest) = .ok (phasedCodeword n v) rest := by
  rcases phasedCodeword_cases hv with ⟨x, hcw, hx⟩ | ⟨y, hcw, hlow, hhigh⟩
  · rw [hcw]; exact readCodeword_list_short (by omega) hm hx
  · rw [hcw]; exact readCodeword_list_long hm hlow hhigh

theorem readPhased_list {n v : Nat} (hm : phasedM n ≤ Config.pushMax) (hv : v < n) :
    readPhased pullList n (codewordBits n (phasedCodeword n v) ++ rest) = .ok v rest := by
  rw [readPhased, readCodeword_list hm hv, Read.bind_ok, codewordIndex_phasedCodeword n v hv]

theorem readHeader_list {h : HeaderFields} (hwidth : h.width ≠ 0) (hheight : h.height ≠ 0) :
    readHeader pullList (headerBits h ++ rest) = .ok h rest := by
  have hflag : ∀ b : BitVec 1, b.toNat < 2 ^ 8 ∧ ¬ 1 < b.toNat := fun b => by have := b.isLt; omega
  have hzero : ∀ w : Word32, w ≠ 0 → w.toNat ≠ 0 := fun w hw e => hw (BitVec.eq_of_toNat_eq e)
  have hword : ∀ {v n : Nat}, n ≤ Config.pushMax → v < 2 ^ n → ∀ l, readField pullList n (bitsMsb v n ++ l) = .ok v l :=
    fun hn hv l => readField_list _ _ l hn hv
  have hmagic := hword (v := Config.magicWord) (n := 32) (by decide) (by decide)
  have hbyte : ∀ b : BitVec 1, ∀ l, readField pullList 8 (bitsMsb b.toNat 8 ++ l) = .ok b.toNat l := fun b =>
    hword (by decide) (hflag b).1
  have hdim : ∀ w : Word32, ∀ l, readField pullList 32 (bitsMsb w.toNat 32 ++ l) = .ok w.toNat l := fun w =>
    hword (by decide) w.isLt
  simp only [headerBits, streamBits_magic, List.append_assoc, readHeader_eq, hmagic, Read.bind_ok, ne_eq,
    not_true_eq_false, if_false, readFromColor, hbyte, (hflag _).2, readFromDepth, readDimensions, hdim,
    if_neg (not_or.2 ⟨hzero _ hwidth, hzero _ hheight⟩), BitVec.ofNat_toNat, BitVec.setWidth_eq]

end

/-! ## The fields, written and read back -/

/-- Settles O51: what a kind admits names one instruction form per kind, and each form's bits are read back by the lemma of
its reading. -/
theorem fieldRoundTrip : Obligations.FieldRoundTrip := by
  intro kind i rest hfits
  unfold fieldFits at hfits
  unfold decodeField
  split at hfits
  case h_1 =>
    obtain ⟨hw, hh⟩ := of_decide_eq_true hfits
    exact ⟨_, rfl, by rw [readInstr, readHeader_list hw hh, Read.bind_ok]⟩
  case h_2 =>
    obtain ⟨hw, hv⟩ := of_decide_eq_true hfits
    exact ⟨_, rfl, by rw [readInstr, readField_list _ _ _ hw hv, Read.bind_ok]⟩
  case h_3 =>
    obtain ⟨hv, hm⟩ := of_decide_eq_true hfits
    refine ⟨_, rfl, ?_⟩
    rw [readInstr, List.cons_append, pullList_cons, Read.bind_ok, if_pos rfl, readPhased_list hm hv, Read.bind_ok]
  case h_4 =>
    obtain ⟨hk, hq⟩ := of_decide_eq_true hfits
    refine ⟨_, rfl, ?_⟩
    rw [readInstr, List.cons_append, pullList_cons, Read.bind_ok, if_neg Bool.false_ne_true, List.cons_append, pullList_cons,
      Read.bind_ok, readRice_list hk hq, Read.bind_ok, if_neg Bool.false_ne_true]
  case h_5 =>
    obtain ⟨hk, hq⟩ := of_decide_eq_true hfits
    refine ⟨_, rfl, ?_⟩
    rw [readInstr, List.cons_append, pullList_cons, Read.bind_ok, if_neg Bool.false_ne_true, List.cons_append, pullList_cons,
      Read.bind_ok, readRice_list hk hq, Read.bind_ok, if_pos rfl]
  case h_6 =>
    obtain ⟨hk, hq, hr⟩ := of_decide_eq_true hfits
    exact ⟨_, rfl, by rw [readInstr, readRicePair_list hk hq hr, Read.bind_ok]⟩
  case h_7 =>
    obtain ⟨hn, hm, hx⟩ := of_decide_eq_true hfits
    exact ⟨_, rfl, by rw [readInstr, codewordBits, readCodeword_list_short hn hm hx, Read.bind_ok]⟩
  case h_8 =>
    obtain ⟨-, hm, hlow, hhigh⟩ := of_decide_eq_true hfits
    exact ⟨_, rfl, by rw [readInstr, codewordBits, readCodeword_list_long hm hlow hhigh, Read.bind_ok]⟩
  case h_9 used =>
    refine ⟨_, rfl, ?_⟩
    have hread := readBits_list (List.replicate (paddingLength used) false) rest 0
    rw [List.length_replicate] at hread
    rw [readInstr, hread, Read.bind_ok]
  case h_10 => cases hfits

/-! ## The machine's bit source beside the list of its bits -/

/-- From `s`, the source and the list have delivered the same bits. -/
def SourceAt (s t : State) (bits : List Bool) : Prop := leaves s t bits

/-- From `s`, the reading from the source ends as the reading from the list does; where the list ends, in what the source ends
in (20_memory.md R43, R44). -/
def SourceEnds (s : State) (e : Err) (t : State) (e' : Err) (bits : List Bool) : Prop :=
  (e' ≠ .truncated ∧ e = e' ∧ leaves s t bits) ∨ (e' = .truncated ∧ e = readEnd s ∧ exhausted s t)

theorem pullBit_alike_pullList (s : State) : PullAlike (SourceAt s) (SourceEnds s) pullBit pullList where
  bit t bits ht := by
    cases bits with
    | nil =>
      obtain ⟨u, hpull, hend⟩ := pullBit_exhausted t ht.readable
      obtain ⟨-, -, hsame, -⟩ := id ht
      rw [hpull, hsame]
      exact .inr ⟨rfl, rfl, ht.exhausted hend⟩
    | cons b rest =>
      obtain ⟨u, hpull, hleft⟩ := pullBit_cons t b rest ht.readable
      rw [hpull]
      exact ⟨rfl, ht.trans hleft⟩
  own _ _ _ he ht := .inl ⟨he, rfl, ht⟩

/-- A reading from the source beside the same reading from the list of the readable bits. -/
def ReadsAsList {α : Type} (s : State) (r : Read State α) (l : Read (List Bool) α) : Prop :=
  r.Alike (SourceAt s) (SourceEnds s) l

section
variable {α : Type} {s : State} {r : Read State α} {l : Read (List Bool) α}

theorem ReadsAsList.of_ok {a : α} {rest : List Bool} (h : ReadsAsList s r l) (hl : l = .ok a rest) :
    ∃ t, r = .ok a t ∧ leaves s t rest := by
  subst hl
  cases r with
  | ok b t => obtain ⟨rfl, ht⟩ := h; exact ⟨t, rfl, ht⟩
  | err e t => exact h.elim

theorem ReadsAsList.of_truncated {rest : List Bool} (h : ReadsAsList s r l) (hl : l = .err .truncated rest) :
    ∃ t, r = .err (readEnd s) t ∧ exhausted s t := by
  subst hl
  cases r with
  | ok b t => exact h.elim
  | err e t =>
    rcases h with ⟨hne, -⟩ | ⟨-, rfl, hend⟩
    · exact absurd rfl hne
    · exact ⟨t, rfl, hend⟩

theorem ReadsAsList.of_err {e : Err} {rest : List Bool} (h : ReadsAsList s r l) (hl : l = .err e rest)
    (he : e ≠ .truncated) : ∃ t, r = .err e t ∧ leaves s t rest := by
  subst hl
  cases r with
  | ok b t => exact h.elim
  | err f t =>
    rcases h with ⟨-, rfl, ht⟩ | ⟨htrunc, -⟩
    · exact ⟨t, rfl, ht⟩
    · exact absurd htrunc he

end

theorem readInstr_readsAsList (kind : FieldKind) (s : State) :
    ReadsAsList s (readInstr pullBit kind s) (decodeField kind (readableBits s)) :=
  (pullBit_alike_pullList s).readInstr kind (leaves_refl s)

/-- Settles O52: the source and the list of its bits pull alike, so every field is read alike from both. -/
theorem sourceReadsAsDecoder : Obligations.SourceReadsAsDecoder := by
  intro kind s
  have hread := readInstr_readsAsList kind s
  refine ⟨fun i rest hl => ?_, fun rest hl => hread.of_truncated hl, fun e rest he hl => ?_⟩
  · obtain ⟨t, hok, hleft⟩ := hread.of_ok hl
    exact ⟨t, hok, hleft.readable, hleft.frame⟩
  · obtain ⟨t, herr, hleft⟩ := hread.of_err hl he
    exact ⟨t, herr, hleft.readable, hleft.frame⟩

end Sys2Proof.Machine
end

section
/-! PROOF. The codes (41_codes.md R110 to R122): the Rice and phased-in operations on every form their bits can take, and what
makes the phased-in code a code. -/

namespace Sys2Proof

/-! ## The phased-in code as a set of words (41_codes.md R117 to R122) -/

section
variable {n v v' x y : Nat} {cw : Codeword}

/-- The rotation undoes its inverse (R117). -/
theorem rotate_unrotate (hv : v' < n) : (unrotate n v' + longCount n / 2) % n = v' := by
  obtain ⟨-, -, hparts, -, -⟩ := shortCount_bounds n (by omega)
  have hc : longCount n / 2 < n := by omega
  unfold unrotate
  rcases Nat.lt_or_ge v' (longCount n / 2) with hlow | hhigh
  · rw [Nat.mod_eq_of_lt (show v' + n - longCount n / 2 < n by omega),
      show v' + n - longCount n / 2 + longCount n / 2 = v' + n by omega, Nat.add_mod_right, Nat.mod_eq_of_lt hv]
  · rw [show v' + n - longCount n / 2 = v' - longCount n / 2 + n by omega, Nat.add_mod_right,
      Nat.mod_eq_of_lt (show v' - longCount n / 2 < n by omega), Nat.sub_add_cancel hhigh, Nat.mod_eq_of_lt hv]

/-- A word that stands for an index is that index's codeword (R119). -/
theorem phasedCodeword_of_codewordIndex (hn : 1 ≤ n) (h : codewordIndex n cw = some v) :
    v < n ∧ phasedCodeword n v = cw := by
  obtain ⟨-, -, hparts, -, htotal⟩ := shortCount_bounds n hn
  cases cw with
  | short x =>
    rw [codewordIndex] at h
    split at h
    case isFalse => cases h
    case isTrue hx =>
      cases h
      have hrot := rotate_unrotate (n := n) (v' := x + longCount n) (by omega)
      exact ⟨unrotate_lt n _ hn, by simp only [phasedCodeword, hrot, if_neg (show ¬ x + longCount n < longCount n by omega),
        Nat.add_sub_cancel]⟩
  | long y =>
    rw [codewordIndex] at h
    split at h
    case isFalse => cases h
    case isTrue hy =>
      cases h
      have hrot := rotate_unrotate (n := n) (v' := y - 2 * shortCount n) (by omega)
      exact ⟨unrotate_lt n _ hn, by simp only [phasedCodeword, hrot, if_pos (show y - 2 * shortCount n < longCount n by omega),
        Nat.sub_add_cancel hy.1]⟩

theorem bitsMsb_injOn (hx : x < 2 ^ n) (hy : y < 2 ^ n) (h : bitsMsb x n = bitsMsb y n) : x = y := by
  have hbits := congrArg ofBits h
  rwa [ofBits_bitsMsb, ofBits_bitsMsb, Nat.mod_eq_of_lt hx, Nat.mod_eq_of_lt hy] at hbits

theorem codewordBits_length : (codewordBits n (phasedCodeword n v)).length =
    if (v + longCount n / 2) % n < longCount n then phasedM n + 1 else phasedM n := by
  by_cases hlong : (v + longCount n / 2) % n < longCount n
  · simp only [phasedCodeword, hlong, if_true, codewordBits, bitsMsb_length]
  · simp only [phasedCodeword, hlong, if_false, codewordBits, bitsMsb_length]

/-- A short word and a long one differ in their first m bits: below `|B|`, or `|B|` and above (R119). -/
theorem short_not_prefix_long (hn : 1 ≤ n) (hx : x < shortCount n) (hlow : 2 * shortCount n ≤ y)
    (hhigh : y < 2 ^ (phasedM n + 1)) : ¬ bitsMsb x (phasedM n) <+: bitsMsb y (phasedM n + 1) := by
  intro h
  obtain ⟨-, hshort, -⟩ := shortCount_bounds n hn
  rw [bitsMsb_succ_eq_append] at h
  have hsame : bitsMsb x (phasedM n) = bitsMsb (y / 2) (phasedM n) :=
    (List.prefix_of_prefix_length_le h (List.prefix_append _ _) (by simp)).eq_of_length (by simp)
  have hxy := bitsMsb_injOn (by omega) (by rw [pow_succ] at hhigh; omega) hsame
  omega

/-- A codeword that begins another is that codeword (R122). -/
theorem phasedCodeword_of_prefix (hv : v < n) (hv' : v' < n)
    (h : codewordBits n (phasedCodeword n v) <+: codewordBits n (phasedCodeword n v')) :
    phasedCodeword n v = phasedCodeword n v' := by
  have hshort := (shortCount_bounds n (by omega)).2.1
  have hlen := h.length_le
  rcases phasedCodeword_cases hv with ⟨x, hcw, hx⟩ | ⟨y, hcw, hlow, hhigh⟩ <;>
    rcases phasedCodeword_cases hv' with ⟨x', hcw', hx'⟩ | ⟨y', hcw', hlow', hhigh'⟩ <;>
    rw [hcw, hcw'] at h hlen ⊢
  · exact congrArg _ (bitsMsb_injOn (by omega) (by omega) (h.eq_of_length (by simp [codewordBits])))
  · exact absurd h (short_not_prefix_long (by omega) hx hlow' hhigh')
  · simp [codewordBits] at hlen
  · exact congrArg _ (bitsMsb_injOn hhigh hhigh' (h.eq_of_length (by simp [codewordBits])))

/-- Every word of m + 1 bits begins with a codeword: its first m bits below `|B|`, or all of it (R122). -/
theorem exists_codeword_prefix (hn : 1 ≤ n) (hy : y < 2 ^ (phasedM n + 1)) :
    ∃ v < n, codewordBits n (phasedCodeword n v) <+: bitsMsb y (phasedM n + 1) := by
  by_cases hx : y / 2 < shortCount n
  · obtain ⟨hv, hcw⟩ := phasedCodeword_of_codewordIndex (cw := .short (y / 2)) hn (if_pos hx)
    refine ⟨_, hv, ?_⟩
    rw [hcw, codewordBits, bitsMsb_succ_eq_append]
    exact List.prefix_append _ _
  · obtain ⟨hv, hcw⟩ := phasedCodeword_of_codewordIndex (cw := .long y) hn (if_pos ⟨by omega, hy⟩)
    exact ⟨_, hv, by rw [hcw, codewordBits]⟩

/-- The rotation permutes the alphabet, so the words are as long in total as unrotated ones (R117). -/
theorem sum_rotate (f : Nat → Nat) (hn : 1 ≤ n) :
    ∑ v ∈ Finset.range n, f ((v + longCount n / 2) % n) = ∑ v ∈ Finset.range n, f v :=
  Finset.sum_nbij' (fun v => (v + longCount n / 2) % n) (unrotate n)
    (fun _ _ => Finset.mem_range.2 (Nat.mod_lt _ hn)) (fun _ _ => Finset.mem_range.2 (unrotate_lt n _ hn))
    (fun v hv => unrotate_rotate n v (Finset.mem_range.1 hv)) (fun _ hv => rotate_unrotate (Finset.mem_range.1 hv))
    fun _ _ => rfl

theorem sum_ite_lt (a m n : Nat) : ∑ v ∈ Finset.range n, (if v < a then m + 1 else m) = n * m + min a n := by
  induction n with
  | zero => simp
  | succ n ih =>
    rw [Finset.sum_range_succ, ih, Nat.succ_mul]
    split <;> omega

/-- The total length of the codewords (R122). -/
theorem sum_codewordBits_length (hn : 1 ≤ n) :
    ((List.range n).map fun v => (codewordBits n (phasedCodeword n v)).length).sum = n * phasedM n + longCount n := by
  obtain ⟨-, -, hparts, -, -⟩ := shortCount_bounds n hn
  calc ((List.range n).map fun v => (codewordBits n (phasedCodeword n v)).length).sum
      = ∑ v ∈ Finset.range n, (codewordBits n (phasedCodeword n v)).length := rfl
    _ = ∑ v ∈ Finset.range n, (if (v + longCount n / 2) % n < longCount n then phasedM n + 1 else phasedM n) :=
      Finset.sum_congr rfl fun _ _ => codewordBits_length
    _ = n * phasedM n + longCount n := by
      rw [sum_rotate (fun v' => if v' < longCount n then phasedM n + 1 else phasedM n) hn, sum_ite_lt,
        min_eq_left (by omega)]

end

/-! ## The words as R120 writes them -/

theorem codewordBits_phasedCodeword {n v : Nat} (hv : v < n) : codewordBits n (phasedCodeword n v) =
    if n = 1 then [] else if (v + longCount n / 2) % n < longCount n
      then bitsMsb ((v + longCount n / 2) % n + 2 * shortCount n) (phasedM n + 1)
      else bitsMsb ((v + longCount n / 2) % n - longCount n) (phasedM n) := by
  by_cases hn : n = 1
  · subst hn
    rw [if_pos rfl, codewordBits_one hv]
  · rw [if_neg hn]
    by_cases hlong : (v + longCount n / 2) % n < longCount n
    · simp only [phasedCodeword, hlong, if_true, codewordBits]
    · simp only [phasedCodeword, hlong, if_false, codewordBits]

end Sys2Proof

namespace Sys2Proof.Machine

/-! ## The encoding operations -/

section
variable {s t : State} {e : Err} {v k w n : Nat} {cw : Codeword}

theorem exec_riceEnc (v k : Nat) (s : State) : exec (.riceEnc v k) s = (riceEnc v k s).finish := rfl

theorem riceEnc_eq (v : Nat) (s : State) (hk : k ≤ 64) :
    riceEnc v k s = pushList (riceBits k (v / 2 ^ k) (low v k)) s := pushRice_eq _ _ _ s hk

/-- The unary part goes out before PUSH_BITS refuses more than 64 bits (R111, log entry 21). -/
theorem riceEnc_above (v : Nat) (hk : 64 < k) (hready : sinkReady s) :
    ∃ t, riceEnc v k s = .raise .invalidInput t ∧ sinkReady t ∧
      sinkBits t = sinkBits s ++ (List.replicate (v / 2 ^ k) false ++ [true]) ∧ sameButSink s t := by
  obtain ⟨t, hpush, hready', hbits, hframe⟩ := pushList_ready (List.replicate (v / 2 ^ k) false ++ [true]) s hready
  exact ⟨t, by rw [riceEnc, pushRice, hpush, Res.bind_ok, if_neg (by omega), pushBits_above _ _ hk], hready', hbits, hframe⟩

theorem exec_phasedEnc (v n : Nat) (s : State) : exec (.phasedEnc v n) s = (phasedEnc v n s).finish := rfl

theorem phasedEnc_eq (s : State) (hv : v < n) : phasedEnc v n s = pushCodeword n (phasedCodeword n v) s := if_pos hv

/-- A word of at most 64 bits is pushed bit by bit (R120). -/
theorem pushCodeword_of_length_le (s : State) (h : (codewordBits n cw).length ≤ 64) :
    pushCodeword n cw s = pushList (codewordBits n cw) s := by
  cases cw with
  | short x => exact pushBits_eq _ _ _ (by simpa [codewordBits] using h)
  | long y => exact pushBits_eq _ _ _ (by simpa [codewordBits] using h)

/-- A longer one is refused by PUSH_BITS before its first bit (log entry 21). -/
theorem pushCodeword_of_lt_length (s : State) (h : 64 < (codewordBits n cw).length) :
    pushCodeword n cw s = .raise .invalidInput s := by
  cases cw with
  | short x => exact pushBits_above _ _ (by simpa [codewordBits] using h)
  | long y => exact pushBits_above _ _ (by simpa [codewordBits] using h)

/-! ## The decoding operations -/

theorem exec_riceDec_of_ok (h : readRice pullBit k w s = .ok v t) (hframe : sameButSource s t) :
    exec (.riceDec k w) s = .next { t with dp := { s.dp with v := v } } := by
  simp only [exec, execRiceDec, riceDec, h, ofRead_ok, Res.bind_ok, finish_ok, hframe.dp_eq]

theorem exec_riceDec_of_err (h : readRice pullBit k w s = .err e t) : exec (.riceDec k w) s = .next (raiseError e t) := by
  simp only [exec, execRiceDec, riceDec, h, ofRead_err, Res.bind_raise, finish_raise]

/-- A reading that raises in the unary part. -/
theorem readRice_of_countZeros_err (h : countZeros pullBit (qmax w k) 0 s = .err e t) :
    readRice pullBit k w s = .err e t := by
  rw [readRice, readRicePair_eq, h, Read.bind_err, Read.bind_err]

/-- A reading that raises in the remainder. -/
theorem readRice_of_readField_err {q : Nat} {u : State} (h : countZeros pullBit (qmax w k) 0 s = .ok q t)
    (h' : readField pullBit k t = .err e u) : readRice pullBit k w s = .err e u := by
  rw [readRice, readRicePair_eq, h, Read.bind_ok, h', Read.bind_err, Read.bind_err]

theorem exec_phasedDec_of_ok (hn : 1 ≤ n) (h : readPhased pullBit n s = .ok v t) (hframe : sameButSource s t) :
    exec (.phasedDec n) s = .next { t with res := { s.res with val := v } } := by
  simp only [exec, execPhasedDec, phasedDec_pos n s hn, h, ofRead_ok, Res.bind_ok, finish_ok, hframe.res_eq]

theorem exec_phasedDec_of_err (hn : 1 ≤ n) (h : readPhased pullBit n s = .err e t) :
    exec (.phasedDec n) s = .next (raiseError e t) := by
  simp only [exec, execPhasedDec, phasedDec_pos n s hn, h, ofRead_err, Res.bind_raise, finish_raise]

theorem readPhased_of_ok (h : readCodeword pullBit n s = .ok cw t) (hindex : codewordIndex n cw = some v) :
    readPhased pullBit n s = .ok v t := by
  rw [readPhased, h, Read.bind_ok, hindex]

theorem readPhased_of_err (h : readCodeword pullBit n s = .err e t) : readPhased pullBit n s = .err e t := by
  rw [readPhased, h, Read.bind_err]

/-- m bits that give less than `|B|` (R119). -/
theorem readCodeword_bits_short {xs rest : List Bool} (hm : phasedM n ≤ 64) (hlen : xs.length = phasedM n)
    (hx : ofBits xs < shortCount n) (h : readableBits s = xs ++ rest) :
    ∃ t, readCodeword pullBit n s = .ok (.short (ofBits xs)) t ∧ leaves s t rest := by
  obtain ⟨t, hfield, hleft⟩ := readField_bits (by omega) h
  rw [hlen] at hfield
  exact ⟨t, by rw [readCodeword, hfield, Read.bind_ok, if_pos hx], hleft⟩

/-- m bits that give `|B|` or more, and one bit after them. -/
theorem readCodeword_bits_long {xs rest : List Bool} {b : Bool} (hm : phasedM n ≤ 64) (hlen : xs.length = phasedM n)
    (hx : shortCount n ≤ ofBits xs) (h : readableBits s = xs ++ b :: rest) :
    ∃ t, readCodeword pullBit n s = .ok (.long (2 * ofBits xs + b.toNat)) t ∧ leaves s t rest := by
  obtain ⟨t, hfield, hleft⟩ := readField_bits (by omega) h
  obtain ⟨u, hbit, hleft'⟩ := pullBit_cons t b rest hleft.readable
  rw [hlen] at hfield
  exact ⟨u, by rw [readCodeword, hfield, Read.bind_ok, if_neg hx.not_gt, hbit, Read.bind_ok], hleft.trans hleft'⟩

/-- m bits that give `|B|` or more, and the end of the stream. -/
theorem readCodeword_bits_cut {xs : List Bool} (hm : phasedM n ≤ 64) (hlen : xs.length = phasedM n)
    (hx : shortCount n ≤ ofBits xs) (h : readableBits s = xs) :
    ∃ t, readCodeword pullBit n s = .err (readEnd s) t ∧ exhausted s t := by
  obtain ⟨t, hfield, hleft⟩ := readField_bits (rest := []) (by omega) (h.trans (List.append_nil _).symm)
  obtain ⟨u, hbit, hend⟩ := pullBit_exhausted t hleft.readable
  obtain ⟨-, -, hraise, -⟩ := id hleft
  rw [hlen] at hfield
  exact ⟨u, by rw [readCodeword, hfield, Read.bind_ok, if_neg hx.not_gt, hbit, hraise, Read.bind_err], hleft.exhausted hend⟩

end

end Sys2Proof.Machine

/-! ## The statements

In a namespace of their own, since the model's operations hold the names `riceEnc`, `phasedDec` and so on. -/

namespace Sys2Proof.Machine.Codes

/-- Settles O14, by the bits of the codeword. -/
theorem riceEnc : Obligations.RiceEnc := by
  intro s v k
  refine ⟨fun hk => ?_, fun hk hready => ?_⟩
  · rw [exec_riceEnc, riceEnc_eq v s hk, pushEach_eq]
    exact ⟨rfl, pushList_appends _ s⟩
  · obtain ⟨t, hraise, hready', hbits, hframe⟩ := riceEnc_above v hk hready
    exact ⟨t, hready', hframe, hbits, by rw [exec_riceEnc, hraise, finish_raise]⟩

/-- Settles O15: the unary part is read, runs over QMAX, or is cut short; then the remainder. -/
theorem riceDec : Obligations.RiceDec := by
  intro s k w q rem rest
  refine ⟨fun hk hq hrem hbits => ?word, fun hbits => ?malformed, fun hq hbits => ?cutUnary,
    fun hk hq hrem hbits => ?cutRemainder, fun hk hq hbits => ?above⟩
  case word =>
    obtain ⟨t, hread, hleft⟩ := readRice_bits hk hq hrem hbits
    exact ⟨t, hleft.frame, hleft.readable, exec_riceDec_of_ok hread hleft.frame⟩
  case malformed =>
    obtain ⟨t, hzeros, hleft⟩ := countZeros_malformed (qmax w k) 0 s rest hbits
    exact ⟨t, hleft.frame, hleft.readable, exec_riceDec_of_err (readRice_of_countZeros_err hzeros)⟩
  case cutUnary =>
    obtain ⟨t, hzeros, hend⟩ := countZeros_exhausted (qmax w k) 0 q s hq hbits
    exact ⟨t, hend, exec_riceDec_of_err (readRice_of_countZeros_err hzeros)⟩
  case cutRemainder =>
    obtain ⟨t, hzeros, hleft⟩ := countZeros_leaves (qmax w k) 0 q s rem hq hbits
    obtain ⟨u, hfield, hend⟩ := readField_exhausted k t hk (by rw [hleft.readable]; exact hrem)
    obtain ⟨-, -, hraise, -⟩ := id hleft
    rw [hraise] at hfield
    exact ⟨u, hleft.exhausted hend, exec_riceDec_of_err (readRice_of_readField_err hzeros hfield)⟩
  case above =>
    obtain ⟨t, hzeros, hleft⟩ := countZeros_leaves (qmax w k) 0 q s rest hq hbits
    exact ⟨t, hleft.frame, hleft.readable, exec_riceDec_of_err (readRice_of_readField_err hzeros (if_pos hk))⟩

/-- Settles O16: what RICE_ENC pushes is the first form of RICE_DEC's bits, with the value's quotient and remainder. -/
theorem riceRoundTrip : Obligations.RiceRoundTrip := by
  intro s u v k w rest hk hready
  obtain ⟨t, hexec, -, hbits, -⟩ := (riceEnc s v k).1 hk |>.2 hready
  refine ⟨t, _, hexec, hbits, ?_, fun hq hreadable => ?_⟩
  · simp; omega
  · obtain ⟨r, hframe, hrest, hdec⟩ :=
      (riceDec u k w (v / 2 ^ k) (bitsMsb (v % 2 ^ k) k) rest).1 hk hq (bitsMsb_length _ _) (by rw [hreadable]; simp)
    rw [ofBits_bitsMsb, Nat.mod_mod, Nat.div_add_mod'] at hdec
    exact ⟨r, hframe, hrest, hdec⟩

/-- Settles O17, by the word that `codewordBits_phasedCodeword` writes out. -/
theorem phasedEnc : Obligations.PhasedEnc := by
  intro s v n
  refine ⟨fun hv => ?_, fun hv => ?_⟩
  · rw [exec_phasedEnc, Machine.phasedEnc, if_neg hv.not_gt, finish_refuse]
  · intro m bn an v' word
    have hword : codewordBits n (phasedCodeword n v) = word := codewordBits_phasedCodeword hv
    rw [← hword, exec_phasedEnc, phasedEnc_eq s hv]
    refine ⟨fun hlen => ?_, fun hlen => ?_⟩
    · rw [pushCodeword_of_length_le s hlen, pushEach_eq]
      exact ⟨rfl, pushList_appends _ s⟩
    · rw [pushCodeword_of_lt_length s hlen, finish_raise]

/-- Settles O18: the m bits are there or not, and give less than `|B|` or take one bit more. -/
theorem phasedDec : Obligations.PhasedDec := by
  intro s n xs rest b hn m bn an
  have hindexLong : ∀ x : Nat, x < 2 ^ m → bn ≤ x →
      codewordIndex n (.long (2 * x + b.toNat)) = some ((2 * x + b.toNat - 2 * bn + n - an / 2) % n) := fun x hx hlow => by
    have hb := b.toNat_lt
    have hpow : 2 ^ (phasedM n + 1) = 2 * 2 ^ m := Nat.pow_succ'
    have hbn : 2 * shortCount n ≤ 2 * x + b.toNat := Nat.le_add_right_of_le (Nat.mul_le_mul_left 2 hlow)
    exact if_pos ⟨hbn, by omega⟩
  refine ⟨fun hm hlen hx hbits => ?short, fun hm hlen hx hbits => ?long, fun hm hlen => ?cut,
    fun hm hlen hx hbits => ?cutLong, fun hm => ?above⟩
  case short =>
    obtain ⟨t, hread, hleft⟩ := readCodeword_bits_short hm hlen hx hbits
    exact ⟨t, hleft.frame, hleft.readable, exec_phasedDec_of_ok hn (readPhased_of_ok hread (if_pos hx)) hleft.frame⟩
  case long =>
    obtain ⟨t, hread, hleft⟩ := readCodeword_bits_long hm hlen hx hbits
    have hindex := hindexLong _ (hlen ▸ ofBits_lt xs) hx
    exact ⟨t, hleft.frame, hleft.readable, exec_phasedDec_of_ok hn (readPhased_of_ok hread hindex) hleft.frame⟩
  case cut =>
    obtain ⟨t, hfield, hend⟩ := readField_exhausted (phasedM n) s hm hlen
    exact ⟨t, hend, exec_phasedDec_of_err hn (readPhased_of_err (by rw [readCodeword, hfield, Read.bind_err]))⟩
  case cutLong =>
    obtain ⟨t, hread, hend⟩ := readCodeword_bits_cut hm hlen hx hbits
    exact ⟨t, hend, exec_phasedDec_of_err hn (readPhased_of_err hread)⟩
  case above =>
    have hfield : readField pullBit (phasedM n) s = .err .invalidInput s := if_pos hm
    exact exec_phasedDec_of_err hn (readPhased_of_err (by rw [readCodeword, hfield, Read.bind_err]))

/-- Settles O19: the index of a codeword is unique, a codeword in front of another is that codeword, every word begins with
one, and the lengths are counted over the unrotated alphabet. -/
theorem phasedCodeProperties : Obligations.PhasedCodeProperties := by
  intro n hn
  obtain ⟨-, -, hparts, -, htotal⟩ := shortCount_bounds n hn
  have hinj : ∀ v v', v < n → v' < n → phasedCodeword n v = phasedCodeword n v' → v = v' := fun v v' hv hv' h => by
    have hindex := congrArg (codewordIndex n) h
    rwa [codewordIndex_phasedCodeword n v hv, codewordIndex_phasedCodeword n v' hv', Option.some_inj] at hindex
  have hsum : shortCount n * Nat.log2 n + longCount n * (Nat.log2 n + 1) = n * Nat.log2 n + longCount n := by
    rw [Nat.mul_succ, ← Nat.add_assoc, ← Nat.add_mul, hparts]
  refine ⟨hinj, fun v v' hv hv' h => hinj v v' hv hv' (phasedCodeword_of_prefix hv hv' h), fun bits hlen => ?_, htotal,
    ?_, ?_, ?_⟩
  · have hbits := bitsMsb_ofBits bits
    have hlt := ofBits_lt bits
    rw [hlen] at hbits hlt
    obtain ⟨v, hv, hprefix⟩ := exists_codeword_prefix hn hlt
    rw [phasedM, hbits] at hprefix
    obtain ⟨rest, hrest⟩ := id hprefix
    exact ⟨v, hv, hprefix, fun hm => ⟨rest, by rw [← hrest, readPhased_list hm hv]⟩⟩
  · rw [hsum, sum_codewordBits_length hn, phasedM]
  · rw [hsum]
    omega
  · rw [hsum, Nat.mul_succ]
    omega

end Sys2Proof.Machine.Codes
end

section
/-! PROOF. The wire rows (30_encoding.md R60 to R72): each field on the side that MODE selects (log entry 5), and the verbatim
sample of ENC_SAMPLE (44_channel_coder.md R161). -/

namespace Sys2Proof.Machine

/-! ## The side of a field -/

section
variable {emit take : State → Res Unit} {s : State}

theorem onWire_enc (h : s.stat.mode = .enc) : onWire emit take s = (emit s).finish := by
  simp only [onWire, h]

theorem onWire_dec (h : s.stat.mode ≠ .enc) : onWire emit take s = (take s).finish := by
  unfold onWire
  cases hmode : s.stat.mode with
  | enc => exact absurd hmode h
  | _ => rfl

end

/-! ## The symbols of a predicted sample, on each side -/

section
variable {s : State} {a b p : Int} {v : Nat}

theorem exec_rawSample_enc (v : Nat) (h : s.stat.mode = .enc) :
    exec (.rawSample v) s = ((pushBits v (chanWidth s) s).bind fun _ s => .ok () (advance s)).finish := by
  simp only [exec, execRawSample, onWire_enc h]

theorem exec_rawSample_dec (v : Nat) (h : s.stat.mode ≠ .enc) :
    exec (.rawSample v) s = .next (advance (withSample s (low v (chanWidth s) : Nat))) := by
  simp only [exec, execRawSample, onWire_dec h]
  rfl

theorem exec_symIn_enc (v : Nat) (h : s.stat.mode = .enc) (hn : neighboursHold s a b) :
    exec (.symIn v) s = ((emitIn v (afterPredict s a b)).bind fun _ s => .ok () (advance s)).finish := by
  simp only [exec, execSymIn, onWire_enc h, predict_of_neighboursHold hn, Res.bind_ok]

theorem exec_symIn_dec (v : Nat) (h : s.stat.mode ≠ .enc) (hn : neighboursHold s a b) :
    exec (.symIn v) s =
      if v ≤ deltaOf a b then .next (advance (withSample (afterPredict s a b) (min a b + v)))
      else .next (raiseError .malformedCodeword (afterPredict s a b)) := by
  simp only [exec, execSymIn, onWire_dec h, predict_of_neighboursHold hn, Res.bind_ok, apply_ite Res.finish]
  rfl

/-- The instruction of an out-of-range symbol, named by its second marker (R64). -/
def symOutOfRange (above : Bool) (v : Nat) : Instr := if above then .symAbove v else .symBelow v

theorem exec_symOutOfRange (above : Bool) (v : Nat) (s : State) :
    exec (symOutOfRange above v) s = onWire (emitRiceSymbol above v) (takeRiceSymbol above v) s := by
  cases above <;> rfl

theorem emitRiceSymbol_eq (above : Bool) (v : Nat) (hn : neighboursHold s a b) :
    emitRiceSymbol above v s =
      (emitOutOfRange above v (afterPredict s a b)).bind fun _ s => .ok () (advance s) := by
  rw [emitRiceSymbol, predict_of_neighboursHold hn, Res.bind_ok]

/-- The decoder's side: PREDICT, GET_K and the bound on the quotient, then what the symbol stands for (R113, R168). -/
theorem takeRiceSymbol_eq (above : Bool) (v : Nat) (hn : neighboursHold s a b) (hrow : deltaOf a b ≤ maxSample s) :
    takeRiceSymbol above v s =
      if qmax (chanWidth s) (kFor s (deltaOf a b)) < v / 2 ^ kFor s (deltaOf a b) then
        .raise .malformedCodeword (afterPredict { s with dp := { s.dp with k := kFor s (deltaOf a b) } } a b)
      else takeOutOfRange above v (afterPredict { s with dp := { s.dp with k := kFor s (deltaOf a b), v := v } } a b) := by
  have hk : getK (deltaOf a b) (afterPredict s a b) = _ := getK_kFor (s := afterPredict s a b) hrow
  have hdelta : (afterPredict s a b).dp.delta = deltaOf a b := rfl
  rw [takeRiceSymbol, predict_of_neighboursHold hn, Res.bind_ok, hdelta, hk, Res.bind_ok]
  rfl

/-- A magnitude of the channel keeps the quotient within QMAX (R113). -/
theorem quotient_le_qmax (h : v ≤ maxSample s) (k : Nat) : ¬ qmax (chanWidth s) k < v / 2 ^ k :=
  (Nat.div_le_div_right h).not_gt

theorem magnitude_le {above : Bool} (hp : p = if above then max a b + v + 1 else min a b - v - 1) (ha : codedValue s a)
    (hb : codedValue s b) (hfits : codedValue s p) : v ≤ maxSample s := by
  cases above with
  | false => rw [if_neg Bool.false_ne_true] at hp; omega
  | true => rw [if_pos rfl] at hp; omega

end

/-! ## PADDING on the encoder's side (40_bitio.md R92) -/

/-- On a sink that takes bits, the bits up to the byte boundary are zeros. -/
theorem emitPadding_ready {s : State} (h : sinkReady s) :
    ∃ t, emitPadding s = .ok () t ∧ sinkReady t ∧
      sinkBits t = sinkBits s ++ List.replicate ((8 - s.sink.cnt.toNat) % 8) false ∧ sameButSink s t := by
  obtain ⟨hflushed, hclean, hquiet⟩ := id h
  have hlt : s.sink.cnt.toNat < 8 := s.sink.cnt.isLt
  rw [emitPadding, if_neg (by simp [hflushed])]
  by_cases hc : s.sink.cnt = 0
  case pos =>
    have hzero : (8 - s.sink.cnt.toNat) % 8 = 0 := by rw [hc]; rfl
    exact ⟨s, if_pos hc, h, by rw [hzero, List.replicate_zero, List.append_nil], sameButSink_refl s⟩
  case neg =>
    have h0 : s.sink.cnt.toNat ≠ 0 := fun e => hc (BitVec.eq_of_toNat_eq e)
    rw [if_neg hc, byteOut_quiet _ _ hquiet, Res.bind_ok]
    have hbits : sinkBits s ++ List.replicate ((8 - s.sink.cnt.toNat) % 8) false = streamBits (s.out ++ [s.sink.acc]) := by
      rw [Nat.mod_eq_of_lt (show 8 - s.sink.cnt.toNat < 8 by omega), sinkBits, List.append_assoc,
        ← byteBits_of_clean hlt hclean, streamBits_append, streamBits_cons, streamBits_nil, List.append_nil]
    refine ⟨_, rfl, ⟨hflushed, fun j _ => by simp, quietOut_tail hquiet _ _⟩, ?_, rfl⟩
    rw [hbits]
    simp [sinkBits]

/-! ## The statements -/

/-- Settles O30, by the bits of a verbatim sample. -/
theorem encSampleVerbatim : Obligations.EncSampleVerbatim :=
  fun _ _ hidx hcell hp hready => exec_encSample_verbatim hidx hcell hp hready

/-- Settles O36, by the side that MODE selects. -/
theorem wireHeader : Obligations.WireHeader := by
  intro s h
  refine ⟨fun hmode hready => ?_, fun hmode hwidth hheight => ?_, fun hmode hzero => ?_⟩
  · simp only [exec, execHeader, onWire_enc hmode, streamBits_headerBytes]
    exact pushList_appends _ s hready
  · simp only [exec, execHeader, onWire_dec hmode, if_neg (not_or.2 ⟨hwidth, hheight⟩), finish_ok]
  · simp only [exec, execHeader, onWire_dec hmode, if_pos hzero, finish_raise]

/-- Settles O37: the encoder's side is the pushes of the field's bits, the decoder's side stores what the field carries. -/
theorem wireRawAndInRange : Obligations.WireRawAndInRange := by
  intro s a b v
  refine ⟨fun hmode hready => ?rawEnc, fun hmode => exec_rawSample_dec v hmode, fun hn ha hb =>
    ⟨fun hmode hv hready => ?symEnc, fun hmode hv => ?symDec, fun hmode hv => ?symMalformed⟩⟩
  case rawEnc =>
    obtain ⟨u, hpush, hready', hbits, hframe⟩ := pushList_ready (bitsMsb v (chanWidth s)) s hready
    have hwidth : chanWidth s ≤ 64 := (chanWidth_le s).trans (by decide)
    exact ⟨u, by rw [exec_rawSample_enc v hmode, pushBits_eq _ _ _ hwidth, hpush, Res.bind_ok, finish_ok], hready', hbits,
      hframe⟩
  case symEnc =>
    obtain ⟨u, hemit, hready', hbits, hframe⟩ :=
      emitIn_ready (s := afterPredict s a b) hv (deltaOf_le ha hb) hready
    exact ⟨u, by rw [exec_symIn_enc v hmode hn, hemit, Res.bind_ok, finish_ok], hready', hbits, hframe⟩
  case symDec => rw [exec_symIn_dec v hmode hn, if_pos hv]
  case symMalformed => rw [exec_symIn_dec v hmode hn, if_neg hv.not_ge]

/-- Settles O38: both sides go by the K of the row before UPDATE; a value of the channel has its quotient within QMAX, and the
other cases of the decoder's side raise MalformedCodeword. -/
theorem wireOutOfRange : Obligations.WireOutOfRange := by
  intro s a b p above v hn ha hb hp
  have hrow := deltaOf_le ha hb
  have hsym : (if above then Instr.symAbove v else .symBelow v) = symOutOfRange above v := rfl
  rw [hsym, exec_symOutOfRange]
  refine ⟨⟨_, exec_update_tableAfter v hrow, fun hmode hready => ?emit, fun hmode hfits => ?take⟩,
    fun hmode hout => ?raise⟩
  case emit =>
    obtain ⟨u, hemit, hready', hbits, hframe⟩ := emitOutOfRange_ready (s := afterPredict s a b) above v hrow hready
    refine ⟨{ u with table := tableAfter s (deltaOf a b) v }, ?_, hready', hbits, ?_⟩
    · rw [onWire_enc hmode, emitRiceSymbol_eq above v hn, hemit, Res.bind_ok, finish_ok]
      rfl
    · rw [hframe]
      rfl
  case take =>
    rw [onWire_dec hmode, takeRiceSymbol_eq above v hn hrow, if_neg (quotient_le_qmax (magnitude_le hp ha hb hfits) _),
      takeOutOfRange_fits (p := p)
        (s := afterPredict { s with dp := { s.dp with k := kFor s (deltaOf a b), v := v } } a b) hrow hp hfits, finish_ok]
    rfl
  case raise =>
    rw [onWire_dec hmode, takeRiceSymbol_eq above v hn hrow]
    split
    · exact ⟨_, rfl⟩
    · rw [takeOutOfRange_raises (p := p)
        (s := afterPredict { s with dp := { s.dp with k := kFor s (deltaOf a b), v := v } } a b) hp hout]
      exact ⟨_, rfl⟩

/-- The two phased-in rows are one operation on a word. -/
theorem exec_phasedWord {cw : Codeword} {i : Instr}
    (h : (∃ x, cw = .short x ∧ i = .phasedShort x) ∨ ∃ y, cw = .long y ∧ i = .phasedLong y) (s : State) :
    exec i s = phasedWord cw s := by
  rcases h with ⟨x, rfl, rfl⟩ | ⟨y, rfl, rfl⟩
  · rfl
  · rfl

theorem phasedWord_enc {cw : Codeword} {s : State} (h : s.stat.mode = .enc) :
    phasedWord cw s = (pushCodeword (s.dp.delta + 1) cw s).finish := by simp only [phasedWord, onWire_enc h]

theorem phasedWord_dec {cw : Codeword} {s : State} (h : s.stat.mode ≠ .enc) :
    (∀ v, codewordIndex (s.dp.delta + 1) cw = some v →
      phasedWord cw s = .next { s with res := { s.res with val := v } }) ∧
    (codewordIndex (s.dp.delta + 1) cw = none → phasedWord cw s = .next (raiseError .malformedCodeword s)) := by
  simp only [phasedWord, onWire_dec h]
  exact ⟨fun v hv => by rw [hv]; rfl, fun hnone => by rw [hnone]; rfl⟩

/-- Settles O39: the encoder's side is pushes, and on the decoder's side a word has an index where it is some value's
codeword. -/
theorem wireCodewords : Obligations.WireCodewords := by
  intro s q r v
  refine ⟨fun hk hmode hready => ?riceEnc, fun hmode hq => ?riceDec, fun hmode hq => ?riceMalformed,
    fun cw i hi => ?phased, fun hmode hready => ?paddingEnc, fun hmode => onWire_dec hmode⟩
  case riceEnc =>
    simp only [exec, execRiceCodeword, onWire_enc hmode, pushRice_eq _ _ _ _ hk, riceBits, low, bitsMsb_low]
    exact pushList_appends _ s hready
  case riceDec =>
    simp only [exec, execRiceCodeword, onWire_dec hmode, if_neg hq.not_gt, finish_ok, riceValue, low]
  case riceMalformed =>
    simp only [exec, execRiceCodeword, onWire_dec hmode, if_pos hq, finish_raise]
  case phased =>
    rw [exec_phasedWord hi]
    refine ⟨fun hmode hready hlen => ?_, fun hmode hlen => ?_, fun hmode hv hcw => ?_, fun hmode hnone => ?_⟩
    · rw [phasedWord_enc hmode, pushCodeword_of_length_le s hlen]
      exact pushList_appends _ s hready
    · rw [phasedWord_enc hmode, pushCodeword_of_lt_length s hlen, finish_raise]
    · refine (phasedWord_dec hmode).1 v ?_
      rw [← hcw, codewordIndex_phasedCodeword _ v (Nat.lt_succ_of_le hv)]
    · refine (phasedWord_dec hmode).2 ?_
      cases hindex : codewordIndex (s.dp.delta + 1) cw with
      | none => rfl
      | some v' =>
        obtain ⟨hv', hcw⟩ := phasedCodeword_of_codewordIndex (Nat.succ_pos _) hindex
        exact absurd hcw (hnone v' (Nat.le_of_lt_succ hv'))
  case paddingEnc =>
    obtain ⟨t, hemit, hready', hbits, hframe⟩ := emitPadding_ready hready
    have hexec : exec .padding s = (emitPadding s).finish := onWire_enc hmode
    exact ⟨t, by rw [hexec, hemit, finish_ok], hready', hbits, hframe⟩

end Sys2Proof.Machine
end

section
/-! PROOF. The host's port (30_encoding.md R73 to R76, 60_exceptions.md R206 to R216): the words and what a step does with the
host's oldest event. -/

namespace Sys2Proof.Machine

/-! ## Command words (30_encoding.md R73, R76) -/

/-- Each constructor's law of its command word. -/
theorem commandCodes (i : Instr) : Laws.CommandCodes.Statement i := by
  cases i with
  | compress => exact Laws.CommandCodes.compress
  | decompress => exact Laws.CommandCodes.decompress
  | readHeader => exact Laws.CommandCodes.readHeader
  | pushBit b => exact Laws.CommandCodes.pushBit b
  | pushBits value n => exact Laws.CommandCodes.pushBits value n
  | flush => exact Laws.CommandCodes.flush
  | pullBit => exact Laws.CommandCodes.pullBit
  | pullBits n => exact Laws.CommandCodes.pullBits n
  | riceEnc v k => exact Laws.CommandCodes.riceEnc v k
  | riceDec k w => exact Laws.CommandCodes.riceDec k w
  | phasedEnc v n => exact Laws.CommandCodes.phasedEnc v n
  | phasedDec n => exact Laws.CommandCodes.phasedDec n
  | predict => exact Laws.CommandCodes.predict
  | getK delta => exact Laws.CommandCodes.getK delta
  | update delta v => exact Laws.CommandCodes.update delta v
  | ycocgFwd r g b => exact Laws.CommandCodes.ycocgFwd r g b
  | ycocgInv y co cg => exact Laws.CommandCodes.ycocgInv y co cg
  | encSample => exact Laws.CommandCodes.encSample
  | decSample => exact Laws.CommandCodes.decSample
  | writeHeader => exact Laws.CommandCodes.writeHeader
  | parseHeader => exact Laws.CommandCodes.parseHeader
  | header color depth width height => exact Laws.CommandCodes.header color depth width height
  | rawSample v => exact Laws.CommandCodes.rawSample v
  | symIn v => exact Laws.CommandCodes.symIn v
  | symBelow v => exact Laws.CommandCodes.symBelow v
  | symAbove v => exact Laws.CommandCodes.symAbove v
  | riceCodeword q r => exact Laws.CommandCodes.riceCodeword q r
  | phasedShort x => exact Laws.CommandCodes.phasedShort x
  | phasedLong y => exact Laws.CommandCodes.phasedLong y
  | padding => exact Laws.CommandCodes.padding

theorem decodeCommand_of_encodeCommand {i : Instr} {c : Issue} (h : encodeCommand i = some c) :
    decodeCommand c = .ok i := by
  have hlaw := commandCodes i
  rwa [Laws.CommandCodes.Statement, h] at hlaw

theorem decodeCommand_ne_of_field {i : Instr} (h : encodeCommand i = none) (c : Issue) : decodeCommand c ≠ .ok i := by
  have hlaw := commandCodes i
  rw [Laws.CommandCodes.Statement, h] at hlaw
  exact hlaw c

/-- The operation codes of R73. -/
def operationCodes : List (BitVec 8) :=
  [0x01, 0x02, 0x03, 0x10, 0x11, 0x12, 0x18, 0x19, 0x20, 0x21, 0x22, 0x23, 0x30, 0x31, 0x32, 0x40, 0x41, 0x50, 0x51, 0x60,
    0x61]

theorem decodeCommand_unknown {c : Issue} (h : c.code ∉ operationCodes) : decodeCommand c = .error .invalidInput := by
  have hne : ∀ k ∈ operationCodes.map BitVec.toNat, c.code.toNat ≠ k := by
    intro k hk hcode
    obtain ⟨x, hx, rfl⟩ := List.mem_map.1 hk
    exact h (BitVec.eq_of_toNat_eq hcode ▸ hx)
  unfold decodeCommand
  split
  case h_22 => rfl
  all_goals
    rename_i hcode
    exact absurd hcode (hne _ (by decide))

section
variable {s : State} {c : Issue} {e : HostEvent} {rest : List HostEvent}

/-! ## The event that a step takes -/

theorem nextEvent_of_taken (hq : s.cmdq = e :: rest) (h : s.stat.status ≠ .busy ∨ takesOver e = true) :
    nextEvent s = some (e, { s with cmdq := rest }) := by
  simp only [nextEvent, hq, if_pos h]

theorem step_reset (hq : s.cmdq = .reset :: rest) : step s = .next (resetEngine { s with cmdq := rest }) := by
  simp only [step, nextEvent_of_taken hq (.inr rfl)]

theorem step_word {i : Instr} (hq : s.cmdq = .word c :: rest) (h : s.stat.status ≠ .busy ∨ takesOver (.word c) = true)
    (hd : decodeCommand c = .ok i) :
    step s = if performs c s then exec i { s with cmdq := rest } else .next { s with cmdq := rest } := by
  simp only [step, nextEvent_of_taken hq h, hd]
  rfl

theorem step_unknown (hq : s.cmdq = .word c :: rest) (h : s.stat.status ≠ .busy ∨ takesOver (.word c) = true)
    (hd : decodeCommand c = .error .invalidInput) : step s = .next (raiseError .invalidInput { s with cmdq := rest }) := by
  simp only [step, nextEvent_of_taken hq h, hd, rejectCode_eq]

theorem performs_iff : performs c s = true ↔ s.stat.status = .idle ∨ isHostCommand c = true := by
  simp only [performs, Bool.or_eq_true, decide_eq_true_eq]

/-- A host command issued at once takes over (60_exceptions.md R216). -/
theorem takesOver_of_host (hp : c.preempt = true) (hh : isHostCommand c = true) : takesOver (.word c) = true := by
  simp only [takesOver, hp, hh, Bool.true_or, Bool.and_self]

theorem takesOver_of_unknown (hp : c.preempt = true) (hd : decodeCommand c = .error .invalidInput) :
    takesOver (.word c) = true := by
  simp only [takesOver, isUnknownCode, hp, hd, Bool.or_true, Bool.and_self]

theorem isHostCommand_iff : isHostCommand c = true ↔ c.code = 0x01 ∨ c.code = 0x02 ∨ c.code = 0x03 := decide_eq_true_iff

/-- A host command that is taken is performed, in every STATUS. -/
theorem step_hostCommand {i : Instr} (hq : s.cmdq = .word c :: rest) (hh : isHostCommand c = true)
    (h : s.stat.status ≠ .busy ∨ c.preempt = true) (hd : decodeCommand c = .ok i) :
    step s = exec i { s with cmdq := rest } := by
  rw [step_word hq (h.imp_right fun hp => takesOver_of_host hp hh) hd, if_pos (performs_iff.2 (.inr hh))]

theorem step_settled (hqueue : s.cmdq = []) (hidle : s.stat.status ≠ .busy) : step s = .next s := by
  have hnone : nextEvent s = none := by simp only [nextEvent, hqueue]
  unfold step
  rw [hnone]
  cases hstatus : s.stat.status with
  | busy => exact absurd hstatus hidle
  | _ => rfl

end

theorem exec_compress_of_fits {s : State} (h : imageTooLarge s = false) : exec .compress s = .next (startCommand .enc s) :=
  if_neg (by rw [h]; decide)

theorem exec_compress_of_too_large {s : State} (h : imageTooLarge s = true) :
    exec .compress s = .refused .imageTooLarge := if_pos h

theorem imageTooLarge_eq_false_iff {s : State} :
    imageTooLarge s = false ↔ ∀ m, s.maxSamples = some m → nsamp s.hdr * nch s.hdr ≤ m := by
  unfold imageTooLarge
  cases s.maxSamples with
  | none => simp
  | some m => simp

theorem imageTooLarge_eq_true {s : State} {m : Nat} (hmax : s.maxSamples = some m) (h : m < nsamp s.hdr * nch s.hdr) :
    imageTooLarge s = true := by
  simp only [imageTooLarge, hmax, h, decide_true]

/-! ## The statements -/

/-- Settles O50: the words of the tables are computed, and the rest is each constructor's law. -/
theorem commandWords : Obligations.CommandWords :=
  ⟨rfl, rfl, rfl, by decide, by decide, fun _ c =>
    ⟨fun h => decodeCommand_of_encodeCommand h, fun h => decodeCommand_ne_of_field h c⟩⟩

/-- Settles O2, by what is taken and what is performed in each STATUS. -/
theorem stepRunsIssuedInstruction : Obligations.StepRunsIssuedInstruction := by
  intro s c rest i hq hd
  refine ⟨?performed, fun hended hmicro => ?ignored⟩
  case performed =>
    rintro (hidle | ⟨hh, htaken⟩)
    · rw [step_word hq (.inl (by rw [hidle]; decide)) hd, if_pos (performs_iff.2 (.inl hidle))]
    · exact step_hostCommand hq hh htaken hd
  case ignored =>
    have hnot : s.stat.status ≠ .busy ∧ s.stat.status ≠ .idle := by
      rcases hended with h | h
      · rw [h]; decide
      · rw [h]; decide
    have hperforms : ¬ performs c s = true := fun hp =>
      (performs_iff.1 hp).elim hnot.2 fun hh => by rw [hmicro] at hh; cases hh
    rw [step_word hq (.inl hnot.1) hd, if_neg hperforms]

/-- Settles O3, by the engine's turn and the PHASE it is in. -/
theorem stepWithoutWord : Obligations.StepWithoutWord := by
  refine ⟨fun s hqueue hidle => step_settled hqueue hidle, fun s hturn hphase => ⟨fun hmode => ?_, fun hmode => ?_⟩⟩
  · rw [step_of_turn hturn, engineStep, engineRes, hmode, hphase]
    rfl
  · rw [step_of_turn hturn, engineStep, engineRes, hmode, hphase]
    rfl

/-- Settles O4: a code outside the table decodes to InvalidInput. -/
theorem unknownCodeRejected : Obligations.UnknownCodeRejected := by
  intro s c rest hq htaken hcode
  have hd := decodeCommand_unknown hcode
  rw [step_unknown hq (htaken.imp_right fun hp => takesOver_of_unknown hp hd) hd]
  rfl

/-- Settles O5: the three codes are host commands. -/
theorem hostCommandTakesOver : Obligations.HostCommandTakesOver := by
  intro s c rest hq hp
  refine ⟨fun hcode hfits => ?_, fun hcode => ?_, fun hcode => ?_⟩
  · rw [step_hostCommand hq (isHostCommand_iff.2 (.inl hcode)) (.inr hp) (i := .compress) (by rw [decodeCommand, hcode]; rfl)]
    exact exec_compress_of_fits hfits
  · rw [step_hostCommand hq (isHostCommand_iff.2 (.inr (.inl hcode))) (.inr hp) (i := .decompress)
      (by rw [decodeCommand, hcode]; rfl)]
    rfl
  · rw [step_hostCommand hq (isHostCommand_iff.2 (.inr (.inr hcode))) (.inr hp) (i := .readHeader)
      (by rw [decodeCommand, hcode]; rfl)]
    rfl

/-- Settles O6: the start-of-command values are those of `startCommand`. -/
theorem commandStart : Obligations.CommandStart := fun _ =>
  ⟨fun hmax => exec_compress_of_fits (imageTooLarge_eq_false_iff.2 hmax), rfl, rfl⟩

/-- Settles O7, error by error. -/
theorem errorEntry : Obligations.ErrorEntry := by
  refine ⟨fun _ _ => rfl, fun byte => ⟨rfl, rfl, rfl, rfl, rfl, rfl, rfl, rfl, rfl, rfl, rfl⟩, fun e hcolor hdepth => ?_⟩
  cases e with
  | unsupportedColorType byte => exact absurd rfl hcolor
  | unsupportedDepth byte => exact absurd rfl hdepth
  | _ => rfl

/-- Settles O60: the reset is taken at once, and the engine it leaves is idle. -/
theorem hostReset : Obligations.HostReset := by
  intro s rest hq
  refine ⟨_, step_reset hq, rfl, rfl, tableRead_nil, rfl, rfl, chanRead_nil, rfl, rfl, rfl, fun _ _ => rfl, fun hrest => ?_⟩
  exact step_settled hrest (fun h => by cases h)

end Sys2Proof.Machine
end

section
/-! PROOF. The machine's invariant after reset, the bound on the selector's entries (42_predictor_selector.md R141), and where
the model stops. -/

namespace Sys2Proof.Machine

/-- Settles O47, term by term of the invariant. -/
theorem engineInvariantAtReset : Obligations.EngineInvariantAtReset :=
  ⟨rfl, .inr fun _ _ => BitVec.getLsbD_zero, le_rfl, fun h => by cases h⟩

/-! ## The least entry of a row (R138, R139) -/

theorem le_rowMin_iff {f : Nat → Nat} {ks : List Nat} (h : ks ≠ []) {n : Nat} : n ≤ rowMin f ks ↔ ∀ k ∈ ks, n ≤ f k := by
  induction ks with
  | nil => exact absurd rfl h
  | cons k rest ih =>
    cases rest with
    | nil => simp [rowMin]
    | cons k' rest =>
      simp only [rowMin, le_min_iff, ih (List.cons_ne_nil _ _), List.forall_mem_cons]

theorem kset_ne_nil (s : State) : kset s ≠ [] := by
  rcases kset_cases s with ⟨h, -⟩ | ⟨h, -⟩
  · rw [h]; exact List.cons_ne_nil _ _
  · rw [h]; exact List.cons_ne_nil _ _

/-- What one UPDATE adds to an entry, for a magnitude that a sample can have (R141). -/
theorem riceLength_le {s : State} {v k : Nat} (hv : v + 1 ≤ maxSample s) (hk : k ∈ kset s) : v / 2 ^ k + 1 + k ≤ 4101 := by
  unfold maxSample at hv
  rcases kset_cases s with ⟨hks, hw⟩ | ⟨hks, hw⟩
  · have hbound : v ≤ 510 := by
      rcases hw with hw | hw
      · rw [hw] at hv; omega
      · rw [hw] at hv; omega
    have hdiv : v / 2 ^ k ≤ v := Nat.div_le_self _ _
    have hk5 : k ≤ 5 := by
      rw [hks] at hk
      simp only [List.mem_cons, List.not_mem_nil, or_false] at hk
      omega
    omega
  · have hbound : v ≤ 131070 := by
      rcases hw with hw | hw
      · rw [hw] at hv; omega
      · rw [hw] at hv; omega
    rw [hks] at hk
    simp only [List.mem_cons, List.not_mem_nil, or_false] at hk
    rcases hk with rfl | rfl | rfl | rfl | rfl | rfl | rfl
    all_goals omega

/-- The bound of `rowBounded`, for a row given by its entries. -/
def EntriesBounded (ks : List Nat) (f : Nat → Nat) : Prop :=
  ∀ k ∈ ks, f k ≤ growthBound + 4101 * (if rowMin f ks < Config.halveAt then rowMin f ks else 0)

/-- The bound without the part that grows with the least entry. -/
theorem EntriesBounded.le {ks : List Nat} {f : Nat → Nat} (h : EntriesBounded ks f) {k : Nat} (hk : k ∈ ks) :
    f k ≤ 1024 * 4101 + 4101 * 1023 := by
  have hle := h k hk
  unfold growthBound Config.halveAt at hle
  split at hle
  · omega
  · omega

/-- With no halving the least entry grows by 1 at least, and the bound with it by the most that one UPDATE adds. -/
theorem EntriesBounded.grown {ks : List Nat} {f g : Nat → Nat} (hks : ks ≠ []) (h : EntriesBounded ks f)
    (hgrown : ∀ k ∈ ks, f k + 1 ≤ g k ∧ g k ≤ f k + 4101) (hsmall : ∃ j ∈ ks, g j < 1024) : EntriesBounded ks g := by
  obtain ⟨j, hj, hgj⟩ := hsmall
  have hf : ∀ k ∈ ks, rowMin f ks ≤ f k := (le_rowMin_iff hks).1 le_rfl
  have hg : rowMin g ks ≤ g j := (le_rowMin_iff hks).1 le_rfl j hj
  have hmin : rowMin f ks + 1 ≤ rowMin g ks := (le_rowMin_iff hks).2 fun k hk => by
    have := hf k hk
    have := (hgrown k hk).1
    omega
  intro k hk
  have hfk := h k hk
  have hgk := (hgrown k hk).2
  rw [if_pos (show rowMin f ks < Config.halveAt by unfold Config.halveAt; omega)] at hfk
  rw [if_pos (show rowMin g ks < Config.halveAt by unfold Config.halveAt; omega)]
  omega

/-- Halving brings every entry below the constant part of the bound. -/
theorem EntriesBounded.halved {ks : List Nat} {f g : Nat → Nat} (h : EntriesBounded ks f)
    (hhalved : ∀ k ∈ ks, g k ≤ (f k + 4101) / 2) : EntriesBounded ks g := by
  intro k hk
  have hfk := h.le hk
  have hgk := hhalved k hk
  unfold growthBound
  omega

/-- Settles O26: either the row is halved, or its least entry has grown. -/
theorem rowStaysBounded : Obligations.RowStaysBounded := by
  refine ⟨fun s delta hzero k hk => ?cleared, fun s t delta v hwf hrow hv hbounded hexec => ?updated,
    fun s delta hbounded k hk => ?small⟩
  case cleared => rw [hzero k hk]; exact Nat.zero_le _
  case small =>
    have hle : tableRead s.table delta k ≤ 1024 * 4101 + 4101 * 1023 := EntriesBounded.le hbounded hk
    omega
  case updated =>
    rw [exec_update_of_le v hrow] at hexec
    cases hexec
    have hread : ∀ k ∈ kset s, tableRead (writeRow delta s.table (updatedRow (kset s) (tableRead s.table delta) v)) delta k =
        if ∀ j ∈ kset s, 1024 ≤ tableRead s.table delta j + (v / 2 ^ j + 1 + j)
        then (tableRead s.table delta k + (v / 2 ^ k + 1 + k)) / 2
        else tableRead s.table delta k + (v / 2 ^ k + 1 + k) := fun k hk => by
      rw [tableRead_updated s hwf delta v delta k (kset_lt s k hk), if_pos ⟨rfl, hk⟩]
    show EntriesBounded (kset s) _
    by_cases hhalve : ∀ j ∈ kset s, 1024 ≤ tableRead s.table delta j + (v / 2 ^ j + 1 + j)
    · refine EntriesBounded.halved hbounded fun k hk => ?_
      rw [hread k hk, if_pos hhalve]
      have := riceLength_le hv hk
      omega
    · refine EntriesBounded.grown (kset_ne_nil s) hbounded (fun k hk => ?_) ?_
      · rw [hread k hk, if_neg hhalve]
        have hadded := riceLength_le hv hk
        generalize v / 2 ^ k = q at hadded ⊢
        omega
      · push Not at hhalve
        obtain ⟨j, hj, hlt⟩ := hhalve
        refine ⟨j, hj, ?_⟩
        rw [hread j hj, if_neg fun hall => absurd (hall j hj) (by omega)]
        exact hlt

end Sys2Proof.Machine
end

section
/-! PROOF. Where the model stops, does nothing or draws a free value (log entries 8 to 12, 35). -/

namespace Sys2Proof.Machine

section
variable {s : State}

/-! ## Reads of unwritten cells (log entry 8) -/

theorem exec_predict (s : State) : exec .predict s = (predict s).finish := rfl

theorem predict_of_unwritten (hidx : 2 ≤ idx s) {pos : Nat × Nat}
    (hpos : pos = (neighbours s.hdr.width.toNat s.seq.row.toNat s.seq.col.toNat).1 ∨
      pos = (neighbours s.hdr.width.toNat s.seq.row.toNat s.seq.col.toNat).2)
    (hnone : chanRead s.chan s.seq.ch.toNat pos.1 pos.2 = none) : predict s = .fault .unwrittenCell := by
  unfold predict
  rw [if_neg (by omega)]
  rcases hpos with rfl | rfl
  · simp only [hnone]
  · simp only [hnone]
    split
    · rename_i hsome
      cases hsome
    · rfl

theorem gather_eq_none {pixel : Nat → Option (List Int)} {i n j : Nat} (hj : j < n) (h : pixel (i + j) = none) :
    gather pixel i n = none := by
  induction n generalizing i j with
  | zero => exact absurd hj (Nat.not_lt_zero j)
  | succ n ih =>
    unfold gather
    cases j with
    | zero => rw [show pixel i = none from h]
    | succ j =>
      rw [ih (i := i + 1) (j := j) (by omega) (by rw [← h]; congr 1; omega)]
      cases pixel i with
      | none => rfl
      | some xs => rfl

theorem pixelSamples_eq_none {c i : Nat} (hc : c < nch s.hdr) (h : cellAt s c i = none) : pixelSamples s i = none := by
  unfold cellAt at h
  unfold pixelSamples
  rcases flag_cases s.hdr.color with hcolor | hcolor
  · rw [nch_gray hcolor] at hc
    obtain rfl : c = 0 := by omega
    simp only [hcolor, if_true, h, Option.map_none]
  · rw [nch_rgb hcolor] at hc
    rw [if_neg (by rw [hcolor]; decide)]
    split
    · rename_i hy hco hcg
      obtain rfl | rfl | rfl : c = 0 ∨ c = 1 ∨ c = 2 := by omega
      · rw [hy] at h; cases h
      · rw [hco] at h; cases h
      · rw [hcg] at h; cases h
    · rfl

theorem reconstruct_of_unwritten {c row col : Nat} (hc : c < nch s.hdr) (hrow : row < s.hdr.height.toNat)
    (hcol : col < s.hdr.width.toNat) (h : chanRead s.chan c row col = none) : reconstruct s = .fault .unwrittenCell := by
  obtain ⟨hdiv, hmod⟩ := (raster_eq_iff hcol).1 (rfl : row * s.hdr.width.toNat + col = _)
  have hcell : cellAt s c (row * s.hdr.width.toNat + col) = none := by
    rw [cellAt, ← hdiv, ← hmod, h]
  have hgather : gather (pixelSamples s) 0 (nsamp s.hdr) = none :=
    gather_eq_none (raster_lt hrow hcol) (by rw [Nat.zero_add]; exact pixelSamples_eq_none hc hcell)
  unfold reconstruct
  rw [hgather]

/-! ## Contexts outside T (log entry 9) -/

theorem drawRow_of_lt {delta : Nat} (h : maxSample s < delta) : drawRow delta s = { s with drawn := s.drawn + 1 } := by
  rw [drawRow, if_neg (Nat.not_le_of_lt h)]

theorem exec_getK_of_lt {delta : Nat} (h : maxSample s < delta) :
    exec (.getK delta) s =
      .next { s with dp := { s.dp with k := selectK (rowEntry delta s) (kset s) }, drawn := s.drawn + 1 } := by
  exact congrArg Host.Outcome.next
    (drawRow_of_lt (s := { s with dp := { s.dp with k := selectK (rowEntry delta s) (kset s) } }) h)

theorem exec_update_of_lt {delta : Nat} (v : Nat) (h : maxSample s < delta) :
    exec (.update delta v) s =
      .next { s with
        table := writeRow delta s.table (updatedRow (kset s) (rowEntry delta s) v), drawn := s.drawn + 1 } := by
  exact congrArg Host.Outcome.next
    (drawRow_of_lt (s := { s with table := writeRow delta s.table (updatedRow (kset s) (rowEntry delta s) v) }) h)

/-- UPDATE writes the candidates' entries of one row and no others, whatever the row's entries were. -/
theorem tableRead_writeRow_other (hwf : tableWf s.table = true) (f : Nat → Nat) {delta v d k : Nat} (hk : k < 32)
    (hother : d ≠ delta ∨ k ∉ kset s) :
    tableRead (writeRow delta s.table (updatedRow (kset s) f v)) d k = tableRead s.table d k := by
  have hkeys : (updatedRow (kset s) f v).map Prod.fst = kset s := by
    rw [updatedRow_eq, List.map_map, Function.comp_def, List.map_id']
  have hlt : ∀ e ∈ updatedRow (kset s) f v, e.1 < 32 := fun e he =>
    kset_lt s e.1 (hkeys ▸ List.mem_map_of_mem he)
  have hnodup : ((updatedRow (kset s) f v).map Prod.fst).Nodup := by
    rw [hkeys]
    exact kset_nodup s
  rw [tableRead_writeRow delta _ _ hwf hlt hnodup d k hk]
  rcases hother with hd | hd
  · rw [if_neg hd]
  · rw [updatedRow_eq, find_map, if_neg hd]
    split
    · rfl
    · rfl

/-! ## PHASED_DEC 0 (log entry 35) -/

theorem exec_phasedDec_zero_of_ok {v : Nat} {t : State}
    (h : readField pullBit (Config.freeValue s.drawn 0) { s with drawn := s.drawn + 1 } = .ok v t) :
    exec (.phasedDec 0) s = .next (raiseError .malformedCodeword t) := by
  show (((pullBits _ _).bind _).bind _ : Res Unit).finish = _
  rw [pullBits, h]
  rfl

theorem exec_phasedDec_zero_of_err {e : Err} {t : State}
    (h : readField pullBit (Config.freeValue s.drawn 0) { s with drawn := s.drawn + 1 } = .err e t) :
    exec (.phasedDec 0) s = .next (raiseError e t) := by
  show (((pullBits _ _).bind _).bind _ : Res Unit).finish = _
  rw [pullBits, h]
  rfl

/-! ## Calls outside the contract, and images above MAX_SAMPLES (log entries 11, 12) -/

theorem emitIn_refused {v : Nat} (hready : sinkReady s) (hv : s.dp.delta < v) :
    emitIn v s = .refuse .outsideContract := by
  obtain ⟨t, hpush, -, -, hframe⟩ := pushBit_ready true s hready
  rw [emitIn, hpush, Res.bind_ok, phasedEnc, if_neg (by rw [hframe.dp_eq]; omega)]

theorem decompressHeader_refused {h : HeaderFields} {rest : List Bool} {m : Nat} (hmax : s.maxSamples = some m)
    (hwidth : h.width ≠ 0) (hheight : h.height ≠ 0) (hbits : readableBits s = headerBits h ++ rest)
    (hlarge : m < nsamp h * nch h) : decompressHeader s = .refuse .imageTooLarge := by
  obtain ⟨t, hread, hleaves⟩ := readHeader_headerBits hwidth hheight hbits
  have hmax' : t.maxSamples = some m := by rw [hleaves.frame]; exact hmax
  rw [decompressHeader_eq, hread, ofRead_ok, Res.bind_ok, takeHeader,
    if_pos (imageTooLarge_eq_true (s := { t with hdr := h }) hmax' hlarge)]

end

/-- Settles O25, clause by clause. -/
theorem modelStops : Obligations.ModelStops := by
  refine ⟨fun s => ⟨fun hidx => ?verbatim, fun hidx ⟨pos, hpos, hnone⟩ => ?neighbour, fun hnone => ?cell⟩,
    fun s c row col hturn hmode hphase hc hrow hcol hnone => ?finish, fun s delta v hrow => ⟨?getK, ?update⟩,
    fun s => ?phased, fun s a b v hmode hready hn ha hb hv => ?symIn, fun s m hmax => ⟨fun hlarge => ?compress,
    fun h rest hturn hmode hphase hwidth hheight hbits hlarge => ?decompress⟩⟩
  case verbatim => rw [exec_predict, predict_verbatim s hidx, finish_ok]
  case neighbour => rw [exec_predict, predict_of_unwritten hidx hpos hnone, finish_fault]
  case cell => rw [exec_encSample, encodeSample_of_no_cell hnone, finish_fault]
  case finish =>
    rw [step_of_turn hturn, engineStep_decompressFinish hmode hphase, decompressFinish,
      reconstruct_of_unwritten hc hrow hcol hnone, Res.bind_fault, finish_fault]
  case getK => exact ⟨_, (selectK_kset s _).1, exec_getK_of_lt hrow⟩
  case update =>
    exact ⟨_, exec_update_of_lt v hrow, fun hwf =>
      ⟨tableWf_writeRow _ hwf _ _, fun d k hk hother => tableRead_writeRow_other hwf _ hk hother⟩⟩
  case phased =>
    refine ⟨Config.freeValue s.drawn 0, ?_⟩
    by_cases hm : Config.freeValue s.drawn 0 ≤ 64
    · by_cases hlen : Config.freeValue s.drawn 0 ≤ (readableBits s).length
      · obtain ⟨t, hread, hleaves⟩ := readField_leaves _ { s with drawn := s.drawn + 1 } hm hlen
        exact .inr (.inl ⟨hm, hlen, t, hleaves.frame, hleaves.readable, exec_phasedDec_zero_of_ok hread⟩)
      · obtain ⟨t, hread, hends⟩ := readField_exhausted _ { s with drawn := s.drawn + 1 } hm (Nat.lt_of_not_le hlen)
        exact .inr (.inr ⟨hm, Nat.lt_of_not_le hlen, t, hends, exec_phasedDec_zero_of_err hread⟩)
    · exact .inl ⟨Nat.lt_of_not_le hm, exec_phasedDec_zero_of_err (if_pos (Nat.lt_of_not_le hm))⟩
  case symIn =>
    rw [exec_symIn_enc v hmode hn, emitIn_refused (s := afterPredict s a b) hready hv, Res.bind_refuse, finish_refuse]
  case compress => exact exec_compress_of_too_large (imageTooLarge_eq_true hmax hlarge)
  case decompress =>
    rw [step_of_turn hturn, engineStep, engineRes, hmode, hphase]
    exact congrArg Res.finish (decompressHeader_refused hmax hwidth hheight hbits hlarge)

end Sys2Proof.Machine
end

section
/-! PROOF. What each operation leaves unchanged, on its end and on the error it raises (40_bitio.md R90 to R94,
44_channel_coder.md R165 to R170): pushing, pulling, and the two sides of a sample. -/

namespace Sys2Proof.Machine

/-! ## The two ends of an operation -/

/-- The operation ends in a state that has the one property, raises in a state that has the other, or stops. -/
def Res.Within {α : Type} (Q E : State → Prop) : Res α → Prop
  | .ok _ t => Q t
  | .raise _ t => E t
  | .fault _ => True
  | .refuse _ => True

section
variable {α β : Type} {P F Q E : State → Prop} {r r' : Res α}

theorem Res.Within.bind {f : α → State → Res β} (hr : r.Within P F) (hE : ∀ t, F t → E t)
    (hf : ∀ a t, P t → (f a t).Within Q E) : (r.bind f).Within Q E := by
  cases r with
  | ok a t => exact hf a t hr
  | raise e t => exact hE t hr
  | fault x => trivial
  | refuse x => trivial

theorem Res.Within.mono (hr : r.Within P F) (hQ : ∀ t, P t → Q t) (hE : ∀ t, F t → E t) : r.Within Q E := by
  cases r with
  | ok a t => exact hQ t hr
  | raise e t => exact hE t hr
  | fault x => trivial
  | refuse x => trivial

theorem within_ite {p : Prop} [Decidable p] (hr : r.Within Q E) (hr' : r'.Within Q E) : (if p then r else r').Within Q E := by
  split
  · exact hr
  · exact hr'

/-- The next state of an operation performed as an instruction. -/
theorem Res.Within.next {r : Res Unit} {t : State} (hr : r.Within Q E) (h : r.finish = .next t) :
    (r = .ok () t ∧ Q t) ∨ ∃ e u, r = .raise e u ∧ t = raiseError e u ∧ E u := by
  rcases finish_eq_next h with hok | ⟨e, u, hraise, ht⟩
  · rw [hok] at hr
    exact .inl ⟨hok, hr⟩
  · rw [hraise] at hr
    exact .inr ⟨e, u, hraise, ht, hr⟩

end

/-! ## Pushing (40_bitio.md R90 to R92) -/

/-- What the operations on the sink change, beside the datapath and the count of free values: S_ACC, S_CNT, OUT and the
writer's answers, the bytes of OUT in place. -/
structure Pushes (s t : State) : Prop where
  frame : t = { s with sink := t.sink, out := t.out, outFail := t.outFail, dp := t.dp, drawn := t.drawn }
  flushed : t.sink.flushed = s.sink.flushed
  out : s.out <+: t.out

/-- Pushing that completes keeps the unused bits of S_ACC zero (R97). -/
structure PushesClean (s t : State) : Prop where
  pushes : Pushes s t
  clean : sinkClean s → sinkClean t

section
variable {α β : Type} {s t u : State}

theorem Pushes.trans (h : Pushes s t) (h' : Pushes t u) : Pushes s u := by
  refine ⟨?_, h'.flushed.trans h.flushed, h.out.trans h'.out⟩
  rw [h'.frame, h.frame]

theorem PushesClean.trans (h : PushesClean s t) (h' : PushesClean t u) : PushesClean s u :=
  ⟨h.pushes.trans h'.pushes, h'.clean ∘ h.clean⟩

theorem pushesClean_refl (s : State) : PushesClean s s := ⟨⟨rfl, rfl, List.prefix_refl _⟩, id⟩

theorem pushesClean_setDp (s : State) (dp : Datapath) : PushesClean s { s with dp := dp } :=
  ⟨⟨rfl, rfl, List.prefix_refl _⟩, id⟩

/-- An operation that does nothing but push. -/
abbrev Res.PushesOnly (s : State) (r : Res α) : Prop := r.Within (PushesClean s) (Pushes s)

/-- Continuing from a state that pushing has reached. -/
theorem PushesClean.pushesOnly {r : Res α} (h : PushesClean s t) (hr : r.PushesOnly t) : r.PushesOnly s :=
  hr.mono (fun _ h' => h.trans h') fun _ h' => h.pushes.trans h'

theorem pushesOnly_bind {r : Res α} {f : α → State → Res β} (hr : r.PushesOnly s) (hf : ∀ a t, (f a t).PushesOnly t) :
    (r.bind f).PushesOnly s := hr.bind (fun _ h => h) fun a t h => h.pushesOnly (hf a t)

variable (s)

theorem pushBit_pushesOnly (b : Bool) : (pushBit b s).PushesOnly s := by
  cases hf : s.sink.flushed with
  | true => rw [pushBit_flushed b hf]; exact (pushesClean_refl s).pushes
  | false =>
    by_cases hc : s.sink.cnt = 7
    · by_cases ho : s.outFail.head? = some true
      · rw [pushBit_full_fails b hf hc ho]
        exact ⟨rfl, hf.symm, List.prefix_refl _⟩
      · rw [pushBit_full_writes b hf hc ho]
        exact ⟨⟨rfl, hf.symm, List.prefix_append _ _⟩, fun _ j _ => BitVec.getLsbD_zero⟩
    · rcases pushBit_cases b s with ⟨t, hok, -, -, hclean⟩ | ⟨e, t, hraise, -⟩
      · rw [hok]
        rw [pushBit_room b hf hc] at hok
        cases hok
        exact ⟨⟨rfl, hf.symm, List.prefix_refl _⟩, hclean⟩
      · rw [pushBit_room b hf hc] at hraise
        cases hraise

theorem pushList_pushesOnly (bits : List Bool) : (pushList bits s).PushesOnly s := by
  induction bits generalizing s with
  | nil => exact pushesClean_refl s
  | cons b rest ih => exact pushesOnly_bind (pushBit_pushesOnly s b) fun _ t => ih t

theorem pushBits_pushesOnly (value n : Nat) : (pushBits value n s).PushesOnly s :=
  within_ite (pushesClean_refl s).pushes (pushList_pushesOnly s _)

theorem riceEnc_pushesOnly (v k : Nat) : (riceEnc v k s).PushesOnly s :=
  pushesOnly_bind (pushList_pushesOnly s _) fun _ t => within_ite (pushesClean_refl t) (pushBits_pushesOnly t _ _)

theorem phasedEnc_pushesOnly (v n : Nat) : (phasedEnc v n s).PushesOnly s := by
  refine within_ite ?_ trivial
  cases phasedCodeword n v with
  | short x => exact pushBits_pushesOnly s _ _
  | long y => exact pushBits_pushesOnly s _ _

theorem predict_pushesOnly : (predict s).PushesOnly s := by
  rcases predict_cases s with ⟨dp, hok, -⟩ | hfault
  · rw [hok]; exact pushesClean_setDp s dp
  · rw [hfault]; trivial

theorem emitIn_pushesOnly (v : Nat) : (emitIn v s).PushesOnly s :=
  pushesOnly_bind (pushBit_pushesOnly s true) fun _ t => phasedEnc_pushesOnly t _ _

theorem getK_pushesOnly (delta : Nat) : (getK delta s).PushesOnly s := ⟨⟨rfl, rfl, List.prefix_refl _⟩, id⟩

end

/-! ## The encoder's side of a sample (44_channel_coder.md R165) -/

/-- What a sample's symbol changes on the encoder's side: what pushing changes, and T. -/
structure Emits (s t : State) : Prop where
  frame : t = { s with
    sink := t.sink, out := t.out, outFail := t.outFail, dp := t.dp, table := t.table, drawn := t.drawn }
  flushed : t.sink.flushed = s.sink.flushed
  out : s.out <+: t.out
  clean : sinkClean s → sinkClean t
  table : tableWf s.table = true → tableWf t.table = true

section
variable {α : Type} {s t u : State}

theorem PushesClean.table_eq (h : PushesClean s t) : t.table = s.table := by rw [h.pushes.frame]

theorem PushesClean.emits (h : PushesClean s t) : Emits s t :=
  ⟨by rw [h.pushes.frame], h.pushes.flushed, h.pushes.out, h.clean, fun hwf => by rw [h.table_eq]; exact hwf⟩

theorem PushesClean.emits_trans (h : PushesClean s t) (h' : Emits t u) : Emits s u := by
  refine ⟨?_, h'.flushed.trans h.pushes.flushed, h.pushes.out.trans h'.out, h'.clean ∘ h.clean,
    fun hwf => h'.table (by rw [h.table_eq]; exact hwf)⟩
  rw [h'.frame, h.pushes.frame]

theorem emits_setTable {table : List (Nat × Nat)} {drawn : Nat} (h : tableWf s.table = true → tableWf table = true) :
    Emits s { s with table := table, drawn := drawn } := ⟨rfl, rfl, List.prefix_refl _, id, h⟩

/-- An operation that pushes, and may write T where it completes. -/
abbrev Res.EmitsOnly (s : State) (r : Res α) : Prop := r.Within (Emits s) (Pushes s)

theorem Res.PushesOnly.emitsOnly {r : Res α} (h : r.PushesOnly s) : r.EmitsOnly s :=
  h.mono (fun _ ht => ht.emits) fun _ ht => ht

theorem emitsOnly_bind {β : Type} {r : Res α} {f : α → State → Res β} (hr : r.PushesOnly s)
    (hf : ∀ a t, (f a t).EmitsOnly t) : (r.bind f).EmitsOnly s :=
  hr.bind (fun _ h => h) fun a t h =>
    (hf a t).mono (fun _ h' => h.emits_trans h') fun _ h' => h.pushes.trans h'

variable (s)

theorem updateTable_emitsOnly (delta v : Nat) : (updateTable delta v s).EmitsOnly s := by
  obtain ⟨table, drawn, hok, hwf⟩ := updateTable_cases delta v s
  rw [hok]
  exact emits_setTable hwf

theorem emitOutOfRange_emitsOnly (above : Bool) (v : Nat) : (emitOutOfRange above v s).EmitsOnly s :=
  emitsOnly_bind (pushBit_pushesOnly s _) fun _ t => emitsOnly_bind (pushBit_pushesOnly t _) fun _ u =>
    emitsOnly_bind (getK_pushesOnly u _) fun k w => emitsOnly_bind
      ((pushesClean_setDp w { w.dp with v := v }).pushesOnly (riceEnc_pushesOnly _ v k)) fun _ x =>
        updateTable_emitsOnly x _ _

theorem emitSymbol_emitsOnly (p : Int) : (emitSymbol p s).EmitsOnly s := by
  unfold emitSymbol
  cases rangeTest s.dp.l s.dp.h p with
  | inRange => exact (emitIn_pushesOnly s _).emitsOnly
  | below => exact emitOutOfRange_emitsOnly s _ _
  | above => exact emitOutOfRange_emitsOnly s _ _

theorem emitSample_emitsOnly (p : Int) : (emitSample p s).EmitsOnly s :=
  within_ite (pushBits_pushesOnly s _ _).emitsOnly
    (emitsOnly_bind (predict_pushesOnly s) fun _ t => emitSymbol_emitsOnly t p)

/-- ENC_SAMPLE advances after its symbol; what it raises has only pushed. -/
theorem encodeSample_within : (encodeSample s).Within (fun t => ∃ u, Emits s u ∧ t = advance u) (Pushes s) := by
  cases hcell : currentCell s with
  | none => rw [encodeSample_of_no_cell hcell]; trivial
  | some p =>
    have hset := pushesClean_setDp s { s.dp with p := p }
    rw [encodeSample_of_cell hcell]
    exact (emitSample_emitsOnly _ p).bind (fun t h => hset.pushes.trans h) fun _ u hu =>
      ⟨u, hset.emits_trans hu, rfl⟩

end

/-! ## Pulling (40_bitio.md R93, R94) -/

/-- What the operations on the source change, beside the datapath and the count of free values: R_ACC, R_CNT, IN_POS and the
reader's answers, IN_POS staying within IN. -/
structure Pulls (s t : State) : Prop where
  frame : t = { s with src := t.src, inPos := t.inPos, inFail := t.inFail, dp := t.dp, drawn := t.drawn }
  pos : s.inPos ≤ s.inp.length → t.inPos ≤ s.inp.length

section
variable {α β : Type} {s t u : State}

theorem Pulls.inp_eq (h : Pulls s t) : t.inp = s.inp := by rw [h.frame]

theorem Pulls.trans (h : Pulls s t) (h' : Pulls t u) : Pulls s u := by
  refine ⟨by rw [h'.frame, h.frame], fun hpos => ?_⟩
  rw [← h.inp_eq]
  exact h'.pos (by rw [h.inp_eq]; exact h.pos hpos)

theorem pulls_refl (s : State) : Pulls s s := ⟨rfl, id⟩

theorem pulls_setDp (s : State) (dp : Datapath) : Pulls s { s with dp := dp } := ⟨rfl, id⟩

theorem pulls_of_sameButSource (h : sameButSource s t) (hpos : t.inPos ≤ s.inPos + (readableBytes s).length) :
    Pulls s t := by
  refine ⟨?_, fun hin => ?_⟩
  · rw [h]
    rfl
  · have hbytes : (readableBytes s).length ≤ s.inp.length - s.inPos := by
      unfold readableBytes
      split
      · exact (List.length_drop).le
      · exact (List.length_take_le' _ _).trans (List.length_drop).le
    omega

/-- An operation that does nothing but pull. -/
abbrev Res.PullsOnly (s : State) (r : Res α) : Prop := r.Within (Pulls s) (Pulls s)

theorem Pulls.pullsOnly {r : Res α} (h : Pulls s t) (hr : r.PullsOnly t) : r.PullsOnly s :=
  hr.mono (fun _ h' => h.trans h') fun _ h' => h.trans h'

theorem pullsOnly_bind {r : Res α} {f : α → State → Res β} (hr : r.PullsOnly s) (hf : ∀ a t, (f a t).PullsOnly t) :
    (r.bind f).PullsOnly s := hr.bind (fun _ h => h) fun a t h => h.pullsOnly (hf a t)

variable (s)

theorem pullBit_pullsOnly : (ofRead (pullBit s)).PullsOnly s := by
  cases hbits : readableBits s with
  | nil =>
    obtain ⟨t, hread, hframe, -, hpos⟩ := pullBit_exhausted s hbits
    rw [hread]
    exact pulls_of_sameButSource hframe hpos.le
  | cons b rest =>
    obtain ⟨t, hread, hframe, -, -, hpos⟩ := pullBit_cons s b rest hbits
    rw [hread]
    exact pulls_of_sameButSource hframe (by omega)

/-- A reading beside itself, its states reached by pulling alone. -/
theorem pullAlike_pulls : PullAlike (fun t t' => t = t' ∧ Pulls s t) (fun _ t _ _ => Pulls s t) pullBit pullBit where
  bit t t' h := by
    obtain ⟨rfl, ht⟩ := h
    have hpull := ht.pullsOnly (pullBit_pullsOnly t)
    revert hpull
    cases pullBit t with
    | ok b u => exact fun hu => ⟨rfl, rfl, hu⟩
    | err e u => exact fun hu => hu
  own _ _ _ _ h := h.2

theorem pullsOnly_of_alike {r : Read State α}
    (h : r.Alike (fun t t' => t = t' ∧ Pulls s t) (fun _ t _ _ => Pulls s t) r) : (ofRead r).PullsOnly s := by
  cases r with
  | ok a t => exact h.2.2
  | err e t => exact h

theorem readField_pullsOnly (n : Nat) : (ofRead (readField pullBit n s)).PullsOnly s :=
  pullsOnly_of_alike s ((pullAlike_pulls s).readField n ⟨rfl, pulls_refl s⟩)

theorem readHeader_pullsOnly : (ofRead (readHeader pullBit s)).PullsOnly s :=
  pullsOnly_of_alike s ((pullAlike_pulls s).readHeader ⟨rfl, pulls_refl s⟩)

theorem readRice_pullsOnly (k w : Nat) : (ofRead (readRice pullBit k w s)).PullsOnly s :=
  pullsOnly_of_alike s ((pullAlike_pulls s).readRice k w ⟨rfl, pulls_refl s⟩)

theorem readPhased_pullsOnly (n : Nat) : (ofRead (readPhased pullBit n s)).PullsOnly s :=
  pullsOnly_of_alike s ((pullAlike_pulls s).readPhased n ⟨rfl, pulls_refl s⟩)

theorem riceDec_pullsOnly (k w : Nat) : (riceDec k w s).PullsOnly s :=
  pullsOnly_bind (readRice_pullsOnly s k w) fun v t => pulls_setDp t { t.dp with v := v }

theorem phasedDec_pullsOnly (n : Nat) : (phasedDec n s).PullsOnly s := by
  have hdraw : Pulls s { s with drawn := s.drawn + 1 } := ⟨rfl, id⟩
  exact within_ite (pullsOnly_bind (hdraw.pullsOnly (readField_pullsOnly _ _)) fun _ t => pulls_refl t)
    (readPhased_pullsOnly s n)

theorem getK_pullsOnly (delta : Nat) : (getK delta s).PullsOnly s := ⟨rfl, id⟩

theorem predict_pullsOnly : (predict s).PullsOnly s := by
  rcases predict_cases s with ⟨dp, hok, -⟩ | hfault
  · rw [hok]; exact pulls_setDp s dp
  · rw [hfault]; trivial

end

/-! ## The decoder's side of a sample (44_channel_coder.md R168) -/

/-- What a sample's symbol changes on the decoder's side: what pulling changes, and T. -/
structure Takes (s t : State) : Prop where
  frame : Decodes s t
  pos : s.inPos ≤ s.inp.length → t.inPos ≤ s.inp.length
  table : tableWf s.table = true → tableWf t.table = true

section
variable {α : Type} {s t u : State}

theorem Pulls.table_eq (h : Pulls s t) : t.table = s.table := by rw [h.frame]

theorem Pulls.takes (h : Pulls s t) : Takes s t := by
  refine ⟨?_, h.pos, fun hwf => by rw [h.table_eq]; exact hwf⟩
  unfold Decodes
  rw [h.frame]

theorem Pulls.takes_trans (h : Pulls s t) (h' : Takes t u) : Takes s u := by
  refine ⟨h.takes.frame.trans h'.frame, fun hpos => ?_, fun hwf => h'.table (by rw [h.table_eq]; exact hwf)⟩
  rw [← h.inp_eq]
  exact h'.pos (by rw [h.inp_eq]; exact h.pos hpos)

/-- An operation that pulls, and may write T where it completes. -/
abbrev Res.TakesOnly (s : State) (r : Res α) : Prop := r.Within (Takes s) (Pulls s)

theorem takesOnly_bind {β : Type} {r : Res α} {f : α → State → Res β} (hr : r.PullsOnly s)
    (hf : ∀ a t, (f a t).TakesOnly t) : (r.bind f).TakesOnly s :=
  hr.bind (fun _ h => h) fun a t h => (hf a t).mono (fun _ h' => h.takes_trans h') fun _ h' => h.trans h'

variable (s)

theorem outOfRangeValue_takesOnly (above : Bool) (v : Nat) : (outOfRangeValue above v s).TakesOnly s := by
  refine within_ite ?_ (pulls_setDp s _)
  obtain ⟨table, drawn, hok, hwf⟩ := updateTable_cases s.dp.delta v { s with dp := { s.dp with p := symbolSample above v s } }
  rw [hok]
  exact ⟨rfl, id, hwf⟩

theorem symbolValue_takesOnly : (symbolValue s).TakesOnly s := by
  refine takesOnly_bind (pullBit_pullsOnly s) fun inRange t => within_ite ?_ ?_
  · exact takesOnly_bind (phasedDec_pullsOnly t _) fun _ u => (pulls_refl u).takes
  · exact takesOnly_bind (pullBit_pullsOnly t) fun above u => takesOnly_bind (getK_pullsOnly u _) fun k w =>
      takesOnly_bind (riceDec_pullsOnly w _ _) fun v x => outOfRangeValue_takesOnly x above v

theorem sampleValue_takesOnly : (sampleValue s).TakesOnly s :=
  within_ite (takesOnly_bind (readField_pullsOnly s _) fun _ t => (pulls_refl t).takes)
    (takesOnly_bind (predict_pullsOnly s) fun _ t => symbolValue_takesOnly t)

/-- DEC_SAMPLE stores its sample and advances; what it raises has only pulled. -/
theorem decodeSample_within :
    (decodeSample s).Within (fun t => ∃ u p, Takes s u ∧ t = advance (withSample u p)) (Pulls s) := by
  rw [decodeSample_eq]
  exact (sampleValue_takesOnly s).bind (fun _ h => h) fun p u hu => ⟨u, p, hu, rfl⟩

end

/-! ## The statements -/

/-- The advance keeps PHASE, or goes on to the phase after the samples (10_state.md R15). -/
theorem advance_phase (s : State) : (advance s).seq.phase = s.seq.phase ∨
    (s.stat.mode = .enc ∧ (advance s).seq.phase = .flush) ∨ (s.stat.mode = .dec ∧ (advance s).seq.phase = .finish) := by
  unfold advance
  split
  · exact .inl rfl
  split
  · exact .inl rfl
  split
  · exact .inl rfl
  cases s.stat.mode with
  | none => exact .inl rfl
  | enc => exact .inr (.inl ⟨rfl, rfl⟩)
  | dec => exact .inr (.inr ⟨rfl, rfl⟩)
  | hdr => exact .inl rfl

theorem advance_phase_ne_error {s : State} (h : s.seq.phase ≠ .error) : (advance s).seq.phase ≠ .error := by
  rcases advance_phase s with hphase | ⟨-, hphase⟩ | ⟨-, hphase⟩
  · rw [hphase]; exact h
  · rw [hphase]; decide
  · rw [hphase]; decide

/-- Settles O35: a sample that completes is stored, and one that raises has only pulled. -/
theorem decSampleFrame : Obligations.DecSampleFrame := by
  intro s t hwf hexec
  rcases (decodeSample_within s).next hexec with ⟨-, u, p, hu, rfl⟩ | ⟨e, u, -, rfl, hu⟩
  · have hframe : Decodes s u := hu.frame
    obtain ⟨q, hq⟩ := advance_cases (withSample u p)
    refine ⟨fun c row col hrow hcol hother => ?cells, fun herr hok => ?error, ?_⟩
    case cells =>
      have hstored : (advance (withSample u p)).chan =
          chanWrite s.chan s.seq.ch.toNat s.seq.row.toNat s.seq.col.toNat p := by
        rw [advance_chan, withSample, hframe]
      rw [hstored, chanRead_write _ (Bool.and_eq_true_iff.1 hwf).1 _ _ _ _ _ _ _ (BitVec.isLt _) (BitVec.isLt _) hrow hcol,
        if_neg hother]
    case error =>
      have hphase : (withSample u p).seq.phase = s.seq.phase := by rw [withSample, hframe]
      exact absurd herr (advance_phase_ne_error (by rw [hphase]; exact hok))
    rcases hq with hq | hq
    · rw [hq, withSample, hframe]
      exact ⟨rfl, rfl, rfl, rfl, rfl, rfl, rfl, rfl, rfl, rfl⟩
    · rw [hq, withSample, hframe]
      exact ⟨rfl, rfl, rfl, rfl, rfl, rfl, rfl, rfl, rfl, rfl⟩
  · rw [hu.frame]
    exact ⟨fun _ _ _ _ _ _ => rfl, fun _ _ => ⟨rfl, rfl, rfl, rfl, rfl⟩, rfl, rfl, rfl, rfl, rfl, rfl, rfl, rfl, rfl, rfl⟩

end Sys2Proof.Machine
end

section
/-! PROOF. What every step keeps of the streams, of PIX and the metadata, and of the memories (10_state.md R11, R24;
20_memory.md R42, R43, R53; 40_bitio.md R97). -/

namespace Sys2Proof.Machine

/-! ## The part of the invariant that speaks of no command -/

/-- What every operation keeps: IN and MAX_SAMPLES as they are, the bytes of OUT in place, IN_POS within IN, and the memories
in canonical form. -/
structure Sound (s t : State) : Prop where
  inp : t.inp = s.inp
  maxSamples : t.maxSamples = s.maxSamples
  out : s.out <+: t.out
  pos : s.inPos ≤ s.inp.length → t.inPos ≤ t.inp.length
  wf : Memory.wf s = true → Memory.wf t = true

/-- What an operation that completes keeps besides: the unused bits of S_ACC zero, and STATUS, if it does
not end its command. -/
structure SoundEnd (s t : State) : Prop where
  sound : Sound s t
  clean : sinkClean s → sinkClean t
  status : t.stat.status = s.stat.status ∨ t.stat.status = .done

section
variable {α β : Type} {s t u : State}

theorem memoryWf_iff : Memory.wf s = true ↔ cellsWf s.chan = true ∧ tableWf s.table = true := Bool.and_eq_true_iff

theorem sound_refl (s : State) : Sound s s := ⟨rfl, rfl, List.prefix_refl _, id, id⟩

theorem Sound.trans (h : Sound s t) (h' : Sound t u) : Sound s u :=
  ⟨h'.inp.trans h.inp, h'.maxSamples.trans h.maxSamples, h.out.trans h'.out, h'.pos ∘ h.pos, h'.wf ∘ h.wf⟩

theorem SoundEnd.trans (h : SoundEnd s t) (h' : SoundEnd t u) : SoundEnd s u :=
  ⟨h.sound.trans h'.sound, h'.clean ∘ h.clean, h'.status.elim (fun hu => by rw [hu]; exact h.status) .inr⟩

theorem soundEnd_refl (s : State) : SoundEnd s s := ⟨sound_refl s, id, .inl rfl⟩

/-- A state that differs in nothing of which the relation speaks. -/
theorem soundEnd_of_same (hinp : t.inp = s.inp) (hmax : t.maxSamples = s.maxSamples) (hout : t.out = s.out)
    (hpos : t.inPos = s.inPos) (hchan : t.chan = s.chan) (htable : t.table = s.table) (hsink : t.sink = s.sink)
    (hstat : t.stat.status = s.stat.status ∨ t.stat.status = .done) : SoundEnd s t := by
  refine ⟨⟨hinp, hmax, by rw [hout], fun h => by rw [hinp, hpos]; exact h, fun h => ?_⟩, fun h => ?_, hstat⟩
  · rw [memoryWf_iff, hchan, htable]
    exact memoryWf_iff.1 h
  · unfold sinkClean
    rw [hsink]
    exact h

theorem Pushes.sound (h : Pushes s t) : Sound s t := by
  refine ⟨by rw [h.frame], by rw [h.frame], h.out, fun hpos => by rw [h.frame]; exact hpos, fun hwf => ?_⟩
  rw [h.frame]
  exact hwf

theorem Emits.soundEnd (h : Emits s t) : SoundEnd s t := by
  refine ⟨⟨by rw [h.frame], by rw [h.frame], h.out, fun hpos => by rw [h.frame]; exact hpos, fun hwf => ?_⟩, h.clean,
    .inl (by rw [h.frame])⟩
  obtain ⟨hchan, htable⟩ := memoryWf_iff.1 hwf
  exact memoryWf_iff.2 ⟨by rw [h.frame]; exact hchan, h.table htable⟩

theorem Takes.soundEnd (h : Takes s t) : SoundEnd s t := by
  have hframe : Decodes s t := h.frame
  obtain ⟨hinp, hmax, hout, hchan, hsink, hstat⟩ :
      t.inp = s.inp ∧ t.maxSamples = s.maxSamples ∧ t.out = s.out ∧ t.chan = s.chan ∧ t.sink = s.sink ∧
        t.stat = s.stat := by
    rw [hframe]; exact ⟨rfl, rfl, rfl, rfl, rfl, rfl⟩
  refine ⟨⟨hinp, hmax, by rw [hout], fun hpos => by rw [hinp]; exact h.pos hpos, fun hwf => ?_⟩, fun hclean => ?_,
    .inl (by rw [hstat])⟩
  · obtain ⟨hcells, htable⟩ := memoryWf_iff.1 hwf
    exact memoryWf_iff.2 ⟨by rw [hchan]; exact hcells, h.table htable⟩
  · unfold sinkClean
    rw [hsink]
    exact hclean

theorem Pulls.soundEnd (h : Pulls s t) : SoundEnd s t := h.takes.soundEnd

theorem soundEnd_advance (s : State) : SoundEnd s (advance s) := by
  obtain ⟨q, hq | hq⟩ := advance_cases s
  · rw [hq]; exact soundEnd_of_same rfl rfl rfl rfl rfl rfl rfl (.inl rfl)
  · have hwf := advance_wf s
    rw [hq] at hwf ⊢
    exact ⟨⟨rfl, rfl, List.prefix_refl _, id, hwf⟩, id, .inl rfl⟩

theorem soundEnd_setChan {m : List (Nat × Int)} {dp : Datapath} (h : cellsWf s.chan = true → cellsWf m = true) :
    SoundEnd s { s with chan := m, dp := dp } :=
  ⟨⟨rfl, rfl, List.prefix_refl _, id, fun hwf =>
    memoryWf_iff.2 ⟨h (memoryWf_iff.1 hwf).1, (memoryWf_iff.1 hwf).2⟩⟩, id, .inl rfl⟩

theorem soundEnd_withSample (s : State) (p : Int) : SoundEnd s (withSample s p) :=
  soundEnd_setChan fun hwf => cellsWf_chanWrite _ hwf _ _ _ _

theorem soundEnd_loadChannels (s : State) : SoundEnd s (loadChannels s) := by
  obtain ⟨m, hload, hwf⟩ := loadChannels_cases s
  rw [hload]
  exact soundEnd_setChan hwf

/-- An operation of which the relations hold. -/
abbrev Res.SoundOnly (s : State) (r : Res α) : Prop := r.Within (SoundEnd s) (Sound s)

theorem soundOnly_bind {r : Res α} {f : α → State → Res β} (hr : r.SoundOnly s) (hf : ∀ a t, (f a t).SoundOnly t) :
    (r.bind f).SoundOnly s :=
  hr.bind (fun _ h => h) fun a t h => (hf a t).mono (fun _ h' => h.trans h') fun _ h' => h.sound.trans h'

theorem Res.EmitsOnly.soundOnly {r : Res α} (h : r.EmitsOnly s) : r.SoundOnly s :=
  h.mono (fun _ ht => ht.soundEnd) fun _ ht => ht.sound

theorem Res.PushesOnly.soundOnly {r : Res α} (h : r.PushesOnly s) : r.SoundOnly s := h.emitsOnly.soundOnly

theorem Res.PullsOnly.soundOnly {r : Res α} (h : r.PullsOnly s) : r.SoundOnly s :=
  h.mono (fun _ ht => ht.soundEnd) fun _ ht => ht.soundEnd.sound

/-! ## Each operation -/

variable (s)

theorem soundEnd_setRes (res : Results) : SoundEnd s { s with res := res } :=
  soundEnd_of_same rfl rfl rfl rfl rfl rfl rfl (.inl rfl)

theorem soundEnd_finishCommand : SoundEnd s (finishCommand s) :=
  soundEnd_of_same rfl rfl rfl rfl rfl rfl rfl (.inr rfl)

theorem flushSink_soundOnly : (flushSink s).SoundOnly s := by
  cases hf : s.sink.flushed with
  | true => rw [flushSink_flushed hf]; exact sound_refl s
  | false =>
    by_cases hc : s.sink.cnt = 0
    · rw [flushSink_aligned hf hc]
      refine ⟨⟨rfl, rfl, List.prefix_refl _, id, id⟩, fun hclean => ?_, .inl rfl⟩
      unfold sinkClean at hclean
      rwa [hc] at hclean
    · by_cases ho : s.outFail.head? = some true
      · rw [flushSink_partial_fails hf hc ho]
        exact ⟨rfl, rfl, List.prefix_refl _, id, id⟩
      · rw [flushSink_partial_writes hf hc ho]
        exact ⟨⟨rfl, rfl, List.prefix_append _ _, id, id⟩, fun _ j _ => BitVec.getLsbD_zero, .inl rfl⟩

theorem encodeSample_soundOnly : (encodeSample s).SoundOnly s :=
  (encodeSample_within s).mono (fun t ⟨u, hu, ht⟩ => by rw [ht]; exact hu.soundEnd.trans (soundEnd_advance u))
    fun _ h => h.sound

theorem decodeSample_soundOnly : (decodeSample s).SoundOnly s :=
  (decodeSample_within s).mono
    (fun t ⟨u, p, hu, ht⟩ => by
      rw [ht]; exact hu.soundEnd.trans ((soundEnd_withSample u p).trans (soundEnd_advance _)))
    fun _ h => h.soundEnd.sound

theorem parseHeader_soundOnly : (parseHeader s).SoundOnly s :=
  soundOnly_bind (readHeader_pullsOnly s).soundOnly fun _ _ =>
    soundEnd_of_same rfl rfl rfl rfl rfl rfl rfl (.inl rfl)

theorem compressHeader_soundOnly : (compressHeader s).SoundOnly s :=
  within_ite
    (soundOnly_bind (pushList_pushesOnly s _).soundOnly fun _ t =>
      (soundEnd_loadChannels t).trans (soundEnd_of_same rfl rfl rfl rfl rfl rfl rfl (.inl rfl)))
    (sound_refl s)

theorem decompressHeader_soundOnly : (decompressHeader s).SoundOnly s :=
  soundOnly_bind (parseHeader_soundOnly s) fun _ _ =>
    within_ite trivial (soundEnd_of_same rfl rfl rfl rfl rfl rfl rfl (.inl rfl))

theorem decompressFinish_soundOnly : (decompressFinish s).SoundOnly s := by
  unfold decompressFinish
  rcases reconstruct_cases s with ⟨xs, h⟩ | h | h
  · rw [h]; exact soundEnd_of_same rfl rfl rfl rfl rfl rfl rfl (.inr rfl)
  · rw [h]; exact sound_refl s
  · rw [h]; trivial

theorem engineRes_soundOnly : (engineRes s).SoundOnly s := by
  unfold engineRes
  split
  · exact compressHeader_soundOnly s
  · exact encodeSample_soundOnly s
  · exact soundOnly_bind (flushSink_soundOnly s) fun _ t => soundEnd_finishCommand t
  · exact decompressHeader_soundOnly s
  · exact decodeSample_soundOnly s
  · exact decompressFinish_soundOnly s
  · exact soundOnly_bind (parseHeader_soundOnly s) fun _ t => soundEnd_finishCommand t
  · trivial

end

/-! ## Each command word, and each step -/

/-- What an operation of which the relations hold leaves as an instruction: it has completed, or raised an error. -/
def SoundNext (s t : State) : Prop := SoundEnd s t ∨ ∃ e u, t = raiseError e u ∧ Sound s u

section
variable {s t u : State}

theorem soundNext_of_finish {r : Res Unit} (h : r.finish = .next t) (hr : r.SoundOnly s) : SoundNext s t := by
  rcases hr.next h with ⟨-, hsound⟩ | ⟨e, u, -, ht, hsound⟩
  · exact .inl hsound
  · exact .inr ⟨e, u, ht, hsound⟩

theorem SoundNext.sound (h : SoundNext s t) : Sound s t := by
  rcases h with h | ⟨e, u, rfl, hinp, hmax, hout, hpos, hwf⟩
  · exact h.sound
  · exact ⟨hinp, hmax, hout, hpos, hwf⟩

theorem SoundEnd.soundNext (h : SoundEnd s t) (h' : SoundNext t u) : SoundNext s u :=
  h'.imp h.trans fun ⟨e, w, hu, hw⟩ => ⟨e, w, hu, h.sound.trans hw⟩

theorem soundEnd_setQueue (s : State) (rest : List HostEvent) : SoundEnd s { s with cmdq := rest } :=
  soundEnd_of_same rfl rfl rfl rfl rfl rfl rfl (.inl rfl)

/-- The meaning of a command word: a command starts, or an operation is performed of which the relations hold. -/
theorem exec_starts_or_sound {c : Issue} {i : Instr} (hd : decodeCommand c = .ok i) (h : exec i s = .next t) :
    (∃ mode, mode ≠ .none ∧ t = startCommand mode s) ∨ SoundNext s t := by
  unfold decodeCommand at hd
  split at hd <;> cases hd
  · simp only [exec, execCompress] at h
    split at h
    · cases h
    · cases h; exact .inl ⟨.enc, by decide, rfl⟩
  · cases h; exact .inl ⟨.dec, by decide, rfl⟩
  · cases h; exact .inl ⟨.hdr, by decide, rfl⟩
  · exact .inr (soundNext_of_finish h (pushBit_pushesOnly s _).soundOnly)
  · exact .inr (soundNext_of_finish h (pushBits_pushesOnly s _ _).soundOnly)
  · exact .inr (soundNext_of_finish h (flushSink_soundOnly s))
  · exact .inr (soundNext_of_finish h
      (soundOnly_bind (pullBit_pullsOnly s).soundOnly fun _ t => soundEnd_setRes t _))
  · exact .inr (soundNext_of_finish h
      (soundOnly_bind (readField_pullsOnly s _).soundOnly fun _ t => soundEnd_setRes t _))
  · exact .inr (soundNext_of_finish h (riceEnc_pushesOnly s _ _).soundOnly)
  · exact .inr (soundNext_of_finish h
      (soundOnly_bind (riceDec_pullsOnly s _ _).soundOnly fun _ t => soundEnd_refl t))
  · exact .inr (soundNext_of_finish h (phasedEnc_pushesOnly s _ _).soundOnly)
  · exact .inr (soundNext_of_finish h
      (soundOnly_bind (phasedDec_pullsOnly s _).soundOnly fun _ t => soundEnd_setRes t _))
  · exact .inr (soundNext_of_finish h (predict_pushesOnly s).soundOnly)
  · exact .inr (soundNext_of_finish (r := (getK _ s).bind fun _ t => .ok () t) h
      (soundOnly_bind (getK_pullsOnly s _).soundOnly fun _ t => soundEnd_refl t))
  · exact .inr (soundNext_of_finish (r := updateTable _ _ s) h (updateTable_emitsOnly s _ _).soundOnly)
  · cases h; exact .inr (.inl (soundEnd_setRes s _))
  · cases h; exact .inr (.inl (soundEnd_setRes s _))
  · exact .inr (soundNext_of_finish h (encodeSample_soundOnly s))
  · exact .inr (soundNext_of_finish h (decodeSample_soundOnly s))
  · exact .inr (soundNext_of_finish h (pushList_pushesOnly s _).soundOnly)
  · exact .inr (soundNext_of_finish h (parseHeader_soundOnly s))

/-- Every step is the host's reset, the start of a command, or one of which the relations hold. -/
theorem step_sound (h : step s = .next t) :
    (∃ rest, s.cmdq = .reset :: rest ∧ t = resetEngine { s with cmdq := rest }) ∨
      (∃ mode rest, t = startCommand mode { s with cmdq := rest }) ∨ SoundNext s t := by
  rcases step_cases s with ⟨rest, hq, hs⟩ | ⟨c, rest, i, -, hd, -, ⟨-, hs⟩ | ⟨-, hs⟩⟩ | ⟨c, rest, e, -, -, hs⟩ | ⟨-, hs⟩ |
    ⟨-, -, hs⟩
  · rw [hs] at h; cases h
    exact .inl ⟨rest, hq, rfl⟩
  · rw [hs] at h
    rcases exec_starts_or_sound hd h with ⟨mode, -, ht⟩ | hsound
    · exact .inr (.inl ⟨mode, rest, ht⟩)
    · exact .inr (.inr ((soundEnd_setQueue s rest).soundNext hsound))
  · rw [hs] at h; cases h
    exact .inr (.inr (.inl (soundEnd_setQueue s rest)))
  · rw [hs] at h; cases h
    exact .inr (.inr (.inr ⟨_, _, rfl, (soundEnd_setQueue s rest).sound⟩))
  · rw [hs] at h
    exact .inr (.inr (soundNext_of_finish h (engineRes_soundOnly s)))
  · rw [hs] at h; cases h
    exact .inr (.inr (.inl (soundEnd_refl s)))

end

/-- Settles O45: a step is the reset, a start, or keeps what every operation keeps. -/
theorem streamsOnlyAdvance : Obligations.StreamsOnlyAdvance := by
  intro s t hstep
  rcases step_sound hstep with ⟨rest, hq, rfl⟩ | ⟨mode, rest, rfl⟩ | hnext
  · exact ⟨rfl, rfl, .inr (.inr ⟨rfl, by rw [hq]; rfl⟩)⟩
  · exact ⟨rfl, rfl, .inr (.inl ⟨rfl, rfl, rfl⟩)⟩
  · obtain ⟨hinp, hmax, ⟨bytes, hout⟩, -, -⟩ := hnext.sound
    exact ⟨hinp, hmax, .inl ⟨bytes, hout.symm⟩⟩

/-! ## PIX and the metadata -/

/-- Only FINISH writes PIX, and where it does it ends the command. -/
theorem engineStep_pix {s t : State} (h : engineStep s = .next t) (hpix : t.pix ≠ s.pix) :
    s.stat.mode = .dec ∧ s.seq.phase = .finish ∧ t.stat.status = .done := by
  have hkeeps : hostSide t = hostSide s → False := fun hk => hpix (hostSide_eq_iff.1 hk).1
  have hdone : t.stat.status = .done := ((engineStep_hostSide s h).resolve_left hkeeps).1
  unfold engineStep engineRes at h
  split at h
  · exact (hkeeps (keepsHost_finish h (compressHeader_keepsHost s))).elim
  · exact (hkeeps (keepsHost_finish h (encodeSample_keepsHost s))).elim
  · exact (hkeeps (keepsHost_finish h (keepsHost_bind (flushSink_keepsHost s) fun _ _ => rfl))).elim
  · exact (hkeeps (keepsHost_finish h
      (keepsHost_bind (parseHeader_keepsHost s) fun _ t => keepsHost_ite trivial rfl))).elim
  · exact (hkeeps (keepsHost_finish h (decodeSample_keepsHost s))).elim
  · exact ⟨‹_›, ‹_›, hdone⟩
  · exact (hkeeps (keepsHost_finish h (keepsHost_bind (parseHeader_keepsHost s) fun _ _ => rfl))).elim
  · cases h

theorem step_pix_written {s t : State} (h : step s = .next t) (hpix : t.pix ≠ s.pix) :
    s.stat.status = .busy ∧ engineStep s = .next t := by
  rcases step_cases s with ⟨rest, hq, hs⟩ | ⟨c, rest, i, -, hd, -, ⟨-, hs⟩ | ⟨-, hs⟩⟩ | ⟨c, rest, e, -, -, hs⟩ | ⟨hb, hs⟩ |
    ⟨-, -, hs⟩
  · rw [hs] at h; cases h; exact absurd rfl hpix
  · rw [hs] at h
    exact absurd (hostSide_eq_iff.1 (exec_hostSide { s with cmdq := rest } hd h)).1 hpix
  · rw [hs] at h; cases h; exact absurd rfl hpix
  · rw [hs] at h; cases h; exact absurd rfl hpix
  · rw [hs] at h; exact ⟨hb, h⟩
  · rw [hs] at h; cases h; exact absurd rfl hpix

section
variable {s t : State}

theorem Pushes.hdr_eq (h : Pushes s t) : t.hdr = s.hdr := by rw [h.frame]

theorem Pulls.hdr_eq (h : Pulls s t) : t.hdr = s.hdr := by rw [h.frame]

theorem Emits.hdr_eq (h : Emits s t) : t.hdr = s.hdr := by rw [h.frame]

theorem Takes.hdr_eq (h : Takes s t) : t.hdr = s.hdr := h.frame.samePlace.hdr

theorem flushSink_hdr (s : State) : (flushSink s).Within (fun t => t.hdr = s.hdr) fun t => t.hdr = s.hdr := by
  cases hf : s.sink.flushed with
  | true => rw [flushSink_flushed hf]; rfl
  | false =>
    by_cases hc : s.sink.cnt = 0
    · rw [flushSink_aligned hf hc]; rfl
    · by_cases ho : s.outFail.head? = some true
      · rw [flushSink_partial_fails hf hc ho]; rfl
      · rw [flushSink_partial_writes hf hc ho]; rfl

/-- After its HEADER phase a command keeps the metadata (10_state.md R11). -/
theorem engineRes_hdr (hphase : s.seq.phase ≠ .header) :
    (engineRes s).Within (fun t => t.hdr = s.hdr) fun t => t.hdr = s.hdr := by
  unfold engineRes
  split
  · contradiction
  · exact (encodeSample_within s).mono (fun t ⟨u, hu, ht⟩ => by rw [ht, advance_hdr, hu.hdr_eq]) fun _ h => h.hdr_eq
  · exact (flushSink_hdr s).bind (fun _ h => h) fun _ t h => h
  · contradiction
  · exact (decodeSample_within s).mono
      (fun t ⟨u, p, hu, ht⟩ => by rw [ht, advance_hdr, ← hu.hdr_eq]; rfl) fun _ h => h.hdr_eq
  · unfold decompressFinish
    rcases reconstruct_cases s with ⟨xs, h⟩ | h | h
    · rw [h]; rfl
    · rw [h]; rfl
    · rw [h]; trivial
  · contradiction
  · trivial

end

/-- Settles O46, by the step of the command that is running. -/
theorem pixAndMetadataKept : Obligations.PixAndMetadataKept := by
  refine ⟨fun s t hstep hpix => ?_, fun s t hturn hphase hstep => ?_⟩
  · obtain ⟨hbusy, hengine⟩ := step_pix_written hstep hpix
    exact ⟨hbusy, engineStep_pix hengine hpix⟩
  · rw [step_of_turn hturn] at hstep
    rcases (engineRes_hdr hphase).next hstep with ⟨-, h⟩ | ⟨e, u, -, rfl, h⟩
    · exact h
    · exact h

end Sys2Proof.Machine
end

section
/-! PROOF. The machine's invariant (10_state.md R14, R23, R26; 42_predictor_selector.md R134): every step keeps it, and from a
state that meets it a running command does not stop. -/

namespace Sys2Proof.Machine

/-! ## The neighbours and the value of a sample -/

section
variable {s t u : State} {a b p : Int} {c row col : Nat}

/-- Both neighbours come before the sample in its channel (R134). -/
theorem neighboursHold_of_before (hseq : seqInRange s) (hcells : cellsBefore s) (hidx : 2 ≤ idx s) :
    ∃ a b, neighboursHold s a b ∧ codedValue s a ∧ codedValue s b := by
  obtain ⟨hch, hrow, hcol⟩ := hseq
  have hcell : ∀ pos, pos = (neighbours s.hdr.width.toNat s.seq.row.toNat s.seq.col.toNat).1 ∨
      pos = (neighbours s.hdr.width.toNat s.seq.row.toNat s.seq.col.toNat).2 →
      ∃ v : Nat, chanRead s.chan s.seq.ch.toNat pos.1 pos.2 = some (v : Int) ∧ codedValue s v := by
    intro pos hpos
    obtain ⟨hup, hleft, hearlier⟩ := neighbours_precede hcol hidx hpos
    exact codedValue_of_cellCoded (hcells _ _ _ hch (hup.trans_lt hrow) hleft (.inr ⟨rfl, hearlier⟩))
  obtain ⟨x, hx, hxcoded⟩ := hcell _ (.inl rfl)
  obtain ⟨y, hy, hycoded⟩ := hcell _ (.inr rfl)
  exact ⟨x, y, ⟨hidx, hx, hy⟩, hxcoded, hycoded⟩

theorem codedValue_congr (hhdr : t.hdr = s.hdr) (hseq : t.seq = s.seq) (h : codedValue t p) : codedValue s p := by
  unfold codedValue maxSample chanWidth at h ⊢
  rwa [hhdr, hseq] at h

theorem readPhased_eq_ok {n v : Nat} (hn : 1 ≤ n) (h : readPhased pullBit n s = .ok v t) :
    v < n ∧ sameButSource s t := by
  obtain ⟨rest, hframe⟩ : ∃ rest, leaves s t rest := by
    have hlist := (pullBit_alike_pullList s).readPhased n (leaves_refl s)
    rw [h] at hlist
    cases hl : readPhased pullList n (readableBits s) with
    | ok v' rest => rw [hl] at hlist; exact ⟨rest, hlist.2⟩
    | err e rest => rw [hl] at hlist; exact hlist.elim
  refine ⟨?_, hframe.frame⟩
  obtain ⟨cw, u, -, hindex⟩ := Read.bind_eq_ok h
  cases hcw : codewordIndex n cw with
  | none => rw [hcw] at hindex; cases hindex
  | some v' =>
    rw [hcw] at hindex
    cases hindex
    exact (phasedCodeword_of_codewordIndex hn hcw).1

/-- The value of a decoded symbol is one its channel can code (R167, R169). -/
theorem symbolValue_coded (hlow : 0 ≤ s.dp.l) (hhigh : s.dp.l + s.dp.delta ≤ maxSample s)
    (h : symbolValue s = .ok p t) : codedValue s p := by
  obtain ⟨inRange, u, hpull, h⟩ := Res.bind_eq_ok h
  have hu : sameButSource s u := by
    obtain ⟨rest, -, hleaves⟩ := pullBit_eq_ok (ofRead_eq_ok hpull)
    exact hleaves.frame
  cases inRange with
  | true =>
    obtain ⟨v, w, hphased, hvalue⟩ := Res.bind_eq_ok h
    rw [phasedDec_pos _ _ (Nat.succ_pos _)] at hphased
    obtain ⟨hlt, hw⟩ := readPhased_eq_ok (Nat.succ_pos _) (ofRead_eq_ok hphased)
    cases hvalue
    rw [hw.dp_eq, hu.dp_eq]
    rw [hu.dp_eq] at hlt
    constructor
    · omega
    · omega
  | false =>
    obtain ⟨above, w, hpull', h⟩ := Res.bind_eq_ok h
    obtain ⟨k, x, hk, h⟩ := Res.bind_eq_ok h
    obtain ⟨v, y, hrice, h⟩ := Res.bind_eq_ok h
    have hpulls : (ofRead (pullBit u)).PullsOnly u := pullBit_pullsOnly u
    have hks := getK_pullsOnly w w.dp.delta
    have hrices := riceDec_pullsOnly x k (chanWidth x)
    rw [hpull'] at hpulls
    rw [hk] at hks
    rw [hrice] at hrices
    have hsame : y.hdr = s.hdr ∧ y.seq = s.seq := by
      rw [hrices.frame, hks.frame, hpulls.frame, hu]
      exact ⟨rfl, rfl⟩
    have hfits := outOfRangeValue_eq_ok h
    rw [sampleFits_iff] at hfits
    rw [outOfRangeValue, if_pos ((sampleFits_iff _ _).2 hfits)] at h
    cases h
    exact codedValue_congr hsame.1 hsame.2 hfits

theorem sampleValue_coded (hn : 2 ≤ idx s → ∃ a b, neighboursHold s a b ∧ codedValue s a ∧ codedValue s b)
    (h : sampleValue s = .ok p t) : codedValue s p := by
  by_cases hidx : idx s < 2
  · rw [sampleValue, if_pos hidx] at h
    obtain ⟨v, u, hread, hvalue⟩ := Res.bind_eq_ok h
    cases hvalue
    have hwidth := chanWidth_le s
    exact codedValue_natCast.2 (readField_lt (by omega) (ofRead_eq_ok hread))
  · obtain ⟨a, b, hn, ha, hb⟩ := hn (by omega)
    rw [sampleValue, if_neg hidx, predict_of_neighboursHold hn, Res.bind_ok] at h
    refine symbolValue_coded (s := afterPredict s a b) ?_ ?_ h
    · exact le_min ha.1 hb.1
    · show min a b + (deltaOf a b : Int) ≤ maxSample s
      unfold deltaOf
      have hle : max a b ≤ maxSample s := max_le ha.2 hb.2
      omega

/-! ## What a sample leaves for the next one -/

/-- The cells before the sequencer's next position are those before its position, and the one at it. -/
theorem cellsBefore_advance (hseq : seqInRange s) (hlast : ¬ lastSample s)
    (h : ∀ c row col, c < nch s.hdr → row < s.hdr.height.toNat → col < s.hdr.width.toNat →
      isBefore s c row col ∨ isCurrent s c row col → cellCoded s c row col) : cellsBefore (advance s) := by
  intro c row col hc hrow hcol hbefore
  rw [advance_hdr] at hc hrow hcol
  have hpassed := (advance_walks hseq hlast).2.2 c row col hrow hcol hbefore
  unfold cellCoded
  rw [advance_chan, advance_hdr]
  exact h c row col hc hrow hcol hpassed

/-- After a decoded sample the cells before it and its own are coded. -/
theorem cellCoded_withSample (hwf : cellsWf s.chan = true) (hp : codedValue s p) (hrow : row < 2 ^ 32)
    (hcol : col < 2 ^ 32) (h : cellCoded s c row col ∨ isCurrent s c row col) : cellCoded (withSample s p) c row col := by
  unfold cellCoded
  rw [withSample, chanRead_write _ hwf _ _ _ _ _ _ _ (BitVec.isLt _) (BitVec.isLt _) hrow hcol]
  split
  · rename_i hcurrent
    obtain ⟨v, rfl⟩ := Int.eq_ofNat_of_zero_le hp.1
    exact ⟨v, rfl, by rw [hcurrent.1]; exact codedValue_natCast.1 hp⟩
  · rename_i hother
    exact h.resolve_right hother

end

/-! ## The steps of a running command -/

/-- The seven places in which a running command can be (R184, R188, R191). -/
theorem engineReady_cases {s : State} (h : engineReady s) :
    (s.stat.mode = .enc ∧ s.seq.phase = .header ∧ s.sink.flushed = false) ∨
    (s.stat.mode = .enc ∧ s.seq.phase = .samples ∧ s.sink.flushed = false ∧ seqInRange s ∧ channelsFull s) ∨
    (s.stat.mode = .enc ∧ s.seq.phase = .flush ∧ s.sink.flushed = false) ∨
    (s.stat.mode = .dec ∧ s.seq.phase = .header) ∨
    (s.stat.mode = .dec ∧ s.seq.phase = .samples ∧ seqInRange s ∧ cellsBefore s) ∨
    (s.stat.mode = .dec ∧ s.seq.phase = .finish ∧ channelsFull s) ∨
    (s.stat.mode = .hdr ∧ s.seq.phase = .header) := by
  unfold engineReady at h
  split at h
  · exact .inl ⟨‹_›, ‹_›, h⟩
  · exact .inr (.inl ⟨‹_›, ‹_›, h⟩)
  · exact .inr (.inr (.inl ⟨‹_›, ‹_›, h⟩))
  · exact .inr (.inr (.inr (.inl ⟨‹_›, ‹_›⟩)))
  · exact .inr (.inr (.inr (.inr (.inl ⟨‹_›, ‹_›, h⟩))))
  · exact .inr (.inr (.inr (.inr (.inr (.inl ⟨‹_›, ‹_›, h⟩)))))
  · exact .inr (.inr (.inr (.inr (.inr (.inr ⟨‹_›, ‹_›⟩)))))
  · exact h.elim

section
variable {s t : State}

theorem engineReady_enc_samples (hmode : s.stat.mode = .enc) (hphase : s.seq.phase = .samples)
    (hflushed : s.sink.flushed = false) (hseq : seqInRange s) (hfull : channelsFull s) : engineReady s := by
  unfold engineReady
  rw [hmode, hphase]
  exact ⟨hflushed, hseq, hfull⟩

theorem engineReady_enc_flush (hmode : s.stat.mode = .enc) (hphase : s.seq.phase = .flush)
    (hflushed : s.sink.flushed = false) : engineReady s := by
  unfold engineReady
  rw [hmode, hphase]
  exact hflushed

theorem engineReady_dec_samples (hmode : s.stat.mode = .dec) (hphase : s.seq.phase = .samples) (hseq : seqInRange s)
    (hcells : cellsBefore s) : engineReady s := by
  unfold engineReady
  rw [hmode, hphase]
  exact ⟨hseq, hcells⟩

theorem engineReady_dec_finish (hmode : s.stat.mode = .dec) (hphase : s.seq.phase = .finish) (hfull : channelsFull s) :
    engineReady s := by
  unfold engineReady
  rw [hmode, hphase]
  exact hfull

theorem engineReady_startCommand (mode : Mode) (hmode : mode ≠ .none) : engineReady (startCommand mode s) := by
  cases mode with
  | none => exact absurd rfl hmode
  | enc => exact rfl
  | dec => trivial
  | hdr => trivial

/-- The HEADER step of COMPRESS loads every cell (R186). -/
theorem engineReady_of_compressHeader (hmode : s.stat.mode = .enc) (hflushed : s.sink.flushed = false)
    (hwf : cellsWf s.chan = true) (h : compressHeader s = .ok () t) : t.stat = s.stat ∧ engineReady t := by
  cases hvalid : inputsValid s with
  | false => rw [compressHeader_invalid hvalid] at h; cases h
  | true =>
    rw [compressHeader, if_pos hvalid] at h
    obtain ⟨_, w, hpush, h⟩ := Res.bind_eq_ok h
    have hw : (writeHeader s).PushesOnly s := pushList_pushesOnly s _
    rw [hpush] at hw
    obtain ⟨hhdr, hpix, hchan, hstat⟩ : w.hdr = s.hdr ∧ w.pix = s.pix ∧ w.chan = s.chan ∧ w.stat = s.stat := by
      rw [hw.pushes.frame]; exact ⟨rfl, rfl, rfl, rfl⟩
    have hvalid' : inputsValid w = true := by rw [inputsValid_congr hhdr hpix]; exact hvalid
    have hfull := (loaded_loadChannels hvalid' (by rw [hchan]; exact hwf)).full
    obtain ⟨hwidth, hheight, -⟩ := (inputsValid_iff w).1 hvalid'
    obtain ⟨m, hload, -⟩ := loadChannels_cases w
    cases h
    rw [hload] at hfull ⊢
    exact ⟨hstat, engineReady_enc_samples (by rw [enterSamples_stat, hstat]; exact hmode) rfl
      (hw.pushes.flushed.trans hflushed) (seqInRange_enterSamples hwidth hheight) hfull⟩

/-- A sample of COMPRESS leaves the next one, or the FLUSH phase. -/
theorem engineReady_of_encodeSample (hmode : s.stat.mode = .enc) (hphase : s.seq.phase = .samples)
    (hflushed : s.sink.flushed = false) (hseq : seqInRange s) (hfull : channelsFull s) (h : encodeSample s = .ok () t) :
    t.stat = s.stat ∧ engineReady t := by
  have hwithin := encodeSample_within s
  rw [h] at hwithin
  obtain ⟨u, hu, rfl⟩ := hwithin
  obtain ⟨hhdr, hseq', hchan, hstat⟩ : u.hdr = s.hdr ∧ u.seq = s.seq ∧ u.chan = s.chan ∧ u.stat = s.stat := by
    rw [hu.frame]; exact ⟨rfl, rfl, rfl, rfl⟩
  have hin : seqInRange u := by
    unfold seqInRange
    rw [hhdr, hseq']
    exact hseq
  have hfull' : channelsFull (advance u) := by
    unfold channelsFull cellCoded
    rw [advance_hdr, advance_chan, hhdr, hchan]
    exact hfull
  have hmode' : (advance u).stat.mode = .enc := by rw [advance_stat, hstat, hmode]
  have hflushed' : (advance u).sink.flushed = false := by rw [advance_sink, hu.flushed, hflushed]
  refine ⟨by rw [advance_stat, hstat], ?_⟩
  by_cases hlast : lastSample u
  · refine engineReady_enc_flush hmode' ?_ hflushed'
    rw [advance_phase_of_last (.inl (by rw [hstat, hmode])) hlast, if_pos (by rw [hstat, hmode])]
  · obtain ⟨hnext, hphase', -⟩ := advance_walks hin hlast
    exact engineReady_enc_samples hmode' (by rw [hphase', hseq', hphase]) hflushed' hnext hfull'

/-- The HEADER step of DECOMPRESS enters the samples of an image with no zero dimension. -/
theorem engineReady_of_decompressHeader (hmode : s.stat.mode = .dec) (h : decompressHeader s = .ok () t) :
    t.stat = s.stat ∧ engineReady t := by
  rw [decompressHeader_eq] at h
  obtain ⟨hd, w, hread, h⟩ := Res.bind_eq_ok h
  obtain ⟨hwidth, hheight⟩ := readHeader_eq_ok (ofRead_eq_ok hread)
  have hstat : w.stat = s.stat := by
    have hw := readHeader_pullsOnly s
    rw [hread] at hw
    rw [hw.frame]
  obtain ⟨-, rfl⟩ := takeHeader_eq_ok h
  refine ⟨hstat, engineReady_dec_samples (by rw [enterSamples_stat, hstat]; exact hmode) rfl
    (seqInRange_enterSamples hwidth hheight) fun c row col _ _ _ hbefore => ?_⟩
  simp [idx] at hbefore

theorem Takes.withSample_place {u : State} (h : Takes s u) (p : Int) :
    (withSample u p).hdr = s.hdr ∧ (withSample u p).seq = s.seq ∧ (withSample u p).stat = s.stat :=
  ⟨h.frame.samePlace.hdr, h.frame.samePlace.seq, h.frame.samePlace.stat⟩

/-- A decoded sample is coded in its cell, and the cells before it stay so. -/
theorem Takes.cellCoded_withSample {u : State} {p : Int} {c row col : Nat} (h : Takes s u) (hwf : cellsWf s.chan = true)
    (hcells : cellsBefore s) (hp : codedValue s p) (hc : c < nch s.hdr) (hrow : row < s.hdr.height.toNat)
    (hcol : col < s.hdr.width.toNat) (hplace : isBefore s c row col ∨ isCurrent s c row col) :
    cellCoded (withSample u p) c row col := by
  obtain ⟨-, hhdr, hseq, hchan, -⟩ := h.frame.samePlace
  refine Machine.cellCoded_withSample (by rw [hchan]; exact hwf) (codedValue_congr hhdr.symm hseq.symm hp)
    (hrow.trans (BitVec.isLt _)) (hcol.trans (BitVec.isLt _)) (hplace.imp (fun hbefore => ?_) fun hcurrent => ?_)
  · unfold cellCoded
    rw [hchan, hhdr]
    exact hcells c row col hc hrow hcol hbefore
  · unfold isCurrent
    rw [hseq]
    exact hcurrent

/-- A sample of DECOMPRESS is stored with a value of its channel, and leaves the next one or the FINISH phase. -/
theorem engineReady_of_decodeSample (hmode : s.stat.mode = .dec) (hphase : s.seq.phase = .samples)
    (hwf : cellsWf s.chan = true) (hseq : seqInRange s) (hcells : cellsBefore s) (h : decodeSample s = .ok () t) :
    t.stat = s.stat ∧ engineReady t := by
  rw [decodeSample_eq] at h
  obtain ⟨p, u, hvalue, h⟩ := Res.bind_eq_ok h
  obtain rfl : advance (withSample u p) = t := by cases h; rfl
  have hp := sampleValue_coded (neighboursHold_of_before hseq hcells) hvalue
  have hu : Takes s u := by
    have hwithin := sampleValue_takesOnly s
    rwa [hvalue] at hwithin
  obtain ⟨hhdr, hseq', hstat⟩ := hu.withSample_place p
  have hcell := fun c row col => hu.cellCoded_withSample (c := c) (row := row) (col := col) hwf hcells hp
  generalize withSample u p = x at hhdr hseq' hstat hcell ⊢
  have hin : seqInRange x := by
    unfold seqInRange
    rw [hhdr, hseq']
    exact hseq
  have hmode' : x.stat.mode = .dec := by rw [hstat, hmode]
  refine ⟨by rw [advance_stat]; exact hstat, ?_⟩
  by_cases hlast : lastSample x
  · refine engineReady_dec_finish (by rw [advance_stat]; exact hmode') ?_ fun c row col hc hrow hcol => ?_
    · rw [advance_phase_of_last (.inr hmode') hlast, if_neg (by rw [hmode']; decide)]
    · unfold cellCoded
      rw [advance_chan, advance_hdr]
      rw [advance_hdr, hhdr] at hc hrow hcol
      unfold lastSample at hlast
      rw [hhdr, hseq'] at hlast
      exact hcell c row col hc hrow hcol (isBefore_or_isCurrent_of_last hseq hlast hc hrow hcol)
  · obtain ⟨hnext, hphase', -⟩ := advance_walks hin hlast
    refine engineReady_dec_samples (by rw [advance_stat]; exact hmode') (by rw [hphase', hseq', hphase]) hnext
      (cellsBefore_advance hin hlast fun c row col hc hrow hcol hplace => ?_)
    unfold isBefore isCurrent idx at hplace
    rw [hhdr] at hc hrow hcol hplace
    rw [hseq'] at hplace
    exact hcell c row col hc hrow hcol hplace

/-- A step that completes leaves the command in a place of its walk, or has ended it. -/
theorem engineReady_of_engineRes (hwf : cellsWf s.chan = true) (hready : engineReady s) (h : engineRes s = .ok () t) :
    t.stat.status = .done ∨ (t.stat = s.stat ∧ engineReady t) := by
  rcases engineReady_cases hready with ⟨hmode, hphase, hflushed⟩ | ⟨hmode, hphase, hflushed, hseq, hfull⟩ |
    ⟨hmode, hphase, -⟩ | ⟨hmode, hphase⟩ | ⟨hmode, hphase, hseq, hcells⟩ | ⟨hmode, hphase, -⟩ | ⟨hmode, hphase⟩
  all_goals simp only [engineRes, hmode, hphase] at h
  · exact .inr (engineReady_of_compressHeader hmode hflushed hwf h)
  · exact .inr (engineReady_of_encodeSample hmode hphase hflushed hseq hfull h)
  · obtain ⟨_, u, -, hdone⟩ := Res.bind_eq_ok h
    cases hdone
    exact .inl rfl
  · exact .inr (engineReady_of_decompressHeader hmode h)
  · exact .inr (engineReady_of_decodeSample hmode hphase hwf hseq hcells h)
  · obtain ⟨_, u, -, hdone⟩ := Res.bind_eq_ok h
    cases hdone
    exact .inl rfl
  · obtain ⟨_, u, -, hdone⟩ := Res.bind_eq_ok h
    cases hdone
    exact .inl rfl

/-! ## Every step -/

theorem engineInv_raiseError {e : Err} (hs : engineInv s) (h : Sound s t) : engineInv (raiseError e t) := by
  obtain ⟨hwf, -, hpos, -⟩ := hs
  exact ⟨h.wf hwf, .inl rfl, h.pos hpos, fun hbusy => by cases hbusy⟩

/-- An operation that completes on an engine that no error has stopped. -/
theorem engineInv_of_soundEnd (hs : engineInv s) (hok : s.stat.status ≠ .error) (h : SoundEnd s t)
    (hready : t.stat.status = .busy → t.stat.errCode = 0 ∧ engineReady t) : engineInv t := by
  obtain ⟨hwf, hclean, hpos, -⟩ := hs
  exact ⟨h.sound.wf hwf, .inr (h.clean (hclean.resolve_left hok)), h.sound.pos hpos, hready⟩

theorem engineInv_startCommand {mode : Mode} (hmode : mode ≠ .none) : engineInv (startCommand mode s) :=
  ⟨rfl, .inr fun _ _ => BitVec.getLsbD_zero, Nat.zero_le _, fun _ => ⟨rfl, engineReady_startCommand mode hmode⟩⟩

theorem engineInv_setQueue (hs : engineInv s) (rest : List HostEvent) : engineInv { s with cmdq := rest } := hs

/-- A word performed starts a command, or finds the engine IDLE. -/
theorem engineInv_of_exec {c : Issue} {i : Instr} (hs : engineInv s) (hd : decodeCommand c = .ok i)
    (hperforms : performs c s = true) (h : exec i s = .next t) : engineInv t := by
  by_cases hhost : isHostCommand c = true
  · rcases isHostCommand_cases hhost with hi | hi | hi
    · rw [hi] at hd
      cases hd
      cases hlarge : imageTooLarge s with
      | true => rw [exec_compress_of_too_large hlarge] at h; cases h
      | false => rw [exec_compress_of_fits hlarge] at h; cases h; exact engineInv_startCommand (by decide)
    · rw [hi] at hd
      cases hd
      cases h
      exact engineInv_startCommand (by decide)
    · rw [hi] at hd
      cases hd
      cases h
      exact engineInv_startCommand (by decide)
  · have hidle : s.stat.status = .idle := (performs_iff.1 hperforms).resolve_right hhost
    rcases exec_starts_or_sound hd h with ⟨mode, hmode, rfl⟩ | hend | ⟨e, u, rfl, hsound⟩
    · exact engineInv_startCommand hmode
    · refine engineInv_of_soundEnd hs (by rw [hidle]; decide) hend fun hbusy => ?_
      rcases hend.status with hstatus | hstatus
      · rw [hstatus, hidle] at hbusy; cases hbusy
      · rw [hstatus] at hbusy; cases hbusy
    · exact engineInv_raiseError hs hsound

end

/-- Settles O48, by what the step is. -/
theorem engineInvariantKept : Obligations.EngineInvariantKept := by
  intro s t hs hstep
  rcases step_cases s with ⟨rest, hq, h⟩ | ⟨c, rest, i, -, hd, -, ⟨hperforms, h⟩ | ⟨-, h⟩⟩ | ⟨c, rest, e, -, -, h⟩ |
    ⟨hbusy, h⟩ | ⟨-, -, h⟩
  all_goals rw [h] at hstep
  · cases hstep
    exact ⟨rfl, .inr fun _ _ => BitVec.getLsbD_zero, Nat.zero_le _, fun hbusy => by cases hbusy⟩
  · exact engineInv_of_exec (engineInv_setQueue hs rest) hd hperforms hstep
  · cases hstep
    exact engineInv_setQueue hs rest
  · cases hstep
    exact engineInv_raiseError (engineInv_setQueue hs rest) (sound_refl _)
  · have hsound := engineRes_soundOnly s
    obtain ⟨hwf, hclean, hpos, hrun⟩ := hs
    obtain ⟨herr, hready⟩ := hrun hbusy
    rcases Res.Within.next hsound hstep with ⟨hok, hend⟩ | ⟨e, u, -, rfl, hu⟩
    · refine engineInv_of_soundEnd ⟨hwf, hclean, hpos, hrun⟩ (by rw [hbusy]; decide) hend fun hbusy' => ?_
      rcases engineReady_of_engineRes (memoryWf_iff.1 hwf).1 hready hok with hdone | ⟨hstat, hready'⟩
      · rw [hdone] at hbusy'; cases hbusy'
      · exact ⟨by rw [hstat]; exact herr, hready'⟩
    · exact engineInv_raiseError ⟨hwf, hclean, hpos, hrun⟩ hu
  · cases hstep
    exact hs

/-! ## What does not stop -/

theorem Res.NeverStops.next {r : Res Unit} {Q : Unit → State → Prop} (h : r.NeverStops Q) : ∃ t, r.finish = .next t := by
  cases r with
  | ok a t => exact ⟨t, rfl⟩
  | raise e t => exact ⟨_, rfl⟩
  | fault x => exact h.elim
  | refuse x => exact h.elim

section
variable {s : State}

theorem compressHeader_neverStops : (compressHeader s).NeverStops fun _ _ => True :=
  neverStops_ite (fun _ => (pushList_neverStops s _).bind fun _ _ _ => trivial) fun _ => trivial

theorem encodeSample_neverStops_of_full (hseq : seqInRange s) (hfull : channelsFull s) :
    (encodeSample s).NeverStops fun _ _ => True := by
  obtain ⟨hch, hrow, hcol⟩ := hseq
  obtain ⟨v, hcell, -⟩ := hfull _ _ _ hch hrow hcol
  refine (encodeSample_neverStops s hcell fun hidx => ?_).imp fun _ _ _ _ => trivial
  obtain ⟨a, b, hn, -⟩ := neighboursHold_of_full ⟨hch, hrow, hcol⟩ hfull hidx
  exact ⟨a, b, hn⟩

theorem decodeSample_neverStops_of_before (hseq : seqInRange s) (hcells : cellsBefore s) :
    (decodeSample s).NeverStops fun _ _ => True := by
  refine (decodeSample_neverStops s fun hidx => ?_).imp fun _ _ _ _ => trivial
  obtain ⟨a, b, hn, -⟩ := neighboursHold_of_before hseq hcells hidx
  exact ⟨a, b, hn⟩

theorem decompressFinish_neverStops (hfull : channelsFull s) : (decompressFinish s).NeverStops fun _ _ => True := by
  refine (reconstruct_neverStops s fun i hi c hc => ?_).bind fun _ _ _ => trivial
  obtain ⟨hrow, hcol⟩ := raster_bounds hi
  obtain ⟨v, hcell, -⟩ := hfull c _ _ hc hrow hcol
  exact ⟨v, hcell⟩

/-- The one stop: the header of an image above MAX_SAMPLES (R195). -/
theorem decompressHeader_next_or_refused (s : State) :
    (∃ t, (decompressHeader s).finish = .next t) ∨
      (decompressHeader s = .refuse .imageTooLarge ∧ s.maxSamples ≠ none) := by
  rw [decompressHeader_eq]
  have hpulls := readHeader_pullsOnly s
  cases hread : readHeader pullBit s with
  | err e t => exact .inl ⟨_, rfl⟩
  | ok h t =>
    rw [hread] at hpulls
    have hmax : t.maxSamples = s.maxSamples := by rw [hpulls.frame]
    rw [ofRead_ok, Res.bind_ok, takeHeader]
    cases hlarge : imageTooLarge { t with hdr := h } with
    | true =>
      refine .inr ⟨rfl, fun hnone => ?_⟩
      rw [imageTooLarge_unbounded (s := { t with hdr := h }) (hmax.trans hnone)] at hlarge
      cases hlarge
    | false => exact .inl ⟨_, rfl⟩

end

/-- Settles O49, by the place of the command. -/
theorem engineNeverStops : Obligations.EngineNeverStops := by
  rintro s ⟨-, -, -, hrun⟩ hqueue
  by_cases hbusy : s.stat.status = .busy
  · obtain ⟨-, hready⟩ := hrun hbusy
    rw [step_of_busy hbusy hqueue]
    rcases engineReady_cases hready with ⟨hmode, hphase, -⟩ | ⟨hmode, hphase, -, hseq, hfull⟩ | ⟨hmode, hphase, -⟩ |
      ⟨hmode, hphase⟩ | ⟨hmode, hphase, hseq, hcells⟩ | ⟨hmode, hphase, hfull⟩ | ⟨hmode, hphase⟩
    all_goals simp only [engineRes, hmode, hphase]
    · exact .inl compressHeader_neverStops.next
    · exact .inl (encodeSample_neverStops_of_full hseq hfull).next
    · exact .inl (Res.NeverStops.next (Q := fun _ _ => True) ((flushSink_neverStops s).bind fun _ _ _ => trivial))
    · refine (decompressHeader_next_or_refused s).imp_right fun ⟨hrefused, hmax⟩ => ?_
      rw [hrefused]
      exact ⟨rfl, trivial, trivial, hmax⟩
    · exact .inl (decodeSample_neverStops_of_before hseq hcells).next
    · exact .inl (decompressFinish_neverStops hfull).next
    · exact .inl (Res.NeverStops.next (Q := fun _ _ => True) (Res.NeverStops.bind (P := fun _ _ => True)
        ((neverStops_ofRead _).bind fun _ _ _ => trivial) fun _ _ _ => trivial))
  · exact .inl ⟨s, step_settled hqueue hbusy⟩

end Sys2Proof.Machine
end

section
/-! PROOF. DEC_SAMPLE as the reading of one field and its meaning (44_channel_coder.md R168, 30_encoding.md R62). -/

namespace Sys2Proof.Machine

/-! ## Readings do not go by the datapath -/

/-- The reading's ends with another datapath. -/
def setDpRead {α : Type} (dp : Datapath) : Read State α → Read State α
  | .ok a t => .ok a { t with dp := dp }
  | .err e t => .err e { t with dp := dp }

/-- The reading gives the same on another datapath, which it leaves as it was. -/
def FreeOfDp {α : Type} (f : State → Read State α) : Prop := ∀ s dp, f { s with dp := dp } = setDpRead dp (f s)

section
variable {α : Type} {f : State → Read State α} {s t : State} {x : α} {e : Err}

theorem FreeOfDp.of_ok (hf : FreeOfDp f) (h : f s = .ok x t) :
    t.dp = s.dp ∧ ∀ dp, f { s with dp := dp } = .ok x { t with dp := dp } := by
  refine ⟨?_, fun dp => by rw [hf, h]; rfl⟩
  have hself : f s = setDpRead s.dp (f s) := hf s s.dp
  rw [h] at hself
  injection hself with _ ht
  rw [ht]

theorem FreeOfDp.of_err (hf : FreeOfDp f) (h : f s = .err e t) (dp : Datapath) :
    f { s with dp := dp } = .err e { t with dp := dp } := by
  rw [hf, h]
  rfl

theorem freeOfDp_pullBit : FreeOfDp pullBit := by
  intro s dp
  by_cases hc : s.src.cnt = 0
  · by_cases hi : s.inFail.head? = some true
    · rw [pullBit_fails hc hi, pullBit_fails (s := { s with dp := dp }) hc hi]
      rfl
    · cases hx : s.inp[s.inPos]? with
      | none =>
        rw [pullBit_eof hc hi hx, pullBit_eof (s := { s with dp := dp }) hc hi hx]
        rfl
      | some x =>
        rw [pullBit_fetches hc hi hx, pullBit_fetches (s := { s with dp := dp }) hc hi hx]
        rfl
  · rw [pullBit_buffered hc, pullBit_buffered (s := { s with dp := dp }) hc]
    rfl

/-- A reading beside itself on another datapath. -/
theorem pullAlike_setDp (dp : Datapath) :
    PullAlike (fun t t' => t' = { t with dp := dp }) (fun e t e' t' => e' = e ∧ t' = { t with dp := dp }) pullBit pullBit where
  bit t t' h := by
    subst h
    rw [freeOfDp_pullBit t dp]
    cases pullBit t with
    | ok b u => exact ⟨rfl, rfl⟩
    | err e u => exact ⟨rfl, rfl⟩
  own _ _ _ _ h := ⟨rfl, h⟩

theorem freeOfDp_of_alike (h : ∀ s dp, (f s).Alike (fun t t' => t' = { t with dp := dp })
    (fun e t e' t' => e' = e ∧ t' = { t with dp := dp }) (f { s with dp := dp })) : FreeOfDp f := by
  intro s dp
  have hs := h s dp
  revert hs
  cases f s with
  | ok a t =>
    cases f { s with dp := dp } with
    | ok b u => rintro ⟨rfl, rfl⟩; rfl
    | err e u => exact fun hs => hs.elim
  | err e t =>
    cases f { s with dp := dp } with
    | ok b u => exact fun hs => hs.elim
    | err e' u => rintro ⟨rfl, rfl⟩; rfl

theorem freeOfDp_readPhased (n : Nat) : FreeOfDp (readPhased pullBit n) :=
  freeOfDp_of_alike fun _ dp => (pullAlike_setDp dp).readPhased n rfl

theorem freeOfDp_readRice (k w : Nat) : FreeOfDp (readRice pullBit k w) :=
  freeOfDp_of_alike fun _ dp => (pullAlike_setDp dp).readRice k w rfl

/-! ## A Rice codeword's quotient (41_codes.md R113) -/

theorem countZeros_eq_ok {left q n : Nat} (h : countZeros pullBit left q s = .ok n t) : n ≤ q + left := by
  induction left generalizing q s with
  | zero =>
    obtain ⟨b, u, -, h⟩ := Read.bind_eq_ok h
    cases b with
    | true => cases h; exact le_rfl
    | false => cases h
  | succ left ih =>
    obtain ⟨b, u, -, h⟩ := Read.bind_eq_ok h
    cases b with
    | true => cases h; omega
    | false =>
      have hle := ih (q := q + 1) h
      omega

theorem readRice_eq_ok {k w v : Nat} (hk : k ≤ 64) (h : readRice pullBit k w s = .ok v t) : v / 2 ^ k ≤ qmax w k := by
  rw [readRice, readRicePair_eq] at h
  obtain ⟨qr, u, hpair, hvalue⟩ := Read.bind_eq_ok h
  obtain ⟨q, x, hzeros, hrest⟩ := Read.bind_eq_ok hpair
  obtain ⟨r, y, hread, hqr⟩ := Read.bind_eq_ok hrest
  cases hqr
  cases hvalue
  have hq := countZeros_eq_ok hzeros
  have hr := readField_lt hk hread
  have hdiv : riceValue k q r / 2 ^ k = q := by
    rw [riceValue, mul_comm, Nat.mul_add_div (Nat.two_pow_pos k), Nat.div_eq_of_lt hr, Nat.add_zero]
  rw [hdiv]
  omega

end

/-! ## What pulling keeps of a sample in progress -/

section
variable {s t u : State} {a b : Int}

theorem Pulls.neighboursHold (h : Pulls s t) (hn : neighboursHold s a b) : neighboursHold t a b := by
  rw [h.frame]
  exact hn

theorem Pulls.mode_eq (h : Pulls s t) : t.stat.mode = s.stat.mode := by rw [h.frame]

theorem Pulls.maxSample_eq (h : Pulls s t) : maxSample t = maxSample s := by rw [h.frame]; rfl

theorem Pulls.chanWidth_eq (h : Pulls s t) : chanWidth t = chanWidth s := by rw [h.frame]; rfl

theorem Pulls.kFor_eq (h : Pulls s t) (delta : Nat) : kFor t delta = kFor s delta := by rw [h.frame]; rfl

theorem afterPredict_of_dp_eq (h : t.dp = s.dp) : { t with dp := (afterPredict s a b).dp } = afterPredict t a b := by
  unfold afterPredict
  rw [h]

/-! ## The two kinds of symbol, after their marker -/

/-- The codeword of a sample in range and SYM_IN (R167). -/
theorem phasedDec_runs_symIn (hn : neighboursHold s a b) (hmode : s.stat.mode ≠ .enc) {v : Nat}
    (h : readPhased pullBit (deltaOf a b + 1) s = .ok v t) :
    ((phasedDec (deltaOf a b + 1) (afterPredict s a b)).bind fun v x => .ok () (storeSample (x.dp.l + v) x)).finish =
      exec (.symIn v) t := by
  have hpulls : Pulls s t := by
    have hall := readPhased_pullsOnly s (deltaOf a b + 1)
    rwa [h] at hall
  obtain ⟨hdp, hread⟩ := (freeOfDp_readPhased _).of_ok h
  have hv := (readPhased_eq_ok (Nat.succ_pos _) h).1
  rw [exec_symIn_dec v (by rw [hpulls.mode_eq]; exact hmode) (hpulls.neighboursHold hn), if_pos (by omega),
    phasedDec_pos _ _ (Nat.succ_pos _)]
  have hread' : readPhased pullBit (deltaOf a b + 1) (afterPredict s a b) = .ok v (afterPredict t a b) :=
    (hread _).trans (congrArg (Read.ok v) (afterPredict_of_dp_eq hdp))
  rw [hread']
  rfl

theorem phasedDec_raises (n : Nat) (hn : 1 ≤ n) {e : Err} (h : readPhased pullBit n s = .err e t) (dp : Datapath)
    {β : Type} (f : Nat → State → Res β) : (phasedDec n { s with dp := dp }).bind f = .raise e { t with dp := dp } := by
  rw [phasedDec_pos _ _ hn, (freeOfDp_readPhased n).of_err h dp]
  rfl

/-- The codeword of a sample out of range, with GET_K before it, and SYM_BELOW or SYM_ABOVE (R168). -/
theorem riceDec_runs_symOutOfRange (hn : neighboursHold s a b) (hrow : deltaOf a b ≤ maxSample s)
    (hmode : s.stat.mode ≠ .enc) (above : Bool) {v : Nat}
    (h : readRice pullBit (kFor s (deltaOf a b)) (chanWidth s) s = .ok v t) :
    ((getK (deltaOf a b) (afterPredict s a b)).bind fun k x =>
      (riceDec k (chanWidth x) x).bind fun v x => takeOutOfRange above v x).finish = exec (symOutOfRange above v) t := by
  have hpulls : Pulls s t := by
    have hall := readRice_pullsOnly s (kFor s (deltaOf a b)) (chanWidth s)
    rwa [h] at hall
  obtain ⟨hdp, hread⟩ := (freeOfDp_readRice _ _).of_ok h
  have hquotient := readRice_eq_ok (kFor_le s _) h
  have hk : getK (deltaOf a b) (afterPredict s a b) = _ := getK_kFor (s := afterPredict s a b) hrow
  have hrice : ∀ dp, riceDec (kFor s (deltaOf a b)) (chanWidth s) { s with dp := dp } =
      .ok v { t with dp := { dp with v := v } } := fun dp => by
    rw [riceDec, hread dp]
    rfl
  rw [exec_symOutOfRange, onWire_dec (by rw [hpulls.mode_eq]; exact hmode),
    takeRiceSymbol_eq above v (hpulls.neighboursHold hn) (by rw [hpulls.maxSample_eq]; exact hrow),
    hpulls.kFor_eq, hpulls.chanWidth_eq, if_neg (by omega), hk, Res.bind_ok]
  refine congrArg Res.finish ?_
  refine (congrArg (Res.bind · _) (hrice _)).trans ?_
  rw [Res.bind_ok]
  unfold afterPredict
  rw [hdp]
  rfl

theorem riceDec_raises {delta : Nat} (hrow : delta ≤ maxSample s) {e : Err} (dp : Datapath)
    (h : readRice pullBit (kFor s delta) (chanWidth s) s = .err e t) {β : Type} (f : Nat → State → Res β) :
    ∃ dp', ((getK delta { s with dp := dp }).bind fun k x => (riceDec k (chanWidth x) x).bind f) =
      .raise e { t with dp := dp' } := by
  have hk : getK delta { s with dp := dp } = _ := getK_kFor (s := { s with dp := dp }) hrow
  refine ⟨{ dp with k := kFor s delta }, ?_⟩
  rw [hk, Res.bind_ok]
  have hrice : riceDec (kFor s delta) (chanWidth s) { s with dp := { dp with k := kFor s delta } } =
      .raise e { t with dp := { dp with k := kFor s delta } } := by
    rw [riceDec, (freeOfDp_readRice _ _).of_err h]
    rfl
  exact congrArg (Res.bind · f) hrice

end

/-! ## The statement -/

/-- The outcome is the meaning of the field that the reading gives, or the error that the reading raises. -/
def RunsField (o : Host.Outcome State Fault Refusal) : Read State Instr → Prop
  | .ok i u => o = exec i u
  | .err e u => ∃ dp, o = .next (raiseError e { u with dp := dp })

section
variable {s : State} {a b : Int}

theorem nextField_predicted (hn : neighboursHold s a b) (hrow : deltaOf a b ≤ maxSample s) :
    nextField s = .symbol (deltaOf a b + 1) (kFor s (deltaOf a b)) (chanWidth s) := by
  have hentry : rowEntry (deltaOf a b) (afterPredict s a b) = tableRead s.table (deltaOf a b) :=
    rowEntry_eq _ (afterPredict s a b) hrow
  rw [nextField, if_neg hn.1.not_gt, predict_of_neighboursHold hn]
  show FieldKind.symbol (deltaOf a b + 1) (selectK (rowEntry (deltaOf a b) (afterPredict s a b)) _) _ = _
  rw [hentry]
  rfl

theorem decSample_verbatim_runsField (hidx : idx s < 2) (hmode : s.stat.mode ≠ .enc) :
    RunsField (exec .decSample s) (readInstr pullBit (nextField s) s) := by
  have hdec : exec .decSample s = ((ofRead (readField pullBit (chanWidth s) s)).bind fun p t =>
      .ok () (storeSample (p : Nat) t)).finish := by
    simp only [exec, execDecSample, decodeSample, if_pos hidx, pullBits]
  have hall := readField_pullsOnly s (chanWidth s)
  rw [hdec, nextField, if_pos hidx, readInstr]
  cases hread : readField pullBit (chanWidth s) s with
  | err e u => exact ⟨u.dp, rfl⟩
  | ok v u =>
    rw [hread] at hall
    have hpulls : Pulls s u := hall
    have hv : v < 2 ^ chanWidth s := readField_lt ((chanWidth_le s).trans (by decide)) hread
    show _ = exec (.rawSample v) u
    rw [exec_rawSample_dec v (by rw [hpulls.mode_eq]; exact hmode), hpulls.chanWidth_eq, low, Nat.mod_eq_of_lt hv]
    rfl

theorem decSample_predicted_runsField (hn : neighboursHold s a b) (hrow : deltaOf a b ≤ maxSample s)
    (hmode : s.stat.mode ≠ .enc) : RunsField (exec .decSample s) (readInstr pullBit (nextField s) s) := by
  rw [nextField_predicted hn hrow, exec_decSample_predicted hn, readInstr]
  have hall := pullBit_pullsOnly s
  cases hpull : pullBit s with
  | err e u =>
    have hfree : pullBit (afterPredict s a b) = _ := freeOfDp_pullBit.of_err hpull (afterPredict s a b).dp
    rw [takeSymbol, hfree]
    exact ⟨_, rfl⟩
  | ok inRange t =>
    rw [hpull] at hall
    have ht : Pulls s t := hall
    obtain ⟨hdp, hfree⟩ := freeOfDp_pullBit.of_ok hpull
    have hfree' : pullBit (afterPredict s a b) = .ok inRange (afterPredict t a b) :=
      (hfree _).trans (congrArg _ (afterPredict_of_dp_eq hdp))
    have hmodet : t.stat.mode ≠ .enc := by rw [ht.mode_eq]; exact hmode
    rw [takeSymbol, hfree', ofRead_ok, Res.bind_ok, Read.bind_ok]
    cases inRange with
    | true =>
      simp only [if_true]
      cases hread : readPhased pullBit (deltaOf a b + 1) t with
      | ok v u => exact phasedDec_runs_symIn (ht.neighboursHold hn) hmodet hread
      | err e u => exact ⟨_, congrArg Res.finish (phasedDec_raises _ (Nat.succ_pos _) hread _ _)⟩
    | false =>
      simp only [Bool.false_eq_true, if_false]
      have hall' := pullBit_pullsOnly t
      cases hpull' : pullBit t with
      | err e u =>
        have hfree : pullBit (afterPredict t a b) = _ := freeOfDp_pullBit.of_err hpull' (afterPredict t a b).dp
        rw [hfree]
        exact ⟨_, rfl⟩
      | ok above u =>
        rw [hpull'] at hall'
        have hu : Pulls s u := ht.trans hall'
        obtain ⟨hdp', hfree⟩ := freeOfDp_pullBit.of_ok hpull'
        have hfree' : pullBit (afterPredict t a b) = .ok above (afterPredict u a b) :=
          (hfree _).trans (congrArg _ (afterPredict_of_dp_eq hdp'))
        have hrowu : deltaOf a b ≤ maxSample u := by rw [hu.maxSample_eq]; exact hrow
        rw [hfree', ofRead_ok, Res.bind_ok, Read.bind_ok, ← hu.kFor_eq, ← hu.chanWidth_eq]
        cases hread : readRice pullBit (kFor u (deltaOf a b)) (chanWidth u) u with
        | ok v w =>
          exact riceDec_runs_symOutOfRange (hu.neighboursHold hn) hrowu (by rw [hu.mode_eq]; exact hmode) above hread
        | err e w =>
          obtain ⟨dp, hraise⟩ := riceDec_raises hrowu (afterPredict u a b).dp hread fun v x => takeOutOfRange above v x
          exact ⟨dp, congrArg Res.finish hraise⟩

end

/-- Settles O34, for a verbatim sample and for each kind of symbol. -/
theorem decSampleRunsTheFieldRead : Obligations.DecSampleRunsTheFieldRead := by
  intro s i e u hmode hneighbours
  have hruns : RunsField (exec .decSample s) (readInstr pullBit (nextField s) s) := by
    by_cases hidx : idx s < 2
    · exact decSample_verbatim_runsField hidx hmode
    · obtain ⟨a, b, hn, ha, hb⟩ := hneighbours (by omega)
      exact decSample_predicted_runsField hn (deltaOf_le ha hb) hmode
  refine ⟨fun hread => ?_, fun hread => ?_⟩
  · rwa [hread] at hruns
  · rwa [hread] at hruns

end Sys2Proof.Machine
end

section
/-! PROOF. READ_HEADER (45_container.md R191): one step after its start, with the bytes that each outcome has consumed. -/

namespace Sys2Proof.Machine

section
variable {s t : State}

/-! ## The bits that each outcome of a header has consumed (R183) -/

/-- How many bits of the header have been read when the error is found; of the ends of the stream nothing is said. -/
def headerErrorBits : Err → Option Nat
  | .badSignature => some 32
  | .unsupportedColorType _ => some 40
  | .unsupportedDepth _ => some 48
  | .zeroDimension => some 112
  | _ => none

/-- `n` bits have been consumed since `s`. -/
def HasConsumed (n : Nat) (s t : State) : Prop := ∃ bits, bits.length = n ∧ Consumes bits s t

/-- The ends of a reading of a header, by the bits consumed since `s`. -/
def HeaderEnds (s : State) : Read State HeaderFields → Prop
  | .ok _ t => HasConsumed 112 s t
  | .err e t => ∀ n, headerErrorBits e = some n → HasConsumed n s t

/-- A field of at most 64 bits is read whole, or the stream ends inside it. -/
theorem headerEnds_readField {m n : Nat} {f : Nat → State → Read State HeaderFields} (hn : n ≤ 64)
    (h : HasConsumed m s t) (hf : ∀ v u, HasConsumed (m + n) s u → HeaderEnds s (f v u)) :
    HeaderEnds s ((readField pullBit n t).bind f) := by
  obtain ⟨bits, hlen, hbits⟩ := h
  by_cases henough : n ≤ (readableBits t).length
  · obtain ⟨u, hread, hleaves⟩ := readField_leaves n t hn henough
    have hfield : Consumes ((readableBits t).take n) t u := .of_leaves (List.take_append_drop n _).symm hleaves
    rw [hread]
    exact hf _ u ⟨_, by rw [List.length_append, hlen, List.length_take_of_le henough], hbits.trans hfield⟩
  · obtain ⟨u, hread, -⟩ := readField_exhausted n t hn (Nat.lt_of_not_le henough)
    have hend : headerErrorBits (readEnd t) = none := by
      unfold readEnd
      split
      · rfl
      · split
        · rfl
        · rfl
    rw [hread]
    intro k hk
    rw [hend] at hk
    cases hk

theorem headerEnds_test {p : Prop} [Decidable p] {e : Err} {n : Nat} {r : Read State HeaderFields}
    (he : headerErrorBits e = some n) (h : HasConsumed n s t) (hr : HeaderEnds s r) :
    HeaderEnds s (if p then .err e t else r) := by
  split
  · intro k hk
    rw [he] at hk
    cases hk
    exact h
  · exact hr

/-- Each field is tested as soon as it has been read. -/
theorem readHeader_ends (s : State) : HeaderEnds s (readHeader pullBit s) :=
  headerEnds_readField (by decide) ⟨[], rfl, .refl s⟩ fun _ _ h =>
    headerEnds_test rfl h <| headerEnds_readField (by decide) h fun _ _ h =>
      headerEnds_test rfl h <| headerEnds_readField (by decide) h fun _ _ h =>
        headerEnds_test rfl h <| headerEnds_readField (by decide) h fun _ _ h =>
          headerEnds_readField (by decide) h fun _ _ h => headerEnds_test rfl h h

theorem HasConsumed.inPos {n : Nat} (h : HasConsumed n s t) (hcnt : s.src.cnt = 0) (hpos : s.inPos = 0) :
    t.inPos = (n + 7) / 8 := by
  obtain ⟨bits, rfl, hbits⟩ := h
  exact (hbits.position hcnt hpos).1

/-! ## The run -/

theorem step_of_runCommand (hqueue : s.cmdq = []) (h : runCommand .readHeader 1 s = .next t) :
    (readHeaderOnly (startCommand .hdr s)).finish = .next t := by
  obtain ⟨u, hstep, hrest⟩ := runSteps_succ_eq_next (s := startCommand .hdr s) (n := 0) h
  cases hrest
  rw [step_startCommand .hdr hqueue] at hstep
  exact hstep

/-- The header is read and the command is DONE, or the reading's error is raised. -/
theorem readHeaderOnly_finish (h : (readHeaderOnly s).finish = .next t) :
    (∃ hd u, readHeader pullBit s = .ok hd u ∧ t = finishCommand { u with hdr := hd }) ∨
      ∃ e u, readHeader pullBit s = .err e u ∧ t = raiseError e u := by
  unfold readHeaderOnly parseHeader at h
  cases hread : readHeader pullBit s with
  | ok hd u =>
    rw [hread] at h
    cases h
    exact .inl ⟨hd, u, rfl, rfl⟩
  | err e u =>
    rw [hread] at h
    cases h
    exact .inr ⟨e, u, rfl, rfl⟩

theorem headerErrorBits_of_code {e : Err} :
    (e.code = 1 → headerErrorBits e = some 32) ∧ (e.code = 2 → headerErrorBits e = some 40) ∧
      (e.code = 3 → headerErrorBits e = some 48) ∧ (e.code = 4 → headerErrorBits e = some 112) := by
  cases e with
  | badSignature => decide
  | unsupportedColorType byte => simp [Err.code, headerErrorBits]
  | unsupportedDepth byte => simp [Err.code, headerErrorBits]
  | zeroDimension => decide
  | truncated => decide
  | malformedCodeword => decide
  | ioError => decide
  | invalidInput => decide
  | useAfterFlush => decide

end

/-- Settles O44: a header read whole takes 112 bits, and each error is found after the bits of the fields before it. -/
theorem readHeaderRun : Obligations.ReadHeaderRun := by
  intro s hqueue
  refine ⟨fun h rest hquiet hwidth hheight hinp => ?whole, fun t hrun => ?any⟩
  case whole =>
    have hbits : streamBits s.inp = headerBits h ++ streamBits rest := by
      rw [hinp, streamBits_append, streamBits_headerBytes]
    obtain ⟨w, hparse, hleft⟩ := parseHeader_startCommand .hdr hwidth hheight hbits hquiet
    have hstep : step (startCommand .hdr s) = .next (finishCommand { w with hdr := h }) := by
      rw [step_startCommand .hdr hqueue]
      show (readHeaderOnly (startCommand .hdr s)).finish = _
      rw [readHeaderOnly, hparse, Res.bind_ok, finish_ok]
    have hconsumed : Consumes (headerBits h) (startCommand .hdr s) w := by
      refine .of_leaves ?_ hleft
      rw [readableBits_fresh (u := startCommand .hdr s) rfl rfl hquiet]
      exact hbits
    have hpos : w.inPos = 14 := HasConsumed.inPos (n := 112) ⟨_, by simp [headerBits, Config.magic], hconsumed⟩ rfl rfl
    refine ⟨_, runSteps_succ 0 hstep, rfl, hpos, ?_⟩
    rw [hleft.frame]
    exact ⟨rfl, rfl, rfl, rfl, rfl⟩
  case any =>
    have hends := readHeader_ends (startCommand .hdr s)
    have hpulls := readHeader_pullsOnly (startCommand .hdr s)
    rcases readHeaderOnly_finish (step_of_runCommand hqueue hrun) with ⟨hd, u, hread, rfl⟩ | ⟨e, u, hread, rfl⟩
    · rw [hread] at hends
      exact ⟨fun _ => hends.inPos rfl rfl, fun herr => by cases herr⟩
    · rw [hread] at hends hpulls
      have hpulls' : Pulls (startCommand .hdr s) u := hpulls
      have hhdr : u.hdr = s.hdr := hpulls'.hdr_eq
      have hat : ∀ n, headerErrorBits e = some n → u.inPos = (n + 7) / 8 := fun n hn => (hends n hn).inPos rfl rfl
      obtain ⟨hsignature, hcolor, hdepth, hzero⟩ := headerErrorBits_of_code (e := e)
      exact ⟨fun hdone => (by cases hdone), fun _ => ⟨hhdr, fun hcode => hat 32 (hsignature hcode),
        fun hcode => hat 40 (hcolor hcode), fun hcode => hat 48 (hdepth hcode), fun hcode => hat 112 (hzero hcode)⟩⟩

end Sys2Proof.Machine
end

section
/-! PROOF. A writer that fails (20_memory.md R42, 60_exceptions.md R209): beside the same machine with a writer that never
fails, an operation ends the same where no call that it makes fails, and in IoError after the bytes before the call that does. -/

namespace Sys2Proof.Machine

/-! ## The writer's answers -/

/-- Past answers that do not fail, the first failure is as many calls nearer. -/
theorem readsBeforeFailure_drop {l : List Bool} {n : Nat} (h : ∀ k, readsBeforeFailure l = some k → n ≤ k) :
    readsBeforeFailure l = (readsBeforeFailure (l.drop n)).map (· + n) := by
  induction n generalizing l with
  | zero => simp
  | succ n ih =>
    cases l with
    | nil => rfl
    | cons f rest =>
      cases f with
      | true => exact absurd (h 0 rfl) (Nat.not_succ_le_zero n)
      | false =>
        have hrest : ∀ k, readsBeforeFailure rest = some k → n ≤ k := fun k hk => by
          have := h (k + 1) (by simp [readsBeforeFailure, hk])
          omega
        rw [readsBeforeFailure, ih hrest, List.drop_succ_cons, Option.map_map]
        rfl

theorem readsBeforeFailure_eq_zero {l : List Bool} : readsBeforeFailure l = some 0 ↔ l.head? = some true := by
  cases l with
  | nil => simp [readsBeforeFailure]
  | cons f rest =>
    cases f with
    | true => simp [readsBeforeFailure]
    | false => simp [readsBeforeFailure]

/-! ## An operation beside itself with a writer that never fails -/

/-- The operation's end `o` on the writer of `s`, where with a writer that never fails it reaches `u` and ends in `r`: the
same, if no call of ByteOut fails among those that put the bytes of `u` after those of `s`; else IoError, after the bytes
before the first call that fails. -/
structure Follows {α : Type} (s u : State) (r : State → Res α) (o : Res α) : Prop where
  quiet : u.outFail = []
  out : s.out <+: u.out
  same : (∀ k, readsBeforeFailure s.outFail = some k → u.out.length ≤ s.out.length + k) →
    o = r { u with outFail := s.outFail.drop (u.out.length - s.out.length) }
  cut : ∀ k, readsBeforeFailure s.outFail = some k → s.out.length + k < u.out.length →
    ∃ t, o = .raise .ioError t ∧ t.out = u.out.take (s.out.length + k)

/-- The operation's end from `s` follows its end with a writer that never fails. -/
def MimicsAt {α : Type} (f : State → Res α) (s : State) : Prop :=
  match f (quieted s) with
  | .ok a u => Follows s u (.ok a) (f s)
  | .raise e u => Follows s u (.raise e) (f s)
  | .fault _ => True
  | .refuse _ => True

def Mimics {α : Type} (f : State → Res α) : Prop := ∀ s, MimicsAt f s

section
variable {α β γ : Type} {f : State → Res α} {g : α → State → Res β} {s u : State} {a : α} {e : Err}

theorem MimicsAt.of_ok (h : MimicsAt f s) (hq : f (quieted s) = .ok a u) : Follows s u (.ok a) (f s) := by
  unfold MimicsAt at h
  rwa [hq] at h

theorem MimicsAt.of_raise (h : MimicsAt f s) (hq : f (quieted s) = .raise e u) : Follows s u (.raise e) (f s) := by
  unfold MimicsAt at h
  rwa [hq] at h

theorem mimicsAt_of_ok (hq : f (quieted s) = .ok a u) (h : Follows s u (.ok a) (f s)) : MimicsAt f s := by
  unfold MimicsAt
  rwa [hq]

theorem mimicsAt_of_raise (hq : f (quieted s) = .raise e u) (h : Follows s u (.raise e) (f s)) : MimicsAt f s := by
  unfold MimicsAt
  rwa [hq]

/-- What raises goes on raising. -/
theorem Follows.bind_raise {o : Res α} (h : Follows s u (.raise e) o) (f : α → State → Res β) :
    Follows s u (.raise e) (o.bind f) := by
  refine ⟨h.quiet, h.out, fun hfits => by rw [h.same hfits, Res.bind_raise], fun k hk hcut => ?_⟩
  obtain ⟨t, ho, hout⟩ := h.cut k hk hcut
  exact ⟨t, by rw [ho, Res.bind_raise], hout⟩

/-- One operation after another: the first one's bytes use up as many of the writer's answers. -/
theorem Follows.bind_ok {w : State} {r : State → Res β} {o : Res α} {f : α → State → Res β} (h : Follows s w (.ok a) o)
    (h' : Follows { w with outFail := s.outFail.drop (w.out.length - s.out.length) } u r
      (f a { w with outFail := s.outFail.drop (w.out.length - s.out.length) })) : Follows s u r (o.bind f) := by
  have hlen := h.out.length_le
  have hlen' : w.out.length ≤ u.out.length := h'.out.length_le
  have hbefore : (∀ k, readsBeforeFailure s.outFail = some k → w.out.length ≤ s.out.length + k) →
      ∀ k, readsBeforeFailure s.outFail = some k → w.out.length - s.out.length ≤ k := fun hfits k hk => by
    have := hfits k hk
    omega
  refine ⟨h'.quiet, h.out.trans h'.out, fun hfits => ?same, fun k hk hcut => ?cut⟩
  case same =>
    have hfitsw : ∀ k, readsBeforeFailure s.outFail = some k → w.out.length ≤ s.out.length + k := fun k hk =>
      hlen'.trans (hfits k hk)
    have hdrop := readsBeforeFailure_drop (hbefore hfitsw)
    rw [h.same hfitsw, Res.bind_ok, h'.same fun k hk => ?_]
    · rw [List.drop_drop]
      congr 3
      show _ + (u.out.length - w.out.length) = _
      omega
    · rw [show readsBeforeFailure (s.outFail.drop (w.out.length - s.out.length)) = some k from hk] at hdrop
      have hle : u.out.length ≤ s.out.length + (k + (w.out.length - s.out.length)) := hfits _ hdrop
      show u.out.length ≤ w.out.length + k
      omega
  case cut =>
    by_cases hw : s.out.length + k < w.out.length
    · obtain ⟨t, ho, hout⟩ := h.cut k hk hw
      refine ⟨t, by rw [ho, Res.bind_raise], ?_⟩
      obtain ⟨tail, htail⟩ : w.out <+: u.out := h'.out
      rw [hout, ← htail, List.take_append_of_le_length hw.le]
    · have hfitsw : ∀ k, readsBeforeFailure s.outFail = some k → w.out.length ≤ s.out.length + k := fun k' hk' => by
        rw [hk] at hk'
        cases hk'
        omega
      have hdrop := readsBeforeFailure_drop (hbefore hfitsw)
      rw [hk] at hdrop
      obtain ⟨k', hk', hsum⟩ := Option.map_eq_some_iff.1 hdrop.symm
      obtain ⟨t, ho, hout⟩ := h'.cut k' hk' (show w.out.length + k' < u.out.length by omega)
      refine ⟨t, by rw [h.same hfitsw, Res.bind_ok, ho], hout.trans ?_⟩
      show u.out.take (w.out.length + k') = _
      congr 1
      omega

theorem mimics_bind (hf : Mimics f) (hg : ∀ a, Mimics (g a)) : Mimics fun s => (f s).bind g := by
  intro s
  have hs := hf s
  cases hq : f (quieted s) with
  | ok a w =>
    have hw := hs.of_ok hq
    have hquiet : quieted { w with outFail := s.outFail.drop (w.out.length - s.out.length) } = w := by
      unfold quieted
      rw [← hw.quiet]
    have hg' := hg a { w with outFail := s.outFail.drop (w.out.length - s.out.length) }
    unfold MimicsAt at hg' ⊢
    rw [hquiet] at hg'
    simp only [hq, Res.bind_ok]
    revert hg'
    cases g a w with
    | ok b u => exact fun hg' => hw.bind_ok hg'
    | raise e u => exact fun hg' => hw.bind_ok hg'
    | fault x => exact fun _ => trivial
    | refuse x => exact fun _ => trivial
  | raise e w =>
    have hw := hs.of_raise hq
    exact mimicsAt_of_raise (by rw [hq, Res.bind_raise]) (hw.bind_raise g)
  | fault x => unfold MimicsAt; simp only [hq, Res.bind_fault]
  | refuse x => unfold MimicsAt; simp only [hq, Res.bind_refuse]

/-- An operation that goes by a register which the writer does not touch. -/
theorem mimics_param {param : State → γ} {f : γ → State → Res α} (hparam : ∀ s, param (quieted s) = param s)
    (hf : ∀ x, Mimics (f x)) : Mimics fun s => f (param s) s := by
  intro s
  have hs := hf (param s) s
  unfold MimicsAt at hs ⊢
  simp only [hparam]
  exact hs

theorem mimics_ite {p : Prop} [Decidable p] {f g : State → Res α} (hf : Mimics f) (hg : Mimics g) :
    Mimics fun s => if p then f s else g s := by
  by_cases hp : p
  · simp only [if_pos hp]; exact hf
  · simp only [if_neg hp]; exact hg

/-! ## Operations that write no byte -/

/-- Nothing is written, so no call can fail. -/
theorem follows_refl {r : State → Res α} (hq : u.outFail = []) (hout : u.out = s.out) :
    Follows s u r (r { u with outFail := s.outFail }) := by
  refine ⟨hq, by rw [hout], fun _ => by rw [hout, Nat.sub_self, List.drop_zero], fun k _ hcut => ?_⟩
  rw [hout] at hcut
  omega

theorem mimics_raise (e : Err) : Mimics fun s => (.raise e s : Res α) := fun _ =>
  mimicsAt_of_raise rfl (follows_refl (r := .raise e) rfl rfl)

theorem mimics_refuse (x : Refusal) : Mimics fun _ => (.refuse x : Res α) := fun _ => trivial

/-- A change of state that leaves OUT and does not go by the writer's answers. -/
structure Silent (g : State → State) : Prop where
  quieted : ∀ s, g (quieted s) = quieted (g s)
  out : ∀ s, (g s).out = s.out
  outFail : ∀ s, (g s).outFail = s.outFail

theorem mimics_silent {g : State → State} (hg : Silent g) (a : α) : Mimics fun s => .ok a (g s) := by
  intro s
  have hsame : { quieted (g s) with outFail := s.outFail } = g s := by
    rw [← hg.outFail s]
    rfl
  refine mimicsAt_of_ok (congrArg (Res.ok a) (hg.quieted s)) ?_
  have hfollows := follows_refl (s := s) (u := quieted (g s)) (r := .ok a) rfl (hg.out s)
  rwa [hsame] at hfollows

theorem mimics_ok (a : α) : Mimics fun s => .ok a s := mimics_silent (g := id) ⟨fun _ => rfl, fun _ => rfl, fun _ => rfl⟩ a

/-- A silent change of state before an operation. -/
theorem mimics_after {g : State → State} (hg : Silent g) {f : State → Res α} (hf : Mimics f) : Mimics fun s => f (g s) :=
  mimics_bind (f := fun s => .ok () (g s)) (g := fun _ => f) (mimics_silent hg ()) fun _ => hf

/-! ## Pushing -/

/-- One byte is written, by one call. -/
theorem follows_write {r : State → Res α} {o : Res α} {b : Byte} (hq : u.outFail = []) (hout : u.out = s.out ++ [b])
    (hwrites : s.outFail.head? ≠ some true → o = r { u with outFail := s.outFail.tail })
    (hfails : s.outFail.head? = some true → ∃ t, o = .raise .ioError t ∧ t.out = s.out) : Follows s u r o := by
  have hlen : u.out.length = s.out.length + 1 := by rw [hout, List.length_append, List.length_singleton]
  refine ⟨hq, by rw [hout]; exact List.prefix_append _ _, fun hfits => ?same, fun k hk hcut => ?cut⟩
  case same =>
    have hhead : s.outFail.head? ≠ some true := fun hhead => by
      have := hfits 0 (readsBeforeFailure_eq_zero.2 hhead)
      omega
    rw [hwrites hhead, hlen, Nat.add_sub_cancel_left, List.drop_one]
  case cut =>
    obtain rfl : k = 0 := by omega
    obtain ⟨t, ho, ht⟩ := hfails (readsBeforeFailure_eq_zero.1 hk)
    exact ⟨t, ho, by rw [ht, hout]; exact (List.take_left' rfl).symm⟩

theorem mimics_pushBit (b : Bool) : Mimics (pushBit b) := by
  intro s
  have hhead : (quieted s).outFail.head? ≠ some true := by simp [quieted]
  cases hf : s.sink.flushed with
  | true =>
    refine mimicsAt_of_raise (pushBit_flushed (s := quieted s) b hf) ?_
    rw [pushBit_flushed b hf]
    exact follows_refl (u := quieted s) rfl rfl
  | false =>
    by_cases hc : s.sink.cnt = 7
    · refine mimicsAt_of_ok (pushBit_full_writes (s := quieted s) b hf hc hhead) ?_
      refine follows_write rfl rfl (fun ho => ?_) fun ho => ?_
      · rw [pushBit_full_writes b hf hc ho]
        rfl
      · exact ⟨_, pushBit_full_fails b hf hc ho, rfl⟩
    · refine mimicsAt_of_ok (pushBit_room (s := quieted s) b hf hc) ?_
      rw [pushBit_room b hf hc]
      exact follows_refl rfl rfl

theorem mimics_pushList (bits : List Bool) : Mimics (pushList bits) := by
  induction bits with
  | nil => exact mimics_ok ()
  | cons b rest ih => exact mimics_bind (mimics_pushBit b) fun _ => ih

theorem mimics_pushBits (value n : Nat) : Mimics (pushBits value n) := mimics_ite (mimics_raise _) (mimics_pushList _)

theorem mimics_riceEnc (v k : Nat) : Mimics (riceEnc v k) :=
  mimics_bind (mimics_pushList _) fun _ => mimics_ite (mimics_ok ()) (mimics_pushBits _ _)

theorem mimics_phasedEnc (v n : Nat) : Mimics (phasedEnc v n) := by
  refine mimics_ite ?_ (mimics_refuse _)
  cases phasedCodeword n v with
  | short x => exact mimics_pushBits _ _
  | long y => exact mimics_pushBits _ _

/-! ## The encoder's side of a sample -/

theorem silent_setDp (dp : State → Datapath) (h : ∀ s, dp (quieted s) = dp s) : Silent fun s => { s with dp := dp s } :=
  ⟨fun s => by rw [h]; rfl, fun _ => rfl, fun _ => rfl⟩

theorem silent_advance : Silent advance :=
  ⟨advance_quieted, advance_out, fun s => by
    obtain ⟨q, hq | hq⟩ := advance_cases s
    · rw [hq]
    · rw [hq]⟩

theorem mimics_predict : Mimics predict := by
  intro s
  by_cases hidx : idx s < 2
  · refine mimicsAt_of_ok (predict_verbatim (quieted s) hidx) ?_
    rw [predict_verbatim s hidx]
    exact follows_refl (u := quieted s) rfl rfl
  have hidx' : 2 ≤ idx s := not_lt.1 hidx
  have hunwritten : predict (quieted s) = .fault .unwrittenCell → MimicsAt predict s := fun hfault => by
    unfold MimicsAt
    rw [hfault]
    trivial
  cases ha : chanRead s.chan s.seq.ch.toNat (neighbours s.hdr.width.toNat s.seq.row.toNat s.seq.col.toNat).1.1
      (neighbours s.hdr.width.toNat s.seq.row.toNat s.seq.col.toNat).1.2 with
  | none => exact hunwritten (predict_of_unwritten (s := quieted s) hidx' (.inl rfl) ha)
  | some a =>
    cases hb : chanRead s.chan s.seq.ch.toNat (neighbours s.hdr.width.toNat s.seq.row.toNat s.seq.col.toNat).2.1
        (neighbours s.hdr.width.toNat s.seq.row.toNat s.seq.col.toNat).2.2 with
    | none => exact hunwritten (predict_of_unwritten (s := quieted s) hidx' (.inr rfl) hb)
    | some b =>
      refine mimicsAt_of_ok (predict_of_neighboursHold (s := quieted s) ⟨hidx', ha, hb⟩) ?_
      rw [predict_of_neighboursHold ⟨hidx', ha, hb⟩]
      exact follows_refl (u := quieted (afterPredict s a b)) rfl rfl

theorem mimics_emitIn (v : Nat) : Mimics (emitIn v) :=
  mimics_bind (mimics_pushBit true) fun _ =>
    mimics_param (param := fun s => s.dp.delta) (f := fun delta => phasedEnc v (delta + 1)) (fun _ => rfl) fun _ =>
      mimics_phasedEnc _ _

/-- GET_K's choice goes by T and the channel, and so does its count of free values. -/
theorem mimics_getK (delta : Nat) : Mimics (getK delta) :=
  mimics_param (param := fun s => selectK (rowEntry delta s) (kset s)) (f := fun k s =>
    .ok k (drawRow delta { s with dp := { s.dp with k := k } })) (fun _ => rfl) fun k =>
      mimics_silent (g := fun s => drawRow delta { s with dp := { s.dp with k := k } })
        ⟨fun _ => rfl, fun _ => rfl, fun _ => rfl⟩ k

theorem mimics_updateTable (delta v : Nat) : Mimics (updateTable delta v) :=
  mimics_silent
    (g := fun s => drawRow delta { s with table := writeRow delta s.table (updatedRow (kset s) (rowEntry delta s) v) })
    ⟨fun _ => rfl, fun _ => rfl, fun _ => rfl⟩ ()

theorem mimics_emitOutOfRange (above : Bool) (v : Nat) : Mimics (emitOutOfRange above v) :=
  mimics_bind (mimics_pushBit false) fun _ => mimics_bind (mimics_pushBit above) fun _ => mimics_bind
    (mimics_param (param := fun s => s.dp.delta) (f := getK) (fun _ => rfl) mimics_getK) fun k => mimics_bind
      (mimics_after (silent_setDp (fun s => { s.dp with v := v }) fun _ => rfl) (mimics_riceEnc v k)) fun _ =>
        mimics_param (param := fun s => s.dp.delta) (f := fun delta => updateTable delta v) (fun _ => rfl) fun delta =>
          mimics_updateTable delta v

theorem mimics_emitSymbol (p : Int) : Mimics (emitSymbol p) := by
  refine mimics_param (param := fun s => s.dp) (f := fun dp s =>
    match rangeTest dp.l dp.h p with
    | .inRange => emitIn (p - dp.l).toNat s
    | .below => emitOutOfRange false (dp.l - p - 1).toNat s
    | .above => emitOutOfRange true (p - dp.h - 1).toNat s) (fun _ => rfl) fun dp => ?_
  cases rangeTest dp.l dp.h p with
  | inRange => exact mimics_emitIn _
  | below => exact mimics_emitOutOfRange _ _
  | above => exact mimics_emitOutOfRange _ _

theorem mimics_emitSample (p : Int) : Mimics (emitSample p) :=
  mimics_param (param := idx) (f := fun i s => if i < 2 then emitRaw p s else (predict s).bind fun _ s => emitSymbol p s)
    (fun _ => rfl) fun _ => mimics_ite
      (mimics_param (param := chanWidth) (f := fun w => pushBits (p % 2 ^ w).toNat w) (fun _ => rfl) fun _ =>
        mimics_pushBits _ _)
      (mimics_bind mimics_predict fun _ => mimics_emitSymbol p)

theorem mimics_encodeSample : Mimics encodeSample := by
  intro s
  cases hcell : currentCell s with
  | none =>
    unfold MimicsAt
    rw [encodeSample_of_no_cell (s := quieted s) hcell]
    trivial
  | some p =>
    have hsample : Mimics fun s => (emitSample p { s with dp := { s.dp with p := p } }).bind fun _ s => .ok () (advance s) :=
      mimics_bind (mimics_after (silent_setDp (fun s => { s.dp with p := p }) fun _ => rfl) (mimics_emitSample p)) fun _ =>
        mimics_silent silent_advance ()
    have hs := hsample s
    unfold MimicsAt at hs ⊢
    rw [encodeSample_of_cell hcell, encodeSample_of_cell (s := quieted s) hcell]
    exact hs

end

/-! ## The statement -/

/-- A sample that the writer's failure cuts is IoError, with what pushing had changed. -/
theorem encodeSample_cut {s u : State} {r : State → Res Unit} (h : Follows s u r (encodeSample s)) {k : Nat}
    (hk : readsBeforeFailure s.outFail = some k) (hlt : s.out.length + k < u.out.length) :
    ∃ t, (encodeSample s).finish = .next t ∧ t.out = u.out.take (s.out.length + k) ∧
      t.stat = ⟨.error, 7, 0, s.stat.mode⟩ ∧ t.seq = ⟨.error, s.seq.ch, s.seq.row, s.seq.col⟩ ∧
      t.chan = s.chan ∧ t.table = s.table := by
  have hwithin := encodeSample_within s
  obtain ⟨t, hraise, hout⟩ := h.cut k hk hlt
  rw [hraise] at hwithin ⊢
  have hpushes : Pushes s t := hwithin
  refine ⟨_, rfl, hout, ?_⟩
  rw [hpushes.frame]
  exact ⟨rfl, rfl, rfl, rfl⟩

/-- Settles O59: what a sample changes, and its end on a writer that fails. -/
theorem encSampleOnFailingWriter : Obligations.EncSampleOnFailingWriter := by
  refine ⟨fun s t hexec => ?frame, fun s u _ hexec => ?writer⟩
  case frame =>
    rcases (encodeSample_within s).next hexec with ⟨-, u, hu, rfl⟩ | ⟨e, u, -, rfl, hu⟩
    · have hphase : u.seq.phase = s.seq.phase := by rw [hu.frame]
      have hno : s.seq.phase ≠ .error → (advance u).seq.phase ≠ .error := fun h =>
        advance_phase_ne_error (by rw [hphase]; exact h)
      obtain ⟨q, hq | hq⟩ := advance_cases u
      · refine ⟨?_, ?_, ?_, ?_, ?_, ?_, ?_, ?_, ?_, ?_, ?_, fun herr hok => absurd herr (hno hok)⟩
        all_goals rw [hq, hu.frame]
      · refine ⟨?_, ?_, ?_, ?_, ?_, ?_, ?_, ?_, ?_, ?_, ?_, fun herr hok => absurd herr (hno hok)⟩
        all_goals rw [hq, hu.frame]
    · rw [hu.frame]
      exact ⟨rfl, rfl, rfl, rfl, rfl, rfl, rfl, rfl, rfl, rfl, rfl, fun _ _ => ⟨rfl, rfl, rfl, rfl⟩⟩
  case writer =>
    have hmimics := mimics_encodeSample s
    rw [exec_encSample] at hexec ⊢
    change (encodeSample (quieted s)).finish = _ at hexec
    rcases finish_eq_next hexec with hok | ⟨e, v, hraise, rfl⟩
    · have hfollows := hmimics.of_ok hok
      exact ⟨fun hfits => by rw [hfollows.same hfits, finish_ok], fun k hk hlt => encodeSample_cut hfollows hk hlt⟩
    · have hfollows := hmimics.of_raise hraise
      exact ⟨fun hfits => by rw [hfollows.same hfits, finish_raise]; rfl,
        fun k hk hlt => encodeSample_cut hfollows hk hlt⟩

end Sys2Proof.Machine
end

section
/-! PROOF. A run of COMPRESS (45_container.md R184, 70_reset_and_hazards.md R249): its steps one by one to DONE, on a
writer that does not fail. -/

namespace Sys2Proof.Machine

/-! ## Runs in parts -/

theorem runSteps_add {m n : Nat} {s t : State} (h : runSteps m s = .next t) : runSteps (m + n) s = runSteps n t := by
  induction m generalizing s with
  | zero =>
    cases h
    rw [Nat.zero_add]
  | succ m ih =>
    obtain ⟨u, hstep, hrest⟩ := runSteps_succ_eq_next h
    rw [show m + 1 + n = m + n + 1 by omega, runSteps_succ _ hstep, ih hrest]

/-- A run of `n` steps, BUSY throughout, that appends to the sink's bits and keeps the image. -/
structure Reaches (n : Nat) (s t : State) : Prop where
  run : runSteps n s = .next t
  busy : ∀ m ≤ n, ∃ u, runSteps m s = .next u ∧ u.stat.status = .busy
  bits : sinkBits s <+: sinkBits t
  hdr : t.hdr = s.hdr
  pix : t.pix = s.pix

section
variable {e s t u : State} {n : Nat}

theorem Reaches.refl (h : s.stat.status = .busy) : Reaches 0 s s :=
  ⟨rfl, fun m hm => ⟨s, (by rw [Nat.le_zero.1 hm]; rfl), h⟩, List.prefix_refl _, rfl, rfl⟩

theorem Reaches.cons (hbusy : s.stat.status = .busy) (hstep : step s = .next t) (hbits : sinkBits s <+: sinkBits t)
    (hhdr : t.hdr = s.hdr) (hpix : t.pix = s.pix) (h : Reaches n t u) : Reaches (n + 1) s u := by
  refine ⟨(runSteps_succ n hstep).trans h.run, fun m hm => ?_, hbits.trans h.bits, h.hdr.trans hhdr, h.pix.trans hpix⟩
  cases m with
  | zero => exact ⟨s, rfl, hbusy⟩
  | succ m =>
    rw [runSteps_succ m hstep]
    exact h.busy m (by omega)

/-! ## The header and the samples, on a sink that takes bits -/

/-- The HEADER step writes the header and goes to the first sample. -/
theorem firstSample_of_valid (hqueue : s.cmdq = []) (hvalid : inputsValid s = true) (hquiet : quietOut s) :
    ∃ e, compressHeader (startCommand .enc s) = .ok () e ∧ FirstSample s e := by
  obtain ⟨u, hheader, hframe, hready, hbits⟩ := compressHeader_ready (s := startCommand .enc s) hvalid
    ⟨rfl, fun _ _ => BitVec.getLsbD_zero, hquiet⟩
  obtain ⟨hhdr, hpix, hchan, hstat, htable, hcmdq⟩ : u.hdr = s.hdr ∧ u.pix = s.pix ∧ u.chan = [] ∧
      u.stat = ⟨.busy, 0, 0, .enc⟩ ∧ u.table = [] ∧ u.cmdq = s.cmdq := by
    rw [hframe]; exact ⟨rfl, rfl, rfl, rfl, rfl, rfl⟩
  have hvalid' : inputsValid u = true := by rw [inputsValid_congr hhdr hpix, hvalid]
  have hloaded := loaded_loadChannels hvalid' (by rw [hchan]; rfl)
  obtain ⟨hwidth, hheight, -⟩ := (inputsValid_iff u).1 hvalid'
  obtain ⟨m, hload, -⟩ := loadChannels_cases u
  rw [hload] at hheader hloaded
  exact ⟨_, hheader, ⟨hstat, hcmdq.trans hqueue, hready, ⟨hloaded.valid, hloaded.wf, hloaded.cell⟩,
    .inl ⟨rfl, seqInRange_enterSamples hwidth hheight⟩⟩, rfl, htable, hhdr, hpix, hbits⟩

/-- The last sample is at the image's last place. -/
theorem samplePos_last (hseq : seqInRange s) (hlast : lastSample s) : samplePos s + 1 = nch s.hdr * nsamp s.hdr := by
  obtain ⟨hch, hrow, hcol⟩ := hseq
  obtain ⟨hcolEnd, hrowEnd, hchEnd⟩ := hlast
  have hwidth : s.hdr.width.toNat = s.seq.col.toNat + 1 := by omega
  have hheight : s.hdr.height.toNat = s.seq.row.toNat + 1 := by omega
  have hnch : nch s.hdr = s.seq.ch.toNat + 1 := by omega
  simp only [samplePos, idx, nsamp, hwidth, hheight, hnch]
  ring

/-- A sample's step goes to the next place of the image, or to FLUSH. -/
theorem Encoding.step_sample (he : Encoding e) (hphase : e.seq.phase = .samples) :
    ∃ u, step e = .next u ∧ Encoding u ∧ sinkBits e <+: sinkBits u ∧ u.hdr = e.hdr ∧ u.pix = e.pix ∧
      (lastSample e → u.seq.phase = .flush) ∧
      (¬ lastSample e → u.seq.phase = .samples ∧ samplePos u = samplePos e + 1) := by
  have hseq := he.inRange hphase
  obtain ⟨sym, table, henc⟩ := encodeSample_alike he.loaded hseq
  obtain ⟨v, hv⟩ := henc e (Alike.refl e) he.loaded he.ready
  obtain ⟨hhdr, hseq', -, hpix⟩ := hv.fields
  obtain ⟨hencoding, hflush, hsamples⟩ := hv.encoding he hphase
  refine ⟨advance v, ?_, hencoding, ?_, by rw [advance_hdr, hhdr], by rw [advance_pix, hpix], hflush, fun hlast =>
    ⟨hsamples hlast, ?_⟩⟩
  · rw [step_of_busy he.busy he.queue, hv.engineRes he hphase, finish_ok]
  · rw [sinkBits_advance, hv.bits]
    exact List.prefix_append _ _
  · have hin : seqInRange v := by
      unfold seqInRange
      rw [hhdr, hseq']
      exact hseq
    have hlast' : ¬ lastSample v := by
      unfold lastSample
      rw [hhdr, hseq']
      exact hlast
    rw [samplePos_advance hin hlast']
    unfold samplePos idx
    rw [hhdr, hseq']

/-- As many steps as samples are left end in the FLUSH phase. -/
theorem Encoding.reaches_flush {left : Nat} (he : Encoding e) (hphase : e.seq.phase = .samples)
    (hleft : nch e.hdr * nsamp e.hdr = samplePos e + left) :
    ∃ f, Reaches left e f ∧ Encoding f ∧ f.seq.phase = .flush := by
  induction left generalizing e with
  | zero =>
    have hlt := samplePos_lt (he.inRange hphase)
    omega
  | succ left ih =>
    obtain ⟨u, hstep, hu, hbits, hhdr, hpix, hflush, hsamples⟩ := he.step_sample hphase
    by_cases hlast : lastSample e
    · have hpos := samplePos_last (he.inRange hphase) hlast
      obtain rfl : left = 0 := by omega
      exact ⟨u, .cons he.busy hstep hbits hhdr hpix (.refl hu.busy), hu, hflush hlast⟩
    · obtain ⟨hphase', hpos⟩ := hsamples hlast
      obtain ⟨f, hreach, hf⟩ := ih hu hphase' (by rw [hhdr, hpos]; omega)
      exact ⟨f, .cons he.busy hstep hbits hhdr hpix hreach, hf⟩

/-- FLUSH empties a sink that takes bits (40_bitio.md R92). -/
theorem flushSink_empties (hready : sinkReady s) :
    ∃ t, flushSink s = .ok () t ∧ t.sink = ⟨0, 0, true⟩ ∧ t.stat = s.stat ∧ t.hdr = s.hdr ∧ t.pix = s.pix := by
  obtain ⟨hf, hclean, hquiet⟩ := hready
  by_cases hc : s.sink.cnt = 0
  · have hacc : s.sink.acc = 0 := by
      refine BitVec.eq_of_getLsbD_eq fun j hj => ?_
      rw [hclean j (by rw [hc]; exact hj)]
      exact BitVec.getLsbD_zero.symm
    exact ⟨_, flushSink_aligned hf hc, by rw [hacc], rfl, rfl, rfl⟩
  · have hhead : s.outFail.head? ≠ some true := fun h => by
      cases hquiet true (List.mem_of_mem_head? h)
    exact ⟨_, flushSink_partial_writes hf hc hhead, rfl, rfl, rfl, rfl⟩

/-- The whole run on a writer that does not fail. -/
theorem compress_runs (hqueue : s.cmdq = []) (hvalid : inputsValid s = true) (hquiet : quietOut s) :
    ∃ f t, Reaches (nsamp s.hdr * nch s.hdr + 1) (startCommand .enc s) f ∧
      runSteps (nsamp s.hdr * nch s.hdr + 2) (startCommand .enc s) = .next t ∧ t.stat = ⟨.done, 0, 0, .enc⟩ ∧
      t.seq.phase = .done ∧ t.sink = ⟨0, 0, true⟩ ∧ t.hdr = s.hdr ∧ t.pix = s.pix ∧ t.out.take 14 = headerBytes s.hdr := by
  obtain ⟨e, hheader, hfirst⟩ := firstSample_of_valid hqueue hvalid hquiet
  have hstep : step (startCommand .enc s) = .next e := by
    rw [step_startCommand .enc hqueue]
    exact congrArg Res.finish hheader
  have hpos : nch e.hdr * nsamp e.hdr = samplePos e + nsamp s.hdr * nch s.hdr := by
    unfold samplePos idx
    rw [hfirst.seq, hfirst.hdr]
    simp [mul_comm]
  obtain ⟨f, hreach, hf, hflush⟩ := hfirst.encoding.reaches_flush (by rw [hfirst.seq]) hpos
  have hwhole : Reaches (nsamp s.hdr * nch s.hdr + 1) (startCommand .enc s) f :=
    .cons rfl hstep (List.nil_prefix) hfirst.hdr hfirst.pix hreach
  obtain ⟨w, hempty, hsink, hstat, hhdr, hpix⟩ := flushSink_empties hf.ready
  have hlast : step f = .next (finishCommand w) := by
    rw [step_of_busy hf.busy hf.queue, hf.engineRes_flush hflush, compressFlush, hempty, Res.bind_ok, finish_ok]
  have hrun : runSteps 1 f = .next (finishCommand w) := runSteps_succ 0 hlast
  refine ⟨f, finishCommand w, hwhole, (runSteps_add hwhole.run).trans hrun, ?_, rfl, hsink, hhdr.trans hwhole.hdr,
    hpix.trans hwhole.pix, ?_⟩
  · rw [finishCommand_stat, hstat, hf.stat]
  · obtain ⟨-, hout⟩ := hf.out_of_flush hflush hrun rfl
    obtain ⟨rest, hrest⟩ : headerBits s.hdr <+: sinkBits f := by
      rw [← hfirst.bits]
      exact hreach.bits
    refine streamBits_injective ?_
    rw [streamBits_take, hout, ← hrest, streamBits_headerBytes, List.append_assoc, List.take_left']
    simp [headerBits, Config.magic]

end

end Sys2Proof.Machine
end

section
/-! PROOF. The run of COMPRESS on any writer (45_container.md R184, 60_exceptions.md R209): the steps of the command as one
operation, which follows its end with a writer that never fails. -/

namespace Sys2Proof.Machine

/-! ## The steps of the command as an operation -/

/-- A COMPRESS in one of its phases with a sink that is not flushed, or DONE. -/
structure Compressing (s : State) : Prop where
  queue : s.cmdq = []
  place : (s.stat.status = .busy ∧ s.stat.mode = .enc ∧ s.sink.flushed = false ∧
      (s.seq.phase = .header ∨ s.seq.phase = .samples ∨ s.seq.phase = .flush)) ∨
    (s.stat.status = .done ∧ s.seq.phase = .done)

/-- The next step of a COMPRESS, by PHASE. -/
def compressStep (s : State) : Res Unit :=
  match s.seq.phase with
  | .header => compressHeader s
  | .samples => encodeSample s
  | .flush => compressFlush s
  | _ => .ok () s

/-- So many steps of a COMPRESS, up to the first that raises. -/
def compressSteps : Nat → State → Res Unit
  | 0, s => .ok () s
  | n + 1, s => (compressStep s).bind fun _ t => compressSteps n t

section
variable {s t : State} {e : Err}

theorem Compressing.step_eq (h : Compressing s) : step s = (compressStep s).finish := by
  rcases h.place with ⟨hbusy, hmode, -, hphase⟩ | ⟨hdone, hphase⟩
  · rw [step_of_busy hbusy h.queue]
    rcases hphase with hphase | hphase | hphase
    all_goals simp only [engineRes, compressStep, hmode, hphase]
  · rw [step_settled h.queue (by rw [hdone]; decide)]
    simp only [compressStep, hphase, finish_ok]

/-- What a step that completes keeps of the command and its image. -/
structure CompressKeeps (s t : State) : Prop where
  hdr : t.hdr = s.hdr
  pix : t.pix = s.pix
  mode : t.stat.mode = s.stat.mode

theorem CompressKeeps.trans {u : State} (h : CompressKeeps s t) (h' : CompressKeeps t u) : CompressKeeps s u :=
  ⟨h'.hdr.trans h.hdr, h'.pix.trans h.pix, h'.mode.trans h.mode⟩

theorem Pushes.compressKeeps (h : Pushes s t) : CompressKeeps s t := by
  refine ⟨?_, ?_, ?_⟩
  all_goals rw [h.frame]

theorem compressHeader_next (hbusy : s.stat.status = .busy) (hmode : s.stat.mode = .enc) (hflushed : s.sink.flushed = false)
    (hqueue : s.cmdq = []) (h : compressHeader s = .ok () t) : Compressing t ∧ CompressKeeps s t := by
  unfold compressHeader at h
  split at h
  · obtain ⟨_, w, hpush, hload⟩ := Res.bind_eq_ok h
    have hw : (writeHeader s).PushesOnly s := pushList_pushesOnly s _
    rw [hpush] at hw
    have hpushes : Pushes s w := hw.pushes
    obtain ⟨hstat, hcmdq⟩ : w.stat = s.stat ∧ w.cmdq = s.cmdq := by rw [hpushes.frame]; exact ⟨rfl, rfl⟩
    obtain ⟨hhdr, hpix, hmode'⟩ := hpushes.compressKeeps
    obtain ⟨m, hm, -⟩ := loadChannels_cases w
    rw [hm] at hload
    cases hload
    exact ⟨⟨hcmdq.trans hqueue, .inl ⟨(congrArg StatusRegs.status hstat).trans hbusy, hmode'.trans hmode,
      hpushes.flushed.trans hflushed, .inr (.inl rfl)⟩⟩, ⟨hhdr, hpix, hmode'⟩⟩
  · cases h

theorem encodeSample_next (hbusy : s.stat.status = .busy) (hmode : s.stat.mode = .enc) (hflushed : s.sink.flushed = false)
    (hqueue : s.cmdq = []) (hphase : s.seq.phase = .samples) (h : encodeSample s = .ok () t) :
    Compressing t ∧ CompressKeeps s t := by
  have hwithin := encodeSample_within s
  rw [h] at hwithin
  obtain ⟨u, hu, rfl⟩ := hwithin
  obtain ⟨hhdr, hpix, hstat, hcmdq, hseq⟩ : u.hdr = s.hdr ∧ u.pix = s.pix ∧ u.stat = s.stat ∧ u.cmdq = s.cmdq ∧
      u.seq = s.seq := by
    rw [hu.frame]; exact ⟨rfl, rfl, rfl, rfl, rfl⟩
  have hnext : (advance u).seq.phase = .samples ∨ (advance u).seq.phase = .flush := by
    rcases advance_phase u with hsame | ⟨-, hflush⟩ | ⟨hdec, -⟩
    · exact .inl (by rw [hsame, hseq, hphase])
    · exact .inr hflush
    · rw [hstat, hmode] at hdec; cases hdec
  exact ⟨⟨by rw [advance_cmdq, hcmdq, hqueue], .inl ⟨by rw [advance_stat, hstat, hbusy], by rw [advance_stat, hstat, hmode],
    by rw [advance_sink, hu.flushed, hflushed], .inr hnext⟩⟩,
    ⟨by rw [advance_hdr, hhdr], by rw [advance_pix, hpix], by rw [advance_stat, hstat]⟩⟩

/-- What FLUSH changes, and what it raises (40_bitio.md R92). -/
theorem flushSink_within (s : State) : (flushSink s).Within (fun t => CompressKeeps s t ∧ t.cmdq = s.cmdq) (Pushes s) := by
  cases hf : s.sink.flushed with
  | true => rw [flushSink_flushed hf]; exact ⟨rfl, rfl, List.prefix_refl _⟩
  | false =>
    by_cases hc : s.sink.cnt = 0
    · rw [flushSink_aligned hf hc]; exact ⟨⟨rfl, rfl, rfl⟩, rfl⟩
    · by_cases ho : s.outFail.head? = some true
      · rw [flushSink_partial_fails hf hc ho]; exact ⟨rfl, rfl, List.prefix_refl _⟩
      · rw [flushSink_partial_writes hf hc ho]; exact ⟨⟨rfl, rfl, rfl⟩, rfl⟩

theorem compressFlush_next (hqueue : s.cmdq = []) (h : compressFlush s = .ok () t) : Compressing t ∧ CompressKeeps s t := by
  obtain ⟨_, w, hflush, hdone⟩ := Res.bind_eq_ok h
  have hwithin := flushSink_within s
  rw [hflush] at hwithin
  obtain ⟨⟨hhdr, hpix, hmode⟩, hcmdq⟩ := hwithin
  cases hdone
  exact ⟨⟨hcmdq.trans hqueue, .inr ⟨rfl, rfl⟩⟩, ⟨hhdr, hpix, hmode⟩⟩

/-- A step that completes leaves a COMPRESS of the same image. -/
theorem Compressing.next (hs : Compressing s) (h : compressStep s = .ok () t) : Compressing t ∧ CompressKeeps s t := by
  rcases hs.place with ⟨hbusy, hmode, hflushed, hphase⟩ | ⟨-, hphase⟩
  · rcases hphase with hphase | hphase | hphase
    all_goals simp only [compressStep, hphase] at h
    · exact compressHeader_next hbusy hmode hflushed hs.queue h
    · exact encodeSample_next hbusy hmode hflushed hs.queue hphase h
    · exact compressFlush_next hs.queue h
  · simp only [compressStep, hphase] at h
    cases h
    exact ⟨hs, ⟨rfl, rfl, rfl⟩⟩

/-- A step that raises has only pushed, on a sink that is not flushed. -/
theorem Compressing.raised (hs : Compressing s) (h : compressStep s = .raise e t) :
    Pushes s t ∧ t.sink.flushed = false := by
  rcases hs.place with ⟨-, -, hflushed, hphase⟩ | ⟨-, hphase⟩
  · have hpushes : (compressStep s).Within (fun _ => True) (Pushes s) := by
      rcases hphase with hphase | hphase | hphase
      all_goals simp only [compressStep, hphase]
      · exact within_ite ((pushList_pushesOnly s _).bind (fun _ h => h) fun _ _ _ => trivial) (pushesClean_refl s).pushes
      · exact (encodeSample_within s).mono (fun _ _ => trivial) fun _ h => h
      · exact (flushSink_within s).bind (fun _ h => h) fun _ _ _ => trivial
    rw [h] at hpushes
    exact ⟨hpushes, hpushes.flushed.trans hflushed⟩
  · simp only [compressStep, hphase] at h
    cases h

theorem runSteps_fault (n : Nat) {x : Fault} (h : step s = .fault x) : runSteps (n + 1) s = .fault x := by
  have hcore : Sys2Proof.core.step s = .fault x := h
  show Host.Core.run Sys2Proof.core (n + 1) s = .fault x
  simp only [Host.Core.run, hcore]

theorem runSteps_refused (n : Nat) {x : Refusal} (h : step s = .refused x) : runSteps (n + 1) s = .refused x := by
  have hcore : Sys2Proof.core.step s = .refused x := h
  show Host.Core.run Sys2Proof.core (n + 1) s = .refused x
  simp only [Host.Core.run, hcore]

/-- The machine's run is that of the operation. -/
theorem Compressing.runSteps_eq {n : Nat} (hs : Compressing s) : runSteps n s = (compressSteps n s).finish := by
  induction n generalizing s with
  | zero => rfl
  | succ n ih =>
    have hstep := hs.step_eq
    rw [compressSteps]
    cases h : compressStep s with
    | ok a t =>
      rw [h] at hstep
      rw [runSteps_succ n hstep, Res.bind_ok]
      exact ih (hs.next h).1
    | raise e t =>
      rw [h] at hstep
      have hqueue : (raiseError e t).cmdq = [] := by
        rw [raiseError_cmdq, (hs.raised h).1.frame]
        exact hs.queue
      rw [runSteps_succ n hstep, runSteps_settled n hqueue (fun hbusy => by cases hbusy), Res.bind_raise, finish_raise]
    | fault x =>
      rw [h] at hstep
      rw [runSteps_fault n hstep, Res.bind_fault, finish_fault]
    | refuse x =>
      rw [h] at hstep
      rw [runSteps_refused n hstep, Res.bind_refuse, finish_refuse]

/-- What a run that raises has kept. -/
theorem Compressing.run_raised {n : Nat} (hs : Compressing s) (h : compressSteps n s = .raise e t) :
    CompressKeeps s t ∧ t.sink.flushed = false := by
  induction n generalizing s with
  | zero => cases h
  | succ n ih =>
    rw [compressSteps] at h
    cases hstep : compressStep s with
    | ok a u =>
      rw [hstep, Res.bind_ok] at h
      obtain ⟨hnext, hkeeps⟩ := hs.next hstep
      obtain ⟨hkeeps', hflushed⟩ := ih hnext h
      exact ⟨hkeeps.trans hkeeps', hflushed⟩
    | raise e' u =>
      rw [hstep, Res.bind_raise] at h
      cases h
      obtain ⟨hpushes, hflushed⟩ := hs.raised hstep
      exact ⟨hpushes.compressKeeps, hflushed⟩
    | fault x => rw [hstep] at h; cases h
    | refuse x => rw [hstep] at h; cases h

end

/-! ## The run beside itself with a writer that never fails -/

theorem mimics_compressHeader : Mimics compressHeader := by
  refine mimics_param (param := inputsValid) (f := fun valid s => if valid then (writeHeader s).bind fun _ s =>
    .ok () (enterSamples (loadChannels s)) else .raise .invalidInput s) (fun _ => rfl) fun valid =>
      mimics_ite ?_ (mimics_raise _)
  refine mimics_bind (mimics_param (param := fun s => headerBits s.hdr) (f := pushList) (fun _ => rfl) mimics_pushList)
    fun _ => mimics_silent (g := fun s => enterSamples (loadChannels s)) ⟨fun s => ?_, fun s => ?_, fun s => ?_⟩ ()
  · rw [loadChannels_quieted]
    rfl
  · obtain ⟨m, hm, -⟩ := loadChannels_cases s
    rw [hm]
    rfl
  · obtain ⟨m, hm, -⟩ := loadChannels_cases s
    rw [hm]
    rfl

theorem mimics_flushSink : Mimics flushSink := by
  intro s
  have hhead : (quieted s).outFail.head? ≠ some true := by simp [quieted]
  cases hf : s.sink.flushed with
  | true =>
    refine mimicsAt_of_raise (flushSink_flushed (s := quieted s) hf) ?_
    rw [flushSink_flushed hf]
    exact follows_refl (u := quieted s) rfl rfl
  | false =>
    by_cases hc : s.sink.cnt = 0
    · refine mimicsAt_of_ok (flushSink_aligned (s := quieted s) hf hc) ?_
      rw [flushSink_aligned hf hc]
      exact follows_refl rfl rfl
    · refine mimicsAt_of_ok (flushSink_partial_writes (s := quieted s) hf hc hhead) ?_
      refine follows_write rfl rfl (fun ho => ?_) fun ho => ?_
      · rw [flushSink_partial_writes hf hc ho]
        rfl
      · exact ⟨_, flushSink_partial_fails hf hc ho, rfl⟩

theorem mimics_compressStep : Mimics compressStep := by
  refine mimics_param (param := fun s => s.seq.phase) (f := fun phase s =>
    match phase with
    | .header => compressHeader s
    | .samples => encodeSample s
    | .flush => compressFlush s
    | _ => .ok () s) (fun _ => rfl) fun phase => ?_
  cases phase with
  | header => exact mimics_compressHeader
  | samples => exact mimics_encodeSample
  | flush =>
    exact mimics_bind mimics_flushSink fun _ =>
      mimics_silent (g := finishCommand) ⟨fun _ => rfl, fun _ => rfl, fun _ => rfl⟩ ()
  | idle => exact mimics_ok ()
  | finish => exact mimics_ok ()
  | done => exact mimics_ok ()
  | error => exact mimics_ok ()

theorem mimics_compressSteps (n : Nat) : Mimics (compressSteps n) := by
  induction n with
  | zero => exact mimics_ok ()
  | succ n ih => exact mimics_bind mimics_compressStep fun _ => ih

/-! ## The statement -/

section
variable {s t : State} {n : Nat}

theorem runCommand_compress_of_fits (h : imageTooLarge s = false) (n : Nat) :
    runCommand .compress n s = runSteps n (startCommand .enc s) := by
  rw [runCommand, exec_compress_of_fits h]

theorem compressing_startCommand (hqueue : s.cmdq = []) : Compressing (startCommand .enc s) :=
  ⟨hqueue, .inl ⟨rfl, rfl, rfl, .inl rfl⟩⟩

/-- A writer that fails within the header's 14 bytes stops the HEADER step, before the channel load (R206). -/
theorem compressSteps_header_raised {k : Nat} (hqueue : s.cmdq = []) (hvalid : inputsValid s = true)
    (hk : readsBeforeFailure s.outFail = some k) (hlt : k < 14) :
    ∃ t, compressSteps (n + 1) (startCommand .enc s) = .raise .ioError t ∧ Pushes (startCommand .enc s) t := by
  obtain ⟨e, hheader, hfirst⟩ := firstSample_of_valid (s := quieted s) hqueue hvalid (fun f hf => by cases hf)
  have hout : e.out = headerBytes s.hdr := by
    have hbits : sinkBits e = sinkBits (startCommand .enc s) ++ streamBits (headerBytes s.hdr) := by
      rw [hfirst.bits, streamBits_headerBytes]
      rfl
    exact (out_of_sinkBits (s := startCommand .enc s) rfl hbits).1
  have hfollows := (mimics_compressHeader (startCommand .enc s)).of_ok hheader
  have hlen : e.out.length = 14 := by rw [hout]; rfl
  obtain ⟨t, hraise, -⟩ := hfollows.cut k hk (by rw [hlen]; show 0 + k < 14; omega)
  have hstep : compressStep (startCommand .enc s) = .raise .ioError t := hraise
  exact ⟨t, by rw [compressSteps, hstep, Res.bind_raise], ((compressing_startCommand hqueue).raised hstep).1⟩

/-- The end of a run on any writer, beside the end of the run on one that never fails (R42, R209). -/
theorem compress_follows (hqueue : s.cmdq = [])
    (hrun : runSteps n (startCommand .enc (quieted s)) = .next t) (hdone : t.stat.status = .done) :
    Follows (startCommand .enc s) t (.ok ()) (compressSteps n (startCommand .enc s)) := by
  rw [(compressing_startCommand (s := quieted s) hqueue).runSteps_eq] at hrun
  rcases finish_eq_next hrun with hok | ⟨e, u, -, rfl⟩
  · exact (mimics_compressSteps n (startCommand .enc s)).of_ok hok
  · cases hdone

end

/-- Settles O54: the run step by step, the same on any writer, and the step of FLUSH by itself. -/
theorem compressRun : Obligations.CompressRun := by
  refine ⟨fun s hqueue hvalid hfits hquiet => ?quiet, fun s t hqueue hvalid hfits hrun => ?any,
    fun s hturn hmode hphase hflushed => ?flush⟩
  case quiet =>
    obtain ⟨f, t, hreach, hrun, hend⟩ := compress_runs hqueue hvalid hquiet
    refine ⟨⟨t, by rw [runCommand_compress_of_fits hfits, hrun], hend⟩, fun m hm => ?_⟩
    rw [runCommand_compress_of_fits hfits]
    exact hreach.busy m (by omega)
  case any =>
    change runCommand .compress _ (quieted s) = _ at hrun
    rw [runCommand_compress_of_fits (s := quieted s) hfits] at hrun
    obtain ⟨-, t', -, hrun', hstat, -⟩ := compress_runs (s := quieted s) hqueue hvalid fun f hf => by cases hf
    obtain rfl : t' = t := Host.Outcome.next.inj (hrun'.symm.trans hrun)
    have hfollows := compress_follows hqueue hrun (by rw [hstat])
    have hcompressing := compressing_startCommand hqueue
    rw [runCommand_compress_of_fits hfits, hcompressing.runSteps_eq]
    refine ⟨fun hall => ?same, fun k hk hlt => ?cut⟩
    case same =>
      rw [hfollows.same fun k hk => (hall k hk).trans (Nat.le_add_left _ _), finish_ok]
      rfl
    case cut =>
      obtain ⟨w, hraise, hout⟩ := hfollows.cut k hk (by show 0 + k < _; omega)
      obtain ⟨⟨hhdr, hpix, hmode⟩, hflushed⟩ := hcompressing.run_raised hraise
      rw [hraise]
      refine ⟨_, rfl, ?_, rfl, ?_, hhdr, hpix, hflushed, fun hk14 => ?_⟩
      · show StatusRegs.mk .error 7 0 w.stat.mode = _
        rw [hmode]
        rfl
      · rw [raiseError_out, hout]
        show t'.out.take (0 + k) = _
        rw [Nat.zero_add]
      · obtain ⟨v, hraise', hpushes⟩ := compressSteps_header_raised hqueue hvalid hk hk14
        rw [hraise'] at hraise
        cases hraise
        rw [hpushes.frame]
        exact ⟨rfl, rfl⟩
  case flush =>
    have hstep : step s = (compressFlush s).finish := by
      rw [step_of_turn hturn, engineStep]
      simp only [engineRes, hmode, hphase]
    refine ⟨fun hok => ?_, fun hc ho => ?_⟩
    · by_cases hc : s.sink.cnt = 0
      · refine ⟨_, (exec_flush s).trans (congrArg Res.finish (flushSink_aligned hflushed hc)), rfl, ?_⟩
        rw [hstep, compressFlush, flushSink_aligned hflushed hc, Res.bind_ok, finish_ok]
      · have ho := hok.resolve_left hc
        refine ⟨_, (exec_flush s).trans (congrArg Res.finish (flushSink_partial_writes hflushed hc ho)), rfl, ?_⟩
        rw [hstep, compressFlush, flushSink_partial_writes hflushed hc ho, Res.bind_ok, finish_ok]
    · rw [hstep, compressFlush, flushSink_partial_fails hflushed hc ho, Res.bind_raise, finish_raise]

end Sys2Proof.Machine
end
